-- ==== Sys2Proof/Word.lean ====
section
/-! DEFINITION. The word types of ICT-CORE and the byte codes of the characters its artifacts are made of.
Registers are 32-bit words (10_state.md R20); one symbol is one byte, ordered as an unsigned number (00_scope.md R6). -/

namespace Sys2Proof

/-- A host-visible register's contents (10_state.md R20). -/
abbrev Word := BitVec 32

/-- One symbol, one buffer cell (00_scope.md R6). -/
abbrev Byte := BitVec 8

/-- A byte string (00_scope.md R8). -/
abbrev Bytes := List Byte

/-- `LF`, the line terminator 0x0A (00_scope.md R5). -/
abbrev LF : Byte := 0x0A#8

/-- The character `'-'`, 0x2D, of the delimiter line (30_encoding.md R76). -/
abbrev chDash : Byte := 0x2D#8

/-- The character `'0'`, 0x30: the bit 0 and the digit 0 (00_scope.md R8). -/
abbrev ch0 : Byte := 0x30#8

/-- The character `'1'`, 0x31: the bit 1 (00_scope.md R8). -/
abbrev ch1 : Byte := 0x31#8

/-- The symbol values 0 .. 255 in ascending order: the range of `for c in 0 .. 255` (00_scope.md R6, R9). -/
def allBytes : Bytes := (List.range 256).map (BitVec.ofNat 8)

end Sys2Proof
end

