-- ==== Sys2Proof/Syntax.lean ====
section
/-! DEFINITION. The eight commands of ICT-CORE, one constructor per row of spec/opcode_table.json (30_encoding.md R72).
A command has no register field, no immediate and no addressing mode (R71), so no constructor has an operand. -/

namespace Sys2Proof

/-- A command: the hardware form of one software call (00_scope.md R2). -/
inductive Instr where
  /-- `HUF.ENC` 0x00000008, Huffman encode (41_huffman.md R126). -/
  | hufEnc
  /-- `HUF.DEC` 0x00000009, Huffman decode (41_huffman.md R130). -/
  | hufDec
  /-- `ARI.ENC` 0x0000000A, arithmetic encode (42_arithmetic.md R158). -/
  | ariEnc
  /-- `ARI.DEC` 0x0000000B, arithmetic decode (42_arithmetic.md R164). -/
  | ariDec
  /-- `BWT.ENC` 0x0000000C, blockwise transform and move-to-front encode (43_bwt.md R198). -/
  | bwtEnc
  /-- `BWT.DEC` 0x0000000D, move-to-front decode and inverse transform (43_bwt.md R206). -/
  | bwtDec
  /-- `HAM.ENC` 0x0000000E, Hamming (7,4) encode (44_hamming.md R233). -/
  | hamEnc
  /-- `HAM.DEC` 0x0000000F, Hamming (7,4) decode with correction (44_hamming.md R237). -/
  | hamDec
  deriving DecidableEq, Repr

end Sys2Proof
end

