-- ==== Sys2Proof/WellFormed.lean ====
section
/-! DEFINITION. What a legal command is. A command carries no operand (30_encoding.md R71), so every `Instr` is
well formed; the checks there are stand on the command WORD: its reserved bits and its `CODEC` bit (R71, R73). -/

namespace Sys2Proof

/-- A command is well formed: no constructor has an operand that could be out of range (30_encoding.md R71). -/
def Instr.wf (i : Instr) : Bool :=
  match i with
  | .hufEnc => true
  | .hufDec => true
  | .ariEnc => true
  | .ariDec => true
  | .bwtEnc => true
  | .bwtDec => true
  | .hamEnc => true
  | .hamDec => true

/-- `RSV` = `w[31:4]` is 0 (30_encoding.md R71). -/
def reservedClear (w : Word) : Bool := w.extractLsb 31 4 == 0#28

/-- `CODEC` = `w[3]` is 1 (30_encoding.md R71). -/
def codecSet (w : Word) : Bool := w.extractLsb 3 3 == 1#1

/-- "`w` is a command iff `w[31:4]` = 0 and `w[3]` = 1" (30_encoding.md R72). -/
def legalWord (w : Word) : Bool := reservedClear w && codecSet w

end Sys2Proof
end

