-- ==== Sys2Proof/Decode.lean ====
section
/-! DEFINITION. The decoder and the encoder of the command word, format `C` (30_encoding.md R70 to R73). A command is
one 32-bit word written to `CMD`: there is no fetch and no byte order (20_memory.md R53). -/

namespace Sys2Proof

/-- Why a word is no command (30_encoding.md R73). The machine reports either as `ILLEGAL(ILLEGAL_CMD)`. -/
inductive DecodeError where
  /-- `w[31:4]` is not 0. -/
  | reservedBits
  /-- `w[31:4]` is 0 and `w[3]` is not 1: the words 0 to 7. -/
  | codecBit
  deriving DecidableEq, Repr

/-- `ENG` = `w[2:1]` (30_encoding.md R71): 0 HUF, 1 ARI, 2 BWT, 3 HAM. -/
def engField (w : Word) : BitVec 2 := w.extractLsb 2 1

/-- `DIR` = `w[0]` (30_encoding.md R71): 0 encode, 1 decode. -/
def dirField (w : Word) : BitVec 1 := w.extractLsb 0 0

/-- The command a legal word's `ENG` and `DIR` name (40_command_dispatch.md R105). -/
def instrOf (eng : BitVec 2) (dir : BitVec 1) : Instr :=
  match eng.toNat, dir.toNat with
  | 0, 0 => .hufEnc
  | 0, _ => .hufDec
  | 1, 0 => .ariEnc
  | 1, _ => .ariDec
  | 2, 0 => .bwtEnc
  | 2, _ => .bwtDec
  | _, 0 => .hamEnc
  | _, _ => .hamDec

/-- The decoder, total on every word, with its refusals by name (30_encoding.md R72, R73). -/
def decode (w : Word) : Except DecodeError Instr :=
  if reservedClear w then
    if codecSet w then .ok (instrOf (engField w) (dirField w)) else .error .codecBit
  else .error .reservedBits

/-- `ENG` of a command (30_encoding.md R71). -/
def engOf (i : Instr) : BitVec 2 :=
  match i with
  | .hufEnc => 0#2
  | .hufDec => 0#2
  | .ariEnc => 1#2
  | .ariDec => 1#2
  | .bwtEnc => 2#2
  | .bwtDec => 2#2
  | .hamEnc => 3#2
  | .hamDec => 3#2

/-- `DIR` of a command (30_encoding.md R71). -/
def dirOf (i : Instr) : BitVec 1 :=
  match i with
  | .hufEnc => 0#1
  | .hufDec => 1#1
  | .ariEnc => 0#1
  | .ariDec => 1#1
  | .bwtEnc => 0#1
  | .bwtDec => 1#1
  | .hamEnc => 0#1
  | .hamDec => 1#1

/-- The encoder: `RSV` = 0, `CODEC` = 1, `ENG`, `DIR` from the high end to the low (30_encoding.md R71). -/
def encode (i : Instr) : Word := 0#28 ++ (1#1 ++ (engOf i ++ dirOf i))

/-- The command the decoder reads from the low `nbits` bits of `w`, every bit above them 0. -/
def decodeTableWord (nbits w : Nat) : Option Instr :=
  match decode (BitVec.ofNat 32 (w % 2 ^ nbits)) with
  | .ok i => some i
  | .error _ => none

end Sys2Proof
end

