-- ==== Sys2Proof/Config.lean ====
section
/-! DEFINITION. What one ICT-CORE implementation fixes (00_scope.md R5) and the values the spec leaves open.
An `opaque` constant has no body: no proof can learn its value, so what is proved holds for every value. -/

namespace Sys2Proof.Config

/-- `BLOCK`, the BWT block size in symbols (00_scope.md R5). -/
abbrev BLOCK : Nat := 1000

/-- `PREC`, the decimal digits of the arithmetic interval (00_scope.md R5). -/
abbrev PREC : Nat := 18

/-- `TOP` = 10^18 − 1, the initial high bound (00_scope.md R5). -/
abbrev TOP : Nat := 999999999999999999

/-- `D17` = 10^17, the divisor that isolates the leading digit (00_scope.md R5). -/
abbrev D17 : Nat := 100000000000000000

/-- `BCD_W`, the bits per emitted decimal digit (00_scope.md R5). -/
abbrev BCD_W : Nat := 4

/-- `FRAME`, the bits per Hamming frame (00_scope.md R5). -/
abbrev FRAME : Nat := 7

/-- `UNIT`, the frame bits per source byte (00_scope.md R5). -/
abbrev UNIT : Nat := 14

/-- `NUM_MAX` = 2^32 − 1, the largest numeral a decode command accepts (00_scope.md R5). -/
abbrev NUM_MAX : Nat := 4294967295

/-- `TBL_MAX`, the most entries in a parsed code table, cumulative table or alphabet (00_scope.md R5). -/
abbrev TBL_MAX : Nat := 256

/-- `NODE_MAX`, the most nodes in the Huffman arena (00_scope.md R5). -/
abbrev NODE_MAX : Nat := 511

/-- `CODE_MAX`, the longest Huffman code in bits (00_scope.md R5). -/
abbrev CODE_MAX : Nat := 255

/-- The two capacities that R5 marks OPEN, which "a model takes as arguments": 0 ≤ `SRC_CAP` ≤ 2^32 − 2 and
0 ≤ `DST_CAP` ≤ 2^32 − 1. A state carries them, so that a statement about every state is about every pair. -/
structure Caps where
  /-- `SRC_CAP`, the number of bytes the SRC buffer holds (00_scope.md R5, 20_memory.md R50). -/
  srcCap : Fin 4294967295
  /-- `DST_CAP`, the number of bytes the DST buffer holds (00_scope.md R5, 20_memory.md R51). -/
  dstCap : Fin 4294967296
  deriving DecidableEq, Repr

/-- `SRC_CAP` of the machine as delivered: left OPEN by R5. DESIGN CHOICE (log 1): a constant without a value; safe. -/
opaque srcCap : Fin 4294967295

/-- `DST_CAP` of the machine as delivered: left OPEN by R5. DESIGN CHOICE (log 1): a constant without a value; safe. -/
opaque dstCap : Fin 4294967296

/-- The byte at each SRC address before anything writes it: "treat each cell as an arbitrary byte" (10_state.md R41).
A free value (log 2); safe. -/
opaque srcPowerUp (a : Nat) : Byte

/-- The byte at each DST address before anything writes it: "unspecified, likewise" (10_state.md R41).
A free value (log 2); safe. -/
opaque dstPowerUp (a : Nat) : Byte

/-- The word the n-th host read of DST or `DST_LEN` while BUSY returns: "any value"
(93_implementation_defined.md U2). A free value (log 3); safe. -/
opaque busyRead (n : Nat) : Word

end Sys2Proof.Config
end

