-- ==== Sys2Proof/Machine/State.lean ====
section
/-! DEFINITION. The state of ICT-CORE (10_state.md), the machine right after reset, and the reasons a step can stop.
Every register, buffer and working register the spec names is a field; the fields that are the model's own (the
environment's answers, the host's coming accesses, the reply port) are marked so. -/

namespace Sys2Proof.Machine

open Sys2Proof

/-- `STATUS.STATE` (10_state.md R22). -/
inductive RunState where
  /-- 0: no command since reset. -/
  | idle
  /-- 1: a command is running. -/
  | busy
  /-- 2: the last command completed. -/
  | doneOk
  /-- 3: the last command faulted. -/
  | doneErr
  deriving DecidableEq, Repr

/-- `STATUS.KIND` (60_exceptions.md R251); the values 5..15 never occur. -/
inductive Kind where
  /-- 0: the last command completed, or none has run. -/
  | none
  /-- 1: malformed artifact. -/
  | format
  /-- 2: stream I/O failure. -/
  | io
  /-- 3: the word is not one of the eight commands. -/
  | illegal
  /-- 4: the arithmetic coder's interval collapsed. -/
  | precision
  deriving DecidableEq, Repr

/-- The 25 (kind, cause) pairs a command can raise (60_exceptions.md R252). -/
inductive Cause where
  /-- FORMAT 0x10, raised by R127. -/
  | hufNoDelim
  /-- FORMAT 0x11, raised by R127. -/
  | hufBadEntry
  /-- FORMAT 0x12, raised by R127. -/
  | hufTableFull
  /-- FORMAT 0x13, raised by R129. -/
  | hufBadBit
  /-- FORMAT 0x14, raised by R129. -/
  | hufNoMatch
  /-- FORMAT 0x20, raised by R159. -/
  | ariNoDelim
  /-- FORMAT 0x21, raised by R159. -/
  | ariBadEntry
  /-- FORMAT 0x22, raised by R159. -/
  | ariTableFull
  /-- FORMAT 0x23, raised by R159. -/
  | ariNotAscending
  /-- FORMAT 0x24, raised by R160. -/
  | ariBadTotal
  /-- FORMAT 0x25, raised by R161. -/
  | ariBadStream
  /-- FORMAT 0x26, raised by R161 and R163. -/
  | ariStreamShort
  /-- FORMAT 0x27, raised by R163. -/
  | ariIndexRange
  /-- FORMAT 0x30, raised by R199. -/
  | bwtBadAlphabet
  /-- FORMAT 0x31, raised by R200 and R206. -/
  | bwtBadKey
  /-- FORMAT 0x32, raised by R201. -/
  | bwtBadBits
  /-- FORMAT 0x33, raised by R201. -/
  | bwtBadIndex
  /-- FORMAT 0x40, raised by R237. -/
  | hamBadLength
  /-- FORMAT 0x41, raised by R237. -/
  | hamBadBit
  /-- IO 0x01, raised by R103. -/
  | srcRange
  /-- IO 0x02, raised by R54. -/
  | srcRead
  /-- IO 0x03, raised by R56. -/
  | dstFull
  /-- IO 0x04, raised by R55. -/
  | dstWrite
  /-- ILLEGAL 0x01, raised by R103. -/
  | illegalCmd
  /-- PRECISION 0x01, raised by R153. -/
  | ariCollapse
  deriving DecidableEq, Repr

/-- `STATUS` by its fields (10_state.md R22). The reserved bits 3:2 and 31:16 read 0 and hold nothing
(log 14). -/
structure Status where
  /-- `STATE`, bits 1:0. -/
  state : RunState
  /-- `KIND`, bits 7:4. -/
  kind : Kind
  /-- `CAUSE`, bits 15:8. -/
  cause : BitVec 8
  deriving DecidableEq, Repr

/-- A buffer memory: the cells something has written since power-up, in strictly rising order of address. A cell that
is not listed still holds its power-up byte, which is a free value (10_state.md R41; log 2). -/
abbrev Memory := List Host.Cell

/-- The canonical form: addresses strictly rise. -/
abbrev Memory.wf (m : Memory) : Prop := m.Pairwise (fun x y => x.1 < y.1)

/-- One cell of `NODE` (10_state.md R30); an index is absent (`NONE`) or a place in the arena. -/
structure Node where
  /-- 1 bit: the node is a leaf. -/
  leaf : Bool
  /-- The symbol, read of a leaf only (41_huffman.md R123). -/
  sym : Byte
  /-- The combined weight. -/
  w : Nat
  /-- The left child. -/
  l : Option Nat
  /-- The right child. -/
  r : Option Nat
  deriving DecidableEq, Repr

/-- The working state of engine HUF (10_state.md R30). `NN` is the length of `node`. -/
structure HufWork where
  /-- `FREQ`: the count of each symbol. -/
  freq : Vector Nat 256
  /-- `NODE`, the arena; its length is `NN`. -/
  node : List Node
  /-- `ROOT`: index or NONE. -/
  root : Option Nat
  /-- `CODE`: each symbol's code, empty where it has none. -/
  code : Vector Bytes 256
  /-- `DTBL`, the parsed code table in artifact order. -/
  dtbl : List (Byte × Bytes)
  /-- `ACC`, the candidate code string. -/
  acc : Bytes
  deriving DecidableEq, Repr

/-- One entry of `CUM` (10_state.md R31). -/
structure CumEntry where
  /-- The symbol. -/
  sym : Byte
  /-- The low bound, inclusive. -/
  lo : Nat
  /-- The high bound, exclusive. -/
  hi : Nat
  deriving DecidableEq, Repr

/-- The working state of engine ARI (10_state.md R31). `NC` is the length of `cum`. -/
structure AriWork where
  /-- `FREQ`, engine ARI's own copy. -/
  freq : Vector Nat 256
  /-- `T`, the total; the number of symbols to decode. -/
  t : Nat
  /-- `CUM` in table order; its length is `NC`. -/
  cum : List CumEntry
  /-- `LOW`, inclusive. -/
  low : Nat
  /-- `HIGH`, inclusive. -/
  high : Nat
  /-- `V`, the current 18-digit frame. -/
  v : Nat
  /-- `DIG`, the decoded digits. -/
  dig : List Nat
  /-- `DP`, the next digit to shift in. -/
  dp : Nat
  deriving DecidableEq, Repr

/-- The working state of engine BWT (10_state.md R32). `NA` is the length of `alpha`. -/
structure BwtWork where
  /-- `BLK`, the current block. -/
  blk : Bytes
  /-- `N`, the block's or the row's length. -/
  n : Nat
  /-- `ROT`, the rotations' offsets in sorted order. -/
  rot : List Nat
  /-- `KEY`, the key index. -/
  key : Nat
  /-- `ROW`, the transformed row. -/
  row : Bytes
  /-- `ALPHA`, the alphabet; its length is `NA`. -/
  alpha : Bytes
  /-- `W`, the MTF code width. -/
  w : Nat
  /-- `MTF`, the move-to-front list. -/
  mtf : Bytes
  /-- `CARR`, for each symbol the number of strictly smaller symbols in the row. -/
  carr : Vector Nat 256
  /-- `OCC`, occurrences seen so far. -/
  occ : Vector Nat 256
  /-- `NEXT`, the next-pointer array. -/
  next : List Nat
  deriving DecidableEq, Repr

/-- The working state of engine HAM (10_state.md R33). -/
structure HamWork where
  /-- `FR`, one frame: position 1, the first, is the most significant bit. -/
  fr : BitVec 7
  /-- `SYN`, the correction index. -/
  syn : BitVec 3
  /-- `NIB`, one nibble; `b1` is the most significant bit. -/
  nib : BitVec 4
  deriving DecidableEq, Repr

/-- All working state (10_state.md R29 to R33). -/
structure Work where
  /-- `SC`, the source cursor (10_state.md R29). -/
  sc : Nat
  /-- Engine HUF's. -/
  huf : HufWork
  /-- Engine ARI's. -/
  ari : AriWork
  /-- Engine BWT's. -/
  bwt : BwtWork
  /-- Engine HAM's. -/
  ham : HamWork
  deriving DecidableEq, Repr

/-- Working state is clear: "every count 0, every list empty, every bit-string empty, every index NONE,
`LOW` = `HIGH` = `V` = 0" (10_state.md R35); 0 for the registers R35 does not name (DEDUCED, log 17). -/
def Work.clear : Work where
  sc := 0
  huf :=
    { freq := Vector.replicate 256 0, node := [], root := none, code := Vector.replicate 256 [], dtbl := [], acc := [] }
  ari := { freq := Vector.replicate 256 0, t := 0, cum := [], low := 0, high := 0, v := 0, dig := [], dp := 0 }
  bwt :=
    { blk := [], n := 0, rot := [], key := 0, row := [], alpha := [], w := 0, mtf := [],
      carr := Vector.replicate 256 0, occ := Vector.replicate 256 0, next := [] }
  ham := { fr := 0#7, syn := 0#3, nib := 0#4 }

/-- What the environment can answer to one buffer access of the core instead of letting it succeed (20_memory.md R57).
The model's own type. -/
inductive Upset where
  /-- The port gives an error response: `src_err` for a SRC read, `dst_err` for a DST write. -/
  | err
  /-- The reset input is asserted before the access takes effect (70_reset_and_hazards.md R280; log 6). -/
  | reset
  deriving DecidableEq, Repr

/-- The environment's answers to the coming accesses of one port, "a free input per access" (20_memory.md R57). An entry
(n, u) says that n accesses succeed and the one after them meets u; past the last entry every access succeeds. So `[]`
is the launch premise that no access gets an error response. The model's own type. -/
abbrev Answers := List (Nat × Upset)

/-- What can reach the block from outside between two commands: the host's accesses (40_command_dispatch.md R100) and
the reset input (70_reset_and_hazards.md R280). The model's own type. -/
inductive HostOp where
  /-- Write of the byte `v` at SRC address `a` (20_memory.md R50). -/
  | writeSrc (a : Nat) (v : Byte)
  /-- Read of the byte at DST address `a` (20_memory.md R51). -/
  | readDst (a : Nat)
  /-- Write of a whole word at a byte offset of the register block (10_state.md R20). -/
  | writeReg (off : Nat) (w : Word)
  /-- Read of a whole word at a byte offset of the register block (10_state.md R20). -/
  | readReg (off : Nat)
  /-- A register access narrower than a word (93_implementation_defined.md U12). -/
  | narrowReg (off : Nat)
  /-- The reset input is asserted while no command runs (70_reset_and_hazards.md R280). -/
  | reset
  deriving DecidableEq, Repr

/-- What a host read returns (10_state.md R20, 20_memory.md R51). The model's own type. -/
inductive Reply where
  /-- A register's word. -/
  | word (w : Word)
  /-- A DST cell's byte. -/
  | byte (b : Byte)
  deriving DecidableEq, Repr

/-- The state of ICT-CORE. The working state is clear in every state between commands (10_state.md R35). -/
structure State where
  /-- `CMD`, offset 0x00 (10_state.md R21). -/
  cmd : Word
  /-- `STATUS`, offset 0x04 (10_state.md R22). -/
  status : Status
  /-- `SRC_LEN`, offset 0x08 (10_state.md R23). -/
  srcLen : Word
  /-- `DST_LEN`, offset 0x0C, the destination cursor (10_state.md R24). -/
  dstLen : Word
  /-- The SRC buffer (20_memory.md R50). -/
  src : Memory
  /-- The DST buffer (20_memory.md R51). -/
  dst : Memory
  /-- The working state (10_state.md R29 to R33). -/
  work : Work
  /-- `SRC_CAP` and `DST_CAP`, the OPEN parameters (00_scope.md R5); no step changes them. -/
  caps : Config.Caps
  /-- The model's own: the environment's answers to the core's coming SRC reads (20_memory.md R57). -/
  srcAnswers : Answers
  /-- The model's own: the environment's answers to the core's coming DST writes (20_memory.md R57). -/
  dstAnswers : Answers
  /-- The model's own: what will reach the block from outside, the next first. -/
  host : List HostOp
  /-- The model's own: what the last host access read, where it was a read. -/
  reply : Option Reply
  /-- The model's own: how many free words host reads have taken (log 3). -/
  freeCount : Nat
  deriving DecidableEq, Repr

/-- `STATUS` = 0x00000000: IDLE, no kind, no cause (10_state.md R41). -/
def Status.reset : Status := { state := .idle, kind := .none, cause := 0#8 }

/-- The state right after power-up and reset (10_state.md R41, 70_reset_and_hazards.md R280): the registers 0, the
working state clear, nothing written to either buffer. The model's own fields are empty (logs 1, 3, 4, 5). -/
def State.reset : State where
  cmd := 0#32
  status := Status.reset
  srcLen := 0#32
  dstLen := 0#32
  src := []
  dst := []
  work := Work.clear
  caps := { srcCap := Config.srcCap, dstCap := Config.dstCap }
  srcAnswers := []
  dstAnswers := []
  host := []
  reply := none
  freeCount := 0

/-- Why a command ends before its last statement: the model's own type. -/
inductive Stop where
  /-- `raise KIND(CAUSE)` (60_exceptions.md R250). -/
  | fault (c : Cause)
  /-- The reset input was asserted: the command "neither finishes nor faults" (70_reset_and_hazards.md R280). -/
  | reset
  deriving DecidableEq, Repr

/-- Why a step stops in a fault: a host access to a buffer address the spec says does not exist. A fault of a command
(60_exceptions.md R250) is none of these: the machine takes it and goes on. -/
inductive Fault where
  /-- A host write at a SRC address at or above `SRC_CAP` (20_memory.md R50), raised by the host port's SRC write.
  DESIGN CHOICE (log 12), safe: the model stops. -/
  | noSuchSrcCell (a : Nat)
  /-- A host read at a DST address at or above `DST_CAP` (20_memory.md R51), raised by the host port's DST read.
  DESIGN CHOICE (log 12), safe: the model stops. -/
  | noSuchDstCell (a : Nat)
  deriving DecidableEq, Repr

/-- Why a step is refused. -/
inductive Refusal where
  /-- The instruction has no meaning yet. Raised by no arm: all eight commands are modelled. Safe. -/
  | notModelled (mnemonic : String)
  /-- A host write to `CMD`, `SRC_LEN` or SRC while BUSY, which the spec leaves unspecified and tells a model to refuse
  (70_reset_and_hazards.md R287, 93_implementation_defined.md U1). Raised by the host port. Safe: the model stops (log 7). -/
  | hostWriteWhileBusy
  /-- A register access narrower than a word: "Sub-word access: refuse" (93_implementation_defined.md U12). Raised by
  the host port. Safe: the model stops (log 11). -/
  | narrowRegisterAccess
  deriving DecidableEq, Repr

end Sys2Proof.Machine
end

