-- ==== Sys2Proof/Machine/Flags.lean ====
section
/-! DEFINITION. The status flags: the codes of `STATE`, `KIND` and `CAUSE`, the `STATUS` word a host reads, and what
command start, finish and fault entry write there. ICT-CORE has no other flags (10_state.md R28). -/

namespace Sys2Proof.Machine

open Sys2Proof

/-- `STATUS.STATE`'s code (10_state.md R22). -/
def RunState.code (r : RunState) : BitVec 2 :=
  match r with
  | .idle => 0#2
  | .busy => 1#2
  | .doneOk => 2#2
  | .doneErr => 3#2

/-- `STATUS.KIND`'s code (60_exceptions.md R251). -/
def Kind.code (k : Kind) : BitVec 4 :=
  match k with
  | .none => 0#4
  | .format => 1#4
  | .io => 2#4
  | .illegal => 3#4
  | .precision => 4#4

/-- The kind of a cause: the column `KIND` of the table of 60_exceptions.md R252. -/
def Cause.kind (c : Cause) : Kind :=
  match c with
  | .hufNoDelim => .format
  | .hufBadEntry => .format
  | .hufTableFull => .format
  | .hufBadBit => .format
  | .hufNoMatch => .format
  | .ariNoDelim => .format
  | .ariBadEntry => .format
  | .ariTableFull => .format
  | .ariNotAscending => .format
  | .ariBadTotal => .format
  | .ariBadStream => .format
  | .ariStreamShort => .format
  | .ariIndexRange => .format
  | .bwtBadAlphabet => .format
  | .bwtBadKey => .format
  | .bwtBadBits => .format
  | .bwtBadIndex => .format
  | .hamBadLength => .format
  | .hamBadBit => .format
  | .srcRange => .io
  | .srcRead => .io
  | .dstFull => .io
  | .dstWrite => .io
  | .illegalCmd => .illegal
  | .ariCollapse => .precision

/-- The number of a cause: the column `CAUSE` of the table of 60_exceptions.md R252. -/
def Cause.code (c : Cause) : BitVec 8 :=
  match c with
  | .hufNoDelim => 0x10#8
  | .hufBadEntry => 0x11#8
  | .hufTableFull => 0x12#8
  | .hufBadBit => 0x13#8
  | .hufNoMatch => 0x14#8
  | .ariNoDelim => 0x20#8
  | .ariBadEntry => 0x21#8
  | .ariTableFull => 0x22#8
  | .ariNotAscending => 0x23#8
  | .ariBadTotal => 0x24#8
  | .ariBadStream => 0x25#8
  | .ariStreamShort => 0x26#8
  | .ariIndexRange => 0x27#8
  | .bwtBadAlphabet => 0x30#8
  | .bwtBadKey => 0x31#8
  | .bwtBadBits => 0x32#8
  | .bwtBadIndex => 0x33#8
  | .hamBadLength => 0x40#8
  | .hamBadBit => 0x41#8
  | .srcRange => 0x01#8
  | .srcRead => 0x02#8
  | .dstFull => 0x03#8
  | .dstWrite => 0x04#8
  | .illegalCmd => 0x01#8
  | .ariCollapse => 0x01#8

/-- The word a host reads from `STATUS`: `CAUSE` in 15:8, `KIND` in 7:4, `STATE` in 1:0, the reserved bits 0
(10_state.md R22). -/
def Status.word (st : Status) : Word := 0#16 ++ (st.cause ++ (st.kind.code ++ (0#2 ++ st.state.code)))

/-- Command start writes `STATE` BUSY, `KIND` 0, `CAUSE` 0 (40_command_dispatch.md R102). -/
def Status.started (_ : Status) : Status := { state := .busy, kind := .none, cause := 0#8 }

/-- Command finish writes `STATE` DONE_OK; "KIND and CAUSE stay 0" (40_command_dispatch.md R104). -/
def Status.finished (st : Status) : Status := { st with state := .doneOk }

/-- Fault entry writes `KIND`, `CAUSE` and `STATE` DONE_ERR (60_exceptions.md R256). -/
def Status.faulted (c : Cause) (st : Status) : Status :=
  { st with state := .doneErr, kind := c.kind, cause := c.code }

end Sys2Proof.Machine
end

