-- ==== Sys2Proof/Machine/Ops.lean ====
section
/-! DEFINITION. The named operations over the buffers and the registers: the access primitives `SrcByte`, `Emit` and
`EmitStr` (20_memory.md R54 to R56), command start, start checks, finish and FAULT ENTRY (40_command_dispatch.md R101 to
R104, 60_exceptions.md R256). There is no return from a fault (60_exceptions.md R259): the next command's start leaves
DONE_ERR, so command start is also the way out. -/

namespace Sys2Proof.Machine

open Sys2Proof

/-- A statement of a command's pseudocode: it goes on with a value or stops, and either way leaves a state. -/
abbrev Cmd (α : Type) := EStateM Stop State α

/-- `raise KIND(CAUSE)` (00_scope.md R9); its effect on the state is `faultEntry`. -/
def raise {α : Type} (c : Cause) : Cmd α := fun s => .error (.fault c) s

/-! ### Buffers -/

/-- The byte written last at an address, if any has been. -/
def Memory.read (m : Memory) (a : Nat) : Option Byte :=
  match m with
  | [] => none
  | (b, v) :: rest => if a = b then some v else Memory.read rest a

/-- The memory with the byte `v` at address `a`; the canonical form is kept. -/
def Memory.write (m : Memory) (a : Nat) (v : Byte) : Memory :=
  match m with
  | [] => [(a, v)]
  | (b, w) :: rest =>
    if a < b then (a, v) :: (b, w) :: rest
    else if a = b then (a, v) :: rest
    else (b, w) :: Memory.write rest a v

/-- SRC[a]: the byte written last, or the cell's power-up byte (20_memory.md R50, 10_state.md R41). -/
def srcCell (s : State) (a : Nat) : Byte := (Memory.read s.src a).getD (Config.srcPowerUp a)

/-- DST[a]: the byte written last, or the cell's power-up byte (20_memory.md R51, 10_state.md R41). -/
def dstCell (s : State) (a : Nat) : Byte := (Memory.read s.dst a).getD (Config.dstPowerUp a)

/-- What the coming access of a port meets, if it does not succeed, and the answers after it (20_memory.md R57). -/
def nextAnswer (q : Answers) : Option Upset × Answers :=
  match q with
  | [] => (none, [])
  | (0, u) :: rest => (some u, rest)
  | (n + 1, u) :: rest => (none, (n, u) :: rest)

/-- `SrcByte(i)` = `MemRead(SRC:i, 1)`: the byte, or `IO(SRC_READ)` where the port answers with an error
(20_memory.md R54, R57). -/
def srcByte (i : Nat) : Cmd Byte := fun s =>
  match nextAnswer s.srcAnswers with
  | (none, q) => .ok (srcCell s i) { s with srcAnswers := q }
  | (some .err, q) => .error (.fault .srcRead) { s with srcAnswers := q }
  | (some .reset, q) => .error .reset { s with srcAnswers := q }

/-- `MemWrite(DST:a, 1, v)`: the write, or `IO(DST_WRITE)` with the cell unchanged where the port answers with an error
(20_memory.md R55, R57). -/
def dstByte (a : Nat) (v : Byte) : Cmd Unit := fun s =>
  match nextAnswer s.dstAnswers with
  | (none, q) => .ok () { s with dst := Memory.write s.dst a v, dstAnswers := q }
  | (some .err, q) => .error (.fault .dstWrite) { s with dstAnswers := q }
  | (some .reset, q) => .error .reset { s with dstAnswers := q }

/-- `DST_LEN <- DST_LEN + 1` (20_memory.md R56). -/
def State.bumpDstLen (s : State) : State := { s with dstLen := s.dstLen + 1#32 }

/-- `Emit(b)` (20_memory.md R56): the capacity check, then the write at `DST_LEN`, then the cursor. -/
def emit (b : Byte) : Cmd Unit := do
  let s ← get
  if s.dstLen.toNat = s.caps.dstCap.val then raise .dstFull
  dstByte s.dstLen.toNat b
  modify State.bumpDstLen

/-- `EmitStr(s)`: `Emit(s[0])`, `Emit(s[1])`, ... in order (00_scope.md R9). -/
def emitStr (bs : Bytes) : Cmd Unit :=
  match bs with
  | [] => pure ()
  | b :: rest => do
    emit b
    emitStr rest

/-! ### The life of a command -/

/-- "clear all working state" (10_state.md R35). -/
def State.clearWork (s : State) : State := { s with work := Work.clear }

/-- Command start (40_command_dispatch.md R102): `CMD`, `STATUS` BUSY, `DST_LEN` 0, working state clear. -/
def startCommand (w : Word) (s : State) : State :=
  State.clearWork { s with cmd := w, status := s.status.started, dstLen := 0#32 }

/-- The start checks, in this order, before any buffer access (40_command_dispatch.md R103). -/
def startChecks (w : Word) : Cmd Unit := do
  if legalWord w = false then raise .illegalCmd
  let s ← get
  if s.srcLen.toNat > s.caps.srcCap.val then raise .srcRange

/-- Command finish (40_command_dispatch.md R104). -/
def finishCommand (s : State) : State :=
  State.clearWork { s with status := s.status.finished }

/-- FAULT ENTRY, the one exception ICT-CORE takes (60_exceptions.md R256): working state clear, kind and cause
recorded, DONE_ERR. `CMD`, `SRC_LEN`, SRC, `DST_LEN` and DST stay; nothing is saved and no handler runs (R253, R258). -/
def faultEntry (c : Cause) (s : State) : State :=
  State.clearWork { s with status := s.status.faulted c }

/-- Reset in operation (70_reset_and_hazards.md R280): the registers 0, the working state clear; "SRC and DST are
memories and are not reset" (log 6). -/
def resetCore (s : State) : State :=
  State.clearWork { s with cmd := 0#32, status := Status.reset, srcLen := 0#32, dstLen := 0#32 }

/-- How a command ends, from the outcome of its checks and its rule (40_command_dispatch.md R101). -/
def endCommand (r : EStateM.Result Stop State Unit) : State :=
  match r with
  | .ok _ s => finishCommand s
  | .error (.fault c) s => faultEntry c s
  | .error .reset s => resetCore s

/-- One whole command (40_command_dispatch.md R101): start, start checks, the engine's rule, finish; a `raise` replaces
the rest by fault entry. -/
def runCommand (w : Word) (rule : Cmd Unit) (s : State) : State :=
  endCommand ((do startChecks w; rule : Cmd Unit) (startCommand w s))

end Sys2Proof.Machine
end

