-- ==== Sys2Proof/Machine/Operands.lean ====
section
/-! DEFINITION. The operand forms. A command's operands are implicit: the input `S` = SRC[0..`SRC_LEN`) read through
`SrcByte`, taken as symbols by the encode commands (40_command_dispatch.md R108) and parsed as text by the decode
commands (R107). Here stand the number and bit-string notations (00_scope.md R7, R8), the loops of the pseudocode (R9),
the parsing helpers and the symbol sequence `Norm(S)`. -/

namespace Sys2Proof.Machine

open Sys2Proof

/-! ### Numbers and strings (00_scope.md R7, R8) -/

/-- The least `k` with 2^k ≥ n (00_scope.md R7). -/
def clog2 (n : Nat) : Nat := ((List.range (n + 1)).find? (fun k => decide (n ≤ 2 ^ k))).getD 0

/-- The character of a digit 0..9. -/
def digitChar (d : Nat) : Byte := BitVec.ofNat 8 (0x30 + d)

/-- The digit a character `'0'`..`'9'` spells. -/
def digitOf (c : Byte) : Nat := c.toNat - 0x30

/-- The `w` lowest digits of `v` in a base, most significant first. -/
def spell (base w v : Nat) : List Nat :=
  match w with
  | 0 => []
  | k + 1 => spell base k (v / base) ++ [v % base]

/-- `bin(v, w)`: exactly `w` characters, most significant bit first, for v < 2^w (00_scope.md R8). -/
def bin (v w : Nat) : Bytes := (spell 2 w v).map digitChar

/-- `dec18(v)`: the decimal numeral padded on the left to 18 characters, for v ≤ `TOP` (00_scope.md R8). -/
def dec18 (v : Nat) : Bytes := (spell 10 Config.PREC v).map digitChar

/-- The decimal digits of `v` with no leading zero, `[0]` for 0; `fuel` > `v` is enough. -/
def decDigits (fuel v : Nat) : List Nat :=
  match fuel with
  | 0 => []
  | k + 1 => if v < 10 then [v] else decDigits k (v / 10) ++ [v % 10]

/-- `dec(v)`: the decimal numeral, no sign, no leading zero but for `dec(0)` (00_scope.md R8). -/
def dec (v : Nat) : Bytes := (decDigits (v + 1) v).map digitChar

/-- The number digits spell in a base, the first most significant. -/
def number (base : Nat) (ds : List Nat) : Nat := ds.foldl (fun acc d => base * acc + d) 0

/-- `val(b)` of a bit-string (00_scope.md R8). -/
def val (b : Bytes) : Nat := number 2 (b.map digitOf)

/-- A character `'0'` or `'1'` (00_scope.md R8). -/
def isBit (c : Byte) : Bool := c == ch0 || c == ch1

/-- `IsBits(s)` (40_command_dispatch.md R107). -/
def isBits (s : Bytes) : Bool := s.all isBit

/-- `NumVal(s)` (40_command_dispatch.md R107). -/
def numVal (s : Bytes) : Nat := number 10 (s.map digitOf)

/-- `IsNumeral(s)`: non-empty, all digits, at most `NUM_MAX`; leading zeros accepted (40_command_dispatch.md R107,
30_encoding.md R77). -/
def isNumeral (s : Bytes) : Bool :=
  decide (1 ≤ s.length) && s.all (fun c => decide (0x30 ≤ c.toNat) && decide (c.toNat ≤ 0x39)) &&
    decide (numVal s ≤ Config.NUM_MAX)

/-- The delimiter line `"--\n"` (30_encoding.md R76). -/
def delimLine : Bytes := [chDash, chDash, LF]

/-! ### Tables indexed by symbol -/

/-- `TABLE[c]` (00_scope.md R9). -/
def cell {α : Type} (t : Vector α 256) (c : Byte) : α := t[c.toNat]'c.isLt

/-- `TABLE[c] <- v` (00_scope.md R9). -/
def setCell {α : Type} (t : Vector α 256) (c : Byte) (v : α) : Vector α 256 := t.set c.toNat v c.isLt

/-- `TABLE[c] <- TABLE[c] + 1`. -/
def bumpCell (t : Vector Nat 256) (c : Byte) : Vector Nat 256 := setCell t c (cell t c + 1)

/-! ### Loops (00_scope.md R9) -/

/-- `for i in start .. start + count − 1`. -/
def forRange (start count : Nat) (body : Nat → Cmd Unit) : Cmd Unit :=
  match count with
  | 0 => pure ()
  | k + 1 => do
    body start
    forRange (start + 1) k body

/-- A loop over the members of a list, in order. -/
def forEach {α : Type} (xs : List α) (body : α → Cmd Unit) : Cmd Unit :=
  match xs with
  | [] => pure ()
  | x :: rest => do
    body x
    forEach rest body

/-! ### Updates of the working state -/

/-- `SC <- v` (10_state.md R29). -/
def State.setSc (v : Nat) (s : State) : State := { s with work := { s.work with sc := v } }

/-- An update of engine HUF's working state. -/
def State.onHuf (f : HufWork → HufWork) (s : State) : State := { s with work := { s.work with huf := f s.work.huf } }

/-- An update of engine ARI's working state. -/
def State.onAri (f : AriWork → AriWork) (s : State) : State := { s with work := { s.work with ari := f s.work.ari } }

/-- An update of engine BWT's working state. -/
def State.onBwt (f : BwtWork → BwtWork) (s : State) : State := { s with work := { s.work with bwt := f s.work.bwt } }

/-- An update of engine HAM's working state. -/
def State.onHam (f : HamWork → HamWork) (s : State) : State := { s with work := { s.work with ham := f s.work.ham } }

/-! ### The input as text: the parsing helpers (40_command_dispatch.md R107) -/

/-- The tests of `AtDelim` from `SrcByte(a)` on: the bytes at `a` spell `pat`, left to right, the first difference
ending the reading (DEDUCED, log 10). -/
def matchAt (a : Nat) (pat : Bytes) : Cmd Bool :=
  match pat with
  | [] => pure true
  | c :: rest => do
    let b ← srcByte a
    if b = c then matchAt (a + 1) rest else pure false

/-- `AtDelim()`: false where fewer than three bytes remain (40_command_dispatch.md R107). -/
def atDelim : Cmd Bool := do
  let s ← get
  if s.work.sc + 3 ≤ s.srcLen.toNat then matchAt s.work.sc delimLine else pure false

/-- The search of `FindLF` through `count` bytes from `a` on. -/
def findLFIn (count a : Nat) : Cmd (Option Nat) :=
  match count with
  | 0 => pure none
  | k + 1 => do
    let b ← srcByte a
    if b = LF then pure (some a) else findLFIn k (a + 1)

/-- `FindLF(a)` (40_command_dispatch.md R107). -/
def findLF (a : Nat) : Cmd (Option Nat) := do
  let s ← get
  findLFIn (s.srcLen.toNat - a) a

/-- The `count` bytes from `a` on. -/
def bytesIn (count a : Nat) : Cmd Bytes :=
  match count with
  | 0 => pure []
  | k + 1 => do
    let b ← srcByte a
    let rest ← bytesIn k (a + 1)
    pure (b :: rest)

/-- `Bytes(a, e)`, empty if e ≤ a (40_command_dispatch.md R107). -/
def bytesOf (a e : Nat) : Cmd Bytes := bytesIn (e - a) a

/-! ### The input as symbols (40_command_dispatch.md R108) -/

/-- `NLEN`, the length of `Norm(S)`; the last byte is read once, where there is one (40_command_dispatch.md R108;
log 8). -/
def normLen : Cmd Nat := do
  let s ← get
  let n := s.srcLen.toNat
  if n = 0 then pure 0
  else do
    let b ← srcByte (n - 1)
    if b = LF then pure n else pure (n + 1)

/-- `NSym(i)` (40_command_dispatch.md R108). -/
def normSym (i : Nat) : Cmd Byte := do
  let s ← get
  if i < s.srcLen.toNat then srcByte i else pure LF

end Sys2Proof.Machine
end

