-- ==== Sys2Proof/Machine/Arithmetic.lean ====
section
/-! DEFINITION. Engine ARI: the interval coder, the renormalizer, the decoder, and the two commands `ARI.ENC` and
`ARI.DEC` (42_arithmetic.md). All arithmetic is exact (40_command_dispatch.md R112). -/

namespace Sys2Proof.Machine

open Sys2Proof

/-! ### Tables and the working interval -/

/-- The counting pass over the `n` symbols of `Norm(S)`, and `T` (42_arithmetic.md R150). -/
def ariCount (n : Nat) : Cmd Unit := do
  forRange 0 n fun i => do
    let c ← normSym i
    modify (State.onAri (fun h => { h with freq := bumpCell h.freq c }))
  modify (State.onAri (fun h => { h with t := n }))

/-- The entries of the cumulative table for the symbols `cs`, from the bound `acc` on (42_arithmetic.md R151). -/
def cumFrom (freq : Vector Nat 256) (cs : Bytes) (acc : Nat) : List CumEntry :=
  match cs with
  | [] => []
  | c :: rest =>
    if cell freq c > 0 then
      { sym := c, lo := acc, hi := acc + cell freq c } :: cumFrom freq rest (acc + cell freq c)
    else cumFrom freq rest acc

/-- The cumulative interval table, in ascending symbol order (42_arithmetic.md R151). -/
def cumTable (freq : Vector Nat 256) : List CumEntry := cumFrom freq allBytes 0

/-- `f(x)` = `LOW` + (`R` × x) // `T` with `R` = `HIGH` − `LOW` + 1 (42_arithmetic.md R154). -/
def narrowPoint (low high t x : Nat) : Nat := low + (high - low + 1) * x / t

/-- `LOW <- 0 ; HIGH <- TOP` (42_arithmetic.md R152). -/
def ariInterval : Cmd Unit := modify (State.onAri (fun h => { h with low := 0, high := Config.TOP }))

/-- `Narrow(clo, chi)` (42_arithmetic.md R153). `nl` > `nh` is `f(clo)` ≥ `f(chi)`, which no subtraction can hide.
`HIGH` is not cut to 60 bits (DEDUCED, log 9). -/
def narrow (clo chi : Nat) : Cmd Unit := do
  let s ← get
  let h := s.work.ari
  let nl := narrowPoint h.low h.high h.t clo
  let nh := narrowPoint h.low h.high h.t chi
  if nh ≤ nl then raise .ariCollapse
  modify (State.onAri (fun h => { h with low := nl, high := nh - 1 }))

/-- The two bounds share their leading digit: the test of 42_arithmetic.md R156 and R163. -/
def sameLead (low high : Nat) : Bool := low / Config.D17 == high / Config.D17

/-- `LOW` after one shift (42_arithmetic.md R156). -/
def shiftLow (low : Nat) : Nat := low % Config.D17 * 10

/-- `HIGH` after one shift (42_arithmetic.md R156). -/
def shiftHigh (high : Nat) : Nat := high % Config.D17 * 10 + 9

/-! ### `ARI.ENC` -/

/-- `RenormEnc()`; "the loop makes at most 18 passes", so `fuel` = 18 is enough (42_arithmetic.md R156; log 15). -/
def renormEnc (fuel : Nat) : Cmd Unit :=
  match fuel with
  | 0 => pure ()
  | k + 1 => do
    let s ← get
    let h := s.work.ari
    if sameLead h.low h.high then do
      emitStr (bin (h.low / Config.D17) Config.BCD_W)
      modify (State.onAri (fun h => { h with low := shiftLow h.low, high := shiftHigh h.high }))
      renormEnc k

/-- The BCD code of one decimal digit character (30_encoding.md R81). -/
def emitBcd (ch : Byte) : Cmd Unit := emitStr (bin (digitOf ch) Config.BCD_W)

/-- `Terminate()`: all 18 digits of the midpoint (42_arithmetic.md R157). -/
def ariTerminate : Cmd Unit := do
  let s ← get
  let h := s.work.ari
  forEach (dec18 (h.low + (h.high - h.low) / 2)) emitBcd

/-- One header line: a symbol and its low bound (42_arithmetic.md R158). -/
def ariEmitBound (x : CumEntry) : Cmd Unit := do
  emit x.sym
  emitStr (dec x.lo)
  emit LF

/-- The body of the coding loop for one symbol (42_arithmetic.md R158). The symbol has been counted, so its entry
exists. -/
def ariEncSymbol (c : Byte) : Cmd Unit := do
  let s ← get
  match s.work.ari.cum.find? (fun x => x.sym == c) with
  | none => pure ()
  | some x => do
    narrow x.lo x.hi
    renormEnc Config.PREC

/-- The rule of `ARI.ENC` (42_arithmetic.md R158). -/
def ariEncRule : Cmd Unit := do
  let n ← normLen
  ariCount n
  modify (State.onAri (fun h => { h with cum := cumTable h.freq }))
  let s ← get
  forEach s.work.ari.cum ariEmitBound
  emitStr delimLine
  emitStr (dec s.work.ari.t)
  emit LF
  ariInterval
  forRange 0 n fun i => do
    let c ← normSym i
    ariEncSymbol c
  ariTerminate
  emit LF

/-- `ARI.ENC`: arithmetic encode (42_arithmetic.md R158). -/
def execAriEnc (s : State) : Host.Outcome State Fault Refusal :=
  .next (runCommand (encode .ariEnc) ariEncRule s)

/-! ### `ARI.DEC` -/

/-- The test `NC > 0 and NumVal(num) ≤ CUM[NC − 1].lo` (42_arithmetic.md R159). -/
def notAscending (cum : List CumEntry) (lo : Nat) : Bool :=
  match cum.getLast? with
  | none => false
  | some x => decide (lo ≤ x.lo)

/-- One table entry at `SC`: the symbol byte, the bound up to the next `LF`, the checks in R159's order; `hi` is unset
(0: DESIGN CHOICE, log 13) until R160 (42_arithmetic.md R159). -/
def ariParseEntry : Cmd Unit := do
  let s ← get
  let sc := s.work.sc
  if sc = s.srcLen.toNat then raise .ariNoDelim
  let sym ← srcByte sc
  let found ← findLF (sc + 1)
  match found with
  | none => raise .ariNoDelim
  | some e => do
    let num ← bytesOf (sc + 1) e
    if isNumeral num = false then raise .ariBadEntry
    let s ← get
    let cum := s.work.ari.cum
    if cum.length = Config.TBL_MAX then raise .ariTableFull
    if notAscending cum (numVal num) then raise .ariNotAscending
    modify (State.onAri (fun h => { h with cum := h.cum ++ [{ sym := sym, lo := numVal num, hi := 0 }] }))
    modify (State.setSc (e + 1))

/-- The loop over the bound table (42_arithmetic.md R159). Each entry advances `SC`, so `SRC_LEN` + 1 passes are
enough. -/
def ariParseTable (fuel : Nat) : Cmd Unit :=
  match fuel with
  | 0 => pure ()
  | k + 1 => do
    let atEnd ← atDelim
    if atEnd then modify (fun s => State.setSc (s.work.sc + 3) s)
    else do
      ariParseEntry
      ariParseTable k

/-- The high bounds: each entry's is the next one's low bound, the last one's is `T` (42_arithmetic.md R160). -/
def setHighs (t : Nat) (cum : List CumEntry) : List CumEntry :=
  match cum with
  | [] => []
  | x :: rest =>
    { x with hi := match rest with
        | [] => t
        | y :: _ => y.lo } :: setHighs t rest

/-- Parsing the total, and the high bounds (42_arithmetic.md R160). -/
def ariParseTotal : Cmd Unit := do
  let s ← get
  let sc := s.work.sc
  let found ← findLF sc
  match found with
  | none => raise .ariBadTotal
  | some e => do
    let num ← bytesOf sc e
    if isNumeral num = false then raise .ariBadTotal
    modify (State.onAri (fun h => { h with t := numVal num, cum := setHighs (numVal num) h.cum }))
    modify (State.setSc (e + 1))

/-- One 4-character group of the digit stream (42_arithmetic.md R161, R162). -/
def ariReadGroup (a : Nat) : Cmd Unit := do
  let grp ← bytesOf a (a + 4)
  if isBits grp = false ∨ val grp > 9 then raise .ariBadStream
  modify (State.onAri (fun h => { h with dig := h.dig ++ [val grp] }))

/-- Reading the digit stream, and the first frame (42_arithmetic.md R161). -/
def ariReadStream : Cmd Unit := do
  let s ← get
  let sc := s.work.sc
  let found ← findLF sc
  let e := found.getD s.srcLen.toNat
  if (e - sc) % 4 ≠ 0 then raise .ariBadStream
  modify (State.onAri (fun h => { h with dig := [] }))
  forRange 0 ((e - sc) / 4) fun g => ariReadGroup (sc + 4 * g)
  let s ← get
  if s.work.ari.dig.length < Config.PREC then raise .ariStreamShort
  modify (State.onAri (fun h => { h with v := number 10 (h.dig.take Config.PREC), dp := Config.PREC }))

/-- `idx` = ((`V` − `LOW` + 1) × `T` − 1) // `R` (42_arithmetic.md R163). -/
def ariIndex (low high v t : Nat) : Nat := ((v - low + 1) * t - 1) / (high - low + 1)

/-- The renormalization of a decoding step: as many digits shifted in as were shifted out; `fuel` = 18 is enough
(42_arithmetic.md R156, R163). -/
def renormDec (fuel : Nat) : Cmd Unit :=
  match fuel with
  | 0 => pure ()
  | k + 1 => do
    let s ← get
    let h := s.work.ari
    if sameLead h.low h.high then do
      modify (State.onAri (fun h => { h with low := shiftLow h.low, high := shiftHigh h.high }))
      match h.dig[h.dp]? with
      | none => raise .ariStreamShort
      | some d => do
        modify (State.onAri (fun h => { h with v := h.v % Config.D17 * 10 + d, dp := h.dp + 1 }))
        renormDec k

/-- The entry a decoding step finds: the last whose low bound is at most `idx`, if any (42_arithmetic.md R163). -/
def ariFind (cum : List CumEntry) (idx : Nat) : Option CumEntry :=
  match (cum.filter (fun x => decide (x.lo ≤ idx))).length with
  | 0 => none
  | j + 1 => cum[j]?

/-- `DecodeStep()` (42_arithmetic.md R163). -/
def ariDecodeStep : Cmd Unit := do
  let s ← get
  let h := s.work.ari
  if h.v < h.low ∨ h.high < h.v then raise .ariIndexRange
  match ariFind h.cum (ariIndex h.low h.high h.v h.t) with
  | none => raise .ariIndexRange
  | some x => do
    emit x.sym
    narrow x.lo x.hi
    renormDec Config.PREC

/-- `repeat T times: DecodeStep()` (42_arithmetic.md R164). -/
def ariDecodeLoop (count : Nat) : Cmd Unit :=
  match count with
  | 0 => pure ()
  | k + 1 => do
    ariDecodeStep
    ariDecodeLoop k

/-- The rule of `ARI.DEC` (42_arithmetic.md R164). -/
def ariDecRule : Cmd Unit := do
  modify (State.setSc 0)
  modify (State.onAri (fun h => { h with cum := [] }))
  let s ← get
  ariParseTable (s.srcLen.toNat + 1)
  ariParseTotal
  ariReadStream
  ariInterval
  let s ← get
  ariDecodeLoop s.work.ari.t

/-- `ARI.DEC`: arithmetic decode (42_arithmetic.md R164). -/
def execAriDec (s : State) : Host.Outcome State Fault Refusal :=
  .next (runCommand (encode .ariDec) ariDecRule s)

end Sys2Proof.Machine
end

