-- ==== Sys2Proof/Machine/Bwt.lean ====
section
/-! DEFINITION. Engine BWT: the rotation sorter, the move-to-front coder, the inverse permutation engine, and the two
commands `BWT.ENC` and `BWT.DEC` (43_bwt.md). -/

namespace Sys2Proof.Machine

open Sys2Proof

/-! ### The rotation sorter -/

/-- `rot(j)` = x_j ... x_(n−1) x_0 ... x_(j−1) (43_bwt.md R191). -/
def rotation (x : Bytes) (j : Nat) : Bytes := x.drop j ++ x.take j

/-- Comparison character by character from the left, as unsigned byte values, the first difference deciding
(43_bwt.md R192). -/
def compareBytes (a b : Bytes) : Ordering :=
  match a, b with
  | [], [] => .eq
  | [], _ :: _ => .lt
  | _ :: _, [] => .gt
  | p :: a', q :: b' => if p.toNat < q.toNat then .lt else if q.toNat < p.toNat then .gt else compareBytes a' b'

/-- `Before(i, j)`; equal rotations: the smaller offset first (43_bwt.md R192). -/
def rotBefore (x : Bytes) (i j : Nat) : Bool :=
  match compareBytes (rotation x i) (rotation x j) with
  | .lt => true
  | .gt => false
  | .eq => decide (i < j)

/-- `ROT`: the offsets arranged by `Before` (43_bwt.md R192); "any sorting method gives it". -/
def sortRotations (x : Bytes) : List Nat :=
  (List.range x.length).insertionSort (fun i j => rotBefore x j i = false)

/-- `KEY`: the position of offset 0 (43_bwt.md R193). -/
def keyIndex (rot : List Nat) : Nat := rot.idxOf 0

/-- `X[i]`, for i < n. -/
def symAt (x : Bytes) (i : Nat) : Byte := x.getD i 0#8

/-- `ROW`: the last character of every sorted rotation, `X[(ROT[p] + n − 1) mod n]` (43_bwt.md R194). -/
def transformedRow (x : Bytes) (rot : List Nat) : Bytes :=
  rot.map fun j => symAt x ((j + x.length - 1) % x.length)

/-- `ALPHA`: the distinct symbols in ascending order (43_bwt.md R195). -/
def alphabet (x : Bytes) : Bytes := allBytes.filter (fun c => x.contains c)

/-- `W` = max(1, clog2(`NA`)) (43_bwt.md R196). -/
def codeWidth (na : Nat) : Nat := max 1 (clog2 na)

/-! ### The move-to-front coder -/

/-- The symbol at index `i` goes to the front, those before it move back by one (43_bwt.md R197, R201). -/
def moveToFront (mtf : Bytes) (i : Nat) : Bytes := symAt mtf i :: mtf.eraseIdx i

/-- Move-to-front encoding of one symbol (43_bwt.md R197). -/
def mtfEncSymbol (c : Byte) : Cmd Unit := do
  let s ← get
  let h := s.work.bwt
  let i := h.mtf.idxOf c
  emitStr (bin i h.w)
  modify (State.onBwt (fun h => { h with mtf := moveToFront h.mtf i }))

/-! ### `BWT.ENC` -/

/-- One line of the alphabet (43_bwt.md R198). -/
def bwtEmitLetter (c : Byte) : Cmd Unit := do
  emit c
  emit LF

/-- All that is worked out of a block before it is coded, on the working registers (43_bwt.md R192 to R196). -/
def bwtAnalyse (x : Bytes) : Cmd Unit := do
  modify (State.onBwt (fun h => { h with blk := x, n := x.length }))
  modify (State.onBwt (fun h => { h with rot := sortRotations h.blk }))
  modify (State.onBwt (fun h => { h with key := keyIndex h.rot, row := transformedRow h.blk h.rot }))
  modify (State.onBwt (fun h => { h with alpha := alphabet h.blk }))
  modify (State.onBwt (fun h => { h with w := codeWidth h.alpha.length }))

/-- The output of one block (43_bwt.md R198). -/
def bwtEmitBlock : Cmd Unit := do
  let s ← get
  let h := s.work.bwt
  forEach h.alpha bwtEmitLetter
  emitStr delimLine
  emitStr (dec h.key)
  emit LF
  modify (State.onBwt (fun h => { h with mtf := h.alpha }))
  forEach h.row mtfEncSymbol
  emit LF

/-- The rule of `BWT.ENC`: `NB` blocks of the raw input (43_bwt.md R190, R198). -/
def bwtEncRule : Cmd Unit := do
  let s ← get
  let len := s.srcLen.toNat
  forRange 0 ((len + Config.BLOCK - 1) / Config.BLOCK) fun b => do
    let x ← bytesOf (Config.BLOCK * b) (min (Config.BLOCK * b + Config.BLOCK) len)
    bwtAnalyse x
    bwtEmitBlock

/-- `BWT.ENC`: blockwise Burrows–Wheeler transform and move-to-front encode (43_bwt.md R198). -/
def execBwtEnc (s : State) : Host.Outcome State Fault Refusal :=
  .next (runCommand (encode .bwtEnc) bwtEncRule s)

/-! ### The decoder: parsing and move-to-front decoding -/

/-- One alphabet entry at `SC`, the two bytes `sym` `LF` (43_bwt.md R199). -/
def bwtParseLetter : Cmd Unit := do
  let s ← get
  let sc := s.work.sc
  if sc + 1 ≥ s.srcLen.toNat then raise .bwtBadAlphabet
  let second ← srcByte (sc + 1)
  if second ≠ LF then raise .bwtBadAlphabet
  if s.work.bwt.alpha.length = Config.TBL_MAX then raise .bwtBadAlphabet
  let sym ← srcByte sc
  modify (State.onBwt (fun h => { h with alpha := h.alpha ++ [sym] }))
  modify (State.setSc (sc + 2))

/-- The loop over the alphabet (43_bwt.md R199). Each entry advances `SC`, so `SRC_LEN` + 1 passes are enough. -/
def bwtParseLetters (fuel : Nat) : Cmd Unit :=
  match fuel with
  | 0 => pure ()
  | k + 1 => do
    let atEnd ← atDelim
    if atEnd then modify (fun s => State.setSc (s.work.sc + 3) s)
    else do
      bwtParseLetter
      bwtParseLetters k

/-- Parsing a block's alphabet (43_bwt.md R199). -/
def bwtParseAlphabet : Cmd Unit := do
  modify (State.onBwt (fun h => { h with alpha := [] }))
  let s ← get
  bwtParseLetters (s.srcLen.toNat + 1)
  let s ← get
  if s.work.bwt.alpha.length = 0 then raise .bwtBadAlphabet
  modify (State.onBwt (fun h => { h with w := codeWidth h.alpha.length }))

/-- Parsing the key line (43_bwt.md R200). -/
def bwtParseKey : Cmd Unit := do
  let s ← get
  let sc := s.work.sc
  let found ← findLF sc
  match found with
  | none => raise .bwtBadKey
  | some e => do
    let num ← bytesOf sc e
    if isNumeral num = false then raise .bwtBadKey
    modify (State.onBwt (fun h => { h with key := numVal num }))
    modify (State.setSc (e + 1))

/-- Move-to-front decoding of one index (43_bwt.md R201). -/
def mtfDecIndex (i : Nat) : Cmd Unit := do
  let s ← get
  let h := s.work.bwt
  if i ≥ h.alpha.length then raise .bwtBadIndex
  modify (State.onBwt (fun h => { h with row := h.row ++ [symAt h.mtf i], mtf := moveToFront h.mtf i }))

/-- Parsing the bit-string and move-to-front decoding (43_bwt.md R201). -/
def bwtParseBits : Cmd Unit := do
  let s ← get
  let sc := s.work.sc
  let w := s.work.bwt.w
  let found ← findLF sc
  let e := found.getD s.srcLen.toNat
  let nxt := match found with
    | none => s.srcLen.toNat
    | some e => e + 1
  let line ← bytesOf sc e
  modify (State.setSc nxt)
  if isBits line = false ∨ line.length % w ≠ 0 then raise .bwtBadBits
  modify (State.onBwt (fun h => { h with n := line.length / w }))
  if line.length / w > Config.BLOCK then raise .bwtBadBits
  modify (State.onBwt (fun h => { h with mtf := h.alpha, row := [] }))
  forRange 0 (line.length / w) fun p => mtfDecIndex (val ((line.drop (p * w)).take w))

/-! ### The inverse permutation engine -/

/-- The counts of a row's symbols: cnt of 43_bwt.md R202. -/
def countSyms (row : Bytes) : Vector Nat 256 := row.foldl bumpCell (Vector.replicate 256 0)

/-- The C array's cells for the symbols `cs`, from the sum `acc` on (43_bwt.md R202). -/
def cArrayFrom (cnt : Vector Nat 256) (cs : Bytes) (acc : Nat) (carr : Vector Nat 256) : Vector Nat 256 :=
  match cs with
  | [] => carr
  | c :: rest => cArrayFrom cnt rest (acc + cell cnt c) (setCell carr c acc)

/-- `CARR`: for each symbol the number of row positions holding a smaller one (43_bwt.md R202). -/
def cArray (row : Bytes) : Vector Nat 256 := cArrayFrom (countSyms row) allBytes 0 (Vector.replicate 256 0)

/-- One pass of the construction of `NEXT` for the row positions from `i` on (43_bwt.md R203). -/
def nextFrom (carr : Vector Nat 256) (row : Bytes) (i : Nat) (occ : Vector Nat 256) (next : List Nat) :
    Vector Nat 256 × List Nat :=
  match row with
  | [] => (occ, next)
  | c :: rest => nextFrom carr rest (i + 1) (bumpCell occ c) (next.set (cell carr c + cell occ c) i)

/-- `OCC` and `NEXT` of a row: the stable counting-sort rank (43_bwt.md R203). -/
def nextPointers (row : Bytes) : Vector Nat 256 × List Nat :=
  nextFrom (cArray row) row 0 (Vector.replicate 256 0) (List.replicate row.length 0)

/-- The read-out's loop: emit `ROW[p]`, then p ← `NEXT[p]` (43_bwt.md R204). -/
def bwtReadOut (count p : Nat) : Cmd Unit :=
  match count with
  | 0 => pure ()
  | k + 1 => do
    let s ← get
    emit (symAt s.work.bwt.row p)
    bwtReadOut k (s.work.bwt.next.getD p 0)

/-- C array, next pointers and read-out on the working registers (43_bwt.md R202 to R204). -/
def bwtInvert : Cmd Unit := do
  modify (State.onBwt (fun h => { h with carr := cArray h.row }))
  modify (State.onBwt (fun h => { h with occ := (nextPointers h.row).1, next := (nextPointers h.row).2 }))
  let s ← get
  bwtReadOut s.work.bwt.n (s.work.bwt.next.getD s.work.bwt.key 0)

/-! ### `BWT.DEC` -/

/-- One pass of `BWT.DEC`'s loop: one block (43_bwt.md R206). -/
def bwtDecBlock : Cmd Unit := do
  bwtParseAlphabet
  bwtParseKey
  bwtParseBits
  let s ← get
  if s.work.bwt.n ≠ 0 then do
    if s.work.bwt.key ≥ s.work.bwt.n then raise .bwtBadKey
    bwtInvert

/-- `while SC < SRC_LEN` of `BWT.DEC`; each pass advances `SC`, so `SRC_LEN` passes are enough (43_bwt.md R206). -/
def bwtDecBlocks (fuel : Nat) : Cmd Unit :=
  match fuel with
  | 0 => pure ()
  | k + 1 => do
    let s ← get
    if s.work.sc < s.srcLen.toNat then do
      bwtDecBlock
      bwtDecBlocks k

/-- The rule of `BWT.DEC` (43_bwt.md R206). -/
def bwtDecRule : Cmd Unit := do
  modify (State.setSc 0)
  let s ← get
  bwtDecBlocks s.srcLen.toNat

/-- `BWT.DEC`: move-to-front decode and inverse Burrows–Wheeler transform, blockwise (43_bwt.md R206). -/
def execBwtDec (s : State) : Host.Outcome State Fault Refusal :=
  .next (runCommand (encode .bwtDec) bwtDecRule s)

end Sys2Proof.Machine
end

