-- ==== Sys2Proof/Machine/Hamming.lean ====
section
/-! DEFINITION. Engine HAM: the parity generator, the syndrome calculator, the single-bit error corrector, and the two
commands `HAM.ENC` and `HAM.DEC` (44_hamming.md). A frame's position k, counted from 1 at the first character, is bit
7 − k of the 7-bit vector. -/

namespace Sys2Proof.Machine

open Sys2Proof

/-- The bit at position `k` (1..7) of a frame (44_hamming.md R231). -/
def framePos (f : BitVec 7) (k : Nat) : Bool := f.getMsbD (k - 1)

/-- The frame whose positions 1..7 hold these bits. -/
def frameOf (r1 r2 r3 r4 r5 r6 r7 : Bool) : BitVec 7 :=
  BitVec.ofBool r1 ++ (BitVec.ofBool r2 ++ (BitVec.ofBool r3 ++ (BitVec.ofBool r4 ++
    (BitVec.ofBool r5 ++ (BitVec.ofBool r6 ++ BitVec.ofBool r7)))))

/-- The high nibble of a byte, coded first (44_hamming.md R230). -/
def highNibble (v : Byte) : BitVec 4 := BitVec.ofNat 4 (v.toNat / 16)

/-- The low nibble of a byte (44_hamming.md R230). -/
def lowNibble (v : Byte) : BitVec 4 := BitVec.ofNat 4 (v.toNat % 16)

/-- `Frame(q)`: `p1 p2 b1 p3 b2 b3 b4`; a sum mod 2 is an exclusive or (44_hamming.md R230, R231). -/
def hamFrame (q : BitVec 4) : BitVec 7 :=
  let b1 := q.getMsbD 0
  let b2 := q.getMsbD 1
  let b3 := q.getMsbD 2
  let b4 := q.getMsbD 3
  let p1 := (b1 ^^ b2) ^^ b4
  let p2 := (b1 ^^ b3) ^^ b4
  let p3 := (b2 ^^ b3) ^^ b4
  frameOf p1 p2 b1 p3 b2 b3 b4

/-- The seven characters of a frame, position 1 first (44_hamming.md R231). -/
def frameChars (f : BitVec 7) : Bytes := bin f.toNat Config.FRAME

/-- The syndrome `SYN` = m1 + 2·m2 + 4·m3 (44_hamming.md R234). -/
def syndrome (f : BitVec 7) : BitVec 3 :=
  let m1 := ((framePos f 1 ^^ framePos f 3) ^^ framePos f 5) ^^ framePos f 7
  let m2 := ((framePos f 2 ^^ framePos f 3) ^^ framePos f 6) ^^ framePos f 7
  let m3 := ((framePos f 4 ^^ framePos f 5) ^^ framePos f 6) ^^ framePos f 7
  BitVec.ofBool m3 ++ (BitVec.ofBool m2 ++ BitVec.ofBool m1)

/-- The frame with position `k` (1..7) inverted. -/
def flipPos (f : BitVec 7) (k : Nat) : BitVec 7 := f ^^^ BitVec.ofNat 7 (2 ^ (7 - k))

/-- Correction: a nonzero `SYN` names the position to flip, counted from 1 (44_hamming.md R235). -/
def correctFrame (f : BitVec 7) (syn : BitVec 3) : BitVec 7 := if syn = 0#3 then f else flipPos f syn.toNat

/-- The nibble of a frame: 8·r3 + 4·r5 + 2·r6 + r7 (44_hamming.md R236). -/
def frameNibble (f : BitVec 7) : BitVec 4 :=
  BitVec.ofBool (framePos f 3) ++ (BitVec.ofBool (framePos f 5) ++
    (BitVec.ofBool (framePos f 6) ++ BitVec.ofBool (framePos f 7)))

/-- The bits of a 7-character bit-string (44_hamming.md R236). -/
def frameBits (s : Bytes) : BitVec 7 := BitVec.ofNat 7 (val s)

/-- `EmitStr(Frame(q))` through the working registers `NIB` and `FR` (44_hamming.md R233, 10_state.md R33). -/
def hamEmitNibble (q : BitVec 4) : Cmd Unit := do
  modify (State.onHam (fun h => { h with nib := q }))
  modify (State.onHam (fun h => { h with fr := hamFrame h.nib }))
  let s ← get
  emitStr (frameChars s.work.ham.fr)

/-- The body of `HAM.ENC`'s loop for one symbol (44_hamming.md R233). -/
def hamEncSymbol (v : Byte) : Cmd Unit := do
  hamEmitNibble (highNibble v)
  hamEmitNibble (lowNibble v)
  if v = LF then emit LF

/-- The rule of `HAM.ENC` (44_hamming.md R233). -/
def hamEncRule : Cmd Unit := do
  let n ← normLen
  forRange 0 n fun i => do
    let v ← normSym i
    hamEncSymbol v

/-- `HAM.ENC`: Hamming (7,4) encode (44_hamming.md R233). -/
def execHamEnc (s : State) : Host.Outcome State Fault Refusal :=
  .next (runCommand (encode .hamEnc) hamEncRule s)

/-- `DecodeFrame(f)` through `FR`, `SYN` and `NIB` (44_hamming.md R236). -/
def hamDecodeFrame (f : Bytes) : Cmd (BitVec 4) := do
  modify (State.onHam (fun h => { h with fr := frameBits f }))
  modify (State.onHam (fun h => { h with syn := syndrome h.fr }))
  modify (State.onHam (fun h => { h with fr := correctFrame h.fr h.syn }))
  modify (State.onHam (fun h => { h with nib := frameNibble h.fr }))
  let s ← get
  pure s.work.ham.nib

/-- The byte of two nibbles: 16·hi + lo (44_hamming.md R236). -/
def joinNibbles (hi lo : BitVec 4) : Byte := BitVec.ofNat 8 (16 * hi.toNat + lo.toNat)

/-- One 14-character unit: `HAM_BAD_BIT` or one byte (44_hamming.md R237). -/
def hamDecUnit (unit : Bytes) : Cmd Unit := do
  if isBits unit = false then raise .hamBadBit
  let hi ← hamDecodeFrame (unit.take 7)
  let lo ← hamDecodeFrame (unit.drop 7)
  emit (joinNibbles hi lo)

/-- One pass of `HAM.DEC`'s loop: one line (44_hamming.md R237). -/
def hamDecLine : Cmd Unit := do
  let s ← get
  let sc := s.work.sc
  let found ← findLF sc
  let e := found.getD s.srcLen.toNat
  let nxt := match found with
    | none => s.srcLen.toNat
    | some e => e + 1
  if (e - sc) % Config.UNIT ≠ 0 then raise .hamBadLength
  forRange 0 ((e - sc) / Config.UNIT) fun u => do
    let unit ← bytesOf (sc + Config.UNIT * u) (sc + Config.UNIT * u + Config.UNIT)
    hamDecUnit unit
  modify (State.setSc nxt)

/-- `while SC < SRC_LEN` of `HAM.DEC`; each pass advances `SC`, so `SRC_LEN` passes are enough (44_hamming.md R237). -/
def hamDecLines (fuel : Nat) : Cmd Unit :=
  match fuel with
  | 0 => pure ()
  | k + 1 => do
    let s ← get
    if s.work.sc < s.srcLen.toNat then do
      hamDecLine
      hamDecLines k

/-- The rule of `HAM.DEC` (44_hamming.md R237). -/
def hamDecRule : Cmd Unit := do
  modify (State.setSc 0)
  let s ← get
  hamDecLines s.srcLen.toNat

/-- `HAM.DEC`: Hamming (7,4) decode with single-bit error correction (44_hamming.md R237). -/
def execHamDec (s : State) : Host.Outcome State Fault Refusal :=
  .next (runCommand (encode .hamDec) hamDecRule s)

end Sys2Proof.Machine
end

