-- ==== Sys2Proof/Machine/Huffman.lean ====
section
/-! DEFINITION. Engine HUF: the tree builder, the decoder lookup engine, and the two commands `HUF.ENC` and `HUF.DEC`
(41_huffman.md). -/

namespace Sys2Proof.Machine

open Sys2Proof

/-! ### The tree builder -/

/-- The counting pass over the `n` symbols of `Norm(S)` (41_huffman.md R120). -/
def hufCount (n : Nat) : Cmd Unit :=
  forRange 0 n fun i => do
    let c ← normSym i
    modify (State.onHuf (fun h => { h with freq := bumpCell h.freq c }))

/-- A leaf node (41_huffman.md R121). -/
def leafNode (c : Byte) (count : Nat) : Node := { leaf := true, sym := c, w := count, l := none, r := none }

/-- The leaves: one per symbol with a non-zero count, in ascending symbol order (41_huffman.md R121). -/
def hufLeaves (freq : Vector Nat 256) : List Node :=
  allBytes.filterMap fun c => if cell freq c > 0 then some (leafNode c (cell freq c)) else none

/-- `NODE[i].w`. -/
def nodeWeight (node : List Node) (i : Nat) : Nat :=
  match node[i]? with
  | some x => x.w
  | none => 0

/-- Node `i` comes before node `j` in the priority order: the pair (weight, index) (41_huffman.md R122). -/
def comesBefore (node : List Node) (i j : Nat) : Bool :=
  decide (nodeWeight node i < nodeWeight node j) ||
    (decide (nodeWeight node i = nodeWeight node j) && decide (i < j))

/-- The lowest of `best` and the members of `q` in the priority order (41_huffman.md R122). -/
def lowestOf (node : List Node) (best : Nat) (q : List Nat) : Nat :=
  match q with
  | [] => best
  | i :: rest => lowestOf node (if comesBefore node i best then i else best) rest

/-- An internal node over the children `a` (left) and `b` (right) (41_huffman.md R123). -/
def joinNode (node : List Node) (a b : Nat) : Node :=
  { leaf := false, sym := 0#8, w := nodeWeight node a + nodeWeight node b, l := some a, r := some b }

/-- One pass of the merging loop: the two lowest members leave `Q`, their parent enters it (41_huffman.md R123). A `Q`
of fewer than two members, which the loop never meets, is left as it is. -/
def mergeTwo (node : List Node) (q : List Nat) : List Node × List Nat :=
  match q with
  | [] => (node, q)
  | i :: rest =>
    let a := lowestOf node i rest
    match q.erase a with
    | [] => (node, q)
    | j :: rest' =>
      let b := lowestOf node j rest'
      (node ++ [joinNode node a b], (q.erase a).erase b ++ [node.length])

/-- `repeat count times` of the merging loop (41_huffman.md R123). -/
def mergeLoop (count : Nat) (node : List Node) (q : List Nat) : List Node × List Nat :=
  match count with
  | 0 => (node, q)
  | k + 1 =>
    let p := mergeTwo node q
    mergeLoop k p.1 p.2

/-- Tree construction: the arena and `ROOT` (41_huffman.md R123). -/
def hufTree (leaves : List Node) : List Node × Option Nat :=
  match leaves with
  | [] => ([], none)
  | [x] => ([x, { leaf := false, sym := 0#8, w := x.w, l := some 0, r := none }], some 1)
  | _ =>
    let p := mergeLoop (leaves.length - 1) leaves (List.range leaves.length)
    (p.1, p.2.head?)

/-- `Assign(i, pre)` (41_huffman.md R124). A child's index is below its parent's, so `fuel` = `NN` is enough. -/
def assignCodes (node : List Node) (fuel i : Nat) (pre : Bytes) (code : Vector Bytes 256) : Vector Bytes 256 :=
  match fuel with
  | 0 => code
  | k + 1 =>
    match node[i]? with
    | none => code
    | some x =>
      if x.leaf then setCell code x.sym pre
      else
        let code := match x.l with
          | none => code
          | some l => assignCodes node k l (pre ++ [ch0]) code
        match x.r with
        | none => code
        | some r => assignCodes node k r (pre ++ [ch1]) code

/-- Code assignment from the root, where there is one (41_huffman.md R124). -/
def hufCodes (node : List Node) (root : Option Nat) (code : Vector Bytes 256) : Vector Bytes 256 :=
  match root with
  | none => code
  | some r => assignCodes node node.length r [] code

/-- Leaves, tree construction and code assignment on the working registers (41_huffman.md R121, R123, R124). -/
def hufBuild : Cmd Unit := do
  modify (State.onHuf (fun h => { h with node := hufLeaves h.freq }))
  modify (State.onHuf (fun h => { h with node := (hufTree h.node).1, root := (hufTree h.node).2 }))
  modify (State.onHuf (fun h => { h with code := hufCodes h.node h.root h.code }))

/-! ### `HUF.ENC` -/

/-- One entry of the code table, where the symbol has a code (41_huffman.md R126). -/
def hufEmitEntry (c : Byte) : Cmd Unit := do
  let s ← get
  let code := cell s.work.huf.code c
  if code ≠ [] then do
    emit c
    emitStr code
    emit LF

/-- The rule of `HUF.ENC` (41_huffman.md R126). -/
def hufEncRule : Cmd Unit := do
  let n ← normLen
  hufCount n
  hufBuild
  forEach allBytes hufEmitEntry
  emitStr delimLine
  forRange 0 n fun i => do
    let c ← normSym i
    let s ← get
    emitStr (cell s.work.huf.code c)
  emit LF

/-- `HUF.ENC`: Huffman encode (41_huffman.md R126). -/
def execHufEnc (s : State) : Host.Outcome State Fault Refusal :=
  .next (runCommand (encode .hufEnc) hufEncRule s)

/-! ### The decoder lookup engine -/

/-- One table entry at `SC`: the symbol byte, the code up to the next `LF`, the checks in R127's order
(41_huffman.md R127). -/
def hufParseEntry : Cmd Unit := do
  let s ← get
  let sc := s.work.sc
  if sc = s.srcLen.toNat then raise .hufNoDelim
  let sym ← srcByte sc
  let found ← findLF (sc + 1)
  match found with
  | none => raise .hufNoDelim
  | some e => do
    let code ← bytesOf (sc + 1) e
    if code.length = 0 ∨ isBits code = false ∨ code.length > Config.CODE_MAX then raise .hufBadEntry
    let s ← get
    if s.work.huf.dtbl.length = Config.TBL_MAX then raise .hufTableFull
    modify (State.onHuf (fun h => { h with dtbl := h.dtbl ++ [(sym, code)] }))
    modify (State.setSc (e + 1))

/-- The loop over the code table (41_huffman.md R127). Each entry advances `SC`, so `SRC_LEN` + 1 passes are enough. -/
def hufParseTable (fuel : Nat) : Cmd Unit :=
  match fuel with
  | 0 => pure ()
  | k + 1 => do
    let atEnd ← atDelim
    if atEnd then modify (fun s => State.setSc (s.work.sc + 3) s)
    else do
      hufParseEntry
      hufParseTable k

/-- `Lookup(acc)`: the symbol of the first pair whose code is `acc` (41_huffman.md R128). -/
def hufLookup (dtbl : List (Byte × Bytes)) (acc : Bytes) : Option Byte :=
  match dtbl with
  | [] => none
  | (sym, code) :: rest => if code = acc then some sym else hufLookup rest acc

/-- One character of the bitstream (41_huffman.md R129). -/
def hufMatchChar (ch : Byte) : Cmd Unit := do
  if isBit ch = false then raise .hufBadBit
  modify (State.onHuf (fun h => { h with acc := h.acc ++ [ch] }))
  let s ← get
  match hufLookup s.work.huf.dtbl s.work.huf.acc with
  | some sym => do
    emit sym
    modify (State.onHuf (fun h => { h with acc := [] }))
  | none => if s.work.huf.acc.length = Config.CODE_MAX then raise .hufNoMatch

/-- Greedy matching of the bitstream line (41_huffman.md R129). -/
def hufMatch : Cmd Unit := do
  let s ← get
  let sc := s.work.sc
  let found ← findLF sc
  let e := found.getD s.srcLen.toNat
  modify (State.onHuf (fun h => { h with acc := [] }))
  forRange sc (e - sc) fun k => do
    let ch ← srcByte k
    hufMatchChar ch
  let s ← get
  if s.work.huf.acc ≠ [] then raise .hufNoMatch

/-- The rule of `HUF.DEC` (41_huffman.md R130). -/
def hufDecRule : Cmd Unit := do
  modify (State.setSc 0)
  modify (State.onHuf (fun h => { h with dtbl := [] }))
  let s ← get
  hufParseTable (s.srcLen.toNat + 1)
  hufMatch

/-- `HUF.DEC`: Huffman decode (41_huffman.md R130). -/
def execHufDec (s : State) : Host.Outcome State Fault Refusal :=
  .next (runCommand (encode .hufDec) hufDecRule s)

end Sys2Proof.Machine
end

