-- ==== Sys2Proof/Machine/Dispatch.lean ====
section
/-! DEFINITION. Dispatch: the meaning of each command (40_command_dispatch.md R105). -/

namespace Sys2Proof.Machine

open Sys2Proof

def exec (i : Instr) (s : State) : Host.Outcome State Fault Refusal :=
  match i with
  | .hufEnc => Sys2Proof.Machine.execHufEnc s
  | .hufDec => Sys2Proof.Machine.execHufDec s
  | .ariEnc => Sys2Proof.Machine.execAriEnc s
  | .ariDec => Sys2Proof.Machine.execAriDec s
  | .bwtEnc => Sys2Proof.Machine.execBwtEnc s
  | .bwtDec => Sys2Proof.Machine.execBwtDec s
  | .hamEnc => Sys2Proof.Machine.execHamEnc s
  | .hamDec => Sys2Proof.Machine.execHamDec s

end Sys2Proof.Machine
end

