-- ==== Sys2Proof/Machine/HostPort.lean ====
section
/-! DEFINITION. The host's side of the block: its accesses to the four registers and the two buffers (10_state.md R20 to
R24, 20_memory.md R50, R51, 40_command_dispatch.md R100), what they do while BUSY (93_implementation_defined.md U1, U2),
the reset input, and the host programs' notation `LOAD`, `MOVE`, `FLIP` (30_encoding.md R74). -/

namespace Sys2Proof.Machine

open Sys2Proof

/-- The byte offset of `CMD` (10_state.md R20). -/
abbrev offCmd : Nat := 0x00

/-- The byte offset of `STATUS` (10_state.md R20). -/
abbrev offStatus : Nat := 0x04

/-- The byte offset of `SRC_LEN` (10_state.md R20). -/
abbrev offSrcLen : Nat := 0x08

/-- The byte offset of `DST_LEN` (10_state.md R20). -/
abbrev offDstLen : Nat := 0x0C

/-- The word of the register at an offset; "any other offset in the block returns 0" (10_state.md R20). -/
def regWord (s : State) (off : Nat) : Word :=
  if off = offCmd then s.cmd
  else if off = offStatus then s.status.word
  else if off = offSrcLen then s.srcLen
  else if off = offDstLen then s.dstLen
  else 0#32

/-- A command is running (10_state.md R22). -/
def isBusy (s : State) : Bool := s.status.state == .busy

/-- The state after a host read that returned `r`. -/
def State.withReply (r : Reply) (s : State) : State := { s with reply := some r }

/-- A host read while BUSY of what U2 leaves open: any value, a fresh free word each time (log 3). -/
def busyReply (narrow : Bool) (s : State) : State :=
  let w := Config.busyRead s.freeCount
  State.withReply (if narrow then .byte (w.setWidth 8) else .word w) { s with freeCount := s.freeCount + 1 }

/-- A host write at a SRC address: any byte, any address below `SRC_CAP`, while not BUSY (20_memory.md R50). -/
def hostWriteSrc (a : Nat) (v : Byte) (s : State) : Host.Outcome State Fault Refusal :=
  if isBusy s then .refused .hostWriteWhileBusy
  else if a < s.caps.srcCap.val then .next { s with src := Memory.write s.src a v }
  else .fault (.noSuchSrcCell a)

/-- A host read at a DST address below `DST_CAP` (20_memory.md R51); while BUSY any value (U2). -/
def hostReadDst (a : Nat) (s : State) : Host.Outcome State Fault Refusal :=
  if a < s.caps.dstCap.val then
    .next (if isBusy s then busyReply true s else State.withReply (.byte (dstCell s a)) s)
  else .fault (.noSuchDstCell a)

/-- A host read of a register (10_state.md R20); `DST_LEN` while BUSY is any value (U2). -/
def hostReadReg (off : Nat) (s : State) : Host.Outcome State Fault Refusal :=
  if isBusy s && decide (off = offDstLen) then .next (busyReply false s)
  else .next (State.withReply (.word (regWord s off)) s)

/-- A write of `w` to `CMD` while not BUSY issues the command `w` (10_state.md R21, 40_command_dispatch.md R101): the
decoded command's meaning `run`, or, for a word that is no command, a command that start checks end with
`ILLEGAL(ILLEGAL_CMD)` (30_encoding.md R73). -/
def issueCommand (run : Instr → State → Host.Outcome State Fault Refusal) (w : Word) (s : State) :
    Host.Outcome State Fault Refusal :=
  match decode w with
  | .ok i => run i s
  | .error _ => .next (runCommand w (pure ()) s)

/-- A host write of a register (10_state.md R20, R21, R23): `CMD` issues a command, `SRC_LEN` is stored, a write to
`STATUS`, `DST_LEN` or any other offset is ignored. -/
def hostWriteReg (run : Instr → State → Host.Outcome State Fault Refusal) (off : Nat) (w : Word) (s : State) :
    Host.Outcome State Fault Refusal :=
  if off = offCmd then
    if isBusy s then .refused .hostWriteWhileBusy else issueCommand run w s
  else if off = offSrcLen then
    if isBusy s then .refused .hostWriteWhileBusy else .next { s with srcLen := w }
  else .next s

/-- One access from outside (40_command_dispatch.md R100), or the reset input (70_reset_and_hazards.md R280). -/
def hostAccess (run : Instr → State → Host.Outcome State Fault Refusal) (op : HostOp) (s : State) :
    Host.Outcome State Fault Refusal :=
  match op with
  | .writeSrc a v => hostWriteSrc a v s
  | .readDst a => hostReadDst a s
  | .writeReg off w => hostWriteReg run off w s
  | .readReg off => hostReadReg off s
  | .narrowReg _ => .refused .narrowRegisterAccess
  | .reset => .next (resetCore s)

/-- The state once the next access is taken from what is to come: no reply yet. -/
def State.takeHost (rest : List HostOp) (s : State) : State := { s with host := rest, reply := none }

/-! ### Host programs (30_encoding.md R74) -/

/-- The writes of a text to SRC from address `a` on. -/
def writeOps (a : Nat) (text : Bytes) : List HostOp :=
  match text with
  | [] => []
  | b :: rest => .writeSrc a b :: writeOps (a + 1) rest

/-- `LOAD "text"` (30_encoding.md R74). -/
def loadOps (text : Bytes) : List HostOp :=
  writeOps 0 text ++ [.writeReg offSrcLen (BitVec.ofNat 32 text.length)]

/-- `MOVE` in a state: DST[0..`DST_LEN`) is read and written to SRC byte by byte (30_encoding.md R74). -/
def moveOps (s : State) : List HostOp :=
  .readReg offDstLen ::
    ((List.range s.dstLen.toNat).flatMap (fun i => [.readDst i, .writeSrc i (dstCell s i)]) ++
      [.writeReg offSrcLen s.dstLen])

/-- `FLIP i` in a state: SRC[i] xor 0x01, from what was last written there (30_encoding.md R74). -/
def flipOps (s : State) (i : Nat) : List HostOp := [.writeSrc i (srcCell s i ^^^ 0x01#8)]

/-- A command line: the word is written to `CMD`, then `STATUS` is read (30_encoding.md R74). -/
def commandOps (i : Instr) : List HostOp := [.writeReg offCmd (encode i), .readReg offStatus]

end Sys2Proof.Machine
end

