-- ==== Sys2Proof/Machine/Step.lean ====
section
/-! DEFINITION. One step: the next access from outside takes effect. There is no program counter and nothing is
fetched (10_state.md R27): "the next command is whatever the host writes next". A command is one atomic step
(00_scope.md R12, 40_command_dispatch.md R106; log 7). With nothing to come the core waits (70_reset_and_hazards.md R281). -/

namespace Sys2Proof.Machine

open Sys2Proof

/-- One step of ICT-CORE. -/
def step (s : State) : Host.Outcome State Fault Refusal :=
  match s.host with
  | [] => .next s
  | op :: rest => hostAccess exec op (State.takeHost rest s)

/-- The state whose next step is the host's write to `CMD` of the word in the low `nbits` bits of `w` (log 5). -/
def State.withFetchWord (s : State) (nbits w : Nat) : State :=
  { s with host := .writeReg offCmd (BitVec.ofNat 32 (w % 2 ^ nbits)) :: s.host }

end Sys2Proof.Machine
end

