-- ==== Sys2Proof/Artifact.lean ====
section
/-! DEFINITION. The text model (00_scope.md R10), the four artifact layouts as byte strings (30_encoding.md R79 to R84),
and each command as a function from its input to its output (40_command_dispatch.md R106). The statements are made in
these terms: nothing here reads a register or a buffer, and no step of the machine uses them. -/

namespace Sys2Proof.Artifact

open Sys2Proof Sys2Proof.Machine

/-! ### The text model -/

/-- `Lines` of what follows the bytes `cur` of a line already begun (00_scope.md R10). -/
def linesFrom (cur s : Bytes) : List Bytes :=
  match s with
  | [] => if cur = [] then [] else [cur]
  | b :: rest => if b = LF then cur :: linesFrom [] rest else linesFrom (cur ++ [b]) rest

/-- `Lines(S)` (00_scope.md R10). -/
def lines (s : Bytes) : List Bytes := linesFrom [] s

/-- `Norm(S)`: each line followed by one `LF` (00_scope.md R10). -/
def norm (s : Bytes) : Bytes := (lines s).flatMap (fun l => l ++ [LF])

/-! ### The layouts -/

/-- The Huffman artifact of a code table and a bitstream (30_encoding.md R79). -/
def hufText (table : List (Byte × Bytes)) (bits : Bytes) : Bytes :=
  table.flatMap (fun e => e.1 :: (e.2 ++ [LF])) ++ delimLine ++ bits ++ [LF]

/-- The BCD digit stream (30_encoding.md R81). -/
def bcdText (digits : List Nat) : Bytes := digits.flatMap (fun d => bin d Config.BCD_W)

/-- The lines of a bound table (30_encoding.md R80). -/
def boundText (bounds : List (Byte × Nat)) : Bytes := bounds.flatMap (fun e => e.1 :: (dec e.2 ++ [LF]))

/-- The arithmetic artifact of low bounds, a total and a digit stream (30_encoding.md R80). -/
def ariText (bounds : List (Byte × Nat)) (total : Nat) (digits : List Nat) : Bytes :=
  boundText bounds ++ delimLine ++ dec total ++ [LF] ++ bcdText digits ++ [LF]

/-- The alphabet entries of a BWT block (30_encoding.md R82). -/
def alphaText (alpha : Bytes) : Bytes := alpha.flatMap (fun c => [c, LF])

/-- The text of one BWT block: alphabet, the characters of the key line, MTF bit-string (30_encoding.md R82). -/
def bwtBlockText (alpha num bits : Bytes) : Bytes := alphaText alpha ++ delimLine ++ num ++ [LF] ++ bits ++ [LF]

/-- One unit of the Hamming artifact: the two frames of a byte, high nibble first (30_encoding.md R84). -/
def hamUnit (v : Byte) : Bytes := frameChars (hamFrame (highNibble v)) ++ frameChars (hamFrame (lowNibble v))

/-! ### Engine HUF -/

/-- The code of every symbol of an input, built from the counts of `Norm(S)` (41_huffman.md R120 to R124). -/
def hufCodeOf (freq : Vector Nat 256) : Vector Bytes 256 :=
  hufCodes (hufTree (hufLeaves freq)).1 (hufTree (hufLeaves freq)).2 (Vector.replicate 256 [])

/-- The entries `HUF.ENC` writes, in ascending symbol order (41_huffman.md R126). -/
def hufEntries (code : Vector Bytes 256) : List (Byte × Bytes) :=
  allBytes.filterMap fun c => if cell code c = [] then none else some (c, cell code c)

/-- What `HUF.ENC` writes for an input (41_huffman.md R126, 30_encoding.md R79). -/
def hufArtifact (s : Bytes) : Bytes :=
  let code := hufCodeOf (countSyms (norm s))
  hufText (hufEntries code) ((norm s).flatMap (cell code))

/-- The first entry whose code is `acc` (41_huffman.md R128). -/
def firstMatch (table : List (Byte × Bytes)) (acc : Bytes) : Option Byte :=
  (table.find? (fun e => e.2 == acc)).map Prod.fst

/-- Greedy matching: the symbols emitted and the candidate left over at the end (41_huffman.md R129). -/
def greedy (table : List (Byte × Bytes)) (acc bits : Bytes) : Bytes × Bytes :=
  match bits with
  | [] => ([], acc)
  | b :: rest =>
    match firstMatch table (acc ++ [b]) with
    | some c => (c :: (greedy table [] rest).1, (greedy table [] rest).2)
    | none => greedy table (acc ++ [b]) rest

/-! ### Engine ARI -/

/-- The digits a renormalization emits and the interval it leaves (42_arithmetic.md R156). -/
def renorm (fuel low high : Nat) : List Nat × Nat × Nat :=
  match fuel with
  | 0 => ([], low, high)
  | k + 1 =>
    if sameLead low high then
      (low / Config.D17 :: (renorm k (shiftLow low) (shiftHigh high)).1, (renorm k (shiftLow low) (shiftHigh high)).2)
    else ([], low, high)

/-- Coding a symbol sequence from an interval on: the digits emitted, and the interval at the end or nothing where a
narrowing collapsed (42_arithmetic.md R153, R155, R156). -/
def ariCode (t : Nat) (cum : List CumEntry) (syms : Bytes) (low high : Nat) : List Nat × Option (Nat × Nat) :=
  match syms with
  | [] => ([], some (low, high))
  | c :: rest =>
    match cum.find? (fun x => x.sym == c) with
    | none => ariCode t cum rest low high
    | some x =>
      let nl := narrowPoint low high t x.lo
      let nh := narrowPoint low high t x.hi
      if nh ≤ nl then ([], none)
      else
        let r := renorm Config.PREC nl (nh - 1)
        let after := ariCode t cum rest r.2.1 r.2.2
        (r.1 ++ after.1, after.2)

/-- The low bounds `ARI.ENC` writes for an input (42_arithmetic.md R158). -/
def ariBounds (s : Bytes) : List (Byte × Nat) := (cumTable (countSyms (norm s))).map (fun x => (x.sym, x.lo))

/-- The coding of an input from [0, `TOP`] on (42_arithmetic.md R158). -/
def ariRun (s : Bytes) : List Nat × Option (Nat × Nat) :=
  ariCode (norm s).length (cumTable (countSyms (norm s))) (norm s) 0 Config.TOP

/-- The digit stream of an input, the midpoint's 18 digits last, or nothing where the coding collapses
(42_arithmetic.md R157, R158). -/
def ariDigits (s : Bytes) : Option (List Nat) :=
  (ariRun s).2.map fun p => (ariRun s).1 ++ spell 10 Config.PREC (p.1 + (p.2 - p.1) / 2)

/-- The artifact's lines before the digit stream (42_arithmetic.md R158). -/
def ariHeader (s : Bytes) : Bytes := boundText (ariBounds s) ++ delimLine ++ dec (norm s).length ++ [LF]

/-- A bound table with its numerals as written passes the checks of `ARI.DEC`: at most 256 entries, every bound a
numeral, leading zeros or not, and the bounds strictly ascending (42_arithmetic.md R159, 30_encoding.md R77). -/
abbrev GoodBounds (table : List (Byte × Bytes)) : Prop :=
  table.length ≤ Config.TBL_MAX ∧ (∀ e ∈ table, isNumeral e.2 = true) ∧
    table.Pairwise (fun x y => numVal x.2 < numVal y.2)

/-- The low bounds a table's numerals stand for. -/
def boundsOf (table : List (Byte × Bytes)) : List (Byte × Nat) := table.map (fun e => (e.1, numVal e.2))

/-- The last entry whose low bound is at most `idx`, with its sub-interval: its symbol, its low bound, and its high
bound, which is the next entry's low bound or, of the last entry, the total (42_arithmetic.md R160, R163). -/
def enclosing (total idx : Nat) (bounds : List (Byte × Nat)) : Option (Byte × Nat × Nat) :=
  match bounds with
  | [] => none
  | e :: rest =>
    if e.2 ≤ idx then
      match enclosing total idx rest with
      | some found => some found
      | none => some (e.1, e.2, (rest.head?.map Prod.snd).getD total)
    else none

/-- The renormalization of a decoding step: the interval, the frame and the digits not yet consumed after it, or
nothing where the digits run out (42_arithmetic.md R163). -/
def renormFrame (fuel low high v : Nat) (rest : List Nat) : Option (Nat × Nat × Nat × List Nat) :=
  match fuel with
  | 0 => some (low, high, v, rest)
  | k + 1 =>
    if sameLead low high then
      match rest with
      | [] => none
      | d :: rest' => renormFrame k (shiftLow low) (shiftHigh high) (v % Config.D17 * 10 + d) rest'
    else some (low, high, v, rest)

/-- `count` decoding steps from an interval, a frame and the digits after it: the symbols emitted, and the cause that
ended the decoding early, if one did (42_arithmetic.md R163). The frame's check against the interval, which "cannot
happen" to fail, and the collapse that R166 excludes are not among the causes. -/
def ariDecodeFrom (bounds : List (Byte × Nat)) (total count low high v : Nat) (rest : List Nat) :
    Bytes × Option Cause :=
  match count with
  | 0 => ([], none)
  | k + 1 =>
    match enclosing total (ariIndex low high v total) bounds with
    | none => ([], some .ariIndexRange)
    | some (c, lo, hi) =>
      match renormFrame Config.PREC (narrowPoint low high total lo) (narrowPoint low high total hi - 1) v rest with
      | none => ([c], some .ariStreamShort)
      | some (low', high', v', rest') =>
        (c :: (ariDecodeFrom bounds total k low' high' v' rest').1,
          (ariDecodeFrom bounds total k low' high' v' rest').2)

/-- What `ARI.DEC` makes of low bounds, a total and a digit stream of at least 18 digits (42_arithmetic.md R161, R164). -/
def ariDecode (bounds : List (Byte × Nat)) (total : Nat) (ds : List Nat) : Bytes × Option Cause :=
  ariDecodeFrom bounds total total 0 Config.TOP (number 10 (ds.take Config.PREC)) (ds.drop Config.PREC)

/-! ### Engine BWT -/

/-- The blocks of an input: 1000 symbols each, the last one shorter (43_bwt.md R190). -/
def blocksIn (fuel : Nat) (s : Bytes) : List Bytes :=
  match fuel with
  | 0 => []
  | k + 1 => if s = [] then [] else s.take Config.BLOCK :: blocksIn k (s.drop Config.BLOCK)

/-- The block partition; there are never more blocks than symbols (43_bwt.md R190). -/
def blocks (s : Bytes) : List Bytes := blocksIn s.length s

/-- The move-to-front indices of a row (43_bwt.md R197). -/
def mtfIndices (mtf row : Bytes) : List Nat :=
  match row with
  | [] => []
  | c :: rest => mtf.idxOf c :: mtfIndices (moveToFront mtf (mtf.idxOf c)) rest

/-- The row that move-to-front indices stand for (43_bwt.md R201). -/
def mtfRow (mtf : Bytes) (indices : List Nat) : Bytes :=
  match indices with
  | [] => []
  | i :: rest => symAt mtf i :: mtfRow (moveToFront mtf i) rest

/-- The MTF bit-string of indices at a width (43_bwt.md R197). -/
def mtfBits (w : Nat) (indices : List Nat) : Bytes := indices.flatMap (fun i => bin i w)

/-- What `BWT.ENC` writes for one block (43_bwt.md R198). -/
def bwtBlockArtifact (x : Bytes) : Bytes :=
  bwtBlockText (alphabet x) (dec (keyIndex (sortRotations x)))
    (mtfBits (codeWidth (alphabet x).length) (mtfIndices (alphabet x) (transformedRow x (sortRotations x))))

/-- What `BWT.ENC` writes for an input (43_bwt.md R198). -/
def bwtArtifact (s : Bytes) : Bytes := (blocks s).flatMap bwtBlockArtifact

/-- The positions the read-out visits from `p` on (43_bwt.md R204, R205). -/
def visits (next : List Nat) (count p : Nat) : List Nat :=
  match count with
  | 0 => []
  | k + 1 => p :: visits next k (next.getD p 0)

/-- The visit sequence of a row from a key index (43_bwt.md R204, R205). -/
def visitSequence (row : Bytes) (key : Nat) : List Nat :=
  visits (nextPointers row).2 row.length ((nextPointers row).2.getD key 0)

/-- The block a row and a key index stand for (43_bwt.md R202 to R204). -/
def inverseRow (row : Bytes) (key : Nat) : Bytes := (visitSequence row key).map (symAt row)

/-- A block of a BWT artifact, as its fields. -/
structure BwtBlock where
  /-- The alphabet in the order listed. -/
  alpha : Bytes
  /-- The characters of the key line. -/
  num : Bytes
  /-- The move-to-front indices. -/
  indices : List Nat
  deriving DecidableEq, Repr

/-- The text of a block's fields (30_encoding.md R82, R83). -/
def BwtBlock.text (b : BwtBlock) : Bytes :=
  bwtBlockText b.alpha b.num (mtfBits (codeWidth b.alpha.length) b.indices)

/-- The key index; leading zeros do not matter (30_encoding.md R77, 43_bwt.md R200). -/
def BwtBlock.key (b : BwtBlock) : Nat := numVal b.num

/-- The fields pass all the checks of `BWT.DEC` (43_bwt.md R199 to R201, R206). -/
def BwtBlock.valid (b : BwtBlock) : Bool :=
  decide (1 ≤ b.alpha.length) && decide (b.alpha.length ≤ Config.TBL_MAX) && isNumeral b.num &&
    decide (b.indices.length ≤ Config.BLOCK) && b.indices.all (fun i => decide (i < b.alpha.length)) &&
    (b.indices.isEmpty || decide (b.key < b.indices.length))

/-- What `BWT.DEC` emits for a block (43_bwt.md R206). -/
def BwtBlock.decoded (b : BwtBlock) : Bytes := inverseRow (mtfRow b.alpha b.indices) b.key

/-! ### Engine HAM -/

/-- What `HAM.ENC` writes for one symbol of `Norm(S)` (44_hamming.md R233). -/
def hamSymbolText (v : Byte) : Bytes := hamUnit v ++ (if v = LF then [LF] else [])

/-- What `HAM.ENC` writes for an input (44_hamming.md R233). -/
def hamArtifact (s : Bytes) : Bytes := (norm s).flatMap hamSymbolText

/-- `DecodeFrame(f)` (44_hamming.md R236). -/
def decodeFrame (f : BitVec 7) : BitVec 4 := frameNibble (correctFrame f (syndrome f))

/-- The byte of a received unit (44_hamming.md R236). -/
def decodeUnit (hi lo : BitVec 7) : Byte := joinNibbles (decodeFrame hi) (decodeFrame lo)

/-- The text of received units on one line, without its `LF`. -/
def unitsText (units : List (BitVec 7 × BitVec 7)) : Bytes :=
  units.flatMap (fun u => frameChars u.1 ++ frameChars u.2)

/-- What `HAM.DEC` emits for received units (44_hamming.md R237). -/
def decodeUnits (units : List (BitVec 7 × BitVec 7)) : Bytes := units.map (fun u => decodeUnit u.1 u.2)

/-- A frame as received: position `k` inverted, none where `k` is 0 (44_hamming.md R239). -/
def hitFrame (f : BitVec 7) (k : Fin 8) : BitVec 7 := if k = 0 then f else flipPos f k.val

/-- The text of one symbol with at most one inverted position in each of its two frames (44_hamming.md R239). -/
def hitSymbolText (v : Byte) (hit : Fin 8 × Fin 8) : Bytes :=
  frameChars (hitFrame (hamFrame (highNibble v)) hit.1) ++ frameChars (hitFrame (hamFrame (lowNibble v)) hit.2) ++
    (if v = LF then [LF] else [])

/-- The artifact of a symbol sequence with a hit, or none, in each frame (44_hamming.md R239). -/
def hitArtifact (syms : List (Byte × (Fin 8 × Fin 8))) : Bytes := syms.flatMap (fun p => hitSymbolText p.1 p.2)

end Sys2Proof.Artifact
end

