-- ==== Sys2Proof/Safety.lean ====
section
/-! DEFINITION. The terms the statements are made in: a command's input and output, the launch premises, how a command
ends and what it leaves unchanged, and the invariant of the states between two accesses. -/

namespace Sys2Proof.Safety

open Sys2Proof Sys2Proof.Machine

/-- A command's input `S` = SRC[0..`SRC_LEN`) (10_state.md R23). -/
def input (s : State) : Bytes := (List.range s.srcLen.toNat).map (srcCell s)

/-- A command's output DST[0..`DST_LEN`) (10_state.md R24). -/
def output (s : State) : Bytes := (List.range s.dstLen.toNat).map (dstCell s)

/-- The launch premise that no buffer access gets an error response and no reset comes (20_memory.md R57). -/
abbrev Quiet (s : State) : Prop := s.srcAnswers = [] ∧ s.dstAnswers = []

/-- No reset is asserted while a command runs; error responses may come. -/
abbrev NoReset (s : State) : Prop := ∀ x ∈ s.srcAnswers ++ s.dstAnswers, x.2 ≠ .reset

/-- Nothing keeps a command from reading its input: the launch premise, and `SRC_LEN` ≤ `SRC_CAP`
(40_command_dispatch.md R103). -/
abbrev Ready (s : State) : Prop := Quiet s ∧ s.srcLen.toNat ≤ s.caps.srcCap.val

/-- The command that ran from `s` to `t` changed only what a command changes: `CMD` holds its word, the working state
is clear, DST keeps every byte at and above `DST_LEN` (10_state.md R23, R35, 20_memory.md R51, 60_exceptions.md R256). -/
def CommandFrame (w : Word) (s t : State) : Prop :=
  t.cmd = w ∧ t.srcLen = s.srcLen ∧ t.src = s.src ∧ t.caps = s.caps ∧ t.host = s.host ∧ t.reply = s.reply ∧
    t.freeCount = s.freeCount ∧ t.work = Work.clear ∧ ∀ a, t.dstLen.toNat ≤ a → dstCell t a = dstCell s a

/-- `STATUS` of a completed command (40_command_dispatch.md R104). -/
def statusOk : Status := { state := .doneOk, kind := .none, cause := 0#8 }

/-- `STATUS` of a faulted command (60_exceptions.md R256). -/
def statusFault (c : Cause) : Status := { state := .doneErr, kind := c.kind, cause := c.code }

/-- The command `i` ran from `s` to `t` and completed with the output `out`. -/
def EndsOk (i : Instr) (s t : State) (out : Bytes) : Prop :=
  t.status = statusOk ∧ t.dstLen.toNat = out.length ∧ output t = out ∧ CommandFrame (encode i) s t

/-- The command `i` ran from `s` to `t` and faulted with the cause `c` after emitting `out`. -/
def EndsFault (i : Instr) (s t : State) (c : Cause) (out : Bytes) : Prop :=
  t.status = statusFault c ∧ t.dstLen.toNat = out.length ∧ output t = out ∧ CommandFrame (encode i) s t

/-- The causes each command can raise (60_exceptions.md R252, R254). -/
def mayRaise (i : Instr) (c : Cause) : Bool :=
  match i with
  | .hufEnc => c.kind == .io
  | .hufDec => c.kind == .io || (c.kind == .format && c.code.extractLsb 7 4 == 1#4)
  | .ariEnc => c.kind == .io || c.kind == .precision
  | .ariDec => c.kind == .io || (c.kind == .format && c.code.extractLsb 7 4 == 2#4)
  | .bwtEnc => c.kind == .io
  | .bwtDec => c.kind == .io || (c.kind == .format && c.code.extractLsb 7 4 == 3#4)
  | .hamEnc => c.kind == .io
  | .hamDec => c.kind == .io || (c.kind == .format && c.code.extractLsb 7 4 == 4#4)

/-- `STATUS` and `CMD` agree (10_state.md R22, R41, 30_encoding.md R73): IDLE only as reset leaves the block, DONE_OK
only after a legal word, DONE_ERR with one of the 25 pairs of R252, ILLEGAL_CMD exactly for an illegal word. BUSY is
no state between two accesses. -/
def StatusLegal (s : State) : Prop :=
  (s.status = Status.reset ∧ s.cmd = 0#32 ∧ s.dstLen = 0#32) ∨
  (s.status = statusOk ∧ legalWord s.cmd = true) ∨
  ∃ c, s.status = statusFault c ∧ (c = .illegalCmd ↔ legalWord s.cmd = false)

/-- The invariant of the states between two accesses: both buffers in canonical form and within their capacities, the
working state clear, `DST_LEN` ≤ `DST_CAP` with every output byte written, `STATUS` legal (10_state.md R22, R35, R40,
20_memory.md R50, R51, R56). -/
def Inv (s : State) : Prop :=
  Memory.wf s.src ∧ Memory.wf s.dst ∧ (∀ c ∈ s.src, c.1 < s.caps.srcCap.val) ∧
    (∀ c ∈ s.dst, c.1 < s.caps.dstCap.val) ∧ s.work = Work.clear ∧ s.dstLen.toNat ≤ s.caps.dstCap.val ∧
    (∀ a, a < s.dstLen.toNat → (Memory.read s.dst a).isSome = true) ∧ StatusLegal s

end Sys2Proof.Safety
end

