-- ==== Sys2Proof/Certificates/Slice0/Obligations.lean ====
section
/-! DEFINITION. The statements for the provers, each over every state and every input, in the terms of Safety.lean and
Artifact.lean. A docstring names the rule of spec/ a statement formalises. -/

open Sys2Proof Sys2Proof.Machine Sys2Proof.Safety Sys2Proof.Artifact

/-! ### The command word -/

/-- 30_encoding.md R72: the opcode map, and the decoder: `w` is a command iff `w[31:4]` = 0 and `w[3]` = 1. A word
decodes to a command exactly where it is that command's encoding. -/
def Obligations.DecodeAcceptsExactlyTheEightWords : Prop :=
  (∀ (w : Word) (i : Instr), decode w = .ok i ↔ w = encode i) ∧
  (∀ w : Word, (∃ i, decode w = .ok i) ↔ (w.extractLsb 31 4 = 0#28 ∧ w.extractLsb 3 3 = 1#1)) ∧
  encode .hufEnc = 0x00000008#32 ∧ encode .hufDec = 0x00000009#32 ∧ encode .ariEnc = 0x0000000A#32 ∧
  encode .ariDec = 0x0000000B#32 ∧ encode .bwtEnc = 0x0000000C#32 ∧ encode .bwtDec = 0x0000000D#32 ∧
  encode .hamEnc = 0x0000000E#32 ∧ encode .hamDec = 0x0000000F#32

/-- 30_encoding.md R71, R72: words written out bit by bit decode to the commands they stand for. -/
def Obligations.WrittenOutWordsDecode : Prop :=
  decode 0b00000000000000000000000000001000#32 = .ok .hufEnc ∧
  decode 0b00000000000000000000000000001001#32 = .ok .hufDec ∧
  decode 0b00000000000000000000000000001010#32 = .ok .ariEnc ∧
  decode 0b00000000000000000000000000001111#32 = .ok .hamDec ∧
  decode 0b00000000000000000000000000000111#32 = .error .codecBit ∧
  decode 0b00000000000000000000000000011000#32 = .error .reservedBits

/-! ### Steps: what reaches the block from outside -/

/-- 40_command_dispatch.md R101, R105: where the host's next access writes a legal word to `CMD` and no command runs,
the step is the decoded command's meaning on the state with that access taken. -/
def Obligations.StepRunsTheDecodedCommand : Prop :=
  ∀ (s : State) (w : Word) (rest : List HostOp) (i : Instr), s.host = .writeReg 0 w :: rest →
    s.status.state ≠ .busy → decode w = .ok i → i.wf = true →
    step s = exec i { s with host := rest, reply := none }

/-- 30_encoding.md R73: every other word written to `CMD` faults at once with `ILLEGAL(ILLEGAL_CMD)`, whatever
`SRC_LEN` holds; the next state is given whole. -/
def Obligations.IllegalWordFaultsAtOnce : Prop :=
  ∀ (s : State) (w : Word) (rest : List HostOp), s.host = .writeReg 0 w :: rest → s.status.state ≠ .busy →
    (w.extractLsb 31 4 ≠ 0#28 ∨ w.toNat ≤ 7) →
    step s = .next { s with
      cmd := w, status := statusFault .illegalCmd, dstLen := 0#32, work := Work.clear, host := rest, reply := none }

/-- 10_state.md R20, R22, R23: while no command runs a host read of a register returns its word, at any other offset 0,
and changes nothing else; a host write to `SRC_LEN` stores any word. A write to `STATUS`, `DST_LEN` or any other offset
is ignored in every state. -/
def Obligations.RegisterReadsAndWrites : Prop :=
  ∀ (s : State) (off : Nat) (w : Word) (rest : List HostOp),
    (s.host = .readReg off :: rest → s.status.state ≠ .busy →
      step s = .next { s with
        host := rest
        reply := some (.word (if off = 0 then s.cmd else if off = 4 then s.status.word else if off = 8 then s.srcLen
          else if off = 12 then s.dstLen else 0#32)) }) ∧
    (s.host = .writeReg 8 w :: rest → s.status.state ≠ .busy →
      step s = .next { s with srcLen := w, host := rest, reply := none }) ∧
    (s.host = .writeReg off w :: rest → off ≠ 0 → off ≠ 8 → step s = .next { s with host := rest, reply := none })

/-- 20_memory.md R50, R52: a host write at a SRC address below `SRC_CAP` changes that cell and no other, of SRC or of
DST, and no register; an address at or above `SRC_CAP` does not exist, and the model stops there (its choice, log 12). -/
def Obligations.HostWritesOneSrcCell : Prop :=
  ∀ (s : State) (a : Nat) (v : Byte) (rest : List HostOp), s.host = .writeSrc a v :: rest →
    s.status.state ≠ .busy →
    (a < s.caps.srcCap.val → ∃ t, step s = .next t ∧ srcCell t a = v ∧ (∀ b, b ≠ a → srcCell t b = srcCell s b) ∧
      t = { s with src := t.src, host := rest, reply := none }) ∧
    (s.caps.srcCap.val ≤ a → step s = .fault (.noSuchSrcCell a))

/-- 20_memory.md R51: a host read at a DST address below `DST_CAP` returns that cell while no command runs and changes
nothing else; an address at or above `DST_CAP` does not exist, and the model stops there (its choice,
log 12). -/
def Obligations.HostReadsOneDstCell : Prop :=
  ∀ (s : State) (a : Nat) (rest : List HostOp), s.host = .readDst a :: rest → s.status.state ≠ .busy →
    (a < s.caps.dstCap.val → step s = .next { s with host := rest, reply := some (.byte (dstCell s a)) }) ∧
    (s.caps.dstCap.val ≤ a → step s = .fault (.noSuchDstCell a))

/-- 70_reset_and_hazards.md R287: "A model that does expose BUSY refuses host writes in that state". A host write of
`CMD`, `SRC_LEN` or SRC while BUSY is refused. That State can hold BUSY at all is the model's choice (log 7). -/
def Obligations.BusyRefusesHostWrites : Prop :=
  ∀ (s : State) (rest : List HostOp), s.status.state = .busy →
    (∀ (w : Word), s.host = .writeReg 0 w :: rest → step s = .refused .hostWriteWhileBusy) ∧
    (∀ (w : Word), s.host = .writeReg 8 w :: rest → step s = .refused .hostWriteWhileBusy) ∧
    (∀ (a : Nat) (v : Byte), s.host = .writeSrc a v :: rest → step s = .refused .hostWriteWhileBusy)

/-- 30_encoding.md R74, 70_reset_and_hazards.md R283: the accesses of `LOAD "text"` leave the text as the input, whatever
was in SRC before, and change nothing else. -/
def Obligations.LoadPreparesTheInput : Prop :=
  ∀ (s : State) (text : Bytes) (rest : List HostOp), s.host = loadOps text ++ rest → s.status.state ≠ .busy →
    text.length ≤ s.caps.srcCap.val →
    ∃ t, Sys2Proof.core.run (text.length + 1) s = .next t ∧ input t = text ∧
      (∀ a, text.length ≤ a → srcCell t a = srcCell s a) ∧
      t = { s with src := t.src, srcLen := t.srcLen, host := rest, reply := none }

/-! ### Reset -/

/-- 10_state.md R41: the state after reset; every cell of both buffers is an arbitrary byte. -/
def Obligations.ResetValues : Prop :=
  State.reset.cmd = 0x00000000#32 ∧ State.reset.status.word = 0x00000000#32 ∧ State.reset.srcLen = 0#32 ∧
  State.reset.dstLen = 0#32 ∧ State.reset.work = Work.clear ∧
  (∀ a, srcCell State.reset a = Config.srcPowerUp a) ∧ (∀ a, dstCell State.reset a = Config.dstPowerUp a)

/-- 70_reset_and_hazards.md R280, and the model's choice of where a reset can land in a command (log 6). The reset input
between commands: the registers 0, SRC and DST kept. A command that a reset meets shows IDLE, neither DONE_OK nor
DONE_ERR, and leaves every register as reset does, SRC as it was; where the reset comes before the first write, DST
is as it was too. -/
def Obligations.ResetLeavesBuffersAlone : Prop :=
  (∀ (s : State) (rest : List HostOp), s.host = .reset :: rest →
    step s = .next { s with
      cmd := 0#32, status := Status.reset, srcLen := 0#32, dstLen := 0#32, work := Work.clear, host := rest,
      reply := none }) ∧
  (∀ (i : Instr) (s t : State), exec i s = .next t → t.status.state = .idle →
    t.cmd = 0#32 ∧ t.status = Status.reset ∧ t.srcLen = 0#32 ∧ t.dstLen = 0#32 ∧ t.work = Work.clear ∧ t.src = s.src) ∧
  (∀ (i : Instr) (s : State) (q : Answers), i = .hufEnc ∨ i = .ariEnc → s.srcAnswers = [] →
    s.dstAnswers = (0, .reset) :: q → s.srcLen.toNat ≤ s.caps.srcCap.val → 0 < s.caps.dstCap.val →
    exec i s = .next { s with
      cmd := 0#32, status := Status.reset, srcLen := 0#32, dstLen := 0#32, work := Work.clear, dstAnswers := q })

/-! ### Invariants -/

/-- The invariant holds after reset (10_state.md R41). -/
def Obligations.InvariantHoldsAtReset : Prop := Inv State.reset

/-- Every step from a state with the invariant, to any next state, keeps it: both buffers canonical and within their
capacities, the working state clear between commands, every byte of the output written, `DST_LEN` ≤ `DST_CAP`,
`STATUS` one of the legal ones and in agreement with `CMD`, BUSY never to be seen (10_state.md R22, R35, R40). -/
def Obligations.EveryStepKeepsTheInvariant : Prop :=
  ∀ (s t : State), Inv s → step s = .next t → Inv t

/-- 10_state.md R22: of a state with the invariant a host reads a `STATUS` word whose reserved bits are 0, whose `KIND`
is at most 4, and where `KIND` ≠ 0 exactly when `STATE` = DONE_ERR and `CAUSE` ≠ 0 exactly when `KIND` ≠ 0. -/
def Obligations.StatusWordIsLegal : Prop :=
  ∀ (s : State), Inv s →
    s.status.word.extractLsb 3 2 = 0#2 ∧ s.status.word.extractLsb 31 16 = 0#16 ∧
    (s.status.word.extractLsb 7 4).toNat ≤ 4 ∧ s.status.word.extractLsb 1 0 ≠ 1#2 ∧
    (s.status.word.extractLsb 7 4 ≠ 0#4 ↔ s.status.word.extractLsb 1 0 = 3#2) ∧
    (s.status.word.extractLsb 15 8 ≠ 0#8 ↔ s.status.word.extractLsb 7 4 ≠ 0#4)

/-! ### What holds of every command -/

/-- 60_exceptions.md R262: every command reaches its end: completion, fault entry, or the reset that abandons it; the
working state is clear and no command runs. -/
def Obligations.EveryCommandEnds : Prop :=
  ∀ (i : Instr) (s : State), ∃ t, exec i s = .next t ∧ t.work = Work.clear ∧
    (t.status.state = .doneOk ∨ t.status.state = .doneErr ∨ t.status.state = .idle)

/-- The frame of all eight commands, in every environment without a reset (10_state.md R23, R35, 20_memory.md R51,
R56, 60_exceptions.md R256): only `CMD`, `STATUS`, `DST_LEN` and the DST cells below `DST_LEN` change. -/
def Obligations.CommandsChangeOnlyTheirOutput : Prop :=
  ∀ (i : Instr) (s : State), NoReset s → ∃ t, exec i s = .next t ∧ CommandFrame (encode i) s t ∧
    t.dstLen.toNat ≤ s.caps.dstCap.val ∧ (t.status = statusOk ∨ ∃ c, t.status = statusFault c)

/-- 60_exceptions.md R254: which command can raise which kind, in every environment and from every state; `ARI.DEC`
never raises PRECISION (42_arithmetic.md R166), and no command raises another engine's FORMAT causes. -/
def Obligations.FaultsByCommand : Prop :=
  ∀ (i : Instr) (s t : State), exec i s = .next t →
    t.status = Status.reset ∨ t.status = statusOk ∨ ∃ c, mayRaise i c = true ∧ t.status = statusFault c

/-- 40_command_dispatch.md R103, R255: `SRC_LEN` > `SRC_CAP` faults every command before any access; the next state is
given whole. -/
def Obligations.LongInputFaultsAtStart : Prop :=
  ∀ (i : Instr) (s : State), s.caps.srcCap.val < s.srcLen.toNat →
    exec i s = .next { s with
      cmd := encode i, status := statusFault .srcRange, dstLen := 0#32, work := Work.clear }

/-- 40_command_dispatch.md R106, 70_reset_and_hazards.md R282: with no environment error a command's output and `STATUS`
depend on its input and `DST_CAP` alone: not on the commands before it, the bytes of SRC beyond the input, DST's old
contents, or anything else in the state. -/
def Obligations.OutcomeDependsOnTheInputAlone : Prop :=
  ∀ (i : Instr) (s₁ s₂ : State), Ready s₁ → Ready s₂ → input s₁ = input s₂ → s₁.caps.dstCap = s₂.caps.dstCap →
    ∃ t₁ t₂, exec i s₁ = .next t₁ ∧ exec i s₂ = .next t₂ ∧ t₁.status = t₂.status ∧ t₁.dstLen = t₂.dstLen ∧
      output t₁ = output t₂

/-- 70_reset_and_hazards.md R285: three of the decode commands emit at most as many bytes as they read, on every input
and in every environment. -/
def Obligations.DecodersEmitNoMoreThanTheyRead : Prop :=
  ∀ (i : Instr) (s t : State), i = .hufDec ∨ i = .bwtDec ∨ i = .hamDec → exec i s = .next t →
    t.dstLen.toNat ≤ s.srcLen.toNat

/-- 20_memory.md R56, 60_exceptions.md R257: where what an encode command has to write is longer than `DST_CAP` it ends
with `IO(DST_FULL)`, exactly the first `DST_CAP` bytes emitted. For `ARI.ENC` that is the artifact or, where a
narrowing collapses, the header and the digits before the collapse (42_arithmetic.md R155, R158): the byte that does not
fit comes first. -/
def Obligations.FullDstKeepsThePrefix : Prop :=
  ∀ (s : State), Ready s →
    (s.caps.dstCap.val < (hufArtifact (input s)).length → ∃ t, exec .hufEnc s = .next t ∧
      EndsFault .hufEnc s t .dstFull ((hufArtifact (input s)).take s.caps.dstCap.val)) ∧
    (∀ ds, ariDigits (input s) = some ds →
      s.caps.dstCap.val < (ariText (ariBounds (input s)) (norm (input s)).length ds).length →
      ∃ t, exec .ariEnc s = .next t ∧ EndsFault .ariEnc s t .dstFull
        ((ariText (ariBounds (input s)) (norm (input s)).length ds).take s.caps.dstCap.val)) ∧
    (ariDigits (input s) = none →
      s.caps.dstCap.val < (ariHeader (input s) ++ bcdText (ariRun (input s)).1).length →
      ∃ t, exec .ariEnc s = .next t ∧ EndsFault .ariEnc s t .dstFull
        ((ariHeader (input s) ++ bcdText (ariRun (input s)).1).take s.caps.dstCap.val)) ∧
    (s.caps.dstCap.val < (bwtArtifact (input s)).length → ∃ t, exec .bwtEnc s = .next t ∧
      EndsFault .bwtEnc s t .dstFull ((bwtArtifact (input s)).take s.caps.dstCap.val)) ∧
    (s.caps.dstCap.val < (hamArtifact (input s)).length → ∃ t, exec .hamEnc s = .next t ∧
      EndsFault .hamEnc s t .dstFull ((hamArtifact (input s)).take s.caps.dstCap.val))

/-- 20_memory.md R54: an error response to the first SRC read ends any command on a non-empty input with
`IO(SRC_READ)` and no output. (`BWT.DEC` on one byte faults before it reads, 43_bwt.md R199.) -/
def Obligations.FirstReadErrorFaults : Prop :=
  ∀ (i : Instr) (s : State) (q : Answers), s.srcAnswers = (0, .err) :: q → 0 < s.srcLen.toNat →
    s.srcLen.toNat ≤ s.caps.srcCap.val → (i = .bwtDec → 2 ≤ s.srcLen.toNat) →
    ∃ t, exec i s = .next t ∧ EndsFault i s t .srcRead [] ∧ t.dst = s.dst

/-- 20_memory.md R55: an error response to the first DST write ends an encode command that has a byte to write with
`IO(DST_WRITE)`, the cell unchanged. -/
def Obligations.FirstWriteErrorFaults : Prop :=
  ∀ (i : Instr) (s : State) (q : Answers), i = .hufEnc ∨ i = .ariEnc ∨ i = .bwtEnc ∨ i = .hamEnc →
    s.srcAnswers = [] → s.dstAnswers = (0, .err) :: q → 0 < s.caps.dstCap.val →
    s.srcLen.toNat ≤ s.caps.srcCap.val → (i = .bwtEnc ∨ i = .hamEnc → 0 < s.srcLen.toNat) →
    ∃ t, exec i s = .next t ∧ EndsFault i s t .dstWrite [] ∧ t.dst = s.dst

/-! ### Numbers and text -/

/-- 30_encoding.md R77: what is written as `dec(v)` is read back as `v`, leading zeros or not; a value above `NUM_MAX`,
an empty run and any other character are refused. -/
def Obligations.NumeralsAreReadBack : Prop :=
  (∀ (v z : Nat), v ≤ Config.NUM_MAX →
    isNumeral (List.replicate z ch0 ++ dec v) = true ∧ numVal (List.replicate z ch0 ++ dec v) = v) ∧
  (∀ v : Nat, (dec v).length = 1 ∨ (dec v).head? ≠ some ch0) ∧
  (∀ v : Nat, Config.NUM_MAX < v → isNumeral (dec v) = false) ∧
  (∀ (xs ys : Bytes) (c : Byte), c.toNat < 0x30 ∨ 0x39 < c.toNat → isNumeral (xs ++ c :: ys) = false) ∧
  isNumeral [] = false

/-- 00_scope.md R8: `bin(v, w)` has exactly `w` characters, all bits, and `val` reads it back for v < 2^w; `dec18`
has 18 characters. -/
def Obligations.BitStringsAreReadBack : Prop :=
  (∀ (v w : Nat), (bin v w).length = w ∧ isBits (bin v w) = true ∧ (v < 2 ^ w → val (bin v w) = v)) ∧
  (∀ v : Nat, v ≤ Config.TOP → (dec18 v).length = 18 ∧ numVal (dec18 v) = v)

/-- 00_scope.md R7, 30_encoding.md R83: `clog2(n)` is the least k with 2^k ≥ n; the MTF code width is at least 1, at
most 8 for an alphabet of at most 256 symbols, and holds every index. -/
def Obligations.CodeWidthHoldsEveryIndex : Prop :=
  (∀ n : Nat, 1 ≤ n → n ≤ 2 ^ clog2 n ∧ ∀ k, n ≤ 2 ^ k → clog2 n ≤ k) ∧
  (∀ n : Nat, 1 ≤ n → 1 ≤ codeWidth n ∧ n ≤ 2 ^ codeWidth n ∧ (n ≤ 256 → codeWidth n ≤ 8))

/-- 00_scope.md R10: `Lines` takes a text apart at every `LF` and nowhere else, what is left over after the last one
being one more line; `Norm(S)` is each line with one `LF`: `S` when `S` is empty or ends in `LF`, `S ++ "\n"`
otherwise. -/
def Obligations.LinesAndNorm : Prop :=
  (∀ (ls : List Bytes) (last : Bytes), (∀ l ∈ ls, LF ∉ l) → LF ∉ last →
    lines (ls.flatMap (fun l => l ++ [LF]) ++ last) = ls ++ (if last = [] then [] else [last])) ∧
  (∀ s : Bytes, norm s = (lines s).flatMap (fun l => l ++ [LF]) ∧ ∀ l ∈ lines s, LF ∉ l) ∧
  norm [] = [] ∧ (∀ s : Bytes, norm (s ++ [LF]) = s ++ [LF]) ∧
  (∀ (s : Bytes) (b : Byte), b ≠ LF → norm (s ++ [b]) = s ++ [b, LF])

/-! ### Engine HAM -/

/-- 44_hamming.md R232: the sixteen frames, and "any two different frames differ in at least three positions". -/
def Obligations.SixteenFrames : Prop :=
  ((List.range 16).map (fun q => hamFrame (BitVec.ofNat 4 q))) =
    [0b0000000#7, 0b1101001#7, 0b0101010#7, 0b1000011#7, 0b1001100#7, 0b0100101#7, 0b1100110#7, 0b0001111#7,
     0b1110000#7, 0b0011001#7, 0b1011010#7, 0b0110011#7, 0b0111100#7, 0b1010101#7, 0b0010110#7, 0b1111111#7] ∧
  ∀ p q : BitVec 4, p ≠ q →
    3 ≤ ((List.range' 1 7).filter (fun k => framePos (hamFrame p) k != framePos (hamFrame q) k)).length

/-- 44_hamming.md R234, R235, R239: one inverted position is named by the syndrome and repaired; a frame as made has
syndrome 0. -/
def Obligations.OneInvertedBitIsCorrected : Prop :=
  ∀ q : BitVec 4, syndrome (hamFrame q) = 0#3 ∧ decodeFrame (hamFrame q) = q ∧
    ∀ k : Fin 8, k ≠ 0 → (syndrome (flipPos (hamFrame q) k.val)).toNat = k.val ∧
      decodeFrame (flipPos (hamFrame q) k.val) = q

/-- 44_hamming.md R238: two inverted positions give the syndrome `j xor k` and a wrong nibble, never a fault. -/
def Obligations.TwoInvertedBitsDecodeWrong : Prop :=
  ∀ (q : BitVec 4) (j k : Fin 8), j ≠ 0 → k ≠ 0 → j ≠ k →
    (syndrome (flipPos (flipPos (hamFrame q) j.val) k.val)).toNat = (j.val ^^^ k.val) ∧
      decodeFrame (flipPos (flipPos (hamFrame q) j.val) k.val) ≠ q

/-- 44_hamming.md R233: `HAM.ENC` completes on every input whose artifact fits, with the artifact as its output. -/
def Obligations.HamEncWritesTheArtifact : Prop :=
  ∀ (s : State), Ready s → (hamArtifact (input s)).length ≤ s.caps.dstCap.val →
    ∃ t, exec .hamEnc s = .next t ∧ EndsOk .hamEnc s t (hamArtifact (input s))

/-- 44_hamming.md R237: `HAM.DEC` completes on every text made of lines of received units, the last line with or without
its `LF`, empty lines included, and emits one byte for each unit, whatever its bits are. -/
def Obligations.HamDecDecodesEveryUnit : Prop :=
  ∀ (s : State) (ls : List (List (BitVec 7 × BitVec 7))) (last : List (BitVec 7 × BitVec 7)), Ready s →
    input s = ls.flatMap (fun l => unitsText l ++ [LF]) ++ unitsText last →
    (ls.flatMap decodeUnits ++ decodeUnits last).length ≤ s.caps.dstCap.val →
    ∃ t, exec .hamDec s = .next t ∧ EndsOk .hamDec s t (ls.flatMap decodeUnits ++ decodeUnits last)

/-- 44_hamming.md R237: after good lines, a line whose length is not a multiple of 14 faults with `HAM_BAD_LENGTH`
before any of its units; otherwise a unit with a character that is no bit faults with `HAM_BAD_BIT` after the units
before it. -/
def Obligations.HamDecFaults : Prop :=
  ∀ (s : State) (ls : List (List (BitVec 7 × BitVec 7))) (line tail : Bytes), Ready s →
    input s = ls.flatMap (fun l => unitsText l ++ [LF]) ++ line ++ tail → LF ∉ line →
    (tail = [] ∨ tail.head? = some LF) →
    (line.length % 14 ≠ 0 → (ls.flatMap decodeUnits).length ≤ s.caps.dstCap.val →
      ∃ t, exec .hamDec s = .next t ∧ EndsFault .hamDec s t .hamBadLength (ls.flatMap decodeUnits)) ∧
    (∀ (us : List (BitVec 7 × BitVec 7)) (bad more : Bytes), line.length % 14 = 0 →
      line = unitsText us ++ bad ++ more → bad.length = 14 → isBits bad = false →
      (ls.flatMap decodeUnits ++ decodeUnits us).length ≤ s.caps.dstCap.val →
      ∃ t, exec .hamDec s = .next t ∧ EndsFault .hamDec s t .hamBadBit (ls.flatMap decodeUnits ++ decodeUnits us))

/-- 44_hamming.md R239, R240: for every `S`, `HAM.ENC` completes with an artifact, and `HAM.DEC` on that artifact, or on
a copy of it with at most one inverted character in each 7-character frame, completes with `Norm(S)`. -/
def Obligations.HamRoundTripWithOneErrorPerFrame : Prop :=
  ∀ (s : State), Ready s → (hamArtifact (input s)).length ≤ s.caps.dstCap.val →
    ∃ t, exec .hamEnc s = .next t ∧ t.status = statusOk ∧
      ∀ (s' : State), Ready s' →
        (input s' = output t ∨
          ∃ syms : List (Byte × (Fin 8 × Fin 8)), syms.map Prod.fst = norm (input s) ∧ input s' = hitArtifact syms) →
        (norm (input s)).length ≤ s'.caps.dstCap.val →
        ∃ t', exec .hamDec s' = .next t' ∧ EndsOk .hamDec s' t' (norm (input s))

/-! ### Engine HUF -/

/-- 41_huffman.md R122, R123. The order is by weight, then by index, so it is total, and `lowestOf` gives the member that
comes before every other. One merge of a `Q` of two distinct members or more takes out exactly two: `a`, the lowest of
`Q`, and `b`, the lowest of `Q` without `a`; the new node has `a` for its left child, `b` for its right child and the
sum of their weights, and `Q` loses both and gains the new node's index. The tree of n leaves, n at least 2, is what
n − 1 merges make of them from `Q` = 0..n−1, and its root the one member left. -/
def Obligations.LowestComesBeforeTheOthers : Prop :=
  (∀ (node : List Node),
    (∀ i j : Nat, comesBefore node i j = true ↔
      nodeWeight node i < nodeWeight node j ∨ (nodeWeight node i = nodeWeight node j ∧ i < j)) ∧
    (∀ i j : Nat, i ≠ j → (comesBefore node i j = true ↔ comesBefore node j i = false)) ∧
    (∀ (i : Nat) (q : List Nat), lowestOf node i q ∈ i :: q ∧
      ∀ j ∈ i :: q, j ≠ lowestOf node i q → comesBefore node (lowestOf node i q) j = true) ∧
    ∀ q : List Nat, q.Nodup → 2 ≤ q.length →
      ∃ a b, a ∈ q ∧ (∀ j ∈ q, j ≠ a → comesBefore node a j = true) ∧
        b ∈ q ∧ b ≠ a ∧ (∀ j ∈ q, j ≠ a → j ≠ b → comesBefore node b j = true) ∧
        mergeTwo node q =
          (node ++ [{ leaf := false, sym := 0#8, w := nodeWeight node a + nodeWeight node b, l := some a, r := some b }],
            (q.filter (fun j => j != a && j != b)) ++ [node.length])) ∧
  ∀ leaves : List Node, 2 ≤ leaves.length → ∃ node r,
    (fun p => mergeTwo p.1 p.2)^[leaves.length - 1] (leaves, List.range leaves.length) = (node, [r]) ∧
      hufTree leaves = (node, some r)

/-- 41_huffman.md R121, R123: the arena of n leaves: `NN` = 0, 2 or 2n − 1, at most 511; the root, of the total weight;
leaves first; every node the merging loop made has two different older children and their weights' sum. -/
def Obligations.HuffmanTreeShape : Prop :=
  ∀ (freq : Vector Nat 256),
    let n := (hufLeaves freq).length
    let node := (hufTree (hufLeaves freq)).1
    let root := (hufTree (hufLeaves freq)).2
    n = allBytes.countP (fun c => decide (0 < cell freq c)) ∧
    (n = 0 → node = [] ∧ root = none) ∧
    (n = 1 → node.length = 2 ∧ root = some 1) ∧
    (2 ≤ n → node.length = 2 * n - 1 ∧ root = some (2 * n - 2)) ∧
    node.length ≤ 511 ∧
    (∀ r, root = some r → nodeWeight node r = (allBytes.map (cell freq)).sum) ∧
    (∀ (i : Nat) (x : Node), node[i]? = some x → i < n → x.leaf = true) ∧
    (2 ≤ n → ∀ (i : Nat) (x : Node), node[i]? = some x → n ≤ i → x.leaf = false ∧
      ∃ a b, x.l = some a ∧ x.r = some b ∧ a < i ∧ b < i ∧ a ≠ b ∧ x.w = nodeWeight node a + nodeWeight node b)

/-- 41_huffman.md R125, of the code table of any counts: a symbol has a code exactly where its count is not 0; every
code has 1 to 255 bits; no code is a prefix of another; for two symbols or more every internal node has two children
and the code lengths satisfy Σ 2^(−len) = 1; a single symbol's code is `"0"`. -/
def Obligations.HuffmanCodesArePrefixFree : Prop :=
  ∀ (freq : Vector Nat 256),
    (∀ c : Byte, cell (hufCodeOf freq) c ≠ [] ↔ 0 < cell freq c) ∧
    (∀ c : Byte, isBits (cell (hufCodeOf freq) c) = true ∧ (cell (hufCodeOf freq) c).length ≤ 255) ∧
    (∀ c d : Byte, c ≠ d → 0 < cell freq c → 0 < cell freq d →
      ¬ (cell (hufCodeOf freq) c <+: cell (hufCodeOf freq) d)) ∧
    (2 ≤ (hufLeaves freq).length →
      (∀ x ∈ (hufTree (hufLeaves freq)).1, x.leaf = false → x.l.isSome = true ∧ x.r.isSome = true) ∧
      ((allBytes.filter (fun c => decide (0 < cell freq c))).map
        (fun c => 2 ^ (255 - (cell (hufCodeOf freq) c).length))).sum = 2 ^ 255) ∧
    ((hufLeaves freq).length = 1 → ∀ c : Byte, 0 < cell freq c → cell (hufCodeOf freq) c = [ch0])

/-- 41_huffman.md R126: `HUF.ENC` completes on every input whose artifact fits, with the artifact as its output. -/
def Obligations.HufEncWritesTheArtifact : Prop :=
  ∀ (s : State), Ready s → (hufArtifact (input s)).length ≤ s.caps.dstCap.val →
    ∃ t, exec .hufEnc s = .next t ∧ EndsOk .hufEnc s t (hufArtifact (input s))

/-- 41_huffman.md R127 to R130, R132: `HUF.DEC` completes on every table of at most 256 entries with codes of 1 to 255
bits, sorted, distinct and prefix-free or not, and every bitstream that greedy first matching uses up; what follows
the bitstream's `LF` is not read, and that `LF` may be missing. -/
def Obligations.HufDecDecodesGreedily : Prop :=
  ∀ (s : State) (table : List (Byte × Bytes)) (bits tail : Bytes), Ready s →
    input s = table.flatMap (fun e => e.1 :: (e.2 ++ [LF])) ++ delimLine ++ bits ++ tail →
    (tail = [] ∨ tail.head? = some LF) → table.length ≤ 256 →
    (∀ e ∈ table, 1 ≤ e.2.length ∧ e.2.length ≤ 255 ∧ isBits e.2 = true) → isBits bits = true →
    (greedy table [] bits).2 = [] → (greedy table [] bits).1.length ≤ s.caps.dstCap.val →
    ∃ t, exec .hufDec s = .next t ∧ EndsOk .hufDec s t (greedy table [] bits).1

/-- 41_huffman.md R129: a bitstream that greedy matching does not use up faults with `HUF_NO_MATCH`; a character that is
no bit, reached before that, with `HUF_BAD_BIT`. Either way the symbols matched so far have been emitted. -/
def Obligations.HufDecStreamFaults : Prop :=
  ∀ (s : State) (table : List (Byte × Bytes)) (bits tail : Bytes), Ready s →
    input s = table.flatMap (fun e => e.1 :: (e.2 ++ [LF])) ++ delimLine ++ bits ++ tail → table.length ≤ 256 →
    (∀ e ∈ table, 1 ≤ e.2.length ∧ e.2.length ≤ 255 ∧ isBits e.2 = true) → isBits bits = true →
    (greedy table [] bits).1.length ≤ s.caps.dstCap.val →
    ((tail = [] ∨ tail.head? = some LF) → (greedy table [] bits).2 ≠ [] →
      ∃ t, exec .hufDec s = .next t ∧ EndsFault .hufDec s t .hufNoMatch (greedy table [] bits).1) ∧
    (∀ (x : Byte) (more : Bytes), tail = x :: more → x ≠ LF → isBit x = false →
      (greedy table [] bits).2.length < 255 →
      ∃ t, exec .hufDec s = .next t ∧ EndsFault .hufDec s t .hufBadBit (greedy table [] bits).1)

/-- 41_huffman.md R127: after good entries, an entry with no code bits, a character that is no bit, or more than 255
bits faults with `HUF_BAD_ENTRY` (also as the 257th); a good 257th entry with `HUF_TABLE_FULL`; an entry without `LF`,
or no entry and no delimiter, with `HUF_NO_DELIM`. Nothing has been emitted. -/
def Obligations.HufDecTableFaults : Prop :=
  ∀ (s : State) (table : List (Byte × Bytes)) (after : Bytes), Ready s →
    input s = table.flatMap (fun e => e.1 :: (e.2 ++ [LF])) ++ after → table.length ≤ 256 →
    (∀ e ∈ table, 1 ≤ e.2.length ∧ e.2.length ≤ 255 ∧ isBits e.2 = true) →
    (∀ (sym : Byte) (code more : Bytes), after = sym :: (code ++ LF :: more) → LF ∉ code →
      ¬ (sym = chDash ∧ code = [chDash]) → (code = [] ∨ isBits code = false ∨ 255 < code.length) →
      ∃ t, exec .hufDec s = .next t ∧ EndsFault .hufDec s t .hufBadEntry []) ∧
    (∀ (sym : Byte) (code more : Bytes), after = sym :: (code ++ LF :: more) → table.length = 256 →
      1 ≤ code.length → code.length ≤ 255 → isBits code = true →
      ∃ t, exec .hufDec s = .next t ∧ EndsFault .hufDec s t .hufTableFull []) ∧
    (after = [] ∨ LF ∉ after.tail →
      ∃ t, exec .hufDec s = .next t ∧ EndsFault .hufDec s t .hufNoDelim [])

/-- 41_huffman.md R131: for every `S`, `HUF.ENC` completes with an artifact, and `HUF.DEC` on it completes with
`Norm(S)`. -/
def Obligations.HuffmanRoundTrip : Prop :=
  ∀ (s : State), Ready s → (hufArtifact (input s)).length ≤ s.caps.dstCap.val →
    ∃ t, exec .hufEnc s = .next t ∧ t.status = statusOk ∧
      ∀ (s' : State), Ready s' → input s' = output t → (norm (input s)).length ≤ s'.caps.dstCap.val →
        ∃ t', exec .hufDec s' = .next t' ∧ EndsOk .hufDec s' t' (norm (input s))

/-! ### Engine ARI -/

/-- 42_arithmetic.md R151: the sub-intervals of the cumulative table begin at 0, are contiguous and not empty, end at
the total, are in ascending symbol order and have their symbols' counts for widths; every counted symbol has one. -/
def Obligations.CumulativeTablePartitionsTheTotal : Prop :=
  ∀ (freq : Vector Nat 256),
    (∀ x, (cumTable freq).head? = some x → x.lo = 0) ∧
    (cumTable freq).IsChain (fun x y => x.hi = y.lo ∧ x.sym.toNat < y.sym.toNat) ∧
    (∀ x, (cumTable freq).getLast? = some x → x.hi = (allBytes.map (cell freq)).sum) ∧
    (∀ x ∈ cumTable freq, x.lo < x.hi ∧ x.hi = x.lo + cell freq x.sym) ∧
    ∀ c : Byte, 0 < cell freq c ↔ ∃ x ∈ cumTable freq, x.sym = c

/-- 42_arithmetic.md R154: `f(0)` = `LOW`, `f(T)` = `HIGH` + 1, `f` is non-decreasing, the new width is at least
⌊R·(chi − clo)/T⌋, and with R ≥ T no narrowing collapses. -/
def Obligations.NarrowingPartitionsTheInterval : Prop :=
  ∀ (low high t : Nat), low ≤ high → 1 ≤ t →
    narrowPoint low high t 0 = low ∧ narrowPoint low high t t = high + 1 ∧
    (∀ x y, x ≤ y → narrowPoint low high t x ≤ narrowPoint low high t y) ∧
    (∀ clo chi, clo ≤ chi →
      (high - low + 1) * (chi - clo) / t ≤ narrowPoint low high t chi - narrowPoint low high t clo) ∧
    (t ≤ high - low + 1 → ∀ clo chi, clo < chi → narrowPoint low high t clo < narrowPoint low high t chi)

/-- 42_arithmetic.md R165: `f(clo)` ≤ `V` ≤ `f(chi)` − 1 if and only if `clo` ≤ `idx` < `chi`, and `idx` ≤ T − 1. -/
def Obligations.DecoderIndexInvertsNarrowing : Prop :=
  ∀ (low high v t clo chi : Nat), low ≤ v → v ≤ high → 1 ≤ t → clo < chi → chi ≤ t →
    ((narrowPoint low high t clo ≤ v ∧ v < narrowPoint low high t chi) ↔
      (clo ≤ ariIndex low high v t ∧ ariIndex low high v t < chi)) ∧
    ariIndex low high v t ≤ t - 1

/-- 42_arithmetic.md R156: on exit the bounds differ in their leading digit, after at most 18 passes; each pass emits
one digit 0..9, keeps the interval within [0, `TOP`] and makes its width ten times itself. -/
def Obligations.RenormalizationEndsWithin18Passes : Prop :=
  ∀ (low high : Nat), low ≤ high → high ≤ Config.TOP →
    let r := renorm Config.PREC low high
    r.2.1 / Config.D17 < r.2.2 / Config.D17 ∧ r.2.2 ≤ Config.TOP ∧ r.1.length ≤ 18 ∧ (∀ d ∈ r.1, d ≤ 9) ∧
      r.2.2 - r.2.1 + 1 = (high - low + 1) * 10 ^ r.1.length

/-- 42_arithmetic.md R153, R155, R157, R158: on every input with room for its output `ARI.ENC` completes with the
artifact, the midpoint's 18 digits last, or, where a narrowing collapses, faults with `PRECISION(ARI_COLLAPSE)`, the
header and the digits so far emitted. -/
def Obligations.AriEncWritesTheArtifactOrCollapses : Prop :=
  ∀ (s : State), Ready s →
    (∀ ds, ariDigits (input s) = some ds →
      (ariText (ariBounds (input s)) (norm (input s)).length ds).length ≤ s.caps.dstCap.val →
      ∃ t, exec .ariEnc s = .next t ∧
        EndsOk .ariEnc s t (ariText (ariBounds (input s)) (norm (input s)).length ds)) ∧
    (ariDigits (input s) = none →
      (ariHeader (input s) ++ bcdText (ariRun (input s)).1).length ≤ s.caps.dstCap.val →
      ∃ t, exec .ariEnc s = .next t ∧
        EndsFault .ariEnc s t .ariCollapse (ariHeader (input s) ++ bcdText (ariRun (input s)).1))

/-- 42_arithmetic.md R159 to R164: `ARI.DEC` completes on every good table, of symbols in any order, with bounds and a
total with or without leading zeros, and every stream of at least 18 digits that `ariDecode` decodes to the end, and
emits what `ariDecode` gives; digits left over and what follows the stream's `LF` are ignored, and that `LF` may be
missing. In particular a table of one entry with low bound 0 emits its symbol `T` times, for every total and every
stream of at least 18 digits (`T` = 0: nothing). -/
def Obligations.AriDecRepeatsASingleEntry : Prop :=
  (∀ (s : State) (table : List (Byte × Bytes)) (num : Bytes) (ds : List Nat) (tail : Bytes), Ready s →
    input s = table.flatMap (fun e => e.1 :: (e.2 ++ [LF])) ++ delimLine ++ num ++ [LF] ++ bcdText ds ++ tail →
    (tail = [] ∨ tail.head? = some LF) → GoodBounds table → isNumeral num = true →
    18 ≤ ds.length → (∀ d ∈ ds, d ≤ 9) → (ariDecode (boundsOf table) (numVal num) ds).2 = none →
    (ariDecode (boundsOf table) (numVal num) ds).1.length ≤ s.caps.dstCap.val →
    ∃ t, exec .ariDec s = .next t ∧ EndsOk .ariDec s t (ariDecode (boundsOf table) (numVal num) ds).1) ∧
  (∀ (s : State) (c : Byte) (total : Nat) (ds : List Nat), Ready s → input s = ariText [(c, 0)] total ds →
    total ≤ Config.NUM_MAX → 18 ≤ ds.length → (∀ d ∈ ds, d ≤ 9) → total ≤ s.caps.dstCap.val →
    ∃ t, exec .ariDec s = .next t ∧ EndsOk .ariDec s t (List.replicate total c))

/-- 42_arithmetic.md R159: after good entries with strictly ascending bounds, a bound that is no numeral faults with
`ARI_BAD_ENTRY`; a good 257th entry with `ARI_TABLE_FULL`; a bound not above the one before with `ARI_NOT_ASCENDING`; an
entry without `LF`, or no entry and no delimiter, with `ARI_NO_DELIM`. Nothing has been emitted. -/
def Obligations.AriDecTableFaults : Prop :=
  ∀ (s : State) (bounds : List (Byte × Nat)) (after : Bytes), Ready s →
    input s = boundText bounds ++ after → bounds.length ≤ 256 →
    bounds.Pairwise (fun x y => x.2 < y.2) → (∀ e ∈ bounds, e.2 ≤ Config.NUM_MAX) →
    (∀ (sym : Byte) (num more : Bytes), after = sym :: (num ++ LF :: more) → LF ∉ num →
      ¬ (sym = chDash ∧ num = [chDash]) →
      (isNumeral num = false →
        ∃ t, exec .ariDec s = .next t ∧ EndsFault .ariDec s t .ariBadEntry []) ∧
      (isNumeral num = true → bounds.length = 256 →
        ∃ t, exec .ariDec s = .next t ∧ EndsFault .ariDec s t .ariTableFull []) ∧
      (isNumeral num = true → bounds.length < 256 → (∃ e, bounds.getLast? = some e ∧ numVal num ≤ e.2) →
        ∃ t, exec .ariDec s = .next t ∧ EndsFault .ariDec s t .ariNotAscending [])) ∧
    (after = [] ∨ LF ∉ after.tail →
      ∃ t, exec .ariDec s = .next t ∧ EndsFault .ariDec s t .ariNoDelim [])

/-- 42_arithmetic.md R160 to R164: after a good table and its delimiter, a total line that has no `LF` or is no numeral
faults with `ARI_BAD_TOTAL`; then a stream line whose length is not a multiple of 4, or with a group that is no BCD
digit, with `ARI_BAD_STREAM`; one of fewer than 18 digits with `ARI_STREAM_SHORT`; a good stream for an empty table and
a total above 0 with `ARI_INDEX_RANGE`. Nothing has been emitted. After a good table, total and stream the decoding
steps fault exactly where `ariDecode` does: an index below the first low bound with `ARI_INDEX_RANGE`, the symbols
decoded so far emitted, and a renormalization that runs out of digits with `ARI_STREAM_SHORT`, the step's own symbol
emitted too. -/
def Obligations.AriDecTotalAndStreamFaults : Prop :=
  (∀ (s : State) (bounds : List (Byte × Nat)) (num rest : Bytes), Ready s →
      input s = boundText bounds ++ delimLine ++ num ++ rest → bounds.length ≤ 256 →
      bounds.Pairwise (fun x y => x.2 < y.2) → (∀ e ∈ bounds, e.2 ≤ Config.NUM_MAX) → LF ∉ num →
      (rest = [] → ∃ t, exec .ariDec s = .next t ∧ EndsFault .ariDec s t .ariBadTotal []) ∧
      (rest.head? = some LF → isNumeral num = false →
        ∃ t, exec .ariDec s = .next t ∧ EndsFault .ariDec s t .ariBadTotal []) ∧
      (∀ (line tail : Bytes), rest = LF :: (line ++ tail) → isNumeral num = true → LF ∉ line →
        (tail = [] ∨ tail.head? = some LF) →
        (line.length % 4 ≠ 0 → ∃ t, exec .ariDec s = .next t ∧ EndsFault .ariDec s t .ariBadStream []) ∧
        (∀ (ds : List Nat) (bad more : Bytes), line.length % 4 = 0 → line = bcdText ds ++ bad ++ more →
          bad.length = 4 → (isBits bad = false ∨ 9 < val bad) →
          ∃ t, exec .ariDec s = .next t ∧ EndsFault .ariDec s t .ariBadStream []) ∧
        (∀ (ds : List Nat), line = bcdText ds → (∀ d ∈ ds, d ≤ 9) → ds.length < 18 →
          ∃ t, exec .ariDec s = .next t ∧ EndsFault .ariDec s t .ariStreamShort []) ∧
        (∀ (ds : List Nat), line = bcdText ds → (∀ d ∈ ds, d ≤ 9) → 18 ≤ ds.length → bounds = [] → 0 < numVal num →
          ∃ t, exec .ariDec s = .next t ∧ EndsFault .ariDec s t .ariIndexRange []))) ∧
  (∀ (s : State) (table : List (Byte × Bytes)) (num : Bytes) (ds : List Nat) (tail : Bytes) (c : Cause), Ready s →
    input s = table.flatMap (fun e => e.1 :: (e.2 ++ [LF])) ++ delimLine ++ num ++ [LF] ++ bcdText ds ++ tail →
    (tail = [] ∨ tail.head? = some LF) → GoodBounds table → isNumeral num = true →
    18 ≤ ds.length → (∀ d ∈ ds, d ≤ 9) → (ariDecode (boundsOf table) (numVal num) ds).2 = some c →
    (ariDecode (boundsOf table) (numVal num) ds).1.length ≤ s.caps.dstCap.val →
    ∃ t, exec .ariDec s = .next t ∧ EndsFault .ariDec s t c (ariDecode (boundsOf table) (numVal num) ds).1)

/-- 42_arithmetic.md R167: for every `S` on which `ARI.ENC` completes, `ARI.DEC` on its artifact completes with
`Norm(S)`. -/
def Obligations.ArithmeticRoundTrip : Prop :=
  ∀ (s t s' : State), Ready s → exec .ariEnc s = .next t → t.status = statusOk → Ready s' → input s' = output t →
    (norm (input s)).length ≤ s'.caps.dstCap.val →
    ∃ t', exec .ariDec s' = .next t' ∧ EndsOk .ariDec s' t' (norm (input s))

/-! ### Engine BWT -/

/-- 43_bwt.md R192, R193: `ROT` holds every offset once, in the order `Before`; the key index is the lowest sorted
position whose rotation equals the block. -/
def Obligations.RotationsAreSorted : Prop :=
  ∀ (x : Bytes), (sortRotations x).Perm (List.range x.length) ∧
    (sortRotations x).Pairwise (fun i j => rotBefore x i j = true) ∧
    (x ≠ [] → ∃ j, (sortRotations x)[keyIndex (sortRotations x)]? = some j ∧ rotation x j = x ∧
      ∀ (p k : Nat), p < keyIndex (sortRotations x) → (sortRotations x)[p]? = some k → rotation x k ≠ x)

/-- 43_bwt.md R203: `NEXT` is a permutation of 0..n−1, for every row. -/
def Obligations.NextPointersArePermutation : Prop :=
  ∀ (row : Bytes), (nextPointers row).2.Perm (List.range row.length)

/-- 43_bwt.md R207: the read-out from the key index gives the block back, periodic blocks included. -/
def Obligations.InverseRecoversTheBlock : Prop :=
  ∀ (x : Bytes), inverseRow (transformedRow x (sortRotations x)) (keyIndex (sortRotations x)) = x

/-- 43_bwt.md R205: for a block all of whose rotations are different strings the visit sequence is a permutation of
0..n−1. -/
def Obligations.PrimitiveBlockVisitsEachPositionOnce : Prop :=
  ∀ (x : Bytes), (∀ i j : Nat, i < x.length → j < x.length → i ≠ j → rotation x i ≠ rotation x j) →
    (visitSequence (transformedRow x (sortRotations x)) (keyIndex (sortRotations x))).Perm (List.range x.length)

/-- 43_bwt.md R197, R201: move-to-front decoding undoes the encoding from the same list, and every index written is
below the alphabet size. -/
def Obligations.MoveToFrontRoundTrip : Prop :=
  ∀ (mtf row : Bytes), (∀ c ∈ row, c ∈ mtf) →
    mtfRow mtf (mtfIndices mtf row) = row ∧ (mtfIndices mtf row).length = row.length ∧
      ∀ i ∈ mtfIndices mtf row, i < mtf.length

/-- 43_bwt.md R190, R198: `BWT.ENC` completes on every input whose artifact fits, with the artifact as its output. -/
def Obligations.BwtEncWritesTheArtifact : Prop :=
  ∀ (s : State), Ready s → (bwtArtifact (input s)).length ≤ s.caps.dstCap.val →
    ∃ t, exec .bwtEnc s = .next t ∧ EndsOk .bwtEnc s t (bwtArtifact (input s))

/-- 43_bwt.md R199 to R206, 30_encoding.md R77: `BWT.DEC` completes on every sequence of blocks that pass its checks,
alphabets in any order and of any use, keys with or without leading zeros, rows of any length up to 1000, an empty row
included, the last bit-string with or without its `LF`, and emits what each stands for. -/
def Obligations.BwtDecDecodesEveryBlock : Prop :=
  ∀ (s : State) (bs : List BwtBlock), Ready s →
    (input s = bs.flatMap BwtBlock.text ∨ input s ++ [LF] = bs.flatMap BwtBlock.text) →
    (∀ b ∈ bs, b.valid = true) → (bs.flatMap BwtBlock.decoded).length ≤ s.caps.dstCap.val →
    ∃ t, exec .bwtDec s = .next t ∧ EndsOk .bwtDec s t (bs.flatMap BwtBlock.decoded)

/-- 43_bwt.md R199 to R201, R206, after good blocks, whose output stays. An alphabet entry that is not one symbol and
`LF`, or the end of the source before the delimiter, faults with `BWT_BAD_ALPHABET`. Of a block with an alphabet of 1 to
256 entries, a key line that has no `LF` or is no numeral faults with `BWT_BAD_KEY`; then a bit-string with a character
that is no bit, or of a length that is no multiple of `W`, with `BWT_BAD_BITS`. Of a block written as its fields, the
last `LF` there or not, an empty alphabet or one of more than 256 entries faults with `BWT_BAD_ALPHABET`; else more than
1000 indices with `BWT_BAD_BITS`; else an index at or above the alphabet size with `BWT_BAD_INDEX`; else a key not below
the row length with `BWT_BAD_KEY`. -/
def Obligations.BwtDecFaults : Prop :=
  ∀ (s : State) (bs : List BwtBlock), Ready s → (∀ x ∈ bs, x.valid = true) →
    (bs.flatMap BwtBlock.decoded).length ≤ s.caps.dstCap.val →
    (∀ (alpha after : Bytes), input s = bs.flatMap BwtBlock.text ++ alphaText alpha ++ after →
      (alpha ≠ [] ∨ after ≠ []) → ¬ (delimLine <+: after) → (∀ c d more, after = c :: d :: more → d ≠ LF) →
      ∃ t, exec .bwtDec s = .next t ∧ EndsFault .bwtDec s t .bwtBadAlphabet (bs.flatMap BwtBlock.decoded)) ∧
    (∀ (alpha num rest : Bytes),
      input s = bs.flatMap BwtBlock.text ++ alphaText alpha ++ delimLine ++ num ++ rest →
      1 ≤ alpha.length → alpha.length ≤ 256 → LF ∉ num →
      (rest = [] ∨ (rest.head? = some LF ∧ isNumeral num = false)) →
      ∃ t, exec .bwtDec s = .next t ∧ EndsFault .bwtDec s t .bwtBadKey (bs.flatMap BwtBlock.decoded)) ∧
    (∀ (alpha num line tail : Bytes),
      input s = bs.flatMap BwtBlock.text ++ alphaText alpha ++ delimLine ++ num ++ [LF] ++ line ++ tail →
      1 ≤ alpha.length → alpha.length ≤ 256 → isNumeral num = true → LF ∉ line →
      (tail = [] ∨ tail.head? = some LF) → (isBits line = false ∨ line.length % codeWidth alpha.length ≠ 0) →
      ∃ t, exec .bwtDec s = .next t ∧ EndsFault .bwtDec s t .bwtBadBits (bs.flatMap BwtBlock.decoded)) ∧
    ∀ (b : BwtBlock) (more : Bytes),
      (input s = bs.flatMap BwtBlock.text ++ b.text ++ more ∨ input s ++ [LF] = bs.flatMap BwtBlock.text ++ b.text) →
      isNumeral b.num = true → (∀ i ∈ b.indices, i < 2 ^ codeWidth b.alpha.length) →
      ∃ t, exec .bwtDec s = .next t ∧
        (if b.alpha = [] ∨ 256 < b.alpha.length then
          EndsFault .bwtDec s t .bwtBadAlphabet (bs.flatMap BwtBlock.decoded)
        else if 1000 < b.indices.length then EndsFault .bwtDec s t .bwtBadBits (bs.flatMap BwtBlock.decoded)
        else if ∃ i ∈ b.indices, b.alpha.length ≤ i then
          EndsFault .bwtDec s t .bwtBadIndex (bs.flatMap BwtBlock.decoded)
        else b.indices ≠ [] → b.indices.length ≤ b.key →
          EndsFault .bwtDec s t .bwtBadKey (bs.flatMap BwtBlock.decoded))

/-- 43_bwt.md R208: for every `S`, `BWT.ENC` completes with an artifact, and `BWT.DEC` on it completes with exactly `S`,
byte for byte. -/
def Obligations.BwtRoundTrip : Prop :=
  ∀ (s : State), Ready s → (bwtArtifact (input s)).length ≤ s.caps.dstCap.val →
    ∃ t, exec .bwtEnc s = .next t ∧ t.status = statusOk ∧
      ∀ (s' : State), Ready s' → input s' = output t → s.srcLen.toNat ≤ s'.caps.dstCap.val →
        ∃ t', exec .bwtDec s' = .next t' ∧ EndsOk .bwtDec s' t' (input s)
end

