-- ==== Sys2Proof/Laws/State.lean ====
section
/-! SUPPORT. One lemma per field per named update of the state, each true by `rfl`, so that no proof unfolds an update. -/

namespace Sys2Proof.Machine

open Sys2Proof

@[simp] theorem State.setSc_cmd (v : Nat) (s : State) : (State.setSc v s).cmd = s.cmd := rfl
@[simp] theorem State.setSc_status (v : Nat) (s : State) : (State.setSc v s).status = s.status := rfl
@[simp] theorem State.setSc_srcLen (v : Nat) (s : State) : (State.setSc v s).srcLen = s.srcLen := rfl
@[simp] theorem State.setSc_dstLen (v : Nat) (s : State) : (State.setSc v s).dstLen = s.dstLen := rfl
@[simp] theorem State.setSc_src (v : Nat) (s : State) : (State.setSc v s).src = s.src := rfl
@[simp] theorem State.setSc_dst (v : Nat) (s : State) : (State.setSc v s).dst = s.dst := rfl
@[simp] theorem State.setSc_work (v : Nat) (s : State) : (State.setSc v s).work = { s.work with sc := v } := rfl
@[simp] theorem State.setSc_caps (v : Nat) (s : State) : (State.setSc v s).caps = s.caps := rfl
@[simp] theorem State.setSc_srcAnswers (v : Nat) (s : State) : (State.setSc v s).srcAnswers = s.srcAnswers := rfl
@[simp] theorem State.setSc_dstAnswers (v : Nat) (s : State) : (State.setSc v s).dstAnswers = s.dstAnswers := rfl
@[simp] theorem State.setSc_host (v : Nat) (s : State) : (State.setSc v s).host = s.host := rfl
@[simp] theorem State.setSc_reply (v : Nat) (s : State) : (State.setSc v s).reply = s.reply := rfl
@[simp] theorem State.setSc_freeCount (v : Nat) (s : State) : (State.setSc v s).freeCount = s.freeCount := rfl

@[simp] theorem State.onHuf_cmd (f : HufWork → HufWork) (s : State) : (State.onHuf f s).cmd = s.cmd := rfl
@[simp] theorem State.onHuf_status (f : HufWork → HufWork) (s : State) : (State.onHuf f s).status = s.status := rfl
@[simp] theorem State.onHuf_srcLen (f : HufWork → HufWork) (s : State) : (State.onHuf f s).srcLen = s.srcLen := rfl
@[simp] theorem State.onHuf_dstLen (f : HufWork → HufWork) (s : State) : (State.onHuf f s).dstLen = s.dstLen := rfl
@[simp] theorem State.onHuf_src (f : HufWork → HufWork) (s : State) : (State.onHuf f s).src = s.src := rfl
@[simp] theorem State.onHuf_dst (f : HufWork → HufWork) (s : State) : (State.onHuf f s).dst = s.dst := rfl
@[simp] theorem State.onHuf_work (f : HufWork → HufWork) (s : State) : (State.onHuf f s).work = { s.work with huf := f s.work.huf } := rfl
@[simp] theorem State.onHuf_caps (f : HufWork → HufWork) (s : State) : (State.onHuf f s).caps = s.caps := rfl
@[simp] theorem State.onHuf_srcAnswers (f : HufWork → HufWork) (s : State) : (State.onHuf f s).srcAnswers = s.srcAnswers := rfl
@[simp] theorem State.onHuf_dstAnswers (f : HufWork → HufWork) (s : State) : (State.onHuf f s).dstAnswers = s.dstAnswers := rfl
@[simp] theorem State.onHuf_host (f : HufWork → HufWork) (s : State) : (State.onHuf f s).host = s.host := rfl
@[simp] theorem State.onHuf_reply (f : HufWork → HufWork) (s : State) : (State.onHuf f s).reply = s.reply := rfl
@[simp] theorem State.onHuf_freeCount (f : HufWork → HufWork) (s : State) : (State.onHuf f s).freeCount = s.freeCount := rfl

@[simp] theorem State.onAri_cmd (f : AriWork → AriWork) (s : State) : (State.onAri f s).cmd = s.cmd := rfl
@[simp] theorem State.onAri_status (f : AriWork → AriWork) (s : State) : (State.onAri f s).status = s.status := rfl
@[simp] theorem State.onAri_srcLen (f : AriWork → AriWork) (s : State) : (State.onAri f s).srcLen = s.srcLen := rfl
@[simp] theorem State.onAri_dstLen (f : AriWork → AriWork) (s : State) : (State.onAri f s).dstLen = s.dstLen := rfl
@[simp] theorem State.onAri_src (f : AriWork → AriWork) (s : State) : (State.onAri f s).src = s.src := rfl
@[simp] theorem State.onAri_dst (f : AriWork → AriWork) (s : State) : (State.onAri f s).dst = s.dst := rfl
@[simp] theorem State.onAri_work (f : AriWork → AriWork) (s : State) : (State.onAri f s).work = { s.work with ari := f s.work.ari } := rfl
@[simp] theorem State.onAri_caps (f : AriWork → AriWork) (s : State) : (State.onAri f s).caps = s.caps := rfl
@[simp] theorem State.onAri_srcAnswers (f : AriWork → AriWork) (s : State) : (State.onAri f s).srcAnswers = s.srcAnswers := rfl
@[simp] theorem State.onAri_dstAnswers (f : AriWork → AriWork) (s : State) : (State.onAri f s).dstAnswers = s.dstAnswers := rfl
@[simp] theorem State.onAri_host (f : AriWork → AriWork) (s : State) : (State.onAri f s).host = s.host := rfl
@[simp] theorem State.onAri_reply (f : AriWork → AriWork) (s : State) : (State.onAri f s).reply = s.reply := rfl
@[simp] theorem State.onAri_freeCount (f : AriWork → AriWork) (s : State) : (State.onAri f s).freeCount = s.freeCount := rfl

@[simp] theorem State.onBwt_cmd (f : BwtWork → BwtWork) (s : State) : (State.onBwt f s).cmd = s.cmd := rfl
@[simp] theorem State.onBwt_status (f : BwtWork → BwtWork) (s : State) : (State.onBwt f s).status = s.status := rfl
@[simp] theorem State.onBwt_srcLen (f : BwtWork → BwtWork) (s : State) : (State.onBwt f s).srcLen = s.srcLen := rfl
@[simp] theorem State.onBwt_dstLen (f : BwtWork → BwtWork) (s : State) : (State.onBwt f s).dstLen = s.dstLen := rfl
@[simp] theorem State.onBwt_src (f : BwtWork → BwtWork) (s : State) : (State.onBwt f s).src = s.src := rfl
@[simp] theorem State.onBwt_dst (f : BwtWork → BwtWork) (s : State) : (State.onBwt f s).dst = s.dst := rfl
@[simp] theorem State.onBwt_work (f : BwtWork → BwtWork) (s : State) : (State.onBwt f s).work = { s.work with bwt := f s.work.bwt } := rfl
@[simp] theorem State.onBwt_caps (f : BwtWork → BwtWork) (s : State) : (State.onBwt f s).caps = s.caps := rfl
@[simp] theorem State.onBwt_srcAnswers (f : BwtWork → BwtWork) (s : State) : (State.onBwt f s).srcAnswers = s.srcAnswers := rfl
@[simp] theorem State.onBwt_dstAnswers (f : BwtWork → BwtWork) (s : State) : (State.onBwt f s).dstAnswers = s.dstAnswers := rfl
@[simp] theorem State.onBwt_host (f : BwtWork → BwtWork) (s : State) : (State.onBwt f s).host = s.host := rfl
@[simp] theorem State.onBwt_reply (f : BwtWork → BwtWork) (s : State) : (State.onBwt f s).reply = s.reply := rfl
@[simp] theorem State.onBwt_freeCount (f : BwtWork → BwtWork) (s : State) : (State.onBwt f s).freeCount = s.freeCount := rfl

@[simp] theorem State.onHam_cmd (f : HamWork → HamWork) (s : State) : (State.onHam f s).cmd = s.cmd := rfl
@[simp] theorem State.onHam_status (f : HamWork → HamWork) (s : State) : (State.onHam f s).status = s.status := rfl
@[simp] theorem State.onHam_srcLen (f : HamWork → HamWork) (s : State) : (State.onHam f s).srcLen = s.srcLen := rfl
@[simp] theorem State.onHam_dstLen (f : HamWork → HamWork) (s : State) : (State.onHam f s).dstLen = s.dstLen := rfl
@[simp] theorem State.onHam_src (f : HamWork → HamWork) (s : State) : (State.onHam f s).src = s.src := rfl
@[simp] theorem State.onHam_dst (f : HamWork → HamWork) (s : State) : (State.onHam f s).dst = s.dst := rfl
@[simp] theorem State.onHam_work (f : HamWork → HamWork) (s : State) : (State.onHam f s).work = { s.work with ham := f s.work.ham } := rfl
@[simp] theorem State.onHam_caps (f : HamWork → HamWork) (s : State) : (State.onHam f s).caps = s.caps := rfl
@[simp] theorem State.onHam_srcAnswers (f : HamWork → HamWork) (s : State) : (State.onHam f s).srcAnswers = s.srcAnswers := rfl
@[simp] theorem State.onHam_dstAnswers (f : HamWork → HamWork) (s : State) : (State.onHam f s).dstAnswers = s.dstAnswers := rfl
@[simp] theorem State.onHam_host (f : HamWork → HamWork) (s : State) : (State.onHam f s).host = s.host := rfl
@[simp] theorem State.onHam_reply (f : HamWork → HamWork) (s : State) : (State.onHam f s).reply = s.reply := rfl
@[simp] theorem State.onHam_freeCount (f : HamWork → HamWork) (s : State) : (State.onHam f s).freeCount = s.freeCount := rfl

@[simp] theorem State.clearWork_cmd (s : State) : (State.clearWork s).cmd = s.cmd := rfl
@[simp] theorem State.clearWork_status (s : State) : (State.clearWork s).status = s.status := rfl
@[simp] theorem State.clearWork_srcLen (s : State) : (State.clearWork s).srcLen = s.srcLen := rfl
@[simp] theorem State.clearWork_dstLen (s : State) : (State.clearWork s).dstLen = s.dstLen := rfl
@[simp] theorem State.clearWork_src (s : State) : (State.clearWork s).src = s.src := rfl
@[simp] theorem State.clearWork_dst (s : State) : (State.clearWork s).dst = s.dst := rfl
@[simp] theorem State.clearWork_work (s : State) : (State.clearWork s).work = Work.clear := rfl
@[simp] theorem State.clearWork_caps (s : State) : (State.clearWork s).caps = s.caps := rfl
@[simp] theorem State.clearWork_srcAnswers (s : State) : (State.clearWork s).srcAnswers = s.srcAnswers := rfl
@[simp] theorem State.clearWork_dstAnswers (s : State) : (State.clearWork s).dstAnswers = s.dstAnswers := rfl
@[simp] theorem State.clearWork_host (s : State) : (State.clearWork s).host = s.host := rfl
@[simp] theorem State.clearWork_reply (s : State) : (State.clearWork s).reply = s.reply := rfl
@[simp] theorem State.clearWork_freeCount (s : State) : (State.clearWork s).freeCount = s.freeCount := rfl

@[simp] theorem State.bumpDstLen_cmd (s : State) : (State.bumpDstLen s).cmd = s.cmd := rfl
@[simp] theorem State.bumpDstLen_status (s : State) : (State.bumpDstLen s).status = s.status := rfl
@[simp] theorem State.bumpDstLen_srcLen (s : State) : (State.bumpDstLen s).srcLen = s.srcLen := rfl
@[simp] theorem State.bumpDstLen_dstLen (s : State) : (State.bumpDstLen s).dstLen = s.dstLen + 1#32 := rfl
@[simp] theorem State.bumpDstLen_src (s : State) : (State.bumpDstLen s).src = s.src := rfl
@[simp] theorem State.bumpDstLen_dst (s : State) : (State.bumpDstLen s).dst = s.dst := rfl
@[simp] theorem State.bumpDstLen_work (s : State) : (State.bumpDstLen s).work = s.work := rfl
@[simp] theorem State.bumpDstLen_caps (s : State) : (State.bumpDstLen s).caps = s.caps := rfl
@[simp] theorem State.bumpDstLen_srcAnswers (s : State) : (State.bumpDstLen s).srcAnswers = s.srcAnswers := rfl
@[simp] theorem State.bumpDstLen_dstAnswers (s : State) : (State.bumpDstLen s).dstAnswers = s.dstAnswers := rfl
@[simp] theorem State.bumpDstLen_host (s : State) : (State.bumpDstLen s).host = s.host := rfl
@[simp] theorem State.bumpDstLen_reply (s : State) : (State.bumpDstLen s).reply = s.reply := rfl
@[simp] theorem State.bumpDstLen_freeCount (s : State) : (State.bumpDstLen s).freeCount = s.freeCount := rfl

@[simp] theorem startCommand_cmd (w : Word) (s : State) : (startCommand w s).cmd = w := rfl
@[simp] theorem startCommand_status (w : Word) (s : State) : (startCommand w s).status = s.status.started := rfl
@[simp] theorem startCommand_srcLen (w : Word) (s : State) : (startCommand w s).srcLen = s.srcLen := rfl
@[simp] theorem startCommand_dstLen (w : Word) (s : State) : (startCommand w s).dstLen = 0#32 := rfl
@[simp] theorem startCommand_src (w : Word) (s : State) : (startCommand w s).src = s.src := rfl
@[simp] theorem startCommand_dst (w : Word) (s : State) : (startCommand w s).dst = s.dst := rfl
@[simp] theorem startCommand_work (w : Word) (s : State) : (startCommand w s).work = Work.clear := rfl
@[simp] theorem startCommand_caps (w : Word) (s : State) : (startCommand w s).caps = s.caps := rfl
@[simp] theorem startCommand_srcAnswers (w : Word) (s : State) : (startCommand w s).srcAnswers = s.srcAnswers := rfl
@[simp] theorem startCommand_dstAnswers (w : Word) (s : State) : (startCommand w s).dstAnswers = s.dstAnswers := rfl
@[simp] theorem startCommand_host (w : Word) (s : State) : (startCommand w s).host = s.host := rfl
@[simp] theorem startCommand_reply (w : Word) (s : State) : (startCommand w s).reply = s.reply := rfl
@[simp] theorem startCommand_freeCount (w : Word) (s : State) : (startCommand w s).freeCount = s.freeCount := rfl

@[simp] theorem finishCommand_cmd (s : State) : (finishCommand s).cmd = s.cmd := rfl
@[simp] theorem finishCommand_status (s : State) : (finishCommand s).status = s.status.finished := rfl
@[simp] theorem finishCommand_srcLen (s : State) : (finishCommand s).srcLen = s.srcLen := rfl
@[simp] theorem finishCommand_dstLen (s : State) : (finishCommand s).dstLen = s.dstLen := rfl
@[simp] theorem finishCommand_src (s : State) : (finishCommand s).src = s.src := rfl
@[simp] theorem finishCommand_dst (s : State) : (finishCommand s).dst = s.dst := rfl
@[simp] theorem finishCommand_work (s : State) : (finishCommand s).work = Work.clear := rfl
@[simp] theorem finishCommand_caps (s : State) : (finishCommand s).caps = s.caps := rfl
@[simp] theorem finishCommand_srcAnswers (s : State) : (finishCommand s).srcAnswers = s.srcAnswers := rfl
@[simp] theorem finishCommand_dstAnswers (s : State) : (finishCommand s).dstAnswers = s.dstAnswers := rfl
@[simp] theorem finishCommand_host (s : State) : (finishCommand s).host = s.host := rfl
@[simp] theorem finishCommand_reply (s : State) : (finishCommand s).reply = s.reply := rfl
@[simp] theorem finishCommand_freeCount (s : State) : (finishCommand s).freeCount = s.freeCount := rfl

@[simp] theorem faultEntry_cmd (c : Cause) (s : State) : (faultEntry c s).cmd = s.cmd := rfl
@[simp] theorem faultEntry_status (c : Cause) (s : State) : (faultEntry c s).status = s.status.faulted c := rfl
@[simp] theorem faultEntry_srcLen (c : Cause) (s : State) : (faultEntry c s).srcLen = s.srcLen := rfl
@[simp] theorem faultEntry_dstLen (c : Cause) (s : State) : (faultEntry c s).dstLen = s.dstLen := rfl
@[simp] theorem faultEntry_src (c : Cause) (s : State) : (faultEntry c s).src = s.src := rfl
@[simp] theorem faultEntry_dst (c : Cause) (s : State) : (faultEntry c s).dst = s.dst := rfl
@[simp] theorem faultEntry_work (c : Cause) (s : State) : (faultEntry c s).work = Work.clear := rfl
@[simp] theorem faultEntry_caps (c : Cause) (s : State) : (faultEntry c s).caps = s.caps := rfl
@[simp] theorem faultEntry_srcAnswers (c : Cause) (s : State) : (faultEntry c s).srcAnswers = s.srcAnswers := rfl
@[simp] theorem faultEntry_dstAnswers (c : Cause) (s : State) : (faultEntry c s).dstAnswers = s.dstAnswers := rfl
@[simp] theorem faultEntry_host (c : Cause) (s : State) : (faultEntry c s).host = s.host := rfl
@[simp] theorem faultEntry_reply (c : Cause) (s : State) : (faultEntry c s).reply = s.reply := rfl
@[simp] theorem faultEntry_freeCount (c : Cause) (s : State) : (faultEntry c s).freeCount = s.freeCount := rfl

@[simp] theorem resetCore_cmd (s : State) : (resetCore s).cmd = 0#32 := rfl
@[simp] theorem resetCore_status (s : State) : (resetCore s).status = Status.reset := rfl
@[simp] theorem resetCore_srcLen (s : State) : (resetCore s).srcLen = 0#32 := rfl
@[simp] theorem resetCore_dstLen (s : State) : (resetCore s).dstLen = 0#32 := rfl
@[simp] theorem resetCore_src (s : State) : (resetCore s).src = s.src := rfl
@[simp] theorem resetCore_dst (s : State) : (resetCore s).dst = s.dst := rfl
@[simp] theorem resetCore_work (s : State) : (resetCore s).work = Work.clear := rfl
@[simp] theorem resetCore_caps (s : State) : (resetCore s).caps = s.caps := rfl
@[simp] theorem resetCore_srcAnswers (s : State) : (resetCore s).srcAnswers = s.srcAnswers := rfl
@[simp] theorem resetCore_dstAnswers (s : State) : (resetCore s).dstAnswers = s.dstAnswers := rfl
@[simp] theorem resetCore_host (s : State) : (resetCore s).host = s.host := rfl
@[simp] theorem resetCore_reply (s : State) : (resetCore s).reply = s.reply := rfl
@[simp] theorem resetCore_freeCount (s : State) : (resetCore s).freeCount = s.freeCount := rfl

@[simp] theorem State.withReply_cmd (r : Reply) (s : State) : (State.withReply r s).cmd = s.cmd := rfl
@[simp] theorem State.withReply_status (r : Reply) (s : State) : (State.withReply r s).status = s.status := rfl
@[simp] theorem State.withReply_srcLen (r : Reply) (s : State) : (State.withReply r s).srcLen = s.srcLen := rfl
@[simp] theorem State.withReply_dstLen (r : Reply) (s : State) : (State.withReply r s).dstLen = s.dstLen := rfl
@[simp] theorem State.withReply_src (r : Reply) (s : State) : (State.withReply r s).src = s.src := rfl
@[simp] theorem State.withReply_dst (r : Reply) (s : State) : (State.withReply r s).dst = s.dst := rfl
@[simp] theorem State.withReply_work (r : Reply) (s : State) : (State.withReply r s).work = s.work := rfl
@[simp] theorem State.withReply_caps (r : Reply) (s : State) : (State.withReply r s).caps = s.caps := rfl
@[simp] theorem State.withReply_srcAnswers (r : Reply) (s : State) : (State.withReply r s).srcAnswers = s.srcAnswers := rfl
@[simp] theorem State.withReply_dstAnswers (r : Reply) (s : State) : (State.withReply r s).dstAnswers = s.dstAnswers := rfl
@[simp] theorem State.withReply_host (r : Reply) (s : State) : (State.withReply r s).host = s.host := rfl
@[simp] theorem State.withReply_reply (r : Reply) (s : State) : (State.withReply r s).reply = some r := rfl
@[simp] theorem State.withReply_freeCount (r : Reply) (s : State) : (State.withReply r s).freeCount = s.freeCount := rfl

@[simp] theorem State.takeHost_cmd (rest : List HostOp) (s : State) : (State.takeHost rest s).cmd = s.cmd := rfl
@[simp] theorem State.takeHost_status (rest : List HostOp) (s : State) : (State.takeHost rest s).status = s.status := rfl
@[simp] theorem State.takeHost_srcLen (rest : List HostOp) (s : State) : (State.takeHost rest s).srcLen = s.srcLen := rfl
@[simp] theorem State.takeHost_dstLen (rest : List HostOp) (s : State) : (State.takeHost rest s).dstLen = s.dstLen := rfl
@[simp] theorem State.takeHost_src (rest : List HostOp) (s : State) : (State.takeHost rest s).src = s.src := rfl
@[simp] theorem State.takeHost_dst (rest : List HostOp) (s : State) : (State.takeHost rest s).dst = s.dst := rfl
@[simp] theorem State.takeHost_work (rest : List HostOp) (s : State) : (State.takeHost rest s).work = s.work := rfl
@[simp] theorem State.takeHost_caps (rest : List HostOp) (s : State) : (State.takeHost rest s).caps = s.caps := rfl
@[simp] theorem State.takeHost_srcAnswers (rest : List HostOp) (s : State) : (State.takeHost rest s).srcAnswers = s.srcAnswers := rfl
@[simp] theorem State.takeHost_dstAnswers (rest : List HostOp) (s : State) : (State.takeHost rest s).dstAnswers = s.dstAnswers := rfl
@[simp] theorem State.takeHost_host (rest : List HostOp) (s : State) : (State.takeHost rest s).host = rest := rfl
@[simp] theorem State.takeHost_reply (rest : List HostOp) (s : State) : (State.takeHost rest s).reply = none := rfl
@[simp] theorem State.takeHost_freeCount (rest : List HostOp) (s : State) : (State.takeHost rest s).freeCount = s.freeCount := rfl

@[simp] theorem State.withFetchWord_cmd (s : State) (nbits w : Nat) : (State.withFetchWord s nbits w).cmd = s.cmd := rfl
@[simp] theorem State.withFetchWord_status (s : State) (nbits w : Nat) : (State.withFetchWord s nbits w).status = s.status := rfl
@[simp] theorem State.withFetchWord_srcLen (s : State) (nbits w : Nat) : (State.withFetchWord s nbits w).srcLen = s.srcLen := rfl
@[simp] theorem State.withFetchWord_dstLen (s : State) (nbits w : Nat) : (State.withFetchWord s nbits w).dstLen = s.dstLen := rfl
@[simp] theorem State.withFetchWord_src (s : State) (nbits w : Nat) : (State.withFetchWord s nbits w).src = s.src := rfl
@[simp] theorem State.withFetchWord_dst (s : State) (nbits w : Nat) : (State.withFetchWord s nbits w).dst = s.dst := rfl
@[simp] theorem State.withFetchWord_work (s : State) (nbits w : Nat) : (State.withFetchWord s nbits w).work = s.work := rfl
@[simp] theorem State.withFetchWord_caps (s : State) (nbits w : Nat) : (State.withFetchWord s nbits w).caps = s.caps := rfl
@[simp] theorem State.withFetchWord_srcAnswers (s : State) (nbits w : Nat) : (State.withFetchWord s nbits w).srcAnswers = s.srcAnswers := rfl
@[simp] theorem State.withFetchWord_dstAnswers (s : State) (nbits w : Nat) : (State.withFetchWord s nbits w).dstAnswers = s.dstAnswers := rfl
@[simp] theorem State.withFetchWord_host (s : State) (nbits w : Nat) : (State.withFetchWord s nbits w).host = .writeReg offCmd (BitVec.ofNat 32 (w % 2 ^ nbits)) :: s.host := rfl
@[simp] theorem State.withFetchWord_reply (s : State) (nbits w : Nat) : (State.withFetchWord s nbits w).reply = s.reply := rfl
@[simp] theorem State.withFetchWord_freeCount (s : State) (nbits w : Nat) : (State.withFetchWord s nbits w).freeCount = s.freeCount := rfl

/-! A cell or the working state looked at through an update that leaves its buffer alone. -/

@[simp] theorem srcCell_setSc (v : Nat) (s : State) (a : Nat) : srcCell (State.setSc v s) a = srcCell s a := rfl
@[simp] theorem dstCell_setSc (v : Nat) (s : State) (a : Nat) : dstCell (State.setSc v s) a = dstCell s a := rfl
@[simp] theorem srcCell_onHuf (f : HufWork → HufWork) (s : State) (a : Nat) : srcCell (State.onHuf f s) a = srcCell s a := rfl
@[simp] theorem dstCell_onHuf (f : HufWork → HufWork) (s : State) (a : Nat) : dstCell (State.onHuf f s) a = dstCell s a := rfl
@[simp] theorem srcCell_onAri (f : AriWork → AriWork) (s : State) (a : Nat) : srcCell (State.onAri f s) a = srcCell s a := rfl
@[simp] theorem dstCell_onAri (f : AriWork → AriWork) (s : State) (a : Nat) : dstCell (State.onAri f s) a = dstCell s a := rfl
@[simp] theorem srcCell_onBwt (f : BwtWork → BwtWork) (s : State) (a : Nat) : srcCell (State.onBwt f s) a = srcCell s a := rfl
@[simp] theorem dstCell_onBwt (f : BwtWork → BwtWork) (s : State) (a : Nat) : dstCell (State.onBwt f s) a = dstCell s a := rfl
@[simp] theorem srcCell_onHam (f : HamWork → HamWork) (s : State) (a : Nat) : srcCell (State.onHam f s) a = srcCell s a := rfl
@[simp] theorem dstCell_onHam (f : HamWork → HamWork) (s : State) (a : Nat) : dstCell (State.onHam f s) a = dstCell s a := rfl
@[simp] theorem srcCell_clearWork (s : State) (a : Nat) : srcCell (State.clearWork s) a = srcCell s a := rfl
@[simp] theorem dstCell_clearWork (s : State) (a : Nat) : dstCell (State.clearWork s) a = dstCell s a := rfl
@[simp] theorem srcCell_bumpDstLen (s : State) (a : Nat) : srcCell (State.bumpDstLen s) a = srcCell s a := rfl
@[simp] theorem dstCell_bumpDstLen (s : State) (a : Nat) : dstCell (State.bumpDstLen s) a = dstCell s a := rfl
@[simp] theorem srcCell_startCommand (w : Word) (s : State) (a : Nat) : srcCell (startCommand w s) a = srcCell s a := rfl
@[simp] theorem dstCell_startCommand (w : Word) (s : State) (a : Nat) : dstCell (startCommand w s) a = dstCell s a := rfl
@[simp] theorem srcCell_finishCommand (s : State) (a : Nat) : srcCell (finishCommand s) a = srcCell s a := rfl
@[simp] theorem dstCell_finishCommand (s : State) (a : Nat) : dstCell (finishCommand s) a = dstCell s a := rfl
@[simp] theorem srcCell_faultEntry (c : Cause) (s : State) (a : Nat) : srcCell (faultEntry c s) a = srcCell s a := rfl
@[simp] theorem dstCell_faultEntry (c : Cause) (s : State) (a : Nat) : dstCell (faultEntry c s) a = dstCell s a := rfl
@[simp] theorem srcCell_resetCore (s : State) (a : Nat) : srcCell (resetCore s) a = srcCell s a := rfl
@[simp] theorem dstCell_resetCore (s : State) (a : Nat) : dstCell (resetCore s) a = dstCell s a := rfl
@[simp] theorem srcCell_withReply (r : Reply) (s : State) (a : Nat) : srcCell (State.withReply r s) a = srcCell s a := rfl
@[simp] theorem dstCell_withReply (r : Reply) (s : State) (a : Nat) : dstCell (State.withReply r s) a = dstCell s a := rfl
@[simp] theorem srcCell_takeHost (rest : List HostOp) (s : State) (a : Nat) : srcCell (State.takeHost rest s) a = srcCell s a := rfl
@[simp] theorem dstCell_takeHost (rest : List HostOp) (s : State) (a : Nat) : dstCell (State.takeHost rest s) a = dstCell s a := rfl

/-! The status flags. -/

@[simp] theorem Status.started_eq (st : Status) : st.started = { state := .busy, kind := .none, cause := 0#8 } := rfl
@[simp] theorem Status.finished_state (st : Status) : st.finished.state = .doneOk := rfl
@[simp] theorem Status.finished_kind (st : Status) : st.finished.kind = st.kind := rfl
@[simp] theorem Status.finished_cause (st : Status) : st.finished.cause = st.cause := rfl
@[simp] theorem Status.faulted_eq (c : Cause) (st : Status) :
    st.faulted c = { state := .doneErr, kind := c.kind, cause := c.code } := rfl

end Sys2Proof.Machine
end

