-- ==== Sys2Proof/Laws/Memory.lean ====
section
/-! SUPPORT. The buffer memories: a read after a write, and the canonical form, which every memory operation keeps. -/

namespace Sys2Proof.Machine

open Sys2Proof

/-- An entry of a memory after a write is the new one or an old one. -/
theorem Memory.mem_write {m : Memory} {a : Nat} {v : Byte} {x : Host.Cell} (h : x ∈ Memory.write m a v) :
    x = (a, v) ∨ x ∈ m := by
  induction m with
  | nil => simpa [Memory.write] using h
  | cons y rest ih =>
    obtain ⟨b, w⟩ := y
    simp only [Memory.write] at h
    split at h
    · simpa using h
    · split at h
      · rcases List.mem_cons.mp h with h | h
        · exact .inl h
        · exact .inr (List.mem_cons_of_mem _ h)
      · rcases List.mem_cons.mp h with h | h
        · exact .inr (by simp [h])
        · exact (ih h).imp id (List.mem_cons_of_mem _)

/-- A write keeps the canonical form. -/
theorem Memory.write_wf {m : Memory} (h : Memory.wf m) (a : Nat) (v : Byte) : Memory.wf (Memory.write m a v) := by
  induction m with
  | nil => simp [Memory.write, Memory.wf]
  | cons y rest ih =>
    obtain ⟨b, w⟩ := y
    obtain ⟨hhead, htail⟩ := List.pairwise_cons.mp h
    simp only [Memory.write]
    split
    · rename_i hab
      refine List.pairwise_cons.mpr ⟨fun x hx => ?_, h⟩
      rcases List.mem_cons.mp hx with rfl | hx
      · exact hab
      · exact lt_trans hab (hhead x hx)
    · split
      · rename_i hab
        exact List.pairwise_cons.mpr ⟨fun x hx => hab ▸ hhead x hx, htail⟩
      · refine List.pairwise_cons.mpr ⟨fun x hx => ?_, ih htail⟩
        rcases Memory.mem_write hx with rfl | hx
        · simp only; omega
        · exact hhead x hx

/-- The empty memory is canonical. -/
theorem Memory.nil_wf : Memory.wf [] := List.Pairwise.nil

/-- Both buffers after reset are canonical. -/
theorem reset_memory_wf : Memory.wf State.reset.src ∧ Memory.wf State.reset.dst := ⟨List.Pairwise.nil, List.Pairwise.nil⟩

/-- Every address of a memory after a write is the new one or an old one, so a write inside a capacity stays inside. -/
theorem Memory.write_below {m : Memory} {cap a : Nat} {v : Byte} (h : ∀ c ∈ m, c.1 < cap) (ha : a < cap) :
    ∀ c ∈ Memory.write m a v, c.1 < cap := by
  intro c hc
  rcases Memory.mem_write hc with rfl | hc
  · exact ha
  · exact h c hc

/-- A read after a write: the byte written at its address, the old answer everywhere else. -/
theorem Memory.read_write (m : Memory) (a b : Nat) (v : Byte) :
    Memory.read (Memory.write m a v) b = if b = a then some v else Memory.read m b := by
  induction m with
  | nil => simp [Memory.write, Memory.read]
  | cons y rest ih =>
    obtain ⟨c, w⟩ := y
    simp only [Memory.write]
    split
    · simp only [Memory.read]
    · split
      · rename_i hac
        subst hac
        by_cases hb : b = a <;> simp [Memory.read, hb]
      · rename_i hlt hne
        simp only [Memory.read, ih]
        by_cases hb : b = a
        · subst hb; simp [hne]
        · simp [hb]

end Sys2Proof.Machine
end

