-- ==== Sys2Proof/Laws/Ops.lean ====
section
/-! SUPPORT. What each shared operation can do, said once: the access primitives in every environment, and how a command
ends. -/

namespace Sys2Proof.Machine

open Sys2Proof

/-! ### The pseudocode's own statements -/

@[simp] theorem cmd_pure {α : Type} (a : α) (s : State) : (pure a : Cmd α) s = .ok a s := rfl

@[simp] theorem cmd_get (s : State) : (get : Cmd State) s = .ok s s := rfl

@[simp] theorem cmd_modify (f : State → State) (s : State) : (modify f : Cmd Unit) s = .ok () (f s) := rfl

@[simp] theorem raise_apply {α : Type} (c : Cause) (s : State) : (raise c : Cmd α) s = .error (.fault c) s := rfl

/-- A sequence runs its second part from where the first went on, and stops where the first stopped. -/
theorem cmd_bind {α β : Type} (m : Cmd α) (f : α → Cmd β) (s : State) :
    (m >>= f) s = match m s with
      | .ok a t => f a t
      | .error e t => .error e t := by
  simp only [bind, EStateM.bind]
  cases m s <;> rfl

/-- Mapping the value a statement goes on with. -/
theorem cmd_map {α β : Type} (g : α → β) (m : Cmd α) (s : State) :
    (g <$> m) s = match m s with
      | .ok a t => .ok (g a) t
      | .error e t => .error e t := by
  simp only [Functor.map, EStateM.map]
  cases m s <;> rfl

theorem cmd_bind_ok {α β : Type} {m : Cmd α} {f : α → Cmd β} {s t : State} {a : α} (h : m s = .ok a t) :
    (m >>= f) s = f a t := by rw [cmd_bind, h]

theorem cmd_bind_error {α β : Type} {m : Cmd α} {f : α → Cmd β} {s t : State} {e : Stop} (h : m s = .error e t) :
    (m >>= f) s = .error e t := by rw [cmd_bind, h]

/-- What a sequence that went on did: each part went on, the second from where the first ended. -/
theorem cmd_bind_eq_ok {α β : Type} {m : Cmd α} {f : α → Cmd β} {s u : State} {b : β} (h : (m >>= f) s = .ok b u) :
    ∃ a t, m s = .ok a t ∧ f a t = .ok b u := by
  rw [cmd_bind] at h
  split at h
  · exact ⟨_, _, ‹_›, h⟩
  · cases h

/-- What a sequence that stopped did: its first part stopped, or went on and its second part stopped. -/
theorem cmd_bind_eq_error {α β : Type} {m : Cmd α} {f : α → Cmd β} {s u : State} {e : Stop}
    (h : (m >>= f) s = .error e u) : m s = .error e u ∨ ∃ a t, m s = .ok a t ∧ f a t = .error e u := by
  rw [cmd_bind] at h
  split at h
  · exact .inr ⟨_, _, ‹_›, h⟩
  · cases h
    exact .inl ‹_›

/-! ### Buffer accesses -/

@[simp] theorem nextAnswer_nil : nextAnswer [] = (none, []) := rfl

/-- What an access takes from the environment is an entry of its answers. -/
theorem nextAnswer_mem {q : Answers} {u : Upset} {q' : Answers} (h : nextAnswer q = (some u, q')) : (0, u) ∈ q := by
  match q, h with
  | (0, v) :: rest, h => simp [nextAnswer] at h; simp [h.1]

/-- What upsets are left after an access stood in the answers before it. -/
theorem nextAnswer_rest {q q' : Answers} {r : Option Upset} (h : nextAnswer q = (r, q')) (P : Upset → Prop)
    (hq : ∀ x ∈ q, P x.2) : ∀ x ∈ q', P x.2 := by
  match q, h, hq with
  | [], h, _ => simp [nextAnswer] at h; simp [h.2]
  | (0, v) :: rest, h, hq =>
    simp only [nextAnswer, Prod.mk.injEq] at h
    exact h.2 ▸ fun x hx => hq x (List.mem_cons_of_mem _ hx)
  | (n + 1, v) :: rest, h, hq =>
    simp only [nextAnswer, Prod.mk.injEq] at h
    intro x hx
    rw [← h.2] at hx
    rcases List.mem_cons.mp hx with rfl | hx
    · exact hq (n + 1, v) (List.mem_cons_self ..)
    · exact hq x (List.mem_cons_of_mem _ hx)

/-- All a SRC read can do: the byte, `IO(SRC_READ)`, or a reset; the state but for the answers is unchanged
(20_memory.md R54, R57). -/
theorem srcByte_cases (i : Nat) (s : State) :
    ∃ q, (srcByte i s = .ok (srcCell s i) { s with srcAnswers := q } ∧ nextAnswer s.srcAnswers = (none, q)) ∨
      (srcByte i s = .error (.fault .srcRead) { s with srcAnswers := q } ∧
        nextAnswer s.srcAnswers = (some .err, q)) ∨
      (srcByte i s = .error .reset { s with srcAnswers := q } ∧ nextAnswer s.srcAnswers = (some .reset, q)) := by
  unfold srcByte
  generalize nextAnswer s.srcAnswers = r
  match r with
  | (none, q) => exact ⟨q, .inl ⟨rfl, rfl⟩⟩
  | (some .err, q) => exact ⟨q, .inr (.inl ⟨rfl, rfl⟩)⟩
  | (some .reset, q) => exact ⟨q, .inr (.inr ⟨rfl, rfl⟩)⟩

/-- All a DST write can do: the write, `IO(DST_WRITE)` with the cell unchanged, or a reset (20_memory.md R55, R57). -/
theorem dstByte_cases (a : Nat) (v : Byte) (s : State) :
    ∃ q, (dstByte a v s = .ok () { s with dst := Memory.write s.dst a v, dstAnswers := q } ∧
        nextAnswer s.dstAnswers = (none, q)) ∨
      (dstByte a v s = .error (.fault .dstWrite) { s with dstAnswers := q } ∧
        nextAnswer s.dstAnswers = (some .err, q)) ∨
      (dstByte a v s = .error .reset { s with dstAnswers := q } ∧ nextAnswer s.dstAnswers = (some .reset, q)) := by
  unfold dstByte
  generalize nextAnswer s.dstAnswers = r
  match r with
  | (none, q) => exact ⟨q, .inl ⟨rfl, rfl⟩⟩
  | (some .err, q) => exact ⟨q, .inr (.inl ⟨rfl, rfl⟩)⟩
  | (some .reset, q) => exact ⟨q, .inr (.inr ⟨rfl, rfl⟩)⟩

/-- The state after an `Emit` that went on, the answers apart. -/
def appendByte (b : Byte) (s : State) : State :=
  { s with dst := Memory.write s.dst s.dstLen.toNat b, dstLen := s.dstLen + 1#32 }

/-- All an `Emit` can do: `IO(DST_FULL)` exactly where the buffer is full; else the byte at `DST_LEN` and the cursor one
on, `IO(DST_WRITE)`, or a reset (20_memory.md R56). -/
theorem emit_cases (b : Byte) (s : State) :
    (s.dstLen.toNat = s.caps.dstCap.val ∧ emit b s = .error (.fault .dstFull) s) ∨
    (s.dstLen.toNat ≠ s.caps.dstCap.val ∧ ∃ q,
      (emit b s = .ok () { appendByte b s with dstAnswers := q } ∧ nextAnswer s.dstAnswers = (none, q)) ∨
      (emit b s = .error (.fault .dstWrite) { s with dstAnswers := q } ∧
        nextAnswer s.dstAnswers = (some .err, q)) ∨
      (emit b s = .error .reset { s with dstAnswers := q } ∧ nextAnswer s.dstAnswers = (some .reset, q))) := by
  by_cases hfull : s.dstLen.toNat = s.caps.dstCap.val
  · exact .inl ⟨hfull, by simp [emit, cmd_bind, hfull]⟩
  · refine .inr ⟨hfull, ?_⟩
    obtain ⟨q, ⟨h, hq⟩ | ⟨h, hq⟩ | ⟨h, hq⟩⟩ := dstByte_cases s.dstLen.toNat b s
    · exact ⟨q, .inl ⟨by simp [emit, cmd_bind, hfull, h, appendByte, State.bumpDstLen], hq⟩⟩
    · exact ⟨q, .inr (.inl ⟨by simp [emit, cmd_bind, hfull, h], hq⟩)⟩
    · exact ⟨q, .inr (.inr ⟨by simp [emit, cmd_bind, hfull, h], hq⟩)⟩

@[simp] theorem emitStr_nil : emitStr [] = pure () := rfl

theorem emitStr_cons (b : Byte) (bs : Bytes) : emitStr (b :: bs) = (do emit b; emitStr bs) := rfl

theorem emitStr_append (xs ys : Bytes) (s : State) : emitStr (xs ++ ys) s = (do emitStr xs; emitStr ys : Cmd Unit) s := by
  induction xs generalizing s with
  | nil => rfl
  | cons x xs ih =>
    simp only [List.cons_append, emitStr_cons, cmd_bind]
    cases emit x s with
    | error e t => rfl
    | ok a t => simpa [cmd_bind] using ih t

/-! ### Loops -/

@[simp] theorem forRange_zero (start : Nat) (body : Nat → Cmd Unit) : forRange start 0 body = pure () := rfl

theorem forRange_succ (start k : Nat) (body : Nat → Cmd Unit) :
    forRange start (k + 1) body = (do body start; forRange (start + 1) k body) := rfl

@[simp] theorem forEach_nil {α : Type} (body : α → Cmd Unit) : forEach [] body = pure () := rfl

theorem forEach_cons {α : Type} (x : α) (xs : List α) (body : α → Cmd Unit) :
    forEach (x :: xs) body = (do body x; forEach xs body) := rfl

/-! ### The life of a command -/

/-- The start checks: `ILLEGAL_CMD`, then `SRC_RANGE`, else nothing happens (40_command_dispatch.md R103). -/
theorem startChecks_apply (w : Word) (s : State) :
    startChecks w s =
      if legalWord w = false then .error (.fault .illegalCmd) s
      else if s.caps.srcCap.val < s.srcLen.toNat then .error (.fault .srcRange) s
      else .ok () s := by
  by_cases hw : legalWord w = false
  · simp [startChecks, cmd_bind, hw]
  · by_cases hs : s.caps.srcCap.val < s.srcLen.toNat
    · simp [startChecks, cmd_bind, hw, hs]
    · simp [startChecks, cmd_bind, hw, hs]

/-- A command whose start checks pass ends as its rule ends from the started state (40_command_dispatch.md R101). -/
theorem runCommand_checked {w : Word} {rule : Cmd Unit} {s : State} (hw : legalWord w = true)
    (hs : s.srcLen.toNat ≤ s.caps.srcCap.val) :
    runCommand w rule s = endCommand (rule (startCommand w s)) := by
  have h : startChecks w (startCommand w s) = .ok () (startCommand w s) := by
    rw [startChecks_apply]
    simp [hw, Nat.not_lt.mpr hs]
  simp [runCommand, cmd_bind, h]

@[simp] theorem endCommand_ok (s : State) : endCommand (.ok () s) = finishCommand s := rfl

@[simp] theorem endCommand_fault (c : Cause) (s : State) : endCommand (.error (.fault c) s) = faultEntry c s := rfl

@[simp] theorem endCommand_reset (s : State) : endCommand (.error .reset s) = resetCore s := rfl

/-- All a command can do: it ends in finish, fault entry or reset, from a state its checks and rule left. -/
theorem runCommand_cases (w : Word) (rule : Cmd Unit) (s : State) :
    ∃ t, runCommand w rule s = finishCommand t ∨ (∃ c, runCommand w rule s = faultEntry c t) ∨
      runCommand w rule s = resetCore t := by
  unfold runCommand
  cases ((do startChecks w; rule : Cmd Unit) (startCommand w s)) with
  | ok a t => exact ⟨t, .inl rfl⟩
  | error e t =>
    cases e with
    | fault c => exact ⟨t, .inr (.inl ⟨c, rfl⟩)⟩
    | reset => exact ⟨t, .inr (.inr rfl)⟩

/-- Every command's word is legal (30_encoding.md R72). -/
@[simp] theorem legalWord_encode (i : Instr) : legalWord (encode i) = true := by
  cases i <;> decide

/-! ### Steps -/

/-- All a step can do: nothing where nothing is to come, else the next access. -/
theorem step_cases (s : State) :
    (s.host = [] ∧ step s = .next s) ∨
    ∃ op rest, s.host = op :: rest ∧ step s = hostAccess exec op (State.takeHost rest s) := by
  unfold step
  cases h : s.host with
  | nil => exact .inl ⟨rfl, rfl⟩
  | cons op rest => exact .inr ⟨op, rest, rfl, rfl⟩

/-- All a host access that answers a next state can do: one register or SRC cell written, a reply, a reset, or a
command. -/
theorem hostAccess_next_cases {run : Instr → State → Host.Outcome State Fault Refusal} {op : HostOp} {s t : State}
    (h : hostAccess run op s = .next t) :
    t = s ∨ (∃ r, t = State.withReply r s ∨ t = State.withReply r { s with freeCount := s.freeCount + 1 }) ∨
    (isBusy s = false ∧ ((∃ a v, a < s.caps.srcCap.val ∧ t = { s with src := Memory.write s.src a v }) ∨
      (∃ w, t = { s with srcLen := w }) ∨ (∃ i w, decode w = .ok i ∧ run i s = .next t) ∨
      (∃ w e, decode w = .error e ∧ t = runCommand w (pure ()) s))) ∨
    t = resetCore s := by
  cases op with
  | writeSrc a v =>
    simp only [hostAccess, hostWriteSrc] at h
    split at h
    · cases h
    · split at h
      · cases h
        exact .inr (.inr (.inl ⟨by simpa using ‹¬isBusy s = true›, .inl ⟨a, v, ‹_›, rfl⟩⟩))
      · cases h
  | readDst a =>
    simp only [hostAccess, hostReadDst] at h
    split at h
    · cases h
      split
      · exact .inr (.inl ⟨_, .inr rfl⟩)
      · exact .inr (.inl ⟨_, .inl rfl⟩)
    · cases h
  | writeReg off w =>
    simp only [hostAccess, hostWriteReg] at h
    split at h
    · split at h
      · cases h
      · have hb : isBusy s = false := by simpa using ‹¬isBusy s = true›
        simp only [issueCommand] at h
        split at h
        · exact .inr (.inr (.inl ⟨hb, .inr (.inr (.inl ⟨_, w, ‹_›, h⟩))⟩))
        · cases h
          exact .inr (.inr (.inl ⟨hb, .inr (.inr (.inr ⟨w, _, ‹_›, rfl⟩))⟩))
    · split at h
      · split at h
        · cases h
        · cases h
          exact .inr (.inr (.inl ⟨by simpa using ‹¬isBusy s = true›, .inr (.inl ⟨w, rfl⟩)⟩))
      · cases h
        exact .inl rfl
  | readReg off =>
    simp only [hostAccess, hostReadReg] at h
    split at h
    · cases h
      exact .inr (.inl ⟨_, .inr rfl⟩)
    · cases h
      exact .inr (.inl ⟨_, .inl rfl⟩)
  | narrowReg off => cases h
  | reset =>
    cases h
    exact .inr (.inr (.inr rfl))

end Sys2Proof.Machine
end

