-- ==== Sys2Proof/Laws/PerInstr.lean ====
section
/-! SUPPORT. The statements made of every command, one lemma per constructor. -/

namespace Sys2Proof.Laws.Encoding

open Sys2Proof

/-- A command's word is one of the legal words, decodes to the command, and is what the opcode table's row of 32 bits
gives (30_encoding.md R71, R72). -/
def Statement (i : Instr) : Prop :=
  i.wf = true ∧ legalWord (encode i) = true ∧ decode (encode i) = .ok i ∧
    decodeTableWord 32 (encode i).toNat = some i

theorem hufEnc : Statement .hufEnc := by unfold Statement; decide
theorem hufDec : Statement .hufDec := by unfold Statement; decide
theorem ariEnc : Statement .ariEnc := by unfold Statement; decide
theorem ariDec : Statement .ariDec := by unfold Statement; decide
theorem bwtEnc : Statement .bwtEnc := by unfold Statement; decide
theorem bwtDec : Statement .bwtDec := by unfold Statement; decide
theorem hamEnc : Statement .hamEnc := by unfold Statement; decide
theorem hamDec : Statement .hamDec := by unfold Statement; decide

end Sys2Proof.Laws.Encoding
end

