-- ==== Sys2Proof/Laws/Quiet.lean ====
section
/-! SUPPORT. The shared operations under the launch premise that no access gets an error response
(20_memory.md R57): reads leave the state alone and are functions of the SRC cells; emitting appends to the output. -/

namespace Sys2Proof.Machine

open Sys2Proof Sys2Proof.Safety

/-! ### Reading -/

theorem srcByte_quiet {s : State} (h : s.srcAnswers = []) (i : Nat) : srcByte i s = .ok (srcCell s i) s := by
  have hq : nextAnswer s.srcAnswers = (none, s.srcAnswers) := by rw [h]; rfl
  unfold srcByte
  rw [hq]

theorem matchAt_quiet {s : State} (h : s.srcAnswers = []) (pat : Bytes) (a : Nat) :
    matchAt a pat s = .ok (decide ((List.range' a pat.length).map (srcCell s) = pat)) s := by
  induction pat generalizing a with
  | nil => rfl
  | cons c rest ih =>
    simp only [matchAt, cmd_bind, srcByte_quiet h]
    by_cases hc : srcCell s a = c
    · simp [hc, ih, List.range'_succ]
    · simp [hc, List.range'_succ]

theorem atDelim_quiet {s : State} (h : s.srcAnswers = []) :
    atDelim s = .ok (decide (s.work.sc + 3 ≤ s.srcLen.toNat ∧
      (List.range' s.work.sc 3).map (srcCell s) = delimLine)) s := by
  by_cases hlen : s.work.sc + 3 ≤ s.srcLen.toNat
  · simp only [atDelim, cmd_bind, cmd_get, hlen, if_true, true_and]
    exact matchAt_quiet h delimLine s.work.sc
  · simp [atDelim, cmd_bind, hlen]

theorem findLFIn_quiet {s : State} (h : s.srcAnswers = []) (count a : Nat) :
    findLFIn count a s = .ok ((List.range' a count).find? (fun e => decide (srcCell s e = LF))) s := by
  induction count generalizing a with
  | zero => rfl
  | succ k ih =>
    simp only [findLFIn, cmd_bind, srcByte_quiet h]
    by_cases hb : srcCell s a = LF
    · simp [hb, List.range'_succ]
    · simp [hb, ih, List.range'_succ]

theorem findLF_quiet {s : State} (h : s.srcAnswers = []) (a : Nat) :
    findLF a s = .ok ((List.range' a (s.srcLen.toNat - a)).find? (fun e => decide (srcCell s e = LF))) s := by
  simp only [findLF, cmd_bind, cmd_get]
  exact findLFIn_quiet h _ a

theorem bytesIn_quiet {s : State} (h : s.srcAnswers = []) (count a : Nat) :
    bytesIn count a s = .ok ((List.range' a count).map (srcCell s)) s := by
  induction count generalizing a with
  | zero => rfl
  | succ k ih => simp only [bytesIn, cmd_bind, srcByte_quiet h, ih, cmd_pure, List.range'_succ, List.map_cons]

theorem bytesOf_quiet {s : State} (h : s.srcAnswers = []) (a e : Nat) :
    bytesOf a e s = .ok ((List.range' a (e - a)).map (srcCell s)) s := bytesIn_quiet h (e - a) a

theorem normSym_quiet {s : State} (h : s.srcAnswers = []) (i : Nat) :
    normSym i s = .ok (if i < s.srcLen.toNat then srcCell s i else LF) s := by
  by_cases hi : i < s.srcLen.toNat <;> simp [normSym, cmd_bind, hi, srcByte_quiet h]

theorem normLen_quiet {s : State} (h : s.srcAnswers = []) :
    normLen s = .ok (if s.srcLen.toNat = 0 ∨ srcCell s (s.srcLen.toNat - 1) = LF then s.srcLen.toNat
      else s.srcLen.toNat + 1) s := by
  by_cases h0 : s.srcLen.toNat = 0
  · simp [normLen, cmd_bind, h0]
  · by_cases hb : srcCell s (s.srcLen.toNat - 1) = LF <;> simp [normLen, cmd_bind, h0, hb, srcByte_quiet h]

/-- A run of SRC cells below `SRC_LEN` is a part of the input. -/
theorem cells_eq_input (s : State) (a n : Nat) (h : a + n ≤ s.srcLen.toNat) :
    (List.range' a n).map (srcCell s) = ((input s).drop a).take n := by
  apply List.ext_getElem
  · simp only [input, List.length_map, List.length_range', List.length_take, List.length_drop, List.length_range]
    omega
  · intro i h1 h2
    simp [input]

@[simp] theorem input_length (s : State) : (input s).length = s.srcLen.toNat := by simp [input]

@[simp] theorem output_length (s : State) : (output s).length = s.dstLen.toNat := by simp [output]

/-! ### Emitting -/

/-- The state after a string was emitted whole under the launch premise. -/
def appendBytes (bs : Bytes) (s : State) : State :=
  match bs with
  | [] => s
  | b :: rest => appendBytes rest (appendByte b s)

theorem emit_quiet {s : State} (h : s.dstAnswers = []) (room : s.dstLen.toNat ≠ s.caps.dstCap.val) (b : Byte) :
    emit b s = .ok () (appendByte b s) := by
  rcases emit_cases b s with ⟨hf, -⟩ | ⟨-, q, ⟨h1, hq⟩ | ⟨h1, hq⟩ | ⟨h1, hq⟩⟩
  · exact absurd hf room
  · rw [h, nextAnswer_nil] at hq
    cases hq
    rw [h1]
    simp [appendByte, ← h]
  · rw [h, nextAnswer_nil] at hq
    cases hq
  · rw [h, nextAnswer_nil] at hq
    cases hq

@[simp] theorem appendByte_dstAnswers (b : Byte) (s : State) : (appendByte b s).dstAnswers = s.dstAnswers := rfl
@[simp] theorem appendByte_caps (b : Byte) (s : State) : (appendByte b s).caps = s.caps := rfl

/-- The cursor after one byte, where there is room: no wrap. -/
theorem appendByte_dstLen {s : State} (room : s.dstLen.toNat < s.caps.dstCap.val) (b : Byte) :
    (appendByte b s).dstLen.toNat = s.dstLen.toNat + 1 := by
  have := s.caps.dstCap.isLt
  simp only [appendByte, BitVec.toNat_add, BitVec.toNat_ofNat]
  omega

/-- A string is emitted whole where there is room for it (00_scope.md R9, 20_memory.md R56). -/
theorem emitStr_quiet {bs : Bytes} {s : State} (h : s.dstAnswers = [])
    (room : s.dstLen.toNat + bs.length ≤ s.caps.dstCap.val) : emitStr bs s = .ok () (appendBytes bs s) := by
  induction bs generalizing s with
  | nil => rfl
  | cons b rest ih =>
    simp only [List.length_cons] at room
    rw [emitStr_cons, cmd_bind, emit_quiet h (by omega)]
    exact ih (s := appendByte b s) h (by rw [appendByte_dstLen (by omega)]; simp only [appendByte_caps]; omega)

/-- Where there is no room for all of a string, what fits is emitted and `IO(DST_FULL)` raised (20_memory.md R56). -/
theorem emitStr_overflow {bs : Bytes} {s : State} (h : s.dstAnswers = []) (hle : s.dstLen.toNat ≤ s.caps.dstCap.val)
    (full : s.caps.dstCap.val < s.dstLen.toNat + bs.length) :
    emitStr bs s = .error (.fault .dstFull) (appendBytes (bs.take (s.caps.dstCap.val - s.dstLen.toNat)) s) := by
  induction bs generalizing s with
  | nil => simp at full; omega
  | cons b rest ih =>
    by_cases hf : s.dstLen.toNat = s.caps.dstCap.val
    · simp [emitStr_cons, cmd_bind, emit, hf, appendBytes]
    · have hlt : s.dstLen.toNat < s.caps.dstCap.val := by omega
      rw [emitStr_cons, cmd_bind, emit_quiet h hf]
      have hstep := appendByte_dstLen hlt b
      simp only [List.length_cons] at full
      rw [show s.caps.dstCap.val - s.dstLen.toNat = (s.caps.dstCap.val - (s.dstLen.toNat + 1)) + 1 by omega]
      simp only [List.take_succ_cons, appendBytes]
      have := ih (s := appendByte b s) h (by rw [hstep]; exact hlt) (by rw [hstep]; simp only [appendByte_caps]; omega)
      rwa [hstep] at this

/-- A DST cell after one byte was appended. -/
theorem dstCell_appendByte (b : Byte) (s : State) (a : Nat) :
    dstCell (appendByte b s) a = if a = s.dstLen.toNat then b else dstCell s a := by
  simp only [dstCell, appendByte, Memory.read_write]
  by_cases ha : a = s.dstLen.toNat <;> simp [ha]

/-- One byte appended to the output, where there is room. -/
theorem output_appendByte {s : State} (room : s.dstLen.toNat < s.caps.dstCap.val) (b : Byte) :
    output (appendByte b s) = output s ++ [b] := by
  simp only [output, appendByte_dstLen room, List.range_succ, List.map_append, List.map_cons, List.map_nil]
  congr 1
  · apply List.map_congr_left
    intro a ha
    have : a ≠ s.dstLen.toNat := by have := List.mem_range.mp ha; omega
    simp [dstCell_appendByte, this]
  · simp [dstCell_appendByte]

/-- What a string emitted whole leaves: the output longer by it, the cursor after it, the cells beyond as before. -/
theorem appendBytes_spec {bs : Bytes} {s : State} (room : s.dstLen.toNat + bs.length ≤ s.caps.dstCap.val) :
    output (appendBytes bs s) = output s ++ bs ∧ (appendBytes bs s).dstLen.toNat = s.dstLen.toNat + bs.length ∧
      ∀ a, s.dstLen.toNat + bs.length ≤ a → dstCell (appendBytes bs s) a = dstCell s a := by
  induction bs generalizing s with
  | nil => simp [appendBytes]
  | cons b rest ih =>
    simp only [List.length_cons] at room ⊢
    have hlt : s.dstLen.toNat < s.caps.dstCap.val := by omega
    have hstep := appendByte_dstLen hlt b
    obtain ⟨h1, h2, h3⟩ := ih (s := appendByte b s) (by rw [hstep]; simp only [appendByte_caps]; omega)
    simp only [appendBytes]
    refine ⟨?_, ?_, fun a ha => ?_⟩
    · rw [h1, output_appendByte hlt]
      simp
    · rw [h2, hstep]
      omega
    · rw [h3 a (by rw [hstep]; omega), dstCell_appendByte]
      have : a ≠ s.dstLen.toNat := by omega
      simp [this]

theorem appendBytes_append (xs ys : Bytes) (s : State) :
    appendBytes (xs ++ ys) s = appendBytes ys (appendBytes xs s) := by
  induction xs generalizing s with
  | nil => rfl
  | cons x xs ih => exact ih (appendByte x s)

/-- Emitting touches only DST and its cursor. -/
theorem appendBytes_frame (bs : Bytes) (s : State) :
    (appendBytes bs s) = { s with dst := (appendBytes bs s).dst, dstLen := (appendBytes bs s).dstLen } := by
  induction bs generalizing s with
  | nil => rfl
  | cons b rest ih =>
    simp only [appendBytes]
    rw [ih (appendByte b s)]
    rfl

end Sys2Proof.Machine
end

