-- ==== Sys2Proof/Laws/Triple.lean ====
section
/-! SUPPORT. Pre- and postconditions of the pseudocode's statements: a rule of inference for each way they are put
together, so that what a whole command does is shown part by part. -/

namespace Sys2Proof.Machine

open Sys2Proof

/-- From every state with `P`, `m` goes on in a state with `Q` or stops in a state with `E`. -/
def Triple {α : Type} (P : State → Prop) (m : Cmd α) (Q : α → State → Prop) (E : Stop → State → Prop) : Prop :=
  ∀ s, P s → (∀ a t, m s = .ok a t → Q a t) ∧ (∀ e t, m s = .error e t → E e t)

variable {α β : Type} {P P' : State → Prop} {Q Q' : α → State → Prop} {E E' : Stop → State → Prop}

theorem Triple.consequence {m : Cmd α} (h : Triple P m Q E) (hP : ∀ s, P' s → P s) (hQ : ∀ a t, Q a t → Q' a t)
    (hE : ∀ e t, E e t → E' e t) : Triple P' m Q' E' := fun s hs =>
  ⟨fun a t h1 => hQ a t ((h s (hP s hs)).1 a t h1), fun e t h1 => hE e t ((h s (hP s hs)).2 e t h1)⟩

theorem Triple.pure {a : α} (h : ∀ s, P s → Q a s) : Triple P (Pure.pure a) Q E := fun s hs => by
  constructor
  · intro b t h1
    simp only [cmd_pure, EStateM.Result.ok.injEq] at h1
    obtain ⟨rfl, rfl⟩ := h1
    exact h s hs
  · intro e t h1
    simp at h1

theorem Triple.raise {c : Cause} (h : ∀ s, P s → E (.fault c) s) : Triple P (Machine.raise c : Cmd α) Q E := fun s hs => by
  constructor
  · intro b t h1
    simp at h1
  · intro e t h1
    simp only [raise_apply, EStateM.Result.error.injEq] at h1
    obtain ⟨rfl, rfl⟩ := h1
    exact h s hs

theorem Triple.modify {f : State → State} {Q : Unit → State → Prop} (h : ∀ s, P s → Q () (f s)) :
    Triple P (modify f : Cmd Unit) Q E := fun s hs => by
  constructor
  · intro b t h1
    simp only [cmd_modify, EStateM.Result.ok.injEq] at h1
    exact h1.2 ▸ h s hs
  · intro e t h1
    simp at h1

/-- Reading the state: the rest is shown for each state it may be. -/
theorem Triple.get_bind {f : State → Cmd β} {Q : β → State → Prop} (h : ∀ s, P s → Triple (fun t => t = s) (f s) Q E) :
    Triple P (do let s ← get; f s) Q E := fun s hs => by
  have h1 : (do let s ← get; f s : Cmd β) s = f s s := by simp [cmd_bind]
  rw [h1]
  exact h s hs s rfl

theorem Triple.bind {m : Cmd α} {f : α → Cmd β} {R : β → State → Prop} (hm : Triple P m Q E)
    (hf : ∀ a, Triple (Q a) (f a) R E) : Triple P (m >>= f) R E := fun s hs => by
  constructor
  · intro b u h
    obtain ⟨a, t, h1, h2⟩ := cmd_bind_eq_ok h
    exact (hf a t ((hm s hs).1 a t h1)).1 b u h2
  · intro e u h
    rcases cmd_bind_eq_error h with h1 | ⟨a, t, h1, h2⟩
    · exact (hm s hs).2 e u h1
    · exact (hf a t ((hm s hs).1 a t h1)).2 e u h2

theorem Triple.ite {c : Prop} [Decidable c] {m n : Cmd α} (hm : c → Triple P m Q E) (hn : ¬c → Triple P n Q E) :
    Triple P (if c then m else n) Q E := by
  by_cases hc : c
  · simpa [hc] using hm hc
  · simpa [hc] using hn hc

/-- A counted loop keeps an invariant indexed by its counter. -/
theorem Triple.forRange {body : Nat → Cmd Unit} {start count : Nat} (I : Nat → State → Prop)
    (h : ∀ i, start ≤ i → i < start + count → Triple (I i) (body i) (fun _ => I (i + 1)) E) :
    Triple (I start) (forRange start count body) (fun _ => I (start + count)) E := by
  induction count generalizing start with
  | zero => exact Triple.pure fun _ hs => hs
  | succ k ih =>
    rw [forRange_succ]
    refine Triple.bind (h start (le_refl _) (by omega)) fun _ => ?_
    have := ih (start := start + 1) fun i h1 h2 => h i (by omega) (by omega)
    rwa [show start + 1 + k = start + (k + 1) by omega] at this

/-- A loop over a list keeps an invariant of the members already done. -/
theorem Triple.forEach {xs : List α} {body : α → Cmd Unit} (I : List α → State → Prop)
    (h : ∀ done x rest, xs = done ++ x :: rest → Triple (I done) (body x) (fun _ => I (done ++ [x])) E) :
    Triple (I []) (forEach xs body) (fun _ => I xs) E := by
  suffices hgen : ∀ done rest, xs = done ++ rest → Triple (I done) (Machine.forEach rest body) (fun _ => I xs) E from
    hgen [] xs rfl
  intro done rest
  induction rest generalizing done with
  | nil =>
    intro hxs
    simp only [List.append_nil] at hxs
    subst hxs
    exact Triple.pure fun _ hs => hs
  | cons x rest ih =>
    intro hxs
    rw [forEach_cons]
    exact Triple.bind (h done x rest hxs) fun _ => ih (done ++ [x]) (by simp [hxs])

/-- A SRC read keeps whatever the environment's answers have no part in, and answers SRC's byte. -/
theorem Triple.srcByte {i : Nat} (hP : ∀ s q, P s → P { s with srcAnswers := q }) :
    Triple P (srcByte i) (fun b s => P s ∧ b = srcCell s i) (fun e s => P s ∧ (e = .fault .srcRead ∨ e = .reset)) :=
  fun s hs => by
  obtain ⟨q, ⟨h, -⟩ | ⟨h, -⟩ | ⟨h, -⟩⟩ := srcByte_cases i s <;> rw [h] <;> constructor <;> intro x t h1 <;> cases h1
  · exact ⟨hP s q hs, rfl⟩
  · exact ⟨hP s q hs, .inl rfl⟩
  · exact ⟨hP s q hs, .inr rfl⟩

/-- An `Emit` goes on with the byte appended, or stops with the output as it was. -/
theorem Triple.emit {b : Byte} {Q : Unit → State → Prop}
    (hok : ∀ s q, P s → s.dstLen.toNat ≠ s.caps.dstCap.val → Q () { appendByte b s with dstAnswers := q })
    (hstop : ∀ s q, P s → E (.fault .dstWrite) { s with dstAnswers := q } ∧ E .reset { s with dstAnswers := q })
    (hfull : ∀ s, P s → s.dstLen.toNat = s.caps.dstCap.val → E (.fault .dstFull) s) : Triple P (emit b) Q E :=
  fun s hs => by
  rcases emit_cases b s with ⟨hf, h⟩ | ⟨hf, q, ⟨h, -⟩ | ⟨h, -⟩ | ⟨h, -⟩⟩ <;> rw [h] <;> constructor <;> intro x t h1 <;>
    cases h1
  · exact hfull s hs hf
  · exact hok s q hs hf
  · exact (hstop s q hs).1
  · exact (hstop s q hs).2

end Sys2Proof.Machine
end

