-- ==== Sys2Proof/Tests/Slice0.lean ====
section
/-! SUPPORT. The model's own tests. Expected results come from the spec: the opcode map (30_encoding.md R72) and the
vectors of 95_test_vectors.md, each named. After them, for every statement that has hypotheses, a theorem that shows
concrete states and operands meeting all of them together, clause by clause at a boundary. -/

namespace Sys2Proof.Tests

open Sys2Proof Sys2Proof.Machine Sys2Proof.Safety Sys2Proof.Artifact

set_option Elab.async false

/-! ### Small states -/

/-- The bytes of a text. -/
def text (s : String) : Bytes := s.toList.map (fun c => BitVec.ofNat 8 c.toNat)

/-- A buffer that holds a text from an address on. -/
def cells (a : Nat) (b : Bytes) : Memory :=
  match b with
  | [] => []
  | v :: rest => (a, v) :: cells (a + 1) rest

/-- A state whose input is `inp`, with these capacities. -/
def given (srcCap : Fin 4294967295) (dstCap : Fin 4294967296) (inp : Bytes) : State :=
  { State.reset with
    src := cells 0 inp, srcLen := BitVec.ofNat 32 inp.length, caps := { srcCap := srcCap, dstCap := dstCap } }

theorem read_cells (a i : Nat) (b : Bytes) (h : i < b.length) : Memory.read (cells a b) (a + i) = b[i]? := by
  induction b generalizing a i with
  | nil => simp at h
  | cons v rest ih =>
    cases i with
    | zero => simp [cells, Memory.read]
    | succ k =>
      have h' := ih (a + 1) k (by simpa using h)
      rw [show a + 1 + k = a + (k + 1) by omega] at h'
      simp [cells, Memory.read, h']

/-- Such a state is ready where its input fits, and `inp` is its input. -/
theorem ready_given (srcCap : Fin 4294967295) (dstCap : Fin 4294967296) (inp : Bytes)
    (h : inp.length ≤ srcCap.val) :
    Ready (given srcCap dstCap inp) ∧ input (given srcCap dstCap inp) = inp := by
  have hlen : (given srcCap dstCap inp).srcLen.toNat = inp.length := by
    simp only [given, BitVec.toNat_ofNat]
    omega
  refine ⟨⟨⟨rfl, rfl⟩, by rw [hlen]; exact h⟩, ?_⟩
  apply List.ext_getElem?
  intro i
  by_cases hi : i < inp.length
  · have hr := read_cells 0 i inp hi
    simp only [Nat.zero_add] at hr
    have hc : srcCell (given srcCap dstCap inp) i = inp[i] := by
      simp [srcCell, given, hr, hi]
    simp [input, hlen, hi, hc]
  · simp [input, hlen, hi]

/-- A state whose input is a text, with room. -/
def on (s : String) : State := given 5000 5000 (text s)

/-- The state whose next access is `op`. -/
def facing (op : HostOp) (s : State) : State := { s with host := [op] }

/-- A state in which a command would be running. -/
def busy (op : HostOp) : State :=
  { State.reset with status := { state := .busy, kind := .none, cause := 0#8 }, host := [op] }

/-- `STATUS` and the output a next state shows. -/
def shown (o : Host.Outcome State Fault Refusal) : Option (Word × Bytes) :=
  match o with
  | .next t => some (t.status.word, output t)
  | .fault _ => none
  | .refused _ => none

/-- What a command shows on a text. -/
def onText (i : Instr) (s : String) : Option (Word × Bytes) := shown (exec i (on s))

/-! ### Well-formedness refuses what is ill-formed -/

theorem test_reserved_bit_refused : reservedClear 0x00000010#32 = false := by decide
theorem test_high_reserved_bit_refused : reservedClear 0x80000008#32 = false := by decide
theorem test_codec_bit_refused : codecSet 0x00000007#32 = false := by decide
theorem test_reserved_word_illegal : legalWord 0x00000018#32 = false := by decide
theorem test_codec_word_illegal : legalWord 0x00000000#32 = false := by decide
theorem test_every_command_wellformed : ∀ w : Fin 8, legalWord (BitVec.ofNat 32 (8 + w.val)) = true := by decide

/-! ### Decoding: each command from its word written out (30_encoding.md R71, R72) -/

theorem test_decode_hufEnc : decode 0b00000000000000000000000000001000#32 = .ok .hufEnc := by decide
theorem test_decode_hufDec : decode 0b00000000000000000000000000001001#32 = .ok .hufDec := by decide
theorem test_decode_ariEnc : decode 0b00000000000000000000000000001010#32 = .ok .ariEnc := by decide
theorem test_decode_ariDec : decode 0b00000000000000000000000000001011#32 = .ok .ariDec := by decide
theorem test_decode_bwtEnc : decode 0b00000000000000000000000000001100#32 = .ok .bwtEnc := by decide
theorem test_decode_bwtDec : decode 0b00000000000000000000000000001101#32 = .ok .bwtDec := by decide
theorem test_decode_hamEnc : decode 0b00000000000000000000000000001110#32 = .ok .hamEnc := by decide
theorem test_decode_hamDec : decode 0b00000000000000000000000000001111#32 = .ok .hamDec := by decide
theorem test_decode_refuses_codec : decode 0x00000007#32 = .error .codecBit := by decide
theorem test_decode_refuses_reserved : decode 0x80000008#32 = .error .reservedBits := by decide
theorem test_table_word : decodeTableWord 32 0xD = some .bwtDec := by decide
theorem test_table_word_refused : decodeTableWord 32 0x1D = none := by decide

/-- The word placed for the next step is the command that runs. -/
theorem test_fetch_word : step (State.reset.withFetchWord 32 0xE) = exec .hamEnc State.reset := rfl

/-! ### The commands on vectors of 95_test_vectors.md -/

/-- V1. -/
theorem test_hufEnc : onText .hufEnc "aab\n" = some (0x2#32, text "\n10\na0\nb11\n--\n001110\n") := by decide +kernel
/-- V4: the rarer symbol goes left. -/
theorem test_hufEnc_tie : onText .hufEnc "aaaa\n" = some (0x2#32, text "\n0\na1\n--\n11110\n") := by decide +kernel
/-- V2. -/
theorem test_hufDec : onText .hufDec "\n10\na0\nb11\n--\n001110\n" = some (0x2#32, text "aab\n") := by decide +kernel
/-- V6: the table never ends. -/
theorem test_hufDec_no_delim : onText .hufDec "a0\n" = some (0x1013#32, []) := by decide +kernel
/-- V7. -/
theorem test_ariEnc : onText .ariEnc "aab\n" = some (0x2#32, text
    "\n0\na1\nb3\n--\n4\n0101011100000011000100100100100110011001100110011001100110011001100110011001\n") := by
  decide +kernel
/-- V10. -/
theorem test_ariEnc_no_LF : onText .ariEnc "a" = some (0x2#32, text
    "\n0\na1\n--\n2\n011000100100100110011001100110011001100110011001100110011001100110011001\n") := by decide +kernel
/-- V7 read back. -/
theorem test_ariDec : onText .ariDec
    "\n0\na1\nb3\n--\n4\n0101011100000011000100100100100110011001100110011001100110011001100110011001\n" =
    some (0x2#32, text "aab\n") := by decide +kernel
/-- V10 read back. -/
theorem test_ariDec_run : onText .ariDec
    "\n0\na1\n--\n5\n011000110001001101011001100110011001100110011001100110011001100110011001\n" =
    some (0x2#32, text "aaaa\n") := by decide +kernel
/-- V14. -/
theorem test_bwtEnc : onText .bwtEnc "banana" = some (0x2#32, text "a\nb\nn\n--\n3\n100010100000\n") := by decide +kernel
/-- V17: line terminators inside the block. -/
theorem test_bwtEnc_LF : onText .bwtEnc "aab\n" = some (0x2#32, text "\n\na\nb\n--\n1\n10011000\n") := by decide +kernel
/-- V15. -/
theorem test_bwtDec : onText .bwtDec "a\nb\nn\n--\n3\n100010100000\n" = some (0x2#32, text "banana") := by decide +kernel
/-- V17: a periodic block. -/
theorem test_bwtDec_periodic : onText .bwtDec "a\nb\n--\n0\n1010\n" = some (0x2#32, text "abab") := by decide +kernel
/-- V20. -/
theorem test_hamEnc : onText .hamEnc "aab\n" = some (0x2#32, text
    "11001101101001110011011010011100110010101000000001011010\n") := by decide +kernel
/-- V25: `"-\n"`. -/
theorem test_hamEnc_dash : onText .hamEnc "-\n" = some (0x2#32, text "0101010101010100000001011010\n") := by
  decide +kernel
/-- V22: three inverted characters, one in each of three frames. -/
theorem test_hamDec_corrects : onText .hamDec "01001101111001110011011010011100110010101000000001011011\n" =
    some (0x2#32, text "aab\n") := by decide +kernel
/-- V25: the bad character is in unit 2. -/
theorem test_hamDec_bad_bit : onText .hamDec "110011011010010000000101101x\n" = some (0x4113#32, text "a") := by
  decide +kernel

/-! ### The hypotheses of every statement are met -/

/-- StepRunsTheDecodedCommand, at the first and the last command. -/
theorem witness_StepRunsTheDecodedCommand :
    ((facing (.writeReg 0 0x8#32) (on "a")).host = .writeReg 0 0x8#32 :: [] ∧ (on "a").status.state ≠ .busy ∧
      decode 0x8#32 = .ok .hufEnc ∧ Instr.wf .hufEnc = true) ∧
    ((facing (.writeReg 0 0xF#32) (on "a")).host = .writeReg 0 0xF#32 :: [] ∧
      decode 0xF#32 = .ok .hamDec ∧ Instr.wf .hamDec = true) := by decide

/-- IllegalWordFaultsAtOnce, at the words next to the legal ones. -/
theorem witness_IllegalWordFaultsAtOnce :
    ((facing (.writeReg 0 0x10#32) (on "a")).host = .writeReg 0 0x10#32 :: [] ∧ (on "a").status.state ≠ .busy ∧
      (0x10#32).extractLsb 31 4 ≠ 0#28) ∧
    ((facing (.writeReg 0 0x7#32) (on "a")).host = .writeReg 0 0x7#32 :: [] ∧ (0x7#32).toNat ≤ 7) := by decide

/-- RegisterReadsAndWrites: its three clauses. -/
theorem witness_RegisterReadsAndWrites :
    ((facing (.readReg 12) (on "a")).host = .readReg 12 :: [] ∧ (facing (.readReg 12) (on "a")).status.state ≠ .busy) ∧
    ((facing (.writeReg 8 0xFFFFFFFF#32) (on "a")).host = .writeReg 8 0xFFFFFFFF#32 :: [] ∧
      (on "a").status.state ≠ .busy) ∧
    ((busy (.writeReg 12 1#32)).host = .writeReg 12 1#32 :: [] ∧ 12 ≠ 0 ∧ 12 ≠ 8) := by decide

/-- HostWritesOneSrcCell: the last cell, and the address after it. -/
theorem witness_HostWritesOneSrcCell :
    ((facing (.writeSrc 2 7#8) (given 3 3 [])).host = .writeSrc 2 7#8 :: [] ∧
      (facing (.writeSrc 2 7#8) (given 3 3 [])).status.state ≠ .busy ∧ 2 < (given 3 3 []).caps.srcCap.val) ∧
    ((facing (.writeSrc 3 7#8) (given 3 3 [])).host = .writeSrc 3 7#8 :: [] ∧
      (given 3 3 []).caps.srcCap.val ≤ 3) := by decide

/-- HostReadsOneDstCell: the last cell, and the address after it. -/
theorem witness_HostReadsOneDstCell :
    ((facing (.readDst 2) (given 3 3 [])).host = .readDst 2 :: [] ∧
      (facing (.readDst 2) (given 3 3 [])).status.state ≠ .busy ∧ 2 < (given 3 3 []).caps.dstCap.val) ∧
    ((facing (.readDst 3) (given 3 3 [])).host = .readDst 3 :: [] ∧ (given 3 3 []).caps.dstCap.val ≤ 3) := by decide

/-- BusyRefusesHostWrites: its three clauses. -/
theorem witness_BusyRefusesHostWrites :
    (busy (.writeReg 0 8#32)).status.state = .busy ∧ (busy (.writeReg 0 8#32)).host = .writeReg 0 8#32 :: [] ∧
    (busy (.writeReg 8 1#32)).host = .writeReg 8 1#32 :: [] ∧
    (busy (.writeSrc 0 1#8)).host = .writeSrc 0 1#8 :: [] := by decide

/-- LoadPreparesTheInput, with a text that fills SRC and with the empty one. -/
theorem witness_LoadPreparesTheInput :
    ({ given 2 0 [] with host := loadOps [1#8, 2#8] } : State).host = loadOps [1#8, 2#8] ++ [] ∧
    (given 2 0 []).status.state ≠ .busy ∧ [1#8, 2#8].length ≤ (given 2 0 []).caps.srcCap.val ∧
    ({ given 0 0 [] with host := loadOps [] } : State).host = loadOps [] ++ [] ∧
    ([] : Bytes).length ≤ (given 0 0 []).caps.srcCap.val := by decide

/-- ResetLeavesBuffersAlone: the input between commands, and a reset at the first write. -/
theorem witness_ResetLeavesBuffersAlone :
    (facing .reset (on "a")).host = .reset :: [] ∧
    (let s : State := { on "a" with dstAnswers := [(0, .reset)] }
     s.srcAnswers = [] ∧ s.dstAnswers = (0, .reset) :: [] ∧ s.srcLen.toNat ≤ s.caps.srcCap.val ∧
       0 < s.caps.dstCap.val ∧ (shown (exec .hufEnc s)).map Prod.fst = some 0x0#32) := by decide +kernel

/-- A state between two commands with output in DST: what `HAM.ENC` left for the input `"\n"`. -/
def afterHam : State :=
  { on "\n" with
    cmd := 0xE#32, status := statusOk, dst := cells 0 (text "00000001011010\n"), dstLen := 15#32 }

/-- EveryStepKeepsTheInvariant and StatusWordIsLegal: a state with the invariant that has a step to take. -/
theorem witness_EveryStepKeepsTheInvariant :
    Inv (facing (.writeReg 0 0xE#32) afterHam) ∧ ∃ t, step (facing (.writeReg 0 0xE#32) afterHam) = .next t := by
  refine ⟨⟨by decide +kernel, by decide +kernel, by decide +kernel, by decide +kernel, rfl,
    by decide +kernel, by decide +kernel, .inr (.inl ⟨rfl, by decide⟩)⟩, ?_⟩
  exact ⟨_, rfl⟩

/-- StatusWordIsLegal, of a state that shows a fault. -/
theorem witness_StatusWordIsLegal :
    Inv { afterHam with cmd := 0x7#32, status := statusFault .illegalCmd, dstLen := 0#32 } :=
  ⟨by decide +kernel, by decide +kernel, by decide +kernel, by decide +kernel, rfl,
    by decide +kernel, by decide +kernel, .inr (.inr ⟨.illegalCmd, rfl, by decide⟩)⟩

/-- CommandsChangeOnlyTheirOutput: an environment with error responses and no reset. -/
theorem witness_CommandsChangeOnlyTheirOutput :
    NoReset { on "a" with srcAnswers := [(3, .err)], dstAnswers := [(0, .err), (7, .err)] } := by decide

/-- FaultsByCommand and DecodersEmitNoMoreThanTheyRead: each command answers a next state. -/
theorem witness_FaultsByCommand : ∀ i ∈ [Instr.hufEnc, .hufDec, .ariEnc, .ariDec, .bwtEnc, .bwtDec, .hamEnc, .hamDec],
    (onText i "a").isSome = true := by decide +kernel

/-- LongInputFaultsAtStart: one byte too many. -/
theorem witness_LongInputFaultsAtStart :
    (given 1 9 (text "ab")).caps.srcCap.val < (given 1 9 (text "ab")).srcLen.toNat := by decide

/-- OutcomeDependsOnTheInputAlone: the same input and `DST_CAP`, all else different. -/
theorem witness_OutcomeDependsOnTheInputAlone :
    let s := given 5 9 (text "a")
    let t : State := { afterHam with
      src := cells 0 (text "abc"), srcLen := 1#32, caps := { srcCap := 3, dstCap := 9 }, freeCount := 4 }
    Ready s ∧ Ready t ∧ input s = input t ∧ s.caps.dstCap = t.caps.dstCap := by decide +kernel

/-- An input on which arithmetic coding collapses (V12). -/
def collapsing : Bytes :=
  List.replicate 24 0x62#8 ++ text "caa" ++ List.replicate 2 0x62#8 ++ List.replicate 49 0x61#8 ++
    List.replicate 51 0x63#8 ++ [LF]

/-- On it no digit stream comes about, and the text before the collapse is longer than 10 bytes. -/
theorem collapsing_collapses :
    ariDigits collapsing = none ∧ 10 < (ariHeader collapsing ++ bcdText (ariRun collapsing).1).length ∧
      (ariHeader collapsing ++ bcdText (ariRun collapsing).1).length ≤ 5000 := by decide +kernel

/-- FullDstKeepsThePrefix: each clause with a byte or more too few. -/
theorem witness_FullDstKeepsThePrefix :
    (Ready (given 9 20 (text "aab\n")) ∧ 20 < (hufArtifact (input (given 9 20 (text "aab\n")))).length) ∧
    (Ready (given 9 90 (text "aab\n")) ∧ (ariDigits (input (given 9 90 (text "aab\n")))).isSome = true ∧
      90 < (ariText (ariBounds (text "aab\n")) 4 ((ariDigits (text "aab\n")).getD [])).length) ∧
    ((Ready (given 200 10 collapsing) ∧ input (given 200 10 collapsing) = collapsing) ∧ ariDigits collapsing = none ∧
      10 < (ariHeader collapsing ++ bcdText (ariRun collapsing).1).length) ∧
    (Ready (given 9 23 (text "banana")) ∧ 23 < (bwtArtifact (input (given 9 23 (text "banana")))).length) ∧
    (Ready (given 9 56 (text "aab\n")) ∧ 56 < (hamArtifact (input (given 9 56 (text "aab\n")))).length) :=
  ⟨by decide +kernel, by decide +kernel,
    ⟨ready_given 200 10 _ (by decide +kernel), collapsing_collapses.1, collapsing_collapses.2.1⟩,
    by decide +kernel, by decide +kernel⟩

/-- FirstReadErrorFaults: one byte, and for `BWT.DEC` two. -/
theorem witness_FirstReadErrorFaults :
    (let s : State := { given 1 0 (text "a") with srcAnswers := [(0, .err)] }
     s.srcAnswers = (0, .err) :: [] ∧ 0 < s.srcLen.toNat ∧ s.srcLen.toNat ≤ s.caps.srcCap.val) ∧
    (let s : State := { given 2 0 (text "ab") with srcAnswers := [(0, .err)] }
     s.srcAnswers = (0, .err) :: [] ∧ 2 ≤ s.srcLen.toNat ∧ s.srcLen.toNat ≤ s.caps.srcCap.val) := by decide

/-- FirstWriteErrorFaults: room for one byte; an empty input and one of one byte. -/
theorem witness_FirstWriteErrorFaults :
    (let s : State := { given 0 1 [] with dstAnswers := [(0, .err)] }
     s.srcAnswers = [] ∧ s.dstAnswers = (0, .err) :: [] ∧ 0 < s.caps.dstCap.val ∧
       s.srcLen.toNat ≤ s.caps.srcCap.val) ∧
    (let s : State := { given 1 1 (text "a") with dstAnswers := [(0, .err)] }
     s.srcAnswers = [] ∧ s.dstAnswers = (0, .err) :: [] ∧ 0 < s.caps.dstCap.val ∧
       s.srcLen.toNat ≤ s.caps.srcCap.val ∧ 0 < s.srcLen.toNat) := by decide

/-- NumeralsAreReadBack: the largest numeral, the number after it, and the characters next to the digits. -/
theorem witness_NumeralsAreReadBack :
    4294967295 ≤ Config.NUM_MAX ∧ Config.NUM_MAX < 4294967296 ∧ (0x2F#8).toNat < 0x30 ∧ 0x39 < (0x3A#8).toNat := by
  decide

/-- BitStringsAreReadBack: the largest number of a width, and `TOP`. -/
theorem witness_BitStringsAreReadBack : 7 < 2 ^ 3 ∧ 999999999999999999 ≤ Config.TOP := by decide

/-- CodeWidthHoldsEveryIndex: the least and the largest alphabet. -/
theorem witness_CodeWidthHoldsEveryIndex : 1 ≤ 1 ∧ 1 ≤ 2 ^ 0 ∧ 256 ≤ 2 ^ 8 ∧ 256 ≤ 256 := by decide

/-- LinesAndNorm: lines, one of them empty, with a rest and without one. -/
theorem witness_LinesAndNorm :
    (∀ l ∈ [text "a", []], LF ∉ l) ∧ LF ∉ text "b" ∧ LF ∉ ([] : Bytes) ∧ 0x0D#8 ≠ LF := by decide +kernel

/-- OneInvertedBitIsCorrected and TwoInvertedBitsDecodeWrong: the end positions. -/
theorem witness_InvertedBits : (1 : Fin 8) ≠ 0 ∧ (7 : Fin 8) ≠ 0 ∧ (1 : Fin 8) ≠ 7 := by decide

/-- HamEncWritesTheArtifact, with exactly the room the artifact takes. -/
theorem witness_HamEncWritesTheArtifact :
    Ready (given 4 57 (text "aab\n")) ∧ (hamArtifact (input (given 4 57 (text "aab\n")))).length ≤ 57 := by
  decide +kernel

/-- HamDecDecodesEveryUnit: a line of one unit, an empty line, a last line of another unit without `LF`. -/
theorem witness_HamDecDecodesEveryUnit :
    let s := given 30 2 (text "11111111111111\n\n00000000000001")
    let ls : List (List (BitVec 7 × BitVec 7)) := [[(0x7F#7, 0x7F#7)], []]
    let last : List (BitVec 7 × BitVec 7) := [(0#7, 1#7)]
    Ready s ∧ input s = ls.flatMap (fun l => unitsText l ++ [LF]) ++ unitsText last ∧
      (ls.flatMap decodeUnits ++ decodeUnits last).length ≤ s.caps.dstCap.val := by decide +kernel

/-- HamDecFaults: a line one character short, and a bad character in the second unit. -/
theorem witness_HamDecFaults :
    (let s := given 15 0 (text "\n0000000101101")
     Ready s ∧ input s = [[]].flatMap (fun l => unitsText l ++ [LF]) ++ text "0000000101101" ++ [] ∧
       LF ∉ text "0000000101101" ∧ (text "0000000101101").length % 14 ≠ 0) ∧
    (let s := given 29 1 (text "000000000000010000000101101x\n")
     Ready s ∧ input s = text "000000000000010000000101101x" ++ text "\n" ∧ (text "\n").head? = some LF ∧
       LF ∉ text "000000000000010000000101101x" ∧ (text "000000000000010000000101101x").length % 14 = 0 ∧
       text "000000000000010000000101101x" = unitsText [(0#7, 1#7)] ++ text "0000000101101x" ++ [] ∧
       (text "0000000101101x").length = 14 ∧ isBits (text "0000000101101x") = false ∧
       (decodeUnits [(0#7, 1#7)]).length ≤ s.caps.dstCap.val) := by decide +kernel

/-- HamRoundTripWithOneErrorPerFrame: the artifact itself, and a copy with a character of each frame inverted. -/
theorem witness_HamRoundTripWithOneErrorPerFrame :
    (Ready (given 1 15 (text "\n")) ∧ (hamArtifact (input (given 1 15 (text "\n")))).length ≤ 15 ∧
      shown (exec .hamEnc (given 1 15 (text "\n"))) = some (0x2#32, text "00000001011010\n")) ∧
    (Ready (given 15 1 (text "00000001011010\n")) ∧
      input (given 15 1 (text "00000001011010\n")) = text "00000001011010\n" ∧ (norm (text "\n")).length ≤ 1) ∧
    (let syms : List (Byte × (Fin 8 × Fin 8)) := [(LF, (1, 7))]
     syms.map Prod.fst = norm (text "\n") ∧
       input (given 15 1 (text "10000001011011\n")) = hitArtifact syms) := by decide +kernel

/-- LowestComesBeforeTheOthers: two members, the second the lower; a `Q` of three distinct members and of two; leaves
to merge. -/
theorem witness_LowestComesBeforeTheOthers :
    let node : List Node := [⟨true, 1#8, 2, none, none⟩, ⟨true, 2#8, 1, none, none⟩, ⟨true, 3#8, 1, none, none⟩]
    1 ∈ [0, 1] ∧ 0 ∈ [0, 1] ∧ lowestOf node 0 [1] = 1 ∧ 0 ≠ lowestOf node 0 [1] ∧
      [0, 1, 2].Nodup ∧ 2 ≤ [0, 1, 2].length ∧ (mergeTwo node [0, 1, 2]).2 = [0, 3] ∧
      [0, 1].Nodup ∧ 2 ≤ [0, 1].length ∧ 2 ≤ node.length := by decide

/-- HuffmanTreeShape and HuffmanCodesArePrefixFree: no symbol, one, and two. -/
theorem witness_HuffmanTreeShape :
    (hufLeaves (countSyms [])).length = 0 ∧
    ((hufLeaves (countSyms [LF])).length = 1 ∧ 0 < cell (countSyms [LF]) LF) ∧
    (2 ≤ (hufLeaves (countSyms (text "a\n"))).length ∧ 0 < cell (countSyms (text "a\n")) 0x61#8 ∧
      0 < cell (countSyms (text "a\n")) LF) := by decide +kernel

/-- HufEncWritesTheArtifact, with exactly the room the artifact takes. -/
theorem witness_HufEncWritesTheArtifact :
    Ready (given 4 21 (text "aab\n")) ∧ (hufArtifact (input (given 4 21 (text "aab\n")))).length ≤ 21 := by
  decide +kernel

/-- HufDecDecodesGreedily: a table that is not prefix-free and unsorted, with a tail, and the empty one. -/
theorem witness_HufDecDecodesGreedily :
    (let s := given 15 2 (text "b0\na01\n--\n00\nx")
     let table : List (Byte × Bytes) := [(0x62#8, text "0"), (0x61#8, text "01")]
     Ready s ∧ input s = table.flatMap (fun e => e.1 :: (e.2 ++ [LF])) ++ delimLine ++ text "00" ++ text "\nx" ∧
       (text "\nx").head? = some LF ∧ table.length ≤ 256 ∧
       (∀ e ∈ table, 1 ≤ e.2.length ∧ e.2.length ≤ 255 ∧ isBits e.2 = true) ∧ isBits (text "00") = true ∧
       (greedy table [] (text "00")).2 = [] ∧ (greedy table [] (text "00")).1.length ≤ s.caps.dstCap.val) ∧
    (let s := given 3 0 (text "--\n")
     Ready s ∧ input s = delimLine ++ [] ++ [] ∧ (greedy [] [] []).2 = []) := by decide +kernel

/-- HufDecStreamFaults: bits left over, and a character that is no bit. -/
theorem witness_HufDecStreamFaults :
    let table : List (Byte × Bytes) := [(0x61#8, text "0")]
    (∀ e ∈ table, 1 ≤ e.2.length ∧ e.2.length ≤ 255 ∧ isBits e.2 = true) ∧
    (let s := given 9 1 (text "a0\n--\n01")
     Ready s ∧ input s = table.flatMap (fun e => e.1 :: (e.2 ++ [LF])) ++ delimLine ++ text "01" ++ [] ∧
       isBits (text "01") = true ∧ (greedy table [] (text "01")).1.length ≤ s.caps.dstCap.val ∧
       (greedy table [] (text "01")).2 ≠ []) ∧
    (let s := given 9 1 (text "a0\n--\n01x")
     Ready s ∧ input s = table.flatMap (fun e => e.1 :: (e.2 ++ [LF])) ++ delimLine ++ text "01" ++ text "x" ∧
       text "x" = 0x78#8 :: [] ∧ 0x78#8 ≠ LF ∧ isBit 0x78#8 = false ∧
       (greedy table [] (text "01")).2.length < 255) := by decide +kernel

/-- 256 good entries. -/
def fullTable : List (Byte × Bytes) := List.replicate 256 (0x61#8, text "0")

/-- HufDecTableFaults: an entry with no code, one with a code of 256 bits, and one without `LF`. -/
theorem witness_HufDecTableFaults :
    (let s := given 9 9 (text "a\nx")
     Ready s ∧ input s = [] ++ text "a\nx" ∧ text "a\nx" = 0x61#8 :: ([] ++ LF :: text "x") ∧ LF ∉ ([] : Bytes)) ∧
    (let code := List.replicate 256 ch0
     let s := given 300 9 (0x61#8 :: (code ++ LF :: []))
     (Ready s ∧ input s = 0x61#8 :: (code ++ LF :: [])) ∧ LF ∉ code ∧ 255 < code.length) ∧
    (Ready (given 0 0 []) ∧ input (given 0 0 []) = [] ∧
      Ready (given 2 0 (text "a0")) ∧ input (given 2 0 (text "a0")) = text "a0" ∧ LF ∉ (text "a0").tail) :=
  ⟨by decide +kernel, ⟨ready_given 300 9 _ (by decide +kernel), by decide +kernel, by decide +kernel⟩,
    by decide +kernel⟩

/-- HufDecTableFaults: a good 257th entry. -/
theorem witness_HufDecTableFaults_full :
    let s := given 900 9 (fullTable.flatMap (fun e => e.1 :: (e.2 ++ [LF])) ++ text "a0\n")
    (Ready s ∧ input s = fullTable.flatMap (fun e => e.1 :: (e.2 ++ [LF])) ++ text "a0\n") ∧ fullTable.length = 256 ∧
      (∀ e ∈ fullTable, 1 ≤ e.2.length ∧ e.2.length ≤ 255 ∧ isBits e.2 = true) ∧
      text "a0\n" = 0x61#8 :: (text "0" ++ LF :: []) ∧ LF ∉ text "0" ∧ 1 ≤ (text "0").length ∧
      isBits (text "0") = true :=
  ⟨ready_given 900 9 _ (by decide +kernel), by decide +kernel⟩

/-- HuffmanRoundTrip. -/
theorem witness_HuffmanRoundTrip :
    (Ready (on "aab\n") ∧ input (on "aab\n") = text "aab\n") ∧ (hufArtifact (text "aab\n")).length ≤ 5000 ∧
    onText .hufEnc "aab\n" = some (0x2#32, text "\n10\na0\nb11\n--\n001110\n") ∧
    (Ready (on "\n10\na0\nb11\n--\n001110\n") ∧
      input (on "\n10\na0\nb11\n--\n001110\n") = text "\n10\na0\nb11\n--\n001110\n") ∧
    (norm (text "aab\n")).length ≤ 5000 :=
  ⟨ready_given 5000 5000 _ (by decide +kernel), by decide +kernel, test_hufEnc,
    ready_given 5000 5000 _ (by decide +kernel), by decide +kernel⟩

/-- CumulativeTablePartitionsTheTotal: a table with a first and a last entry. -/
theorem witness_CumulativeTablePartitionsTheTotal :
    (cumTable (countSyms (text "aab\n"))).head? = some ⟨LF, 0, 1⟩ ∧
    (cumTable (countSyms (text "aab\n"))).getLast? = some ⟨0x62#8, 3, 4⟩ := by decide +kernel

/-- NarrowingPartitionsTheInterval: an interval of one number, and one as wide as T. -/
theorem witness_NarrowingPartitionsTheInterval :
    (5 ≤ 5 ∧ 1 ≤ 1 ∧ 0 ≤ 1) ∧ (0 ≤ 3 ∧ 1 ≤ 4 ∧ 4 ≤ 3 - 0 + 1 ∧ 3 < 4) := by decide

/-- DecoderIndexInvertsNarrowing: V at both ends. -/
theorem witness_DecoderIndexInvertsNarrowing :
    (0 ≤ 0 ∧ 0 ≤ 3 ∧ 1 ≤ 4 ∧ 0 < 1 ∧ 1 ≤ 4) ∧ (0 ≤ 3 ∧ 3 ≤ 3 ∧ 3 < 4 ∧ 4 ≤ 4) := by decide

/-- RenormalizationEndsWithin18Passes: an interval of one number at the top. -/
theorem witness_RenormalizationEndsWithin18Passes :
    999999999999999999 ≤ 999999999999999999 ∧ 999999999999999999 ≤ Config.TOP := by decide

/-- AriEncWritesTheArtifactOrCollapses: both clauses, the first with exactly the room the artifact takes. -/
theorem witness_AriEncWritesTheArtifactOrCollapses :
    (let s := given 4 91 (text "aab\n")
     Ready s ∧ (ariDigits (input s)).isSome = true ∧
       (ariText (ariBounds (input s)) (norm (input s)).length ((ariDigits (input s)).getD [])).length ≤ 91) ∧
    ((Ready (given 200 5000 collapsing) ∧ input (given 200 5000 collapsing) = collapsing) ∧
      ariDigits collapsing = none ∧ (ariHeader collapsing ++ bcdText (ariRun collapsing).1).length ≤ 5000) :=
  ⟨by decide +kernel,
    ⟨ready_given 200 5000 _ (by decide +kernel), collapsing_collapses.1, collapsing_collapses.2.2⟩⟩

/-- What AriDecRepeatsASingleEntry and AriDecTotalAndStreamFaults ask of a state whose input is a table, a total, a
digit stream and what follows it, where the decoding emits `out` and ends with `c`. -/
def streamGiven (table : List (Byte × Bytes)) (num : Bytes) (ds : List Nat) (tail out : Bytes) (c : Option Cause) :
    Prop :=
  let inp := table.flatMap (fun e => e.1 :: (e.2 ++ [LF])) ++ delimLine ++ num ++ [LF] ++ bcdText ds ++ tail
  let s := given 200 (Fin.ofNat _ out.length) inp
  (Ready s ∧ input s = inp) ∧ (tail = [] ∨ tail.head? = some LF) ∧ GoodBounds table ∧ isNumeral num = true ∧
    18 ≤ ds.length ∧ (∀ d ∈ ds, d ≤ 9) ∧ ariDecode (boundsOf table) (numVal num) ds = (out, c) ∧
    out.length ≤ s.caps.dstCap.val

/-- AriDecRepeatsASingleEntry: symbols out of order, leading zeros, digits left over, no `LF` and one with a tail. -/
theorem witness_AriDecDecodes :
    streamGiven [(0x62#8, text "00"), (0x61#8, text "2")] (text "03") (List.replicate 20 0) [] (text "bbb") none ∧
    streamGiven [(0x62#8, text "00"), (0x61#8, text "2")] (text "3") (List.replicate 18 0) (text "\nx") (text "bbb")
      none :=
  ⟨⟨ready_given 200 3 _ (by decide +kernel), by decide +kernel⟩,
    ⟨ready_given 200 3 _ (by decide +kernel), by decide +kernel⟩⟩

/-- AriDecTotalAndStreamFaults: the digits run out at the second step, its symbol emitted; an index below the first low
bound, and one on an empty table. -/
theorem witness_AriDecLoopFaults :
    streamGiven [(0x62#8, text "0"), (0x61#8, text "1")] (text "5") (List.replicate 18 0) [] (text "bb")
      (some .ariStreamShort) ∧
    streamGiven [(0x62#8, text "1")] (text "2") (List.replicate 18 0) [] [] (some .ariIndexRange) ∧
    streamGiven [] (text "1") (List.replicate 18 0) [] [] (some .ariIndexRange) :=
  ⟨⟨ready_given 200 2 _ (by decide +kernel), by decide +kernel⟩,
    ⟨ready_given 200 0 _ (by decide +kernel), by decide +kernel⟩,
    ⟨ready_given 200 0 _ (by decide +kernel), by decide +kernel⟩⟩

/-- AriDecRepeatsASingleEntry: a total of 0 with no room, and of 3 with exactly the room. -/
theorem witness_AriDecRepeatsASingleEntry :
    (let s := given 90 0 (ariText [(0x61#8, 0)] 0 (List.replicate 18 9))
     Ready s ∧ input s = ariText [(0x61#8, 0)] 0 (List.replicate 18 9) ∧ 0 ≤ s.caps.dstCap.val) ∧
    (let s := given 90 3 (ariText [(0x61#8, 0)] 3 (List.replicate 18 9))
     Ready s ∧ input s = ariText [(0x61#8, 0)] 3 (List.replicate 18 9) ∧ 3 ≤ Config.NUM_MAX ∧
       18 ≤ (List.replicate 18 9).length ∧ (∀ d ∈ List.replicate 18 9, d ≤ 9) ∧ 3 ≤ s.caps.dstCap.val) := by
  decide +kernel

/-- AriDecTableFaults: no numeral, a bound equal to the one before, and no delimiter. -/
theorem witness_AriDecTableFaults :
    (let s := given 9 9 (text "a\nx")
     Ready s ∧ input s = boundText [] ++ text "a\nx" ∧ text "a\nx" = 0x61#8 :: ([] ++ LF :: text "x") ∧
       LF ∉ ([] : Bytes) ∧ isNumeral [] = false) ∧
    (let s := given 9 9 (text "a7\nb7\n")
     Ready s ∧ input s = boundText [(0x61#8, 7)] ++ text "b7\n" ∧ text "b7\n" = 0x62#8 :: (text "7" ++ LF :: []) ∧
       LF ∉ text "7" ∧ isNumeral (text "7") = true ∧ numVal (text "7") ≤ 7) ∧
    (Ready (given 0 0 []) ∧ input (given 0 0 []) = boundText [] ++ [] ∧
      Ready (given 2 0 (text "a0")) ∧ input (given 2 0 (text "a0")) = boundText [] ++ text "a0" ∧
      LF ∉ (text "a0").tail) := by decide +kernel

/-- 256 ascending bounds. -/
def fullBounds : List (Byte × Nat) := (List.range 256).map (fun k => (0x61#8, k))

/-- AriDecTableFaults: a good 257th entry. -/
theorem witness_AriDecTableFaults_full :
    let s := given 2000 9 (boundText fullBounds ++ text "b9\n")
    (Ready s ∧ input s = boundText fullBounds ++ text "b9\n") ∧ fullBounds.length = 256 ∧
      fullBounds.Pairwise (fun x y => x.2 < y.2) ∧ (∀ e ∈ fullBounds, e.2 ≤ Config.NUM_MAX) ∧
      text "b9\n" = 0x62#8 :: (text "9" ++ LF :: []) ∧ LF ∉ text "9" ∧ isNumeral (text "9") = true := by
  refine ⟨ready_given 2000 9 _ (by decide +kernel), by decide +kernel, ?_, by decide +kernel⟩
  exact List.pairwise_map.mpr List.pairwise_lt_range

/-- AriDecTotalAndStreamFaults: its six clauses. -/
theorem witness_AriDecTotalAndStreamFaults :
    (let s := given 9 9 (text "--\n1")
     Ready s ∧ input s = boundText [] ++ delimLine ++ text "1" ++ [] ∧ LF ∉ text "1") ∧
    (let s := given 9 9 (text "--\n\n")
     Ready s ∧ input s = boundText [] ++ delimLine ++ [] ++ text "\n" ∧ (text "\n").head? = some LF ∧
       isNumeral [] = false) ∧
    (let s := given 9 9 (text "--\n1\n000")
     Ready s ∧ input s = boundText [] ++ delimLine ++ text "1" ++ LF :: (text "000" ++ []) ∧ LF ∉ text "000" ∧
       isNumeral (text "1") = true ∧ (text "000").length % 4 ≠ 0) ∧
    (let s := given 9 9 (text "--\n1\n1010")
     Ready s ∧ input s = boundText [] ++ delimLine ++ text "1" ++ LF :: (text "1010" ++ []) ∧ LF ∉ text "1010" ∧
       (text "1010").length % 4 = 0 ∧ text "1010" = bcdText [] ++ text "1010" ++ [] ∧ (text "1010").length = 4 ∧
       9 < val (text "1010")) ∧
    (let line := bcdText (List.replicate 17 9)
     let s := given 90 9 (text "--\n1\n" ++ line)
     Ready s ∧ input s = boundText [] ++ delimLine ++ text "1" ++ LF :: (line ++ []) ∧ LF ∉ line ∧
       (∀ d ∈ List.replicate 17 9, d ≤ 9) ∧ (List.replicate 17 9).length < 18) ∧
    (let line := bcdText (List.replicate 18 9)
     let s := given 90 9 (text "--\n1\n" ++ line ++ text "\n")
     Ready s ∧ input s = boundText [] ++ delimLine ++ text "1" ++ LF :: (line ++ text "\n") ∧ LF ∉ line ∧
       (text "\n").head? = some LF ∧ 18 ≤ (List.replicate 18 9).length ∧ 0 < numVal (text "1")) := by decide +kernel

/-- ArithmeticRoundTrip. -/
theorem witness_ArithmeticRoundTrip :
    let art := "\n0\na1\nb3\n--\n4\n0101011100000011000100100100100110011001100110011001100110011001100110011001\n"
    (Ready (on "aab\n") ∧ input (on "aab\n") = text "aab\n") ∧ onText .ariEnc "aab\n" = some (0x2#32, text art) ∧
      (Ready (on art) ∧ input (on art) = text art) ∧ (norm (text "aab\n")).length ≤ 5000 :=
  ⟨ready_given 5000 5000 _ (by decide +kernel), test_ariEnc, ready_given 5000 5000 _ (by decide +kernel),
    by decide +kernel⟩

/-- RotationsAreSorted: a periodic block, where a lower position's rotation is another string. -/
theorem witness_RotationsAreSorted :
    text "baba" ≠ [] ∧ keyIndex (sortRotations (text "baba")) = 2 ∧ (sortRotations (text "baba"))[0]? = some 1 := by
  decide +kernel

/-- PrimitiveBlockVisitsEachPositionOnce: `"ban"`, whose rotations are all different. -/
theorem witness_PrimitiveBlockVisitsEachPositionOnce :
    ∀ i < (text "ban").length, ∀ j < (text "ban").length, i ≠ j → rotation (text "ban") i ≠ rotation (text "ban") j := by
  decide +kernel

/-- MoveToFrontRoundTrip: a row over a list of two symbols. -/
theorem witness_MoveToFrontRoundTrip : ∀ c ∈ text "bbab", c ∈ text "ab" := by decide +kernel

/-- BwtEncWritesTheArtifact, with exactly the room the artifact takes. -/
theorem witness_BwtEncWritesTheArtifact :
    Ready (given 6 24 (text "banana")) ∧ (bwtArtifact (input (given 6 24 (text "banana")))).length ≤ 24 := by
  decide +kernel

/-- BwtDecDecodesEveryBlock: an unsorted block with leading zeros in its key, and one with an empty row and a key of any
size; with the last `LF` and without it. -/
theorem witness_BwtDecDecodesEveryBlock :
    let bs : List BwtBlock := [⟨text "ba", text "000", [1, 0]⟩, ⟨text "a", text "4294967295", []⟩]
    let s := given 90 2 (bs.flatMap BwtBlock.text)
    let s' := given 90 2 (bs.flatMap BwtBlock.text).dropLast
    Ready s ∧ input s = bs.flatMap BwtBlock.text ∧ Ready s' ∧ input s' ++ [LF] = bs.flatMap BwtBlock.text ∧
      (∀ b ∈ bs, b.valid = true) ∧ (bs.flatMap BwtBlock.decoded).length ≤ s.caps.dstCap.val ∧
      (bs.flatMap BwtBlock.decoded).length ≤ s'.caps.dstCap.val := by decide +kernel

/-- A good block. -/
def goodBlock : BwtBlock := ⟨text "a", text "0", [0]⟩

/-- What BwtDecFaults asks of a state whose input is a good block and what follows it. -/
def afterGoodBlock (rest : Bytes) : Prop :=
  let inp := [goodBlock].flatMap BwtBlock.text ++ rest
  let s := given 3000 1 inp
  (Ready s ∧ input s = inp) ∧ (∀ x ∈ [goodBlock], x.valid = true) ∧
    ([goodBlock].flatMap BwtBlock.decoded).length ≤ s.caps.dstCap.val

theorem afterGoodBlock_holds (rest : Bytes) (h : ([goodBlock].flatMap BwtBlock.text ++ rest).length ≤ 3000) :
    afterGoodBlock rest :=
  ⟨ready_given 3000 1 _ h, by decide +kernel,
    show ([goodBlock].flatMap BwtBlock.decoded).length ≤ 1 by decide +kernel⟩

/-- BwtDecFaults: a bad block written as its fields: an empty alphabet, one of 257 entries, 1001 indices, an index at
the alphabet size, a key at the row length. -/
theorem witness_BwtDecFaults :
    ∀ b ∈ [(⟨[], text "0", []⟩ : BwtBlock), ⟨List.replicate 257 0x61#8, text "0", []⟩,
        ⟨text "a", text "0", List.replicate 1001 0⟩, ⟨text "a", text "0", [1]⟩, ⟨text "ab", text "02", [0, 1]⟩],
      afterGoodBlock b.text ∧ isNumeral b.num = true ∧ ∀ i ∈ b.indices, i < 2 ^ codeWidth b.alpha.length := by
  intro b hb
  have hlen : ∀ b ∈ [(⟨[], text "0", []⟩ : BwtBlock), ⟨List.replicate 257 0x61#8, text "0", []⟩,
      ⟨text "a", text "0", List.replicate 1001 0⟩, ⟨text "a", text "0", [1]⟩, ⟨text "ab", text "02", [0, 1]⟩],
      ([goodBlock].flatMap BwtBlock.text ++ b.text).length ≤ 3000 ∧ isNumeral b.num = true ∧
        ∀ i ∈ b.indices, i < 2 ^ codeWidth b.alpha.length := by decide +kernel
  exact ⟨afterGoodBlock_holds _ (hlen b hb).1, (hlen b hb).2⟩

/-- BwtDecFaults: a misspelled block: the source ends after an entry, in one, and with an entry of two symbols; a key line
without `LF` and one that is no numeral; a bit-string with a character that is no bit and one of a wrong length. -/
theorem witness_BwtDecFaults_spelling :
    (afterGoodBlock (alphaText (text "x") ++ []) ∧ text "x" ≠ [] ∧ ¬ (delimLine <+: [])) ∧
    (afterGoodBlock (alphaText [] ++ text "-") ∧ text "-" ≠ [] ∧ ¬ (delimLine <+: text "-")) ∧
    (afterGoodBlock (alphaText (text "x") ++ text "ab\n") ∧ ¬ (delimLine <+: text "ab\n") ∧
      text "ab\n" = 0x61#8 :: 0x62#8 :: text "\n" ∧ 0x62#8 ≠ LF) ∧
    (afterGoodBlock (alphaText (text "x") ++ delimLine ++ text "0" ++ []) ∧ LF ∉ text "0") ∧
    (afterGoodBlock (alphaText (text "x") ++ delimLine ++ text "z" ++ text "\n") ∧ LF ∉ text "z" ∧
      (text "\n").head? = some LF ∧ isNumeral (text "z") = false) ∧
    (afterGoodBlock (alphaText (text "x") ++ delimLine ++ text "0" ++ [LF] ++ text "2" ++ []) ∧ LF ∉ text "2" ∧
      isNumeral (text "0") = true ∧ isBits (text "2") = false) ∧
    (afterGoodBlock (alphaText (text "xyz") ++ delimLine ++ text "0" ++ [LF] ++ text "000" ++ text "\n") ∧
      LF ∉ text "000" ∧ (text "\n").head? = some LF ∧ (text "000").length % codeWidth (text "xyz").length ≠ 0) :=
  ⟨⟨afterGoodBlock_holds _ (by decide +kernel), by decide +kernel⟩,
    ⟨afterGoodBlock_holds _ (by decide +kernel), by decide +kernel⟩,
    ⟨afterGoodBlock_holds _ (by decide +kernel), by decide +kernel⟩,
    ⟨afterGoodBlock_holds _ (by decide +kernel), by decide +kernel⟩,
    ⟨afterGoodBlock_holds _ (by decide +kernel), by decide +kernel⟩,
    ⟨afterGoodBlock_holds _ (by decide +kernel), by decide +kernel⟩,
    ⟨afterGoodBlock_holds _ (by decide +kernel), by decide +kernel⟩⟩

/-- BwtRoundTrip. -/
theorem witness_BwtRoundTrip :
    Ready (given 6 24 (text "banana")) ∧ (bwtArtifact (input (given 6 24 (text "banana")))).length ≤ 24 ∧
    shown (exec .bwtEnc (given 6 24 (text "banana"))) = some (0x2#32, input (on "a\nb\nn\n--\n3\n100010100000\n")) ∧
    Ready (on "a\nb\nn\n--\n3\n100010100000\n") ∧
    (given 6 24 (text "banana")).srcLen.toNat ≤ (on "a\nb\nn\n--\n3\n100010100000\n").caps.dstCap.val := by
  decide +kernel

end Sys2Proof.Tests
end

section
/-! The text model (00_scope.md R10): what `linesFrom` does at each byte, at a stretch of bytes without `LF`, and at the
end of the text; `LinesAndNorm` follows. -/

namespace Sys2Proof.Artifact

open Sys2Proof Sys2Proof.Machine

/-! ### One equation for each case of `linesFrom` -/

@[simp] theorem linesFrom_nil (cur : Bytes) : linesFrom cur [] = if cur = [] then [] else [cur] := rfl

@[simp] theorem linesFrom_LF_cons (cur rest : Bytes) : linesFrom cur (LF :: rest) = cur :: lines rest := rfl

@[simp] theorem linesFrom_cons_of_ne {b : Byte} (hb : b ≠ LF) (cur rest : Bytes) :
    linesFrom cur (b :: rest) = linesFrom (cur ++ [b]) rest := if_neg hb

/-! ### `Lines` of LF-free lines and a rest -/

theorem linesFrom_append_of_LF_notMem {l : Bytes} (hl : LF ∉ l) (cur rest : Bytes) :
    linesFrom cur (l ++ rest) = linesFrom (cur ++ l) rest := by
  induction l generalizing cur with
  | nil => simp
  | cons b l ih =>
    obtain ⟨hb, hl⟩ : LF ≠ b ∧ LF ∉ l := by simpa using hl
    simp [hb.symm, ih hl]

theorem lines_of_LF_notMem {last : Bytes} (h : LF ∉ last) :
    lines last = if last = [] then [] else [last] := by
  simpa [lines] using linesFrom_append_of_LF_notMem h [] []

theorem lines_line_append {l : Bytes} (hl : LF ∉ l) (rest : Bytes) :
    lines (l ++ LF :: rest) = l :: lines rest := by
  simpa [lines] using linesFrom_append_of_LF_notMem hl [] (LF :: rest)

theorem lines_flatMap_append {ls : List Bytes} (hls : ∀ l ∈ ls, LF ∉ l) (rest : Bytes) :
    lines (ls.flatMap (fun l => l ++ [LF]) ++ rest) = ls ++ lines rest := by
  induction ls with
  | nil => rfl
  | cons l ls ih =>
    obtain ⟨hl, hls⟩ := List.forall_mem_cons.mp hls
    simp [lines_line_append hl, ih hls]

/-! ### No line holds an `LF` -/

theorem LF_notMem_of_mem_linesFrom {cur s l : Bytes} (hcur : LF ∉ cur) (hl : l ∈ linesFrom cur s) : LF ∉ l := by
  induction s generalizing cur with
  | nil =>
    obtain ⟨-, rfl⟩ : cur ≠ [] ∧ l = cur := by simpa using hl
    exact hcur
  | cons b s ih =>
    by_cases hb : b = LF
    · subst hb
      obtain rfl | hl := List.mem_cons.mp hl
      · exact hcur
      · exact ih List.not_mem_nil hl
    · rw [linesFrom_cons_of_ne hb] at hl
      exact ih (by simp [hcur, Ne.symm hb]) hl

theorem LF_notMem_of_mem_lines {s l : Bytes} (hl : l ∈ lines s) : LF ∉ l :=
  LF_notMem_of_mem_linesFrom List.not_mem_nil hl

/-! ### `Norm` -/

@[simp] theorem norm_nil : norm [] = [] := rfl

/-- On a text that ends in `LF`, putting the lines together again gives the line already begun and the text. -/
theorem flatMap_linesFrom_append_LF (cur s : Bytes) :
    (linesFrom cur (s ++ [LF])).flatMap (fun l => l ++ [LF]) = cur ++ s ++ [LF] := by
  induction s generalizing cur with
  | nil => simp [lines]
  | cons b s ih =>
    by_cases hb : b = LF
    · subst hb
      simp [lines, ih]
    · simp [hb, ih]

theorem norm_append_LF (s : Bytes) : norm (s ++ [LF]) = s ++ [LF] :=
  flatMap_linesFrom_append_LF [] s

/-- An `LF` put after a last line that has none begins no further line. -/
theorem linesFrom_append_LF_of_ne {b : Byte} (hb : b ≠ LF) (cur s : Bytes) :
    linesFrom cur (s ++ [b] ++ [LF]) = linesFrom cur (s ++ [b]) := by
  induction s generalizing cur with
  | nil => simp [hb, lines]
  | cons c s ih =>
    by_cases hc : c = LF
    · subst hc
      exact congrArg (cur :: ·) (ih [])
    · simpa [hc] using ih (cur ++ [c])

theorem norm_append_of_ne {b : Byte} (hb : b ≠ LF) (s : Bytes) : norm (s ++ [b]) = s ++ [b, LF] := by
  have hlines : lines (s ++ [b] ++ [LF]) = lines (s ++ [b]) := linesFrom_append_LF_of_ne hb [] s
  calc norm (s ++ [b]) = norm (s ++ [b] ++ [LF]) := by rw [norm, norm, hlines]
    _ = s ++ [b] ++ [LF] := norm_append_LF _
    _ = s ++ [b, LF] := List.append_assoc ..

/-- Settles O27, by the lemmas on `Lines` and `Norm` above. -/
theorem linesAndNorm : Obligations.LinesAndNorm := by
  unfold Obligations.LinesAndNorm
  refine ⟨fun ls last hls hlast => ?_, fun s => ⟨rfl, fun _ => LF_notMem_of_mem_lines⟩, norm_nil, norm_append_LF,
    fun s b hb => norm_append_of_ne hb s⟩
  rw [lines_flatMap_append hls, lines_of_LF_notMem hlast]

end Sys2Proof.Artifact
end

section
/-! The state after reset (10_state.md R41): what a buffer cell never written holds, and the `STATUS` word; `ResetValues`
follows. -/

namespace Sys2Proof.Machine

open Sys2Proof

/-! ### A cell never written -/

@[simp] theorem Memory.read_nil (a : Nat) : Memory.read [] a = none := rfl

theorem srcCell_of_read_eq_none {s : State} {a : Nat} (h : Memory.read s.src a = none) :
    srcCell s a = Config.srcPowerUp a := by
  simp [srcCell, h]

theorem dstCell_of_read_eq_none {s : State} {a : Nat} (h : Memory.read s.dst a = none) :
    dstCell s a = Config.dstPowerUp a := by
  simp [dstCell, h]

/-! ### The reset state -/

@[simp] theorem Status.reset_word : Status.reset.word = 0x00000000#32 := by decide

@[simp] theorem srcCell_reset (a : Nat) : srcCell State.reset a = Config.srcPowerUp a :=
  srcCell_of_read_eq_none (Memory.read_nil a)

@[simp] theorem dstCell_reset (a : Nat) : dstCell State.reset a = Config.dstPowerUp a :=
  dstCell_of_read_eq_none (Memory.read_nil a)

/-- Settles O10: the registers and the working state are fields of `State.reset`; the `STATUS` word and the cells are
the lemmas above. -/
theorem resetValues : Obligations.ResetValues := by
  unfold Obligations.ResetValues
  have hstatus : State.reset.status.word = 0x00000000#32 := Status.reset_word
  exact ⟨rfl, hstatus, rfl, rfl, rfl, srcCell_reset, dstCell_reset⟩

end Sys2Proof.Machine
end

section
/-! The command word (30_encoding.md R71 to R73): a word is its four fields, the legality test is on the upper two, and
decoder and encoder are inverse on the lower two; `DecodeAcceptsExactlyTheEightWords` follows. -/

namespace Sys2Proof

/-! ### The legality test -/

@[simp] theorem reservedClear_iff (w : Word) : reservedClear w = true ↔ w.extractLsb 31 4 = 0#28 := by
  rw [reservedClear, beq_iff_eq]

@[simp] theorem codecSet_iff (w : Word) : codecSet w = true ↔ w.extractLsb 3 3 = 1#1 := by
  rw [codecSet, beq_iff_eq]

theorem legalWord_iff (w : Word) :
    legalWord w = true ↔ w.extractLsb 31 4 = 0#28 ∧ w.extractLsb 3 3 = 1#1 := by
  simp [legalWord]

/-- The illegal words are those with a reserved bit set and the words 0 to 7 (30_encoding.md R73). -/
theorem legalWord_eq_false_iff (w : Word) :
    legalWord w = false ↔ w.extractLsb 31 4 ≠ 0#28 ∨ w.toNat ≤ 7 := by
  have hrsv : w.extractLsb 31 4 = 0#28 ↔ w.toNat < 16 := by
    rw [← BitVec.toNat_inj, BitVec.extractLsb_toNat, Nat.shiftRight_eq_div_pow]
    bv_omega
  have hcodec : w.extractLsb 3 3 = 1#1 ↔ w.toNat / 8 % 2 = 1 := by
    rw [← BitVec.toNat_inj, BitVec.extractLsb_toNat, Nat.shiftRight_eq_div_pow]
    rfl
  rw [← Bool.not_eq_true, legalWord_iff, Ne, hrsv, hcodec]
  omega

/-! ### The fields -/

/-- A word is `RSV`, `CODEC`, `ENG` and `DIR` from the high end to the low (30_encoding.md R71). -/
theorem word_eq_append_fields (w : Word) :
    w = w.extractLsb 31 4 ++ (w.extractLsb 3 3 ++ (engField w ++ dirField w)) := by
  have hlow : engField w ++ dirField w = w.extractLsb' 0 3 :=
    BitVec.extractLsb'_append_extractLsb'_eq_extractLsb' rfl
  have hmid : w.extractLsb 3 3 ++ w.extractLsb' 0 3 = w.extractLsb' 0 4 :=
    BitVec.extractLsb'_append_extractLsb'_eq_extractLsb' rfl
  have hword : w.extractLsb 31 4 ++ w.extractLsb' 0 4 = w.extractLsb' 0 32 :=
    BitVec.extractLsb'_append_extractLsb'_eq_extractLsb' rfl
  rw [hlow, hmid, hword, BitVec.extractLsb'_eq_self]

theorem engOf_instrOf (eng : BitVec 2) (dir : BitVec 1) : engOf (instrOf eng dir) = eng := by
  decide +revert

theorem dirOf_instrOf (eng : BitVec 2) (dir : BitVec 1) : dirOf (instrOf eng dir) = dir := by
  decide +revert

/-! ### Decoder and encoder -/

theorem decode_of_legalWord {w : Word} (h : legalWord w = true) :
    decode w = .ok (instrOf (engField w) (dirField w)) := by
  obtain ⟨hrsv, hcodec⟩ := (legalWord_iff w).mp h
  simp [decode, hrsv, hcodec]

theorem decode_of_not_legalWord {w : Word} (h : legalWord w = false) : ∃ e, decode w = .error e := by
  unfold decode
  by_cases hrsv : reservedClear w = true
  · have hcodec : codecSet w = false := by simpa [legalWord, hrsv] using h
    exact ⟨.codecBit, by rw [if_pos hrsv, hcodec]; rfl⟩
  · exact ⟨.reservedBits, if_neg hrsv⟩

theorem exists_decode_eq_ok_iff (w : Word) : (∃ i, decode w = .ok i) ↔ legalWord w = true := by
  refine ⟨fun ⟨i, hi⟩ => ?_, fun h => ⟨_, decode_of_legalWord h⟩⟩
  by_contra hw
  obtain ⟨e, he⟩ := decode_of_not_legalWord (Bool.eq_false_iff.mpr hw)
  cases hi.symm.trans he

/-- What was shown of each command's word holds of every command. -/
theorem encoding_statement (i : Instr) : Laws.Encoding.Statement i := by
  cases i
  exacts [Laws.Encoding.hufEnc, Laws.Encoding.hufDec, Laws.Encoding.ariEnc, Laws.Encoding.ariDec,
    Laws.Encoding.bwtEnc, Laws.Encoding.bwtDec, Laws.Encoding.hamEnc, Laws.Encoding.hamDec]

@[simp] theorem decode_encode (i : Instr) : decode (encode i) = .ok i := by
  obtain ⟨-, -, hdecode, -⟩ := encoding_statement i
  exact hdecode

/-- The encoder puts back the fields of a legal word. -/
theorem encode_instrOf_fields {w : Word} (h : legalWord w = true) :
    encode (instrOf (engField w) (dirField w)) = w := by
  obtain ⟨hrsv, hcodec⟩ := (legalWord_iff w).mp h
  calc encode (instrOf (engField w) (dirField w))
      = 0#28 ++ (1#1 ++ (engField w ++ dirField w)) := by rw [encode, engOf_instrOf, dirOf_instrOf]
    _ = w.extractLsb 31 4 ++ (w.extractLsb 3 3 ++ (engField w ++ dirField w)) := by rw [hrsv, hcodec]
    _ = w := (word_eq_append_fields w).symm

theorem decode_eq_ok_iff (w : Word) (i : Instr) : decode w = .ok i ↔ w = encode i := by
  refine ⟨fun h => ?_, fun h => h ▸ decode_encode i⟩
  have hw : legalWord w = true := (exists_decode_eq_ok_iff w).mp ⟨i, h⟩
  obtain rfl : instrOf (engField w) (dirField w) = i := Except.ok.inj ((decode_of_legalWord hw).symm.trans h)
  exact (encode_instrOf_fields hw).symm

/-- Settles O1: decoder and encoder are inverse, a decoded word is a legal one, and each encoding is evaluated. -/
theorem decodeAcceptsExactlyTheEightWords : Obligations.DecodeAcceptsExactlyTheEightWords := by
  unfold Obligations.DecodeAcceptsExactlyTheEightWords
  have hlegal (w : Word) : (∃ i, decode w = .ok i) ↔ w.extractLsb 31 4 = 0#28 ∧ w.extractLsb 3 3 = 1#1 :=
    (exists_decode_eq_ok_iff w).trans (legalWord_iff w)
  exact ⟨decode_eq_ok_iff, hlegal, rfl, rfl, rfl, rfl, rfl, rfl, rfl, rfl⟩

end Sys2Proof
end

section
/-! A host write to `CMD` (10_state.md R21) and the command an illegal word starts (30_encoding.md R73);
`IllegalWordFaultsAtOnce` follows. -/

namespace Sys2Proof.Machine

open Sys2Proof

theorem isBusy_eq_false_iff (s : State) : isBusy s = false ↔ s.status.state ≠ .busy := by
  simp [isBusy]

/-- Where no command runs a step on a write to `CMD` issues the word written. -/
theorem step_writeReg_offCmd {s : State} {w : Word} {rest : List HostOp} (hhost : s.host = .writeReg offCmd w :: rest)
    (hidle : s.status.state ≠ .busy) : step s = issueCommand exec w (State.takeHost rest s) := by
  have hbusy : isBusy (State.takeHost rest s) = false := (isBusy_eq_false_iff _).mpr hidle
  simp [step, hhost, hostAccess, hostWriteReg, hbusy]

/-- An illegal word ends its command in fault entry before the rule runs, whatever `SRC_LEN` holds: `ILLEGAL_CMD` is the
first of the start checks (40_command_dispatch.md R103). -/
theorem runCommand_of_not_legalWord {w : Word} (hw : legalWord w = false) (rule : Cmd Unit) (s : State) :
    runCommand w rule s = faultEntry .illegalCmd (startCommand w s) := by
  have hcheck : startChecks w (startCommand w s) = .error (.fault .illegalCmd) (startCommand w s) := by
    rw [startChecks_apply, if_pos hw]
  rw [runCommand, cmd_bind_error hcheck, endCommand_fault]

theorem issueCommand_of_not_legalWord {w : Word} (hw : legalWord w = false)
    (run : Instr → State → Host.Outcome State Fault Refusal) (s : State) :
    issueCommand run w s = .next (faultEntry .illegalCmd (startCommand w s)) := by
  obtain ⟨e, he⟩ := decode_of_not_legalWord hw
  simp only [issueCommand, he, runCommand_of_not_legalWord hw]

/-- Settles O4: the word is illegal, so the step ends in fault entry from the started state; the updates of taking the
access, command start and fault entry together are the state given. -/
theorem illegalWordFaultsAtOnce : Obligations.IllegalWordFaultsAtOnce := by
  unfold Obligations.IllegalWordFaultsAtOnce
  intro s w rest hhost hidle hword
  have hillegal : legalWord w = false := (legalWord_eq_false_iff w).mpr hword
  rw [step_writeReg_offCmd hhost hidle, issueCommand_of_not_legalWord hillegal]
  rfl

end Sys2Proof.Machine
end

section
/-! Code trees, the mathematical content of 41_huffman.md R124 and R125: a binary tree with symbols at its leaves, and the
code of each leaf, the labels on its path from the root. Leaf paths of one tree are never initial segments of one another,
have fewer bits than the tree has leaves, and satisfy Σ 2^(−length) = 1. -/

namespace Sys2Proof.Huffman

open Sys2Proof Sys2Proof.Machine

/-- A binary tree with a symbol at each leaf. -/
inductive CodeTree where
  | leaf (c : Byte)
  | fork (l r : CodeTree)

/-- An entry of a code table with one bit put in front of its code. -/
def withBit (b : Byte) (e : Byte × Bytes) : Byte × Bytes := (e.1, b :: e.2)

/-- Each leaf's symbol and path, from left to right (41_huffman.md R124). -/
def CodeTree.codes : CodeTree → List (Byte × Bytes)
  | .leaf c => [(c, [])]
  | .fork l r => l.codes.map (withBit ch0) ++ r.codes.map (withBit ch1)

/-- The symbols of the leaves, from left to right. -/
def CodeTree.symbols : CodeTree → Bytes
  | .leaf c => [c]
  | .fork l r => l.symbols ++ r.symbols

/-- The number of bits of the longest path. -/
def CodeTree.height : CodeTree → Nat
  | .leaf _ => 0
  | .fork l r => max l.height r.height + 1

@[simp] theorem withBit_snd (b : Byte) (e : Byte × Bytes) : (withBit b e).2 = b :: e.2 := rfl

theorem isBits_cons (b : Byte) (bs : Bytes) : isBits (b :: bs) = (isBit b && isBits bs) := rfl

theorem map_fst_withBit (b : Byte) (es : List (Byte × Bytes)) : (es.map (withBit b)).map Prod.fst = es.map Prod.fst := by
  rw [List.map_map]
  rfl

theorem CodeTree.map_fst_codes (t : CodeTree) : t.codes.map Prod.fst = t.symbols := by
  induction t with
  | leaf c => rfl
  | fork l r ihl ihr => rw [codes, symbols, List.map_append, map_fst_withBit, map_fst_withBit, ihl, ihr]

theorem CodeTree.height_lt_length_symbols (t : CodeTree) : t.height < t.symbols.length := by
  induction t with
  | leaf c => simp [height, symbols]
  | fork l r ihl ihr =>
    rw [height, symbols, List.length_append]
    omega

/-- A leaf below a fork is a leaf of the left or of the right subtree, one bit deeper. -/
theorem CodeTree.mem_codes_fork {l r : CodeTree} {e : Byte × Bytes} :
    e ∈ (fork l r).codes ↔ (∃ e' ∈ l.codes, withBit ch0 e' = e) ∨ ∃ e' ∈ r.codes, withBit ch1 e' = e := by
  rw [codes, List.mem_append, List.mem_map, List.mem_map]

theorem CodeTree.length_code_le_height {t : CodeTree} {e : Byte × Bytes} (he : e ∈ t.codes) : e.2.length ≤ t.height := by
  induction t generalizing e with
  | leaf c =>
    obtain rfl : e = (c, []) := List.mem_singleton.mp he
    exact Nat.zero_le _
  | fork l r ihl ihr =>
    rw [height]
    obtain ⟨e', he', rfl⟩ | ⟨e', he', rfl⟩ := mem_codes_fork.mp he
    · have := ihl he'
      simp only [withBit_snd, List.length_cons]
      omega
    · have := ihr he'
      simp only [withBit_snd, List.length_cons]
      omega

theorem CodeTree.isBits_code {t : CodeTree} {e : Byte × Bytes} (he : e ∈ t.codes) : isBits e.2 = true := by
  induction t generalizing e with
  | leaf c =>
    obtain rfl : e = (c, []) := List.mem_singleton.mp he
    rfl
  | fork l r ihl ihr =>
    obtain ⟨e', he', rfl⟩ | ⟨e', he', rfl⟩ := mem_codes_fork.mp he
    · exact (isBits_cons ch0 _).trans (ihl he')
    · exact (isBits_cons ch1 _).trans (ihr he')

theorem CodeTree.code_ne_nil {l r : CodeTree} {e : Byte × Bytes} (he : e ∈ (fork l r).codes) : e.2 ≠ [] := by
  obtain ⟨e', -, rfl⟩ | ⟨e', -, rfl⟩ := mem_codes_fork.mp he <;> simp

/-- Neither of two codes begins with the other. -/
def Apart (x y : Byte × Bytes) : Prop := ¬ x.2 <+: y.2 ∧ ¬ y.2 <+: x.2

theorem Apart.symm {x y : Byte × Bytes} (h : Apart x y) : Apart y x := And.symm h

theorem Apart.withBit {x y : Byte × Bytes} (b : Byte) (h : Apart x y) : Apart (withBit b x) (withBit b y) :=
  ⟨fun hp => h.1 (List.prefix_cons_inj b |>.mp hp), fun hp => h.2 (List.prefix_cons_inj b |>.mp hp)⟩

/-- Paths that part at the root. -/
theorem apart_of_left_right (x y : Byte × Bytes) : Apart (withBit ch0 x) (withBit ch1 y) :=
  ⟨fun hp => absurd (List.cons_prefix_cons.mp hp).1 (by decide),
    fun hp => absurd (List.cons_prefix_cons.mp hp).1 (by decide)⟩

/-- No leaf lies on the path to another leaf (41_huffman.md R125 (a)). -/
theorem CodeTree.pairwise_apart_codes (t : CodeTree) : t.codes.Pairwise Apart := by
  induction t with
  | leaf c => exact List.pairwise_singleton ..
  | fork l r ihl ihr =>
    refine List.pairwise_append.mpr ⟨?_, ?_, fun x hx y hy => ?_⟩
    · exact List.pairwise_map.mpr (ihl.imp (Apart.withBit ch0))
    · exact List.pairwise_map.mpr (ihr.imp (Apart.withBit ch1))
    · obtain ⟨x', -, rfl⟩ := List.mem_map.mp hx
      obtain ⟨y', -, rfl⟩ := List.mem_map.mp hy
      exact apart_of_left_right x' y'

/-- `Apart` holds of the codes of two different symbols. -/
theorem CodeTree.apart_of_mem_codes {t : CodeTree} {x y : Byte × Bytes} (hx : x ∈ t.codes) (hy : y ∈ t.codes)
    (hne : x.1 ≠ y.1) : Apart x y :=
  have : Std.Symm Apart := ⟨fun _ _ => Apart.symm⟩
  t.pairwise_apart_codes.forall hx hy fun h => hne (congrArg Prod.fst h)

/-- Σ 2^(−length) = 1 over the leaves, stated times 2^`n` for any `n` no path exceeds (41_huffman.md R125 (c)). -/
theorem CodeTree.sum_codes {t : CodeTree} {n : Nat} (hn : t.height ≤ n) :
    (t.codes.map fun e => 2 ^ (n - e.2.length)).sum = 2 ^ n := by
  induction t generalizing n with
  | leaf c => simp [codes]
  | fork l r ihl ihr =>
    obtain ⟨k, rfl⟩ : ∃ k, n = k + 1 := ⟨n - 1, by rw [height] at hn; omega⟩
    have hlr : l.height ≤ k ∧ r.height ≤ k := by rw [height] at hn; omega
    have hbit (b : Byte) (es : List (Byte × Bytes)) :
        (es.map (withBit b)).map (fun e => 2 ^ (k + 1 - e.2.length)) = es.map fun e => 2 ^ (k - e.2.length) := by
      simp [Function.comp_def]
    rw [codes, List.map_append, List.sum_append, hbit, hbit, ihl hlr.1, ihr hlr.2, pow_succ]
    omega

end Sys2Proof.Huffman
end

section
/-! The arena of engine HUF read as code trees (41_huffman.md R121 to R124): each merge joins two trees of the forest that
`Q` stands for, so the loop ends in one tree over all leaves, and code assignment writes exactly that tree's codes. -/

namespace Sys2Proof.Huffman

open Sys2Proof Sys2Proof.Machine Sys2Proof.Artifact

/-! ### Trees in an arena -/

/-- The node at an index is the root of a tree whose internal nodes have two children. -/
inductive Grows (node : List Node) : Nat → CodeTree → Prop where
  | leaf {i : Nat} {x : Node} (hi : node[i]? = some x) (hleaf : x.leaf = true) : Grows node i (.leaf x.sym)
  | fork {i a b : Nat} {x : Node} {l r : CodeTree} (hi : node[i]? = some x) (hleaf : x.leaf = false)
      (ha : x.l = some a) (hb : x.r = some b) (hl : Grows node a l) (hr : Grows node b r) : Grows node i (.fork l r)

theorem getElem?_append_of_eq_some {node : List Node} {i : Nat} {x : Node} (hi : node[i]? = some x) (more : List Node) :
    (node ++ more)[i]? = some x := by
  obtain ⟨hlt, -⟩ := List.getElem?_eq_some_iff.mp hi
  rw [List.getElem?_append_left hlt, hi]

/-- A tree stays where it is when the arena grows. -/
theorem Grows.append {node : List Node} {i : Nat} {t : CodeTree} (h : Grows node i t) (more : List Node) :
    Grows (node ++ more) i t := by
  induction h with
  | leaf hi hleaf => exact .leaf (getElem?_append_of_eq_some hi more) hleaf
  | fork hi hleaf ha hb _ _ ihl ihr => exact .fork (getElem?_append_of_eq_some hi more) hleaf ha hb ihl ihr

theorem Grows.join {node : List Node} {a b : Nat} {l r : CodeTree} (hl : Grows node a l) (hr : Grows node b r) :
    Grows (node ++ [joinNode node a b]) node.length (.fork l r) :=
  .fork (x := joinNode node a b) (by simp) rfl rfl rfl (hl.append _) (hr.append _)

/-! ### Code assignment -/

/-- `CODE` after an entry for each of a list of symbols and codes. -/
def setCodes (entries : List (Byte × Bytes)) (code : Vector Bytes 256) : Vector Bytes 256 :=
  entries.foldl (fun v e => setCell v e.1 e.2) code

theorem setCodes_append (xs ys : List (Byte × Bytes)) (code : Vector Bytes 256) :
    setCodes (xs ++ ys) code = setCodes ys (setCodes xs code) := List.foldl_append

theorem cell_setCell {α : Type} (v : Vector α 256) (c d : Byte) (a : α) :
    cell (setCell v c a) d = if c = d then a else cell v d := by
  simp only [cell, setCell, Vector.getElem_set, BitVec.toNat_inj]

theorem cell_setCodes_of_notMem {entries : List (Byte × Bytes)} {c : Byte} (hc : c ∉ entries.map Prod.fst)
    (code : Vector Bytes 256) : cell (setCodes entries code) c = cell code c := by
  induction entries generalizing code with
  | nil => rfl
  | cons e es ih =>
    obtain ⟨hne, hes⟩ := not_or.mp (mt List.mem_cons.mpr hc)
    rw [setCodes, List.foldl_cons, ← setCodes, ih hes, cell_setCell, if_neg (Ne.symm hne)]

theorem cell_setCodes_of_mem {entries : List (Byte × Bytes)} (hnd : (entries.map Prod.fst).Nodup) {e : Byte × Bytes}
    (he : e ∈ entries) (code : Vector Bytes 256) : cell (setCodes entries code) e.1 = e.2 := by
  induction entries generalizing code with
  | nil => exact absurd he List.not_mem_nil
  | cons e' es ih =>
    obtain ⟨hnot, hnd⟩ := List.nodup_cons.mp hnd
    rw [setCodes, List.foldl_cons, ← setCodes]
    obtain rfl | he := List.mem_cons.mp he
    · rw [cell_setCodes_of_notMem hnot, cell_setCell, if_pos rfl]
    · exact ih hnd he _

/-- The entries of a tree hanging below the path `pre`. -/
def CodeTree.codesBelow (t : CodeTree) (pre : Bytes) : List (Byte × Bytes) := t.codes.map fun e => (e.1, pre ++ e.2)

theorem CodeTree.codesBelow_fork (l r : CodeTree) (pre : Bytes) :
    (fork l r).codesBelow pre = l.codesBelow (pre ++ [ch0]) ++ r.codesBelow (pre ++ [ch1]) := by
  simp [codesBelow, codes, withBit, Function.comp_def]

theorem CodeTree.codesBelow_nil (t : CodeTree) : t.codesBelow [] = t.codes := by
  simp [codesBelow]

/-- `Assign` writes the codes of the tree it walks (41_huffman.md R124). -/
theorem Grows.assignCodes_eq {node : List Node} {i : Nat} {t : CodeTree} (h : Grows node i t) {fuel : Nat}
    (hfuel : t.height < fuel) (pre : Bytes) (code : Vector Bytes 256) :
    assignCodes node fuel i pre code = setCodes (t.codesBelow pre) code := by
  obtain ⟨k, rfl⟩ : ∃ k, fuel = k + 1 := ⟨fuel - 1, by omega⟩
  induction h generalizing k pre code with
  | leaf hi hleaf => simp [assignCodes, hi, hleaf, CodeTree.codesBelow, CodeTree.codes, setCodes]
  | @fork _ _ _ _ l r hi hleaf ha hb _ _ ihl ihr =>
    obtain ⟨j, rfl⟩ : ∃ j, k = j + 1 := ⟨k - 1, by rw [CodeTree.height] at hfuel; omega⟩
    have hlr : l.height < j + 1 ∧ r.height < j + 1 := by rw [CodeTree.height] at hfuel; omega
    rw [CodeTree.codesBelow_fork, setCodes_append, ← ihl _ _ j hlr.1, ← ihr _ _ j hlr.2, assignCodes]
    simp only [hi, hleaf, ha, hb, Bool.false_eq_true, if_false]

/-! ### The merging loop -/

theorem lowestOf_mem (node : List Node) (best : Nat) (q : List Nat) : lowestOf node best q ∈ best :: q := by
  induction q generalizing best with
  | nil => exact List.mem_singleton.mpr rfl
  | cons i rest ih =>
    rw [lowestOf]
    split
    · exact List.mem_cons_of_mem best (ih i)
    · exact (List.cons_subset_cons best (List.subset_cons_self i rest)) (ih best)

/-- A merge of a `Q` of two members or more takes two out and puts their parent in (41_huffman.md R123). -/
theorem mergeTwo_cases (node : List Node) {q : List Nat} (hq : 2 ≤ q.length) :
    ∃ a b rest, q.Perm (a :: b :: rest) ∧ mergeTwo node q = (node ++ [joinNode node a b], rest ++ [node.length]) := by
  obtain _ | ⟨i, q'⟩ := q
  · simp at hq
  have ha := lowestOf_mem node i q'
  have hperm := List.perm_cons_erase ha
  rw [mergeTwo]
  generalize lowestOf node i q' = a at ha hperm
  cases herase : (i :: q').erase a with
  | nil =>
    have hlen := hperm.length_eq
    rw [herase, List.length_singleton] at hlen
    omega
  | cons j rest' =>
    refine ⟨a, lowestOf node j rest', _, ?_, rfl⟩
    exact hperm.trans (herase ▸ (List.perm_cons_erase (lowestOf_mem node j rest')).cons a)

/-- The members of `Q` are the roots of trees whose leaves together hold the symbols `cs`; every internal node of the
arena has two children. -/
structure Forest (node : List Node) (q : List Nat) (cs : Bytes) : Prop where
  trees : ∃ ts, List.Forall₂ (Grows node) q ts ∧ (ts.flatMap CodeTree.symbols).Perm cs
  full : ∀ x ∈ node, x.leaf = false → x.l.isSome = true ∧ x.r.isSome = true

theorem Forest.mergeTwo {node : List Node} {q : List Nat} {cs : Bytes} (h : Forest node q cs) (hq : 2 ≤ q.length) :
    Forest (mergeTwo node q).1 (mergeTwo node q).2 cs ∧ (mergeTwo node q).1.length = node.length + 1 ∧
      (mergeTwo node q).2.length + 1 = q.length := by
  obtain ⟨⟨ts, hgrows, hsyms⟩, hfull⟩ := h
  obtain ⟨a, b, rest, hperm, hmerge⟩ := mergeTwo_cases node hq
  obtain ⟨ts', hgrows', hts⟩ := List.perm_comp_forall₂ hperm.symm hgrows
  obtain ⟨ta, _, hta, hgrows'', rfl⟩ := List.forall₂_cons_left_iff.mp hgrows'
  obtain ⟨tb, tr, htb, hrest, rfl⟩ := List.forall₂_cons_left_iff.mp hgrows''
  rw [hmerge]
  refine ⟨⟨⟨tr ++ [.fork ta tb], ?_, ?_⟩, fun x hx hleaf => ?_⟩, by simp, by simp [hperm.length_eq]⟩
  · exact List.rel_append (hrest.imp fun _ _ hg => hg.append _) (.cons (hta.join htb) .nil)
  · refine (List.Perm.trans ?_ (hts.flatMap_right _)).trans hsyms
    simpa [CodeTree.symbols] using
      List.perm_append_comm (l₁ := tr.flatMap CodeTree.symbols) (l₂ := ta.symbols ++ tb.symbols)
  · obtain hx | hx := List.mem_append.mp hx
    · exact hfull x hx hleaf
    · obtain rfl := List.mem_singleton.mp hx
      exact ⟨rfl, rfl⟩

/-- The loop leaves one tree over all the symbols. -/
theorem Forest.mergeLoop {count : Nat} {node : List Node} {q : List Nat} {cs : Bytes} (h : Forest node q cs)
    (hq : q.length = count + 1) :
    ∃ node' r, mergeLoop count node q = (node', [r]) ∧ Forest node' [r] cs ∧ node'.length = node.length + count := by
  induction count generalizing node q with
  | zero =>
    obtain ⟨r, rfl⟩ := List.length_eq_one_iff.mp hq
    exact ⟨node, r, rfl, h, rfl⟩
  | succ k ih =>
    obtain ⟨hforest, hnode, hlen⟩ := h.mergeTwo (by omega)
    obtain ⟨node', r, hloop, hforest', hnode'⟩ := ih hforest (by omega)
    exact ⟨node', r, hloop, hforest', by omega⟩

/-! ### The leaves -/

theorem mem_allBytes (c : Byte) : c ∈ allBytes :=
  List.mem_map.mpr ⟨c.toNat, List.mem_range.mpr c.isLt, by simp⟩

theorem nodup_allBytes : allBytes.Nodup := by
  refine List.nodup_range.map_on fun i hi j hj h => ?_
  have := congrArg BitVec.toNat h
  simp only [List.mem_range, BitVec.toNat_ofNat] at hi hj this
  omega

/-- The symbols that were counted, in ascending order (41_huffman.md R121). -/
def counted (freq : Vector Nat 256) : Bytes := allBytes.filter fun c => decide (0 < cell freq c)

theorem mem_counted {freq : Vector Nat 256} {c : Byte} : c ∈ counted freq ↔ 0 < cell freq c := by
  simp [counted, mem_allBytes]

theorem nodup_counted (freq : Vector Nat 256) : (counted freq).Nodup := nodup_allBytes.filter _

theorem length_counted_le (freq : Vector Nat 256) : (counted freq).length ≤ 256 :=
  (List.length_filter_le ..).trans (by simp [allBytes])

theorem hufLeaves_eq_map (freq : Vector Nat 256) :
    hufLeaves freq = (counted freq).map fun c => leafNode c (cell freq c) := by
  rw [hufLeaves, counted, ← List.filterMap_eq_filter, List.map_filterMap]
  congr 1
  funext c
  by_cases h : 0 < cell freq c <;> simp [h]

theorem length_hufLeaves (freq : Vector Nat 256) : (hufLeaves freq).length = (counted freq).length := by
  rw [hufLeaves_eq_map, List.length_map]

/-- Before the first merge each member of `Q` is a leaf. -/
theorem forest_hufLeaves (freq : Vector Nat 256) :
    Forest (hufLeaves freq) (List.range (hufLeaves freq).length) (counted freq) where
  trees := by
    refine ⟨(counted freq).map .leaf, ?_, by simp [CodeTree.symbols, List.flatMap_map]⟩
    rw [List.forall₂_iff_get]
    refine ⟨by simp [length_hufLeaves], fun i h1 h2 => ?_⟩
    have hi : i < (counted freq).length := by simpa using h2
    have hnode : (hufLeaves freq)[i]? = some (leafNode (counted freq)[i] (cell freq (counted freq)[i])) := by
      simp [hufLeaves_eq_map, hi]
    simpa [leafNode] using Grows.leaf hnode rfl
  full := by
    intro x hx hleaf
    rw [hufLeaves_eq_map] at hx
    obtain ⟨c, -, rfl⟩ := List.mem_map.mp hx
    exact absurd hleaf (by simp [leafNode])

end Sys2Proof.Huffman
end

section
/-! The code table of any counts (41_huffman.md R125): with no symbol there is no code, with one the code `"0"`, with two
or more the codes of one code tree over the counted symbols; `HuffmanCodesArePrefixFree` follows. -/

namespace Sys2Proof.Huffman

open Sys2Proof Sys2Proof.Machine Sys2Proof.Artifact

/-! ### One equation for each number of leaves -/

theorem hufTree_of_two_le {leaves : List Node} (h : 2 ≤ leaves.length) :
    hufTree leaves = ((mergeLoop (leaves.length - 1) leaves (List.range leaves.length)).1,
      (mergeLoop (leaves.length - 1) leaves (List.range leaves.length)).2.head?) := by
  match leaves, h with
  | _ :: _ :: _, _ => rfl

theorem hufCodeOf_of_counted_nil {freq : Vector Nat 256} (h : counted freq = []) :
    hufCodeOf freq = Vector.replicate 256 [] := by
  rw [hufCodeOf, hufLeaves_eq_map, h]
  rfl

theorem hufCodeOf_of_counted_singleton {freq : Vector Nat 256} {c : Byte} (h : counted freq = [c]) :
    hufCodeOf freq = setCodes [(c, [ch0])] (Vector.replicate 256 []) := by
  rw [hufCodeOf, hufLeaves_eq_map, h]
  rfl

/-- Two or more symbols: `CODE` holds the codes of a tree over the counted symbols. -/
theorem exists_codeTree {freq : Vector Nat 256} (h : 2 ≤ (counted freq).length) :
    ∃ l r : CodeTree, (CodeTree.fork l r).symbols.Perm (counted freq) ∧
      hufCodeOf freq = setCodes (CodeTree.fork l r).codes (Vector.replicate 256 []) ∧
      ∀ x ∈ (hufTree (hufLeaves freq)).1, x.leaf = false → x.l.isSome = true ∧ x.r.isSome = true := by
  have hlen := length_hufLeaves freq
  obtain ⟨node, root, hloop, ⟨⟨ts, hgrows, hperm⟩, hfull⟩, hnode⟩ :=
    (forest_hufLeaves freq).mergeLoop (count := (hufLeaves freq).length - 1) (by rw [List.length_range]; omega)
  have htree : hufTree (hufLeaves freq) = (node, some root) := by
    rw [hufTree_of_two_le (by omega), hloop]
    rfl
  obtain ⟨t, _, ht, hnil, rfl⟩ := List.forall₂_cons_left_iff.mp hgrows
  obtain rfl := List.forall₂_nil_left_iff.mp hnil
  replace hperm : t.symbols.Perm (counted freq) := by simpa using hperm
  have hfuel : t.height < node.length := by
    have := t.height_lt_length_symbols
    have := hperm.length_eq
    omega
  have hcode : hufCodeOf freq = setCodes t.codes (Vector.replicate 256 []) := by
    rw [hufCodeOf, htree, hufCodes, ht.assignCodes_eq hfuel, CodeTree.codesBelow_nil]
  rw [htree]
  match t with
  | .leaf c => exact absurd (hperm.length_eq ▸ h) (by simp [CodeTree.symbols])
  | .fork l r => exact ⟨l, r, hperm, hcode, hfull⟩

/-! ### The entries of the table -/

/-- What the table of any counts is: an entry for each counted symbol, the codes apart from one another, each of 1 to
255 bits. -/
structure CodeTable (freq : Vector Nat 256) (entries : List (Byte × Bytes)) : Prop where
  code : hufCodeOf freq = setCodes entries (Vector.replicate 256 [])
  symbols : (entries.map Prod.fst).Perm (counted freq)
  bits : ∀ e ∈ entries, isBits e.2 = true ∧ 1 ≤ e.2.length ∧ e.2.length ≤ 255
  apart : ∀ x ∈ entries, ∀ y ∈ entries, x.1 ≠ y.1 → Apart x y

theorem codeTable_nil {freq : Vector Nat 256} (h : counted freq = []) : CodeTable freq [] where
  code := hufCodeOf_of_counted_nil h
  symbols := h ▸ .nil
  bits := nofun
  apart := nofun

theorem codeTable_singleton {freq : Vector Nat 256} {c : Byte} (h : counted freq = [c]) :
    CodeTable freq [(c, [ch0])] where
  code := hufCodeOf_of_counted_singleton h
  symbols := h ▸ .refl _
  bits e he := by
    obtain rfl := List.mem_singleton.mp he
    exact (by decide : isBits [ch0] = true ∧ 1 ≤ [ch0].length ∧ [ch0].length ≤ 255)
  apart x hx y hy hne := by
    obtain rfl := List.mem_singleton.mp hx
    obtain rfl := List.mem_singleton.mp hy
    exact absurd rfl hne

theorem CodeTree.height_le_of_perm {t : CodeTree} {freq : Vector Nat 256} (h : t.symbols.Perm (counted freq)) :
    t.height ≤ 255 := by
  have := t.height_lt_length_symbols
  have := h.length_eq
  have := length_counted_le freq
  omega

theorem codeTable_fork {freq : Vector Nat 256} {l r : CodeTree} (hperm : (CodeTree.fork l r).symbols.Perm (counted freq))
    (hcode : hufCodeOf freq = setCodes (CodeTree.fork l r).codes (Vector.replicate 256 [])) :
    CodeTable freq (CodeTree.fork l r).codes where
  code := hcode
  symbols := (CodeTree.fork l r).map_fst_codes ▸ hperm
  bits _ he := ⟨CodeTree.isBits_code he, List.length_pos_iff.mpr (CodeTree.code_ne_nil he),
    (CodeTree.length_code_le_height he).trans (CodeTree.height_le_of_perm hperm)⟩
  apart _ hx _ hy hne := CodeTree.apart_of_mem_codes hx hy hne

theorem exists_codeTable (freq : Vector Nat 256) : ∃ entries, CodeTable freq entries := by
  match h : counted freq with
  | [] => exact ⟨_, codeTable_nil h⟩
  | [c] => exact ⟨_, codeTable_singleton h⟩
  | _ :: _ :: _ =>
    obtain ⟨l, r, hperm, hcode, -⟩ := exists_codeTree (freq := freq) (by simp [h])
    exact ⟨_, codeTable_fork hperm hcode⟩

namespace CodeTable

variable {freq : Vector Nat 256} {entries : List (Byte × Bytes)} (h : CodeTable freq entries)
include h

theorem nodup : (entries.map Prod.fst).Nodup := h.symbols.nodup_iff.mpr (nodup_counted freq)

theorem cell_of_mem {e : Byte × Bytes} (he : e ∈ entries) : cell (hufCodeOf freq) e.1 = e.2 := by
  rw [h.code, cell_setCodes_of_mem h.nodup he]

theorem mem_of_counted {c : Byte} (hc : 0 < cell freq c) : (c, cell (hufCodeOf freq) c) ∈ entries := by
  obtain ⟨e, he, rfl⟩ := List.mem_map.mp (h.symbols.mem_iff.mpr (mem_counted.mpr hc))
  rwa [h.cell_of_mem he]

theorem cell_of_not_counted {c : Byte} (hc : ¬ 0 < cell freq c) : cell (hufCodeOf freq) c = [] := by
  have hnot : c ∉ entries.map Prod.fst := fun hmem => hc (mem_counted.mp (h.symbols.mem_iff.mp hmem))
  rw [h.code, cell_setCodes_of_notMem hnot]
  simp [cell]

end CodeTable

/-! ### What every table's codes have -/

theorem code_ne_nil_iff (freq : Vector Nat 256) (c : Byte) : cell (hufCodeOf freq) c ≠ [] ↔ 0 < cell freq c := by
  obtain ⟨entries, h⟩ := exists_codeTable freq
  refine ⟨fun hne => by_contra fun hc => hne (h.cell_of_not_counted hc), fun hc => ?_⟩
  exact List.length_pos_iff.mp (h.bits _ (h.mem_of_counted hc)).2.1

theorem isBits_code_and_length_le (freq : Vector Nat 256) (c : Byte) :
    isBits (cell (hufCodeOf freq) c) = true ∧ (cell (hufCodeOf freq) c).length ≤ 255 := by
  obtain ⟨entries, h⟩ := exists_codeTable freq
  by_cases hc : 0 < cell freq c
  · obtain ⟨hbits, -, hlen⟩ := h.bits _ (h.mem_of_counted hc)
    exact ⟨hbits, hlen⟩
  · rw [h.cell_of_not_counted hc]
    exact ⟨rfl, Nat.zero_le _⟩

theorem code_not_isPrefix {freq : Vector Nat 256} {c d : Byte} (hne : c ≠ d) (hc : 0 < cell freq c)
    (hd : 0 < cell freq d) : ¬ cell (hufCodeOf freq) c <+: cell (hufCodeOf freq) d := by
  obtain ⟨entries, h⟩ := exists_codeTable freq
  exact (h.apart _ (h.mem_of_counted hc) _ (h.mem_of_counted hd) hne).1

/-- The sum over the counted symbols is the sum over the tree's leaves (41_huffman.md R125 (c)). -/
theorem sum_code_lengths {freq : Vector Nat 256} {l r : CodeTree}
    (hperm : (CodeTree.fork l r).symbols.Perm (counted freq))
    (hcode : hufCodeOf freq = setCodes (CodeTree.fork l r).codes (Vector.replicate 256 [])) :
    ((counted freq).map fun c => 2 ^ (255 - (cell (hufCodeOf freq) c).length)).sum = 2 ^ 255 := by
  have h := codeTable_fork hperm hcode
  calc ((counted freq).map fun c => 2 ^ (255 - (cell (hufCodeOf freq) c).length)).sum
      = (((CodeTree.fork l r).codes.map Prod.fst).map
          fun c => 2 ^ (255 - (cell (hufCodeOf freq) c).length)).sum := ((h.symbols.map _).sum_eq).symm
    _ = ((CodeTree.fork l r).codes.map fun e => 2 ^ (255 - e.2.length)).sum := by
        rw [List.map_map]
        exact congrArg List.sum (List.map_congr_left fun e he => by rw [Function.comp_apply, h.cell_of_mem he])
    _ = 2 ^ 255 := CodeTree.sum_codes (CodeTree.height_le_of_perm hperm)

/-- Settles O37: the code table of any counts is that of a code tree, whose leaf paths are apart and sum up to 1. -/
theorem huffmanCodesArePrefixFree : Obligations.HuffmanCodesArePrefixFree := by
  unfold Obligations.HuffmanCodesArePrefixFree
  intro freq
  refine ⟨code_ne_nil_iff freq, isBits_code_and_length_le freq, fun c d => code_not_isPrefix, fun hn => ?_,
    fun hn c hc => ?_⟩
  · obtain ⟨l, r, hperm, hcode, hfull⟩ := exists_codeTree (length_hufLeaves freq ▸ hn)
    exact ⟨hfull, sum_code_lengths hperm hcode⟩
  · obtain ⟨d, hd⟩ := List.length_eq_one_iff.mp ((length_hufLeaves freq).symm.trans hn)
    obtain rfl : c = d := List.mem_singleton.mp (hd ▸ mem_counted.mpr hc)
    exact (codeTable_singleton hd).cell_of_mem (List.mem_singleton.mpr rfl)

end Sys2Proof.Huffman
end

section
/-! Rules for a command's pseudocode under the launch premise (20_memory.md R57), for both commands of engine HUF: what is
left of a state by emitting, what reading the input as text answers (40_command_dispatch.md R107), and how a rule that went
on to its end ends its command. -/

namespace Sys2Proof.Huffman

open Sys2Proof Sys2Proof.Machine Sys2Proof.Safety Sys2Proof.Artifact

/-! ### What emitting leaves unchanged -/

@[simp] theorem appendBytes_src (bs : Bytes) (s : State) : (appendBytes bs s).src = s.src := by rw [appendBytes_frame]
@[simp] theorem appendBytes_srcLen (bs : Bytes) (s : State) : (appendBytes bs s).srcLen = s.srcLen := by
  rw [appendBytes_frame]
@[simp] theorem appendBytes_work (bs : Bytes) (s : State) : (appendBytes bs s).work = s.work := by rw [appendBytes_frame]
@[simp] theorem appendBytes_srcAnswers (bs : Bytes) (s : State) : (appendBytes bs s).srcAnswers = s.srcAnswers := by
  rw [appendBytes_frame]
@[simp] theorem appendBytes_dstAnswers (bs : Bytes) (s : State) : (appendBytes bs s).dstAnswers = s.dstAnswers := by
  rw [appendBytes_frame]
@[simp] theorem appendBytes_caps (bs : Bytes) (s : State) : (appendBytes bs s).caps = s.caps := by rw [appendBytes_frame]

/-- `t` is what emitting `bs` makes of `s`, the working state apart. -/
def Emitted (bs : Bytes) (s t : State) : Prop := t = { appendBytes bs s with work := t.work }

theorem emitted_appendBytes (bs : Bytes) (s : State) : Emitted bs s (appendBytes bs s) := rfl

theorem emitted_onHuf (f : HufWork → HufWork) (s : State) : Emitted [] s (State.onHuf f s) := rfl

theorem appendBytes_with_work (bs : Bytes) (w : Work) (s : State) :
    appendBytes bs { s with work := w } = { appendBytes bs s with work := w } := by
  induction bs generalizing s with
  | nil => rfl
  | cons b rest ih => exact ih (appendByte b s)

theorem Emitted.trans {xs ys : Bytes} {s t u : State} (h1 : Emitted xs s t) (h2 : Emitted ys t u) :
    Emitted (xs ++ ys) s u := by
  rw [Emitted] at h1 h2 ⊢
  rw [h1, appendBytes_with_work] at h2
  rw [appendBytes_append]
  exact h2

/-- Emitting after the working state was changed. -/
theorem emitted_of_eq_with_work {s t : State} (h : t = { s with work := t.work }) (bs : Bytes) :
    Emitted bs s (appendBytes bs t) :=
  have hwork : Emitted [] s t := h
  hwork.trans (emitted_appendBytes bs t)

/-! ### The two ends of a command -/

@[simp] theorem input_startCommand (w : Word) (s : State) : input (startCommand w s) = input s := rfl

/-- A rule that went on to its end, having emitted `bs`, makes its command complete with the output `bs`
(40_command_dispatch.md R101 to R104). -/
theorem endsOk_of_emitted {i : Instr} {rule : Cmd Unit} {s t : State} {bs : Bytes}
    (hs : s.srcLen.toNat ≤ s.caps.srcCap.val) (room : bs.length ≤ s.caps.dstCap.val)
    (hrun : rule (startCommand (encode i) s) = .ok () t) (ht : Emitted bs (startCommand (encode i) s) t) :
    EndsOk i s (runCommand (encode i) rule s) bs := by
  have hzero : (startCommand (encode i) s).dstLen.toNat = 0 := rfl
  have hnone : output (startCommand (encode i) s) = [] := rfl
  obtain ⟨hout, hlen, hcells⟩ := appendBytes_spec (bs := bs) (s := startCommand (encode i) s) (by simpa using room)
  rw [hnone, List.nil_append] at hout
  rw [hzero, Nat.zero_add] at hlen hcells
  rw [runCommand_checked (legalWord_encode i) hs, hrun, endCommand_ok, ht, appendBytes_frame]
  exact ⟨rfl, hlen, hout, rfl, rfl, rfl, rfl, rfl, rfl, rfl, rfl, fun a ha => hcells a (hlen ▸ ha)⟩

/-! ### Emitting after what has been emitted -/

@[simp] theorem appendBytes_nil (s : State) : appendBytes [] s = s := rfl

theorem emitStr_singleton (b : Byte) : emitStr [b] = emit b := by
  funext s
  rw [emitStr_cons, cmd_bind]
  cases emit b s <;> rfl

theorem emitStr_after {done bs : Bytes} {s : State} (hs : s.dstAnswers = [])
    (room : s.dstLen.toNat + (done ++ bs).length ≤ s.caps.dstCap.val) :
    emitStr bs (appendBytes done s) = .ok () (appendBytes (done ++ bs) s) := by
  rw [List.length_append] at room
  obtain ⟨-, hlen, -⟩ := appendBytes_spec (bs := done) (s := s) (by omega)
  rw [appendBytes_append, emitStr_quiet (by simpa using hs)]
  rw [hlen, appendBytes_caps]
  omega

theorem forRange_eq_forEach (start count : Nat) (body : Nat → Cmd Unit) :
    forRange start count body = forEach (List.range' start count) body := by
  induction count generalizing start with
  | zero => rfl
  | succ k ih => rw [forRange_succ, ih]; rfl

/-- A loop whose passes emit a string each, whatever has been emitted before, emits the strings in order. -/
theorem forEach_emitStr_after {α : Type} {xs : List α} {body : α → Cmd Unit} {g : α → Bytes} {s : State} {done : Bytes}
    (hs : s.dstAnswers = []) (room : s.dstLen.toNat + (done ++ xs.flatMap g).length ≤ s.caps.dstCap.val)
    (hbody : ∀ x ∈ xs, ∀ done, body x (appendBytes done s) = emitStr (g x) (appendBytes done s)) :
    forEach xs body (appendBytes done s) = .ok () (appendBytes (done ++ xs.flatMap g) s) := by
  induction xs generalizing done with
  | nil => simp
  | cons x xs ih =>
    rw [List.flatMap_cons, ← List.append_assoc] at room ⊢
    have hx : body x (appendBytes done s) = .ok () (appendBytes (done ++ g x) s) :=
      (hbody x (List.mem_cons_self ..) done).trans (emitStr_after hs (by rw [List.length_append] at room; omega))
    rw [forEach_cons, cmd_bind_ok hx]
    exact ih room fun y hy => hbody y (List.mem_cons_of_mem _ hy)

/-! ### The input as symbols -/

@[simp] theorem srcCell_appendBytes (bs : Bytes) (s : State) (a : Nat) : srcCell (appendBytes bs s) a = srcCell s a := by
  simp only [srcCell, appendBytes_src]

/-- The symbol `NSym(i)` (40_command_dispatch.md R108). -/
def symbolAt (s : State) (i : Nat) : Byte := if i < s.srcLen.toNat then srcCell s i else LF

@[simp] theorem symbolAt_appendBytes (bs : Bytes) (s : State) (i : Nat) :
    symbolAt (appendBytes bs s) i = symbolAt s i := by
  simp [symbolAt]

theorem normSym_eq {s : State} (h : s.srcAnswers = []) (i : Nat) : normSym i s = .ok (symbolAt s i) s :=
  normSym_quiet h i

theorem norm_eq_ite (b : Bytes) : norm b = if b = [] ∨ b.getLast? = some LF then b else b ++ [LF] := by
  obtain rfl | ⟨b, c, rfl⟩ := b.eq_nil_or_concat
  · rfl
  · by_cases hc : c = LF
    · simp [hc, norm_append_LF]
    · simp [hc, norm_append_of_ne hc]

theorem map_symbolAt_range (s : State) : (List.range s.srcLen.toNat).map (symbolAt s) = input s :=
  List.map_congr_left fun _ hi => if_pos (List.mem_range.mp hi)

theorem getLast?_input {s : State} (h : s.srcLen.toNat ≠ 0) : (input s).getLast? = some (srcCell s (s.srcLen.toNat - 1)) := by
  rw [List.getLast?_eq_getElem?, input_length]
  simp [input, Nat.pos_of_ne_zero h]

theorem normLen_eq {s : State} (h : s.srcAnswers = []) : normLen s = .ok (norm (input s)).length s := by
  rw [normLen_quiet h, norm_eq_ite]
  by_cases h0 : s.srcLen.toNat = 0
  · simp [h0, input]
  · by_cases hb : srcCell s (s.srcLen.toNat - 1) = LF <;>
      simp [h0, hb, getLast?_input, ← List.length_eq_zero_iff]

/-- The symbols a command reads are `Norm(S)` (40_command_dispatch.md R108). -/
theorem map_symbolAt_norm (s : State) : (List.range (norm (input s)).length).map (symbolAt s) = norm (input s) := by
  rw [norm_eq_ite]
  split
  · rw [input_length, map_symbolAt_range]
  · rw [List.length_append, input_length, List.length_singleton, List.range_succ, List.map_append, map_symbolAt_range]
    simp [symbolAt]

/-! ### The input as text -/

/-- SRC cells seen as the text from a position on. -/
theorem srcCell_of_drop {s : State} {a : Nat} {b : Byte} {rest : Bytes} (h : (input s).drop a = b :: rest) :
    srcCell s a = b ∧ a < s.srcLen.toNat := by
  have hget : (input s)[a]? = some b := by rw [← List.head?_drop, h]; rfl
  obtain ⟨hlt, hb⟩ := List.getElem?_eq_some_iff.mp hget
  exact ⟨by simpa [input] using hb, by simpa using hlt⟩

theorem atDelim_eq {s : State} (h : s.srcAnswers = []) :
    atDelim s = .ok (decide (delimLine <+: (input s).drop s.work.sc)) s := by
  rw [atDelim_quiet h]
  congr 2
  rw [eq_iff_iff, List.prefix_iff_eq_take]
  by_cases hlen : s.work.sc + 3 ≤ s.srcLen.toNat
  · rw [cells_eq_input s _ _ hlen]
    exact ⟨fun hd => hd.2.symm, fun hd => ⟨hlen, hd.symm⟩⟩
  · refine ⟨fun hd => absurd hd.1 hlen, fun hd => absurd (congrArg List.length hd) ?_⟩
    simp [delimLine]
    omega

theorem bytesOf_eq {s : State} (h : s.srcAnswers = []) {a : Nat} {text rest : Bytes}
    (hdrop : (input s).drop a = text ++ rest) : bytesOf a (a + text.length) s = .ok text s := by
  have hlen : text.length + rest.length = s.srcLen.toNat - a := by
    rw [← List.length_append, ← hdrop, List.length_drop, input_length]
  by_cases ha : a + text.length ≤ s.srcLen.toNat
  · rw [bytesOf_quiet h, Nat.add_sub_cancel_left, cells_eq_input s _ _ ha, hdrop, List.take_left]
  · obtain rfl : text = [] := List.length_eq_zero_iff.mp (by omega)
    rw [bytesOf_quiet h]
    simp

/-- The first `LF` of a text that has one. -/
theorem find?_LF {f : Nat → Byte} {line rest : Bytes} {a n : Nat} (hline : LF ∉ line)
    (h : (List.range' a n).map f = line ++ LF :: rest) :
    (List.range' a n).find? (fun e => decide (f e = LF)) = some (a + line.length) := by
  induction line generalizing a n with
  | nil =>
    cases n with
    | zero => simp at h
    | succ n => simp_all [List.range'_succ]
  | cons b line ih =>
    cases n with
    | zero => simp at h
    | succ n =>
      obtain ⟨hb, hline⟩ : LF ≠ b ∧ LF ∉ line := by simpa using hline
      obtain ⟨hf, htail⟩ : f a = b ∧ (List.range' (a + 1) n).map f = line ++ LF :: rest := by
        simpa [List.range'_succ] using h
      rw [List.range'_succ, List.find?_cons_of_neg (by simpa [hf] using hb.symm), ih hline htail, List.length_cons]
      congr 1
      omega

theorem findLF_eq_some {s : State} (h : s.srcAnswers = []) {a : Nat} {line rest : Bytes} (hline : LF ∉ line)
    (hdrop : (input s).drop a = line ++ LF :: rest) : findLF a s = .ok (some (a + line.length)) s := by
  have ha : a < s.srcLen.toNat := by
    have := congrArg List.length hdrop
    simp at this
    omega
  rw [findLF_quiet h, find?_LF hline]
  rw [cells_eq_input s _ _ (by omega), hdrop, ← input_length, ← List.length_drop, hdrop, List.take_length]

theorem findLF_eq_none {s : State} (h : s.srcAnswers = []) {a : Nat} (hline : LF ∉ (input s).drop a) :
    findLF a s = .ok none s := by
  rw [findLF_quiet h]
  congr 1
  refine List.find?_eq_none.mpr fun e he => ?_
  obtain ⟨i, hi, rfl⟩ := List.mem_range'.mp he
  have hmem : srcCell s (a + 1 * i) ∈ (input s).drop a := by
    refine List.mem_iff_getElem?.mpr ⟨i, ?_⟩
    have : a + i < s.srcLen.toNat := by omega
    simp [input, this]
  simpa using fun heq : srcCell s (a + 1 * i) = LF => hline (heq ▸ hmem)

end Sys2Proof.Huffman
end

section
/-! `HUF.ENC` (41_huffman.md R120, R126): the counting pass counts `Norm(S)`, and after the build the rule only emits, so
the command completes with the artifact as its output. -/

namespace Sys2Proof.Huffman

open Sys2Proof Sys2Proof.Machine Sys2Proof.Safety Sys2Proof.Artifact

/-! ### The counting pass -/

/-- `FREQ` with one more of each of the symbols `cs`. -/
def addCounts (cs : Bytes) (h : HufWork) : HufWork := { h with freq := cs.foldl bumpCell h.freq }

theorem forEach_count {is : List Nat} {s : State} (h : s.srcAnswers = []) :
    forEach is (fun i => do
      let c ← normSym i
      modify (State.onHuf (fun h => { h with freq := bumpCell h.freq c }))) s =
      .ok () (State.onHuf (addCounts (is.map (symbolAt s))) s) := by
  induction is generalizing s with
  | nil => rfl
  | cons i is ih =>
    rw [forEach_cons, cmd_bind, cmd_bind_ok (normSym_eq h i)]
    exact ih (s := State.onHuf (addCounts [symbolAt s i]) s) h

theorem hufCount_eq {s : State} (h : s.srcAnswers = []) :
    hufCount (norm (input s)).length s = .ok () (State.onHuf (addCounts (norm (input s))) s) := by
  rw [hufCount, forRange_eq_forEach, forEach_count h, ← List.range_eq_range', map_symbolAt_norm]

/-! ### Tree and codes -/

/-- The working state of engine HUF after leaves, tree construction and code assignment. -/
def built (h : HufWork) : HufWork :=
  { h with
    node := (hufTree (hufLeaves h.freq)).1
    root := (hufTree (hufLeaves h.freq)).2
    code := hufCodes (hufTree (hufLeaves h.freq)).1 (hufTree (hufLeaves h.freq)).2 h.code }

theorem hufBuild_eq (s : State) : hufBuild s = .ok () (State.onHuf built s) := rfl

/-- From clear working state the codes are those of the counts. -/
theorem code_built_of_clear (cs : Bytes) :
    (built (addCounts cs Work.clear.huf)).code = hufCodeOf (countSyms cs) := rfl

/-! ### Emitting -/

/-- The bytes of one entry of the code table, none for a symbol without a code (41_huffman.md R126). -/
def entryText (code : Vector Bytes 256) (c : Byte) : Bytes :=
  if cell code c = [] then [] else c :: (cell code c ++ [LF])

theorem hufEmitEntry_eq (c : Byte) (s : State) : hufEmitEntry c s = emitStr (entryText s.work.huf.code c) s := by
  rw [hufEmitEntry, cmd_bind_ok (cmd_get s)]
  by_cases hc : cell s.work.huf.code c = []
  · simp [entryText, hc]
  · simp only [entryText, hc, ne_eq, not_false_eq_true, if_true, if_false, emitStr_cons]
    rw [cmd_bind, cmd_bind]
    cases emit c s with
    | error e t => rfl
    | ok u t => exact emitStr_singleton LF ▸ (emitStr_append (cell s.work.huf.code c) [LF] t).symm

theorem flatMap_entryText (code : Vector Bytes 256) :
    allBytes.flatMap (entryText code) = (hufEntries code).flatMap fun e => e.1 :: (e.2 ++ [LF]) := by
  rw [hufEntries, List.flatMap_def, List.flatMap_def]
  induction allBytes with
  | nil => rfl
  | cons c cs ih =>
    by_cases hc : cell code c = [] <;> simp [entryText, hc, ih]

theorem hufEmitTable_eq {s : State} (hdst : s.dstAnswers = [])
    (room : s.dstLen.toNat + (allBytes.flatMap (entryText s.work.huf.code)).length ≤ s.caps.dstCap.val) :
    forEach allBytes hufEmitEntry s = .ok () (appendBytes (allBytes.flatMap (entryText s.work.huf.code)) s) :=
  forEach_emitStr_after (done := []) hdst room fun c _ done => by rw [hufEmitEntry_eq, appendBytes_work]

/-- The second pass over the input (41_huffman.md R126). -/
theorem hufEmitStream_after {s : State} {done : Bytes} (hsrc : s.srcAnswers = []) (hdst : s.dstAnswers = [])
    (room : s.dstLen.toNat + (done ++ (norm (input s)).flatMap (cell s.work.huf.code)).length ≤ s.caps.dstCap.val) :
    forRange 0 (norm (input s)).length (fun i => do
      let c ← normSym i
      let s ← get
      emitStr (cell s.work.huf.code c)) (appendBytes done s) =
      .ok () (appendBytes (done ++ (norm (input s)).flatMap (cell s.work.huf.code)) s) := by
  have hsyms : (norm (input s)).flatMap (cell s.work.huf.code) =
      (List.range' 0 (norm (input s)).length).flatMap fun i => cell s.work.huf.code (symbolAt s i) := by
    rw [← List.range_eq_range', ← List.flatMap_map (f := symbolAt s), map_symbolAt_norm]
  rw [hsyms] at room ⊢
  rw [forRange_eq_forEach]
  refine forEach_emitStr_after hdst room fun i _ done => ?_
  rw [cmd_bind_ok (normSym_eq (by simpa using hsrc) i), cmd_bind_ok (cmd_get _), symbolAt_appendBytes, appendBytes_work]

/-! ### The command -/

/-- The table, the delimiter line, the stream and the last `LF` (41_huffman.md R126). -/
theorem hufEmitArtifact_eq {s : State} (hsrc : s.srcAnswers = []) (hdst : s.dstAnswers = [])
    (hcode : s.work.huf.code = hufCodeOf (countSyms (norm (input s))))
    (room : s.dstLen.toNat + (hufArtifact (input s)).length ≤ s.caps.dstCap.val) :
    (do
      forEach allBytes hufEmitEntry
      emitStr delimLine
      forRange 0 (norm (input s)).length fun i => do
        let c ← normSym i
        let s ← get
        emitStr (cell s.work.huf.code c)
      emit LF : Cmd Unit) s = .ok () (appendBytes (hufArtifact (input s)) s) := by
  rw [hufArtifact, ← hcode] at room ⊢
  simp only [hufText, ← flatMap_entryText, List.length_append] at room ⊢
  rw [cmd_bind_ok (hufEmitTable_eq hdst (by omega)),
    cmd_bind_ok (emitStr_after hdst (by simp only [List.length_append]; omega)),
    cmd_bind_ok (hufEmitStream_after hsrc hdst (by simp only [List.length_append]; omega)), ← emitStr_singleton]
  exact emitStr_after hdst (by simp only [List.length_append]; omega)

/-- The rule of `HUF.ENC` from clear working state, where the artifact fits (41_huffman.md R126). -/
theorem hufEncRule_eq {s : State} (hsrc : s.srcAnswers = []) (hdst : s.dstAnswers = []) (hwork : s.work = Work.clear)
    (room : s.dstLen.toNat + (hufArtifact (input s)).length ≤ s.caps.dstCap.val) :
    hufEncRule s = .ok () (appendBytes (hufArtifact (input s))
      (State.onHuf built (State.onHuf (addCounts (norm (input s))) s))) := by
  have hcode : (State.onHuf built (State.onHuf (addCounts (norm (input s))) s)).work.huf.code =
      hufCodeOf (countSyms (norm (input s))) := by
    simp only [State.onHuf_work, hwork]
    exact code_built_of_clear _
  rw [hufEncRule, cmd_bind_ok (normLen_eq hsrc), cmd_bind_ok (hufCount_eq hsrc), cmd_bind_ok (hufBuild_eq _)]
  exact hufEmitArtifact_eq hsrc hdst hcode room

/-- `HUF.ENC` completes on every input whose artifact fits, with the artifact as its output (41_huffman.md R126). -/
theorem hufEnc_endsOk {s : State} (hs : Ready s) (room : (hufArtifact (input s)).length ≤ s.caps.dstCap.val) :
    ∃ t, exec .hufEnc s = .next t ∧ EndsOk .hufEnc s t (hufArtifact (input s)) := by
  obtain ⟨⟨hsrc, hdst⟩, hlen⟩ := hs
  have hrun := hufEncRule_eq (s := startCommand (encode .hufEnc) s) hsrc hdst rfl (by simpa using room)
  rw [input_startCommand] at hrun
  exact ⟨_, rfl, endsOk_of_emitted hlen room hrun (emitted_of_eq_with_work rfl _)⟩

end Sys2Proof.Huffman
end

section
/-! `HUF.DEC` (41_huffman.md R127 to R130): the table parser recovers a table from its text, the matching loop is `greedy`
on the bitstream, and the command completes where `greedy` uses the bitstream up. -/

namespace Sys2Proof.Huffman

open Sys2Proof Sys2Proof.Machine Sys2Proof.Safety Sys2Proof.Artifact

/-- A table entry that passes the checks of the parser (41_huffman.md R127). -/
def GoodEntry (e : Byte × Bytes) : Prop := 1 ≤ e.2.length ∧ e.2.length ≤ 255 ∧ isBits e.2 = true

/-- The text of table entries (30_encoding.md R79). -/
def tableText (table : List (Byte × Bytes)) : Bytes := table.flatMap fun e => e.1 :: (e.2 ++ [LF])

theorem tableText_cons (e : Byte × Bytes) (table : List (Byte × Bytes)) :
    tableText (e :: table) = e.1 :: (e.2 ++ LF :: tableText table) := by
  simp [tableText]

theorem notMem_of_isBits {b : Byte} (hb : isBit b = false) {bs : Bytes} (hbs : isBits bs = true) : b ∉ bs := fun hmem =>
  absurd (List.all_eq_true.mp hbs b hmem) (by simp [hb])

theorem LF_notMem_of_isBits {bs : Bytes} (hbs : isBits bs = true) : LF ∉ bs := notMem_of_isBits (by decide) hbs

/-! ### The table -/

/-- The delimiter test does not fire at the start of a good entry, whatever its symbol (30_encoding.md R76). -/
theorem not_delimLine_isPrefix_entry {e : Byte × Bytes} (he : GoodEntry e) (more : Bytes) :
    ¬ delimLine <+: e.1 :: (e.2 ++ LF :: more) := by
  obtain ⟨hpos, -, hbits⟩ := he
  obtain ⟨b, bs, hb⟩ := List.exists_cons_of_length_pos hpos
  intro h
  rw [delimLine, hb, List.cons_append, List.cons_prefix_cons, List.cons_prefix_cons] at h
  exact notMem_of_isBits (b := chDash) (by decide) hbits (hb ▸ h.2.1 ▸ List.mem_cons_self ..)

/-- `DTBL` longer by the entries `table`. -/
def addEntries (table : List (Byte × Bytes)) (h : HufWork) : HufWork := { h with dtbl := h.dtbl ++ table }

/-- A good entry is appended to `DTBL` and the cursor goes behind it (41_huffman.md R127). -/
theorem hufParseEntry_eq {s : State} (hs : s.srcAnswers = []) {e : Byte × Bytes} {more : Bytes} (he : GoodEntry e)
    (hdrop : (input s).drop s.work.sc = e.1 :: (e.2 ++ LF :: more)) (hroom : s.work.huf.dtbl.length < 256) :
    hufParseEntry s = .ok () (State.setSc (s.work.sc + 1 + e.2.length + 1) (State.onHuf (addEntries [e]) s)) := by
  obtain ⟨hpos, hlen, hbits⟩ := he
  obtain ⟨hcell, hlt⟩ := srcCell_of_drop hdrop
  have hdrop' : (input s).drop (s.work.sc + 1) = e.2 ++ LF :: more := by rw [← List.drop_drop, hdrop]; rfl
  have hne : ¬ s.work.sc = s.srcLen.toNat := Nat.ne_of_lt hlt
  have hgood : ¬ (e.2.length = 0 ∨ isBits e.2 = false ∨ e.2.length > Config.CODE_MAX) := by
    have hmax : Config.CODE_MAX = 255 := rfl
    simp only [hbits, Bool.true_eq_false, false_or]
    omega
  have hfull : ¬ s.work.huf.dtbl.length = Config.TBL_MAX := Nat.ne_of_lt hroom
  simp only [hufParseEntry, cmd_bind, cmd_get, cmd_modify, hne, hgood, hfull, if_false, srcByte_quiet hs, hcell,
    findLF_eq_some hs (LF_notMem_of_isBits hbits) hdrop', bytesOf_eq hs hdrop']
  rfl

/-- The parser recovers the entries written and stops behind the delimiter line (41_huffman.md R127). -/
theorem hufParseTable_eq {table : List (Byte × Bytes)} {fuel : Nat} {s : State} {more : Bytes} (hs : s.srcAnswers = [])
    (hgood : ∀ e ∈ table, GoodEntry e) (hroom : s.work.huf.dtbl.length + table.length ≤ 256) (hfuel : table.length < fuel)
    (hdrop : (input s).drop s.work.sc = tableText table ++ delimLine ++ more) :
    hufParseTable fuel s = .ok () (State.setSc (s.work.sc + (tableText table ++ delimLine).length)
      (State.onHuf (addEntries table) s)) := by
  obtain ⟨k, rfl⟩ : ∃ k, fuel = k + 1 := ⟨fuel - 1, by omega⟩
  induction table generalizing s k with
  | nil =>
    have hdelim : delimLine <+: (input s).drop s.work.sc := ⟨more, hdrop.symm⟩
    rw [hufParseTable, cmd_bind_ok (atDelim_eq hs), decide_eq_true hdelim]
    simp [addEntries, tableText, delimLine, State.onHuf, State.setSc]
  | cons e table ih =>
    obtain ⟨he, hgood⟩ := List.forall_mem_cons.mp hgood
    simp only [List.length_cons] at hroom hfuel
    rw [tableText_cons] at hdrop
    simp only [List.cons_append, List.append_assoc] at hdrop
    have hdelim := hdrop ▸ not_delimLine_isPrefix_entry he (tableText table ++ (delimLine ++ more))
    have hentry := hufParseEntry_eq hs he hdrop (by omega)
    obtain ⟨j, rfl⟩ : ∃ j, k = j + 1 := ⟨k - 1, by omega⟩
    rw [hufParseTable, cmd_bind_ok (atDelim_eq hs), decide_eq_false hdelim]
    simp only [Bool.false_eq_true, if_false]
    have hdrop' : (input s).drop (s.work.sc + 1 + e.2.length + 1) = tableText table ++ delimLine ++ more := by
      rw [← List.drop_drop, ← List.drop_drop, ← List.drop_drop, hdrop]
      simp
    have htail := ih (s := State.setSc (s.work.sc + 1 + e.2.length + 1) (State.onHuf (addEntries [e]) s)) hs hgood
      (by simp only [State.setSc_work, State.onHuf_work, addEntries, List.length_append, List.length_singleton]; omega)
      hdrop' j (by omega)
    have hend : s.work.sc + 1 + e.2.length + 1 + (tableText table ++ delimLine).length =
        s.work.sc + (tableText (e :: table) ++ delimLine).length := by
      simp only [tableText_cons, List.length_append, List.length_cons]
      omega
    rw [cmd_bind_ok hentry, htail, ← hend]
    simp [State.setSc, State.onHuf, addEntries]

/-! ### Greedy matching -/

theorem greedy_cons_of_match {table : List (Byte × Bytes)} {acc rest : Bytes} {b c : Byte}
    (h : firstMatch table (acc ++ [b]) = some c) :
    greedy table acc (b :: rest) = (c :: (greedy table [] rest).1, (greedy table [] rest).2) := by
  rw [greedy, h]

theorem greedy_cons_of_noMatch {table : List (Byte × Bytes)} {acc rest : Bytes} {b : Byte}
    (h : firstMatch table (acc ++ [b]) = none) : greedy table acc (b :: rest) = greedy table (acc ++ [b]) rest := by
  rw [greedy, h]

/-- `Lookup` is the first match (41_huffman.md R128). -/
theorem hufLookup_eq_firstMatch (table : List (Byte × Bytes)) (acc : Bytes) : hufLookup table acc = firstMatch table acc := by
  induction table with
  | nil => rfl
  | cons e table ih =>
    rw [hufLookup, ih]
    by_cases h : e.2 = acc
    · simp [firstMatch, h]
    · have hbeq : (e.2 == acc) = false := beq_false_of_ne h
      simp [firstMatch, h, hbeq]

theorem length_le_of_firstMatch {table : List (Byte × Bytes)} (hgood : ∀ e ∈ table, GoodEntry e) {acc : Bytes} {c : Byte}
    (h : firstMatch table acc = some c) : acc.length ≤ 255 := by
  obtain ⟨e, he, -⟩ := Option.map_eq_some_iff.mp h
  obtain ⟨-, hlen, -⟩ := hgood e (List.mem_of_find?_eq_some he)
  have hacc : e.2 = acc := by simpa using List.find?_some he
  exact hacc ▸ hlen

/-- A candidate that greedy matching will still use up is shorter than the longest code (41_huffman.md R129). -/
theorem length_lt_of_greedy {table : List (Byte × Bytes)} (hgood : ∀ e ∈ table, GoodEntry e) {acc bits : Bytes}
    (hacc : acc ≠ []) (h : (greedy table acc bits).2 = []) : acc.length < 255 := by
  induction bits generalizing acc with
  | nil => exact absurd h hacc
  | cons b bits ih =>
    cases hmatch : firstMatch table (acc ++ [b]) with
    | some c =>
      have := length_le_of_firstMatch hgood hmatch
      rw [List.length_append, List.length_singleton] at this
      omega
    | none =>
      have := ih (by simp) (greedy_cons_of_noMatch hmatch ▸ h)
      rw [List.length_append, List.length_singleton] at this
      omega

/-- `ACC` <- `acc`. -/
def setAcc (acc : Bytes) (h : HufWork) : HufWork := { h with acc := acc }

/-- A bit that completes a code: its symbol is emitted and the candidate emptied (41_huffman.md R129). -/
theorem hufMatchChar_of_match {s : State} (hdst : s.dstAnswers = []) (room : s.dstLen.toNat ≠ s.caps.dstCap.val)
    {b c : Byte} (hb : isBit b = true) (h : firstMatch s.work.huf.dtbl (s.work.huf.acc ++ [b]) = some c) :
    hufMatchChar b s = .ok () (State.onHuf (setAcc []) (appendByte c s)) := by
  have hlookup : hufLookup s.work.huf.dtbl (s.work.huf.acc ++ [b]) = some c := hufLookup_eq_firstMatch _ _ ▸ h
  have hemit := emit_quiet (s := State.onHuf (fun h => { h with acc := h.acc ++ [b] }) s) hdst room c
  simp only [hufMatchChar, hb, cmd_bind, cmd_get, cmd_modify, State.onHuf_work, Bool.true_eq_false, if_false, hlookup,
    hemit]
  rfl

/-- A bit that completes no code goes into the candidate (41_huffman.md R129). -/
theorem hufMatchChar_of_noMatch {s : State} {b : Byte} (hb : isBit b = true)
    (h : firstMatch s.work.huf.dtbl (s.work.huf.acc ++ [b]) = none) (hlen : (s.work.huf.acc ++ [b]).length < 255) :
    hufMatchChar b s = .ok () (State.onHuf (setAcc (s.work.huf.acc ++ [b])) s) := by
  have hlookup : hufLookup s.work.huf.dtbl (s.work.huf.acc ++ [b]) = none := hufLookup_eq_firstMatch _ _ ▸ h
  have hne : ¬ (s.work.huf.acc ++ [b]).length = Config.CODE_MAX := Nat.ne_of_lt hlen
  simp only [hufMatchChar, hb, cmd_bind, cmd_get, cmd_modify, State.onHuf_work, Bool.true_eq_false, if_false, hlookup]
  exact congrFun (if_neg hne) _

/-- The matching loop is `greedy`, where that uses the bitstream up (41_huffman.md R129). -/
theorem hufMatchLoop_eq {bits tail : Bytes} {k : Nat} {s : State} (hsrc : s.srcAnswers = []) (hdst : s.dstAnswers = [])
    (hdrop : (input s).drop k = bits ++ tail) (hbits : isBits bits = true)
    (hgood : ∀ e ∈ s.work.huf.dtbl, GoodEntry e) (hused : (greedy s.work.huf.dtbl s.work.huf.acc bits).2 = [])
    (room : s.dstLen.toNat + (greedy s.work.huf.dtbl s.work.huf.acc bits).1.length ≤ s.caps.dstCap.val) :
    ∃ t, forRange k bits.length (fun i => do
        let ch ← srcByte i
        hufMatchChar ch) s = .ok () t ∧
      Emitted (greedy s.work.huf.dtbl s.work.huf.acc bits).1 s t ∧ t.work.huf.acc = [] := by
  induction bits generalizing k s with
  | nil => exact ⟨s, rfl, rfl, hused⟩
  | cons b bits ih =>
    obtain ⟨hb, hbits⟩ : isBit b = true ∧ isBits bits = true := by simpa [isBits_cons] using hbits
    have hread : srcByte k s = .ok b s := (srcCell_of_drop hdrop).1 ▸ srcByte_quiet hsrc k
    have hdrop' : (input s).drop (k + 1) = bits ++ tail := by rw [← List.drop_drop, hdrop]; rfl
    rw [List.length_cons, forRange_succ, cmd_bind, cmd_bind_ok hread]
    cases hmatch : firstMatch s.work.huf.dtbl (s.work.huf.acc ++ [b]) with
    | some c =>
      rw [greedy_cons_of_match hmatch] at hused room ⊢
      simp only [List.length_cons] at room
      rw [hufMatchChar_of_match hdst (by omega) hb hmatch]
      have hroom : (appendByte c s).dstLen.toNat + (greedy s.work.huf.dtbl [] bits).1.length ≤ s.caps.dstCap.val := by
        rw [appendByte_dstLen (by omega)]
        omega
      obtain ⟨t, hrun, ht, hacc⟩ := ih (s := State.onHuf (setAcc []) (appendByte c s)) (k := k + 1) hsrc hdst hdrop' hbits
        hgood hused hroom
      exact ⟨t, hrun, ((emitted_appendBytes [c] s).trans (emitted_onHuf _ _)).trans ht, hacc⟩
    | none =>
      rw [greedy_cons_of_noMatch hmatch] at hused room ⊢
      rw [hufMatchChar_of_noMatch hb hmatch (length_lt_of_greedy hgood (by simp) hused)]
      obtain ⟨t, hrun, ht, hacc⟩ := ih (s := State.onHuf (setAcc (s.work.huf.acc ++ [b])) s) (k := k + 1) hsrc hdst hdrop'
        hbits hgood hused room
      exact ⟨t, hrun, (emitted_onHuf _ _).trans ht, hacc⟩

/-- The bitstream line ends at its `LF` or with the input (41_huffman.md R129). -/
theorem findLF_bits {bits tail : Bytes} {a : Nat} {s : State} (hsrc : s.srcAnswers = [])
    (hdrop : (input s).drop a = bits ++ tail) (htail : tail = [] ∨ tail.head? = some LF) (hbits : isBits bits = true) :
    ∃ found, findLF a s = .ok found s ∧ found.getD s.srcLen.toNat - a = bits.length := by
  obtain rfl | htail := htail
  · rw [List.append_nil] at hdrop
    refine ⟨none, findLF_eq_none hsrc (hdrop ▸ LF_notMem_of_isBits hbits), ?_⟩
    rw [Option.getD_none, ← input_length, ← List.length_drop, hdrop]
  · obtain ⟨rest, rfl⟩ := List.head?_eq_some_iff.mp htail
    exact ⟨_, findLF_eq_some hsrc (LF_notMem_of_isBits hbits) hdrop, Nat.add_sub_cancel_left ..⟩

/-- The bitstream line is matched up to its `LF` or the end of the input (41_huffman.md R129). -/
theorem hufMatch_eq {bits tail : Bytes} {s : State} (hsrc : s.srcAnswers = []) (hdst : s.dstAnswers = [])
    (hdrop : (input s).drop s.work.sc = bits ++ tail) (htail : tail = [] ∨ tail.head? = some LF)
    (hbits : isBits bits = true) (hgood : ∀ e ∈ s.work.huf.dtbl, GoodEntry e)
    (hused : (greedy s.work.huf.dtbl [] bits).2 = [])
    (room : s.dstLen.toNat + (greedy s.work.huf.dtbl [] bits).1.length ≤ s.caps.dstCap.val) :
    ∃ t, hufMatch s = .ok () t ∧ Emitted (greedy s.work.huf.dtbl [] bits).1 s t := by
  obtain ⟨found, hfound, hcount⟩ := findLF_bits hsrc hdrop htail hbits
  obtain ⟨t, hrun, ht, hacc⟩ := hufMatchLoop_eq (s := State.onHuf (setAcc []) s) hsrc hdst hdrop hbits hgood hused room
  refine ⟨t, ?_, (emitted_onHuf _ _).trans ht⟩
  rw [hufMatch, cmd_bind_ok (cmd_get s), cmd_bind_ok hfound, cmd_bind_ok (cmd_modify _ s), hcount]
  refine (cmd_bind_ok hrun).trans ?_
  rw [cmd_bind_ok (cmd_get t), if_neg (not_not.mpr hacc), cmd_pure]

theorem length_le_length_tableText (table : List (Byte × Bytes)) : table.length ≤ (tableText table).length := by
  induction table with
  | nil => exact Nat.zero_le _
  | cons e table ih =>
    simp only [tableText_cons, List.length_cons, List.length_append]
    omega

/-- The rule of `HUF.DEC` from clear working state, where greedy matching uses the bitstream up (41_huffman.md R130). -/
theorem hufDecRule_eq {s : State} {table : List (Byte × Bytes)} {bits tail : Bytes} (hsrc : s.srcAnswers = [])
    (hdst : s.dstAnswers = []) (hinput : input s = tableText table ++ delimLine ++ (bits ++ tail))
    (htail : tail = [] ∨ tail.head? = some LF) (hlen : table.length ≤ 256) (hgood : ∀ e ∈ table, GoodEntry e)
    (hbits : isBits bits = true) (hused : (greedy table [] bits).2 = [])
    (room : s.dstLen.toNat + (greedy table [] bits).1.length ≤ s.caps.dstCap.val) :
    ∃ t, hufDecRule s = .ok () t ∧ Emitted (greedy table [] bits).1 s t := by
  let s₀ := State.onHuf (fun h => { h with dtbl := [] }) (State.setSc 0 s)
  let s₁ := State.setSc (0 + (tableText table ++ delimLine).length) (State.onHuf (addEntries table) s₀)
  have hfuel : table.length < s.srcLen.toNat + 1 := by
    have := length_le_length_tableText table
    rw [← input_length, hinput]
    simp only [List.length_append]
    omega
  have hparse : hufParseTable (s.srcLen.toNat + 1) s₀ = .ok () s₁ :=
    hufParseTable_eq hsrc hgood (by simpa [s₀] using hlen) hfuel hinput
  have hdrop : (input s₁).drop s₁.work.sc = bits ++ tail := by
    have hsc : s₁.work.sc = (tableText table ++ delimLine).length := Nat.zero_add _
    exact hsc ▸ hinput ▸ List.drop_left
  obtain ⟨t, hrun, ht⟩ := hufMatch_eq (s := s₁) hsrc hdst hdrop htail hbits hgood hused room
  have hwork : Emitted [] s s₁ := rfl
  refine ⟨t, ?_, hwork.trans ht⟩
  rw [hufDecRule, cmd_bind_ok (cmd_modify _ s)]
  exact (cmd_bind_ok hparse).trans hrun

/-- `HUF.DEC` completes on every table of good entries and every bitstream that greedy matching uses up
(41_huffman.md R127 to R130, R132). -/
theorem hufDec_endsOk {s : State} {table : List (Byte × Bytes)} {bits tail : Bytes} (hs : Ready s)
    (hinput : input s = tableText table ++ delimLine ++ (bits ++ tail)) (htail : tail = [] ∨ tail.head? = some LF)
    (hlen : table.length ≤ 256) (hgood : ∀ e ∈ table, GoodEntry e) (hbits : isBits bits = true)
    (hused : (greedy table [] bits).2 = []) (room : (greedy table [] bits).1.length ≤ s.caps.dstCap.val) :
    ∃ t, exec .hufDec s = .next t ∧ EndsOk .hufDec s t (greedy table [] bits).1 := by
  obtain ⟨⟨hsrc, hdst⟩, hcap⟩ := hs
  obtain ⟨t, hrun, ht⟩ := hufDecRule_eq (s := startCommand (encode .hufDec) s) hsrc hdst hinput htail hlen hgood hbits hused
    (by simpa using room)
  exact ⟨_, rfl, endsOk_of_emitted hcap room hrun ht⟩

end Sys2Proof.Huffman
end

section
/-! The round trip of engine HUF (41_huffman.md R131): the table `HUF.ENC` writes passes the parser, and since no code of it
begins with another, greedy matching takes the written bitstream apart into the codes it was put together from;
`HuffmanRoundTrip` follows. -/

namespace Sys2Proof.Huffman

open Sys2Proof Sys2Proof.Machine Sys2Proof.Safety Sys2Proof.Artifact

/-! ### The counts -/

theorem cell_foldl_bumpCell (cs : Bytes) (v : Vector Nat 256) (c : Byte) :
    cell (cs.foldl bumpCell v) c = cell v c + cs.count c := by
  induction cs generalizing v with
  | nil => rfl
  | cons d cs ih =>
    rw [List.foldl_cons, ih, bumpCell, cell_setCell, List.count_cons]
    by_cases hd : d = c
    · subst hd
      simp only [if_true, BEq.rfl]
      omega
    · simp [hd]

theorem cell_countSyms (cs : Bytes) (c : Byte) : cell (countSyms cs) c = cs.count c := by
  rw [countSyms, cell_foldl_bumpCell]
  simp [cell]

/-! ### The table written -/

theorem mem_hufEntries {code : Vector Bytes 256} {e : Byte × Bytes} :
    e ∈ hufEntries code ↔ e.2 = cell code e.1 ∧ e.2 ≠ [] := by
  obtain ⟨c, w⟩ := e
  simp only [hufEntries, List.mem_filterMap, mem_allBytes, true_and]
  constructor
  · rintro ⟨d, hd⟩
    obtain ⟨hne, rfl, rfl⟩ : cell code d ≠ [] ∧ d = c ∧ cell code d = w := by simpa using hd
    exact ⟨rfl, hne⟩
  · rintro ⟨rfl, hne⟩
    exact ⟨c, if_neg hne⟩

theorem length_hufEntries_le (code : Vector Bytes 256) : (hufEntries code).length ≤ 256 :=
  (List.length_filterMap_le ..).trans (by simp [allBytes])

theorem goodEntry_of_mem_hufEntries {freq : Vector Nat 256} {e : Byte × Bytes} (he : e ∈ hufEntries (hufCodeOf freq)) :
    GoodEntry e := by
  obtain ⟨hcode, hne⟩ := mem_hufEntries.mp he
  obtain ⟨hbits, hlen⟩ := isBits_code_and_length_le freq e.1
  exact ⟨List.length_pos_iff.mpr hne, hcode ▸ hlen, hcode ▸ hbits⟩

/-! ### Greedy matching of a bitstream of codes -/

/-- A match is the code of its symbol. -/
theorem cell_of_firstMatch {code : Vector Bytes 256} {acc : Bytes} {c : Byte}
    (h : firstMatch (hufEntries code) acc = some c) : cell code c = acc ∧ acc ≠ [] := by
  obtain ⟨e, he, rfl⟩ := Option.map_eq_some_iff.mp h
  have hacc : e.2 = acc := by simpa using List.find?_some he
  obtain ⟨hcode, hne⟩ := mem_hufEntries.mp (List.mem_of_find?_eq_some he)
  exact ⟨hcode ▸ hacc, hacc ▸ hne⟩

/-- A candidate that a counted symbol's code begins with can match that symbol only (41_huffman.md R125 (a)). -/
theorem eq_of_firstMatch {freq : Vector Nat 256} {acc : Bytes} {c d : Byte} (hc : 0 < cell freq c)
    (hacc : acc <+: cell (hufCodeOf freq) c) (h : firstMatch (hufEntries (hufCodeOf freq)) acc = some d) :
    d = c := by
  obtain ⟨hcode, hne⟩ := cell_of_firstMatch h
  have hd : 0 < cell freq d := (code_ne_nil_iff freq d).mp (hcode ▸ hne)
  by_contra hdc
  exact code_not_isPrefix hdc hd hc (hcode ▸ hacc)

theorem firstMatch_code {freq : Vector Nat 256} {c : Byte} (hc : 0 < cell freq c) :
    firstMatch (hufEntries (hufCodeOf freq)) (cell (hufCodeOf freq) c) = some c := by
  have hmem : (c, cell (hufCodeOf freq) c) ∈ hufEntries (hufCodeOf freq) :=
    mem_hufEntries.mpr ⟨rfl, (code_ne_nil_iff freq c).mpr hc⟩
  obtain ⟨d, hd⟩ : ∃ d, firstMatch (hufEntries (hufCodeOf freq)) (cell (hufCodeOf freq) c) = some d := by
    rw [← Option.isSome_iff_exists, firstMatch, Option.isSome_map, List.find?_isSome]
    exact ⟨_, hmem, BEq.rfl⟩
  rw [hd, eq_of_firstMatch hc (List.prefix_refl _) hd]

theorem firstMatch_part_of_code {freq : Vector Nat 256} {c : Byte} (hc : 0 < cell freq c) {acc rest : Bytes}
    (hcode : acc ++ rest = cell (hufCodeOf freq) c) (hrest : rest ≠ []) :
    firstMatch (hufEntries (hufCodeOf freq)) acc = none := by
  refine Option.eq_none_iff_forall_ne_some.mpr fun d hd => hrest ?_
  obtain rfl := eq_of_firstMatch hc ⟨rest, hcode⟩ hd
  have hacc : acc ++ rest = acc := hcode.trans (cell_of_firstMatch hd).1
  simpa using hacc

/-- From the middle of a code greedy matching goes on to its end and emits its symbol. -/
theorem greedy_code_append {freq : Vector Nat 256} {c : Byte} (hc : 0 < cell freq c) {acc todo : Bytes} (more : Bytes)
    (hcode : acc ++ todo = cell (hufCodeOf freq) c) (htodo : todo ≠ []) :
    greedy (hufEntries (hufCodeOf freq)) acc (todo ++ more) =
      (c :: (greedy (hufEntries (hufCodeOf freq)) [] more).1, (greedy (hufEntries (hufCodeOf freq)) [] more).2) := by
  induction todo generalizing acc with
  | nil => exact absurd rfl htodo
  | cons b todo ih =>
    have hsplit : (acc ++ [b]) ++ todo = cell (hufCodeOf freq) c := by rw [List.append_assoc]; exact hcode
    by_cases hlast : todo = []
    · subst hlast
      rw [List.append_nil] at hsplit
      exact greedy_cons_of_match (hsplit ▸ firstMatch_code hc)
    · rw [List.cons_append, greedy_cons_of_noMatch (firstMatch_part_of_code hc hsplit hlast)]
      exact ih hsplit hlast

/-- Greedy matching takes the codes of counted symbols apart again (41_huffman.md R131). -/
theorem greedy_flatMap_code {freq : Vector Nat 256} {cs : Bytes} (hcs : ∀ c ∈ cs, 0 < cell freq c) :
    greedy (hufEntries (hufCodeOf freq)) [] (cs.flatMap (cell (hufCodeOf freq))) = (cs, []) := by
  induction cs with
  | nil => rfl
  | cons c cs ih =>
    obtain ⟨hc, hcs⟩ := List.forall_mem_cons.mp hcs
    rw [List.flatMap_cons, greedy_code_append hc _ (List.nil_append _) ((code_ne_nil_iff freq c).mpr hc), ih hcs]

theorem isBits_flatMap_code (freq : Vector Nat 256) (cs : Bytes) :
    isBits (cs.flatMap (cell (hufCodeOf freq))) = true := by
  refine List.all_eq_true.mpr fun b hb => ?_
  obtain ⟨c, -, hb⟩ := List.mem_flatMap.mp hb
  exact List.all_eq_true.mp (isBits_code_and_length_le freq c).1 b hb

/-! ### The round trip -/

/-- `HUF.DEC` on the artifact of a text completes with that text's `Norm` (41_huffman.md R131). -/
theorem hufDec_artifact_endsOk {s : State} {text : Bytes} (hs : Ready s) (hinput : input s = hufArtifact text)
    (room : (norm text).length ≤ s.caps.dstCap.val) :
    ∃ t, exec .hufDec s = .next t ∧ EndsOk .hufDec s t (norm text) := by
  have hcounted : ∀ c ∈ norm text, 0 < cell (countSyms (norm text)) c := fun c hc => by
    rw [cell_countSyms]
    exact List.count_pos_iff.mpr hc
  have hgreedy := greedy_flatMap_code hcounted
  have hdec := hufDec_endsOk hs (table := hufEntries (hufCodeOf (countSyms (norm text)))) (tail := [LF])
    (bits := (norm text).flatMap (cell (hufCodeOf (countSyms (norm text)))))
    (by rw [hinput, ← List.append_assoc]; rfl) (.inr rfl) (length_hufEntries_le _)
    (fun _ => goodEntry_of_mem_hufEntries) (isBits_flatMap_code _ _) (by rw [hgreedy]) (by rw [hgreedy]; exact room)
  rwa [hgreedy] at hdec

/-- Settles O42: `HUF.ENC` writes the artifact, and `HUF.DEC` on the artifact gives `Norm(S)`. -/
theorem huffmanRoundTrip : Obligations.HuffmanRoundTrip := by
  unfold Obligations.HuffmanRoundTrip
  intro s hs room
  obtain ⟨t, hrun, hstatus, -, hout, -⟩ := hufEnc_endsOk hs room
  exact ⟨t, hrun, hstatus, fun s' hs' hinput => hufDec_artifact_endsOk hs' (hinput.trans hout)⟩

end Sys2Proof.Huffman
end

section
/-! Narrowing and its inverse (42_arithmetic.md R154, R165): the narrowing point of a bound lies at or below a number of
the interval exactly where the bound lies at or below the number's index; `DecoderIndexInvertsNarrowing` follows. -/

namespace Sys2Proof.Arithmetic

open Sys2Proof Sys2Proof.Machine

theorem le_narrowPoint (low high t x : Nat) : low ≤ narrowPoint low high t x := Nat.le_add_right ..

theorem narrowPoint_total {low high t : Nat} (hle : low ≤ high) (ht : 0 < t) :
    narrowPoint low high t t = high + 1 := by
  rw [narrowPoint, Nat.mul_div_cancel _ ht]
  omega

theorem narrowPoint_mono (low high t : Nat) {x y : Nat} (h : x ≤ y) :
    narrowPoint low high t x ≤ narrowPoint low high t y :=
  Nat.add_le_add_left (Nat.div_le_div_right (Nat.mul_le_mul_left _ h)) low

/-- With R the interval's width both sides say R·x < (v − low + 1)·t. -/
theorem narrowPoint_le_iff {low v : Nat} (hv : low ≤ v) (high x : Nat) {t : Nat} (ht : 0 < t) :
    narrowPoint low high t x ≤ v ↔ x ≤ ariIndex low high v t := by
  have hpos : 0 < (v - low + 1) * t := Nat.mul_pos (Nat.succ_pos _) ht
  calc narrowPoint low high t x ≤ v
      ↔ (high - low + 1) * x / t < v - low + 1 := by rw [narrowPoint]; omega
    _ ↔ (high - low + 1) * x < (v - low + 1) * t := Nat.div_lt_iff_lt_mul ht
    _ ↔ x * (high - low + 1) ≤ (v - low + 1) * t - 1 := by rw [Nat.mul_comm x]; omega
    _ ↔ x ≤ ariIndex low high v t := (Nat.le_div_iff_mul_le (Nat.succ_pos _)).symm

theorem lt_narrowPoint_iff {low v : Nat} (hv : low ≤ v) (high x : Nat) {t : Nat} (ht : 0 < t) :
    v < narrowPoint low high t x ↔ ariIndex low high v t < x := by
  rw [← Nat.not_le, narrowPoint_le_iff hv high x ht, Nat.not_le]

theorem ariIndex_lt {low high v t : Nat} (hlow : low ≤ v) (hhigh : v ≤ high) (ht : 0 < t) :
    ariIndex low high v t < t := by
  rw [← lt_narrowPoint_iff hlow high t ht, narrowPoint_total (hlow.trans hhigh) ht]
  omega

/-- Settles O45: each bound by `narrowPoint_le_iff`, the range of the index by the same fact at `T`. -/
theorem decoderIndexInvertsNarrowing : Obligations.DecoderIndexInvertsNarrowing := by
  unfold Obligations.DecoderIndexInvertsNarrowing
  intro low high v t clo chi hlow hhigh ht _ _
  exact ⟨and_congr (narrowPoint_le_iff hlow high clo ht) (lt_narrowPoint_iff hlow high chi ht),
    Nat.le_sub_one_of_lt (ariIndex_lt hlow hhigh ht)⟩

end Sys2Proof.Arithmetic
end

section
/-! The cumulative table (42_arithmetic.md R151): what `cumFrom` builds from any bound on for any symbols in ascending order;
`CumulativeTablePartitionsTheTotal` follows. -/

namespace Sys2Proof.Arithmetic

open Sys2Proof Sys2Proof.Machine Sys2Proof.Huffman

/-! ### One equation for each case of `cumFrom` -/

@[simp] theorem cumFrom_nil (freq : Vector Nat 256) (acc : Nat) : cumFrom freq [] acc = [] := rfl

theorem cumFrom_cons_of_counted {freq : Vector Nat 256} {c : Byte} (hc : 0 < cell freq c) (cs : Bytes) (acc : Nat) :
    cumFrom freq (c :: cs) acc = ⟨c, acc, acc + cell freq c⟩ :: cumFrom freq cs (acc + cell freq c) := if_pos hc

theorem cumFrom_cons_of_not_counted {freq : Vector Nat 256} {c : Byte} (hc : cell freq c = 0) (cs : Bytes) (acc : Nat) :
    cumFrom freq (c :: cs) acc = cumFrom freq cs acc := if_neg (by omega)

/-! ### The entries -/

theorem map_sym_cumFrom (freq : Vector Nat 256) (cs : Bytes) (acc : Nat) :
    (cumFrom freq cs acc).map CumEntry.sym = cs.filter fun c => decide (0 < cell freq c) := by
  induction cs generalizing acc with
  | nil => rfl
  | cons c cs ih =>
    obtain hc | hc := Nat.eq_zero_or_pos (cell freq c)
    · simp [cumFrom_cons_of_not_counted hc, hc, ih]
    · simp [cumFrom_cons_of_counted hc, hc, ih]

/-- Each entry is as wide as its symbol's count, and lies between `acc` and `acc` with all the counts. -/
theorem bounds_of_mem_cumFrom {freq : Vector Nat 256} {cs : Bytes} {acc : Nat} {x : CumEntry}
    (hx : x ∈ cumFrom freq cs acc) :
    x.lo < x.hi ∧ x.hi = x.lo + cell freq x.sym ∧ acc ≤ x.lo ∧ x.hi ≤ acc + (cs.map (cell freq)).sum := by
  induction cs generalizing acc with
  | nil => exact absurd hx List.not_mem_nil
  | cons c cs ih =>
    rw [List.map_cons, List.sum_cons]
    obtain hc | hc := Nat.eq_zero_or_pos (cell freq c)
    · obtain ⟨hlt, hwidth, hacc, hend⟩ := ih (cumFrom_cons_of_not_counted hc cs acc ▸ hx)
      exact ⟨hlt, hwidth, hacc, by omega⟩
    · rw [cumFrom_cons_of_counted hc] at hx
      obtain rfl | hx := List.mem_cons.mp hx
      · exact ⟨Nat.lt_add_of_pos_right hc, rfl, le_refl _, by simp only; omega⟩
      · obtain ⟨hlt, hwidth, hacc, hend⟩ := ih hx
        exact ⟨hlt, hwidth, by omega, by omega⟩

theorem head?_cumFrom {freq : Vector Nat 256} {cs : Bytes} {acc : Nat} {x : CumEntry}
    (hx : (cumFrom freq cs acc).head? = some x) : x.lo = acc := by
  induction cs generalizing acc with
  | nil => simp at hx
  | cons c cs ih =>
    obtain hc | hc := Nat.eq_zero_or_pos (cell freq c)
    · exact ih (cumFrom_cons_of_not_counted hc cs acc ▸ hx)
    · rw [cumFrom_cons_of_counted hc, List.head?_cons] at hx
      cases hx
      rfl

/-- The high bound of the last entry, or `acc` where there is none. -/
theorem getLast?_hi_cumFrom (freq : Vector Nat 256) (cs : Bytes) (acc : Nat) :
    ((cumFrom freq cs acc).getLast?.map CumEntry.hi).getD acc = acc + (cs.map (cell freq)).sum := by
  induction cs generalizing acc with
  | nil => rfl
  | cons c cs ih =>
    rw [List.map_cons, List.sum_cons, ← Nat.add_assoc]
    obtain hc | hc := Nat.eq_zero_or_pos (cell freq c)
    · rw [cumFrom_cons_of_not_counted hc, hc, Nat.add_zero, ih]
    · rw [cumFrom_cons_of_counted hc, List.getLast?_cons, Option.map_some, Option.getD_some, ← ih,
        Option.getD_map CumEntry.hi ⟨c, acc, acc + cell freq c⟩]

/-- One entry follows another: no gap, and a larger symbol. -/
def Follows (x y : CumEntry) : Prop := x.hi = y.lo ∧ x.sym.toNat < y.sym.toNat

theorem isChain_cumFrom (freq : Vector Nat 256) {cs : Bytes} (hcs : cs.Pairwise fun c d => c.toNat < d.toNat)
    (acc : Nat) : (cumFrom freq cs acc).IsChain Follows := by
  induction cs generalizing acc with
  | nil => exact .nil
  | cons c cs ih =>
    obtain ⟨hc_lt, hcs⟩ := List.pairwise_cons.mp hcs
    obtain hc | hc := Nat.eq_zero_or_pos (cell freq c)
    · exact cumFrom_cons_of_not_counted hc cs acc ▸ ih hcs acc
    · rw [cumFrom_cons_of_counted hc]
      refine List.isChain_cons.mpr ⟨fun y hy => ⟨(head?_cumFrom hy).symm, hc_lt _ ?_⟩, ih hcs _⟩
      have hmem := List.mem_map_of_mem (f := CumEntry.sym) (List.mem_of_mem_head? hy)
      rw [map_sym_cumFrom] at hmem
      exact (List.mem_filter.mp hmem).1

/-! ### The whole table -/

theorem pairwise_allBytes : allBytes.Pairwise fun c d => c.toNat < d.toNat := by
  refine List.pairwise_map.mpr (List.pairwise_lt_range.imp_of_mem fun {i j} hi hj hij => ?_)
  simp only [List.mem_range] at hi hj
  simp only [BitVec.toNat_ofNat]
  omega

theorem map_sym_cumTable (freq : Vector Nat 256) : (cumTable freq).map CumEntry.sym = counted freq :=
  map_sym_cumFrom freq allBytes 0

theorem exists_mem_cumTable_iff (freq : Vector Nat 256) (c : Byte) : (∃ x ∈ cumTable freq, x.sym = c) ↔ 0 < cell freq c := by
  rw [← mem_counted, ← map_sym_cumTable, List.mem_map]

theorem isChain_cumTable (freq : Vector Nat 256) : (cumTable freq).IsChain Follows :=
  isChain_cumFrom freq pairwise_allBytes 0

theorem getLast?_cumTable {freq : Vector Nat 256} {x : CumEntry} (hx : (cumTable freq).getLast? = some x) :
    x.hi = (allBytes.map (cell freq)).sum := by
  have hend := getLast?_hi_cumFrom freq allBytes 0
  rwa [← cumTable, hx, Nat.zero_add] at hend

/-- Settles O43, by the lemmas on `cumFrom` at all symbols from the bound 0 on. -/
theorem cumulativeTablePartitionsTheTotal : Obligations.CumulativeTablePartitionsTheTotal := by
  unfold Obligations.CumulativeTablePartitionsTheTotal
  intro freq
  refine ⟨fun _ => head?_cumFrom, isChain_cumTable freq, fun _ => getLast?_cumTable, fun x hx => ?_,
    fun c => (exists_mem_cumTable_iff freq c).symm⟩
  obtain ⟨hlt, hwidth, -, -⟩ := bounds_of_mem_cumFrom hx
  exact ⟨hlt, hwidth⟩

end Sys2Proof.Arithmetic
end

section
/-! Numerals (00_scope.md R8): a list of digits and the number it spells, the decimal numerals of the arithmetic artifact and
what the parser makes of them, and the binary-coded digits of its stream (30_encoding.md R77, R80, R81). -/

namespace Sys2Proof.Arithmetic

open Sys2Proof Sys2Proof.Machine Sys2Proof.Artifact

/-! ### The number digits spell -/

theorem number_append_singleton (base : Nat) (ds : List Nat) (d : Nat) :
    number base (ds ++ [d]) = base * number base ds + d := by
  rw [number, List.foldl_append]
  rfl

/-- `number` is Mathlib's `Nat.ofDigits`, which takes the least significant digit first. -/
theorem number_eq_ofDigits (base : Nat) (ds : List Nat) : number base ds = Nat.ofDigits base ds.reverse := by
  induction ds using List.reverseRecOn with
  | nil => rfl
  | append_singleton ds d ih =>
    rw [number_append_singleton, ih, List.reverse_append, List.reverse_singleton, List.singleton_append,
      Nat.ofDigits_cons]
    omega

theorem number_cons (base d : Nat) (ds : List Nat) : number base (d :: ds) = d * base ^ ds.length + number base ds := by
  rw [number_eq_ofDigits, number_eq_ofDigits, List.reverse_cons, Nat.ofDigits_append, Nat.ofDigits_singleton,
    List.length_reverse]
  ring

theorem number_lt_pow {ds : List Nat} (h : ∀ d ∈ ds, d ≤ 9) : number 10 ds < 10 ^ ds.length := by
  rw [number_eq_ofDigits, ← List.length_reverse]
  exact Nat.ofDigits_lt_base_pow_length (by decide) fun d hd => Nat.lt_succ_of_le (h d (List.mem_reverse.mp hd))

@[simp] theorem length_spell (base w v : Nat) : (spell base w v).length = w := by
  induction w generalizing v with
  | zero => rfl
  | succ k ih => rw [spell, List.length_append, ih, List.length_singleton]

theorem le_nine_of_mem_spell {w v d : Nat} (h : d ∈ spell 10 w v) : d ≤ 9 := by
  induction w generalizing v with
  | zero => exact absurd h List.not_mem_nil
  | succ k ih =>
    obtain h | h := List.mem_append.mp h
    · exact ih h
    · rw [List.mem_singleton.mp h]
      omega

theorem number_spell {w v : Nat} (h : v < 10 ^ w) : number 10 (spell 10 w v) = v := by
  induction w generalizing v with
  | zero =>
    obtain rfl : v = 0 := by simpa using h
    rfl
  | succ k ih =>
    rw [spell, number_append_singleton, ih (by rw [pow_succ] at h; omega)]
    omega

/-! ### Decimal numerals -/

theorem decDigits_ne_nil {fuel v : Nat} (h : v < fuel) : decDigits fuel v ≠ [] := by
  obtain ⟨k, rfl⟩ : ∃ k, fuel = k + 1 := ⟨fuel - 1, by omega⟩
  rw [decDigits]
  split <;> simp

theorem le_nine_of_mem_decDigits {fuel v d : Nat} (h : d ∈ decDigits fuel v) : d ≤ 9 := by
  induction fuel generalizing v with
  | zero => exact absurd h List.not_mem_nil
  | succ k ih =>
    rw [decDigits] at h
    split at h
    · rw [List.mem_singleton.mp h]
      omega
    · obtain h | h := List.mem_append.mp h
      · exact ih h
      · rw [List.mem_singleton.mp h]
        omega

theorem number_decDigits {fuel v : Nat} (h : v < fuel) : number 10 (decDigits fuel v) = v := by
  induction fuel generalizing v with
  | zero => omega
  | succ k ih =>
    rw [decDigits]
    split
    · exact Nat.zero_add v
    · rw [number_append_singleton, ih (by omega)]
      omega

theorem toNat_digitChar {d : Nat} (h : d ≤ 9) : (digitChar d).toNat = 0x30 + d := by
  rw [digitChar, BitVec.toNat_ofNat]
  omega

theorem digitOf_digitChar {d : Nat} (h : d ≤ 9) : digitOf (digitChar d) = d := by
  rw [digitOf, toNat_digitChar h]
  omega

theorem map_digitOf_map_digitChar {ds : List Nat} (h : ∀ d ∈ ds, d ≤ 9) :
    (ds.map digitChar).map digitOf = ds := by
  rw [List.map_map]
  exact (List.map_congr_left fun d hd => digitOf_digitChar (h d hd)).trans (List.map_id ds)

theorem numVal_dec (v : Nat) : numVal (dec v) = v := by
  rw [numVal, dec, map_digitOf_map_digitChar fun _ => le_nine_of_mem_decDigits, number_decDigits (Nat.lt_succ_self v)]

theorem isNumeral_iff (num : Bytes) : isNumeral num = true ↔
    num ≠ [] ∧ (∀ c ∈ num, 0x30 ≤ c.toNat ∧ c.toNat ≤ 0x39) ∧ numVal num ≤ Config.NUM_MAX := by
  simp [isNumeral, Nat.one_le_iff_ne_zero, and_assoc]

theorem isNumeral_dec {v : Nat} (h : v ≤ Config.NUM_MAX) : isNumeral (dec v) = true := by
  refine (isNumeral_iff _).mpr ⟨?_, fun c hc => ?_, (numVal_dec v).trans_le h⟩
  · simpa [dec] using decDigits_ne_nil (Nat.lt_succ_self v)
  · obtain ⟨d, hd, rfl⟩ := List.mem_map.mp hc
    have := le_nine_of_mem_decDigits hd
    rw [toNat_digitChar this]
    omega

/-- A byte that is no digit is no part of a numeral. -/
theorem notMem_of_isNumeral {num : Bytes} (h : isNumeral num = true) {b : Byte} (hb : b.toNat < 0x30) : b ∉ num := by
  intro hmem
  obtain ⟨-, hdigits, -⟩ := (isNumeral_iff num).mp h
  have := (hdigits b hmem).1
  omega

theorem LF_notMem_of_isNumeral {num : Bytes} (h : isNumeral num = true) : LF ∉ num := notMem_of_isNumeral h (by decide)

/-! ### Binary-coded digits -/

@[simp] theorem bcdText_nil : bcdText [] = [] := rfl

theorem bcdText_cons (d : Nat) (ds : List Nat) : bcdText (d :: ds) = bin d Config.BCD_W ++ bcdText ds := rfl

theorem bcdText_append (xs ys : List Nat) : bcdText (xs ++ ys) = bcdText xs ++ bcdText ys := List.flatMap_append

@[simp] theorem length_bin (v w : Nat) : (bin v w).length = w := by rw [bin, List.length_map, length_spell]

theorem length_bcdText (ds : List Nat) : (bcdText ds).length = 4 * ds.length := by
  induction ds with
  | nil => rfl
  | cons d ds ih =>
    rw [bcdText_cons, List.length_append, length_bin, ih, List.length_cons, Nat.mul_succ, Nat.add_comm]

/-- The ten codes of 30_encoding.md R81, evaluated. -/
theorem isBits_and_val_bcd : ∀ d ≤ 9, isBits (bin d Config.BCD_W) = true ∧ val (bin d Config.BCD_W) = d := by decide

theorem isBits_bcdText {ds : List Nat} (h : ∀ d ∈ ds, d ≤ 9) : isBits (bcdText ds) = true := by
  refine List.all_eq_true.mpr fun b hb => ?_
  obtain ⟨d, hd, hb⟩ := List.mem_flatMap.mp hb
  exact List.all_eq_true.mp (isBits_and_val_bcd d (h d hd)).1 b hb

end Sys2Proof.Arithmetic
end

section
/-! The coded interval (42_arithmetic.md R153 to R157): renormalization keeps it within [0, `TOP`], and where the frame of
what follows lies in the interval after it, the frame of the digits shifted out and what follows lies in the one before. -/

namespace Sys2Proof.Arithmetic

open Sys2Proof Sys2Proof.Machine Sys2Proof.Artifact

/-- 0 ≤ `LOW` ≤ `HIGH` ≤ `TOP` (42_arithmetic.md R152). -/
def Interval (low high : Nat) : Prop := low ≤ high ∧ high ≤ Config.TOP

/-! ### The frame of a stream -/

/-- A digit stream that fills a frame (42_arithmetic.md R161). -/
def Stream (ds : List Nat) : Prop := Config.PREC ≤ ds.length ∧ ∀ d ∈ ds, d ≤ 9

/-- The number its first 18 digits spell (42_arithmetic.md R161). -/
def frame (ds : List Nat) : Nat := number 10 (ds.take Config.PREC)

theorem Stream.append {xs ys : List Nat} (hxs : ∀ d ∈ xs, d ≤ 9) (hys : Stream ys) : Stream (xs ++ ys) := by
  obtain ⟨hlen, hdigits⟩ := hys
  refine ⟨by rw [List.length_append]; omega, fun d hd => ?_⟩
  obtain hd | hd := List.mem_append.mp hd
  · exact hxs d hd
  · exact hdigits d hd

/-- Shifting a frame by one digit: the first digit is its quotient by `D17`, and the rest moves up to let in the digit after
it (42_arithmetic.md R163). -/
theorem frame_cons {d : Nat} {ds : List Nat} (hds : Stream ds) :
    ∃ e ≤ 9, ds.drop 17 = e :: ds.drop 18 ∧ frame (d :: ds) / Config.D17 = d ∧
      frame ds = frame (d :: ds) % Config.D17 * 10 + e := by
  obtain ⟨hlen, hdigits⟩ := hds
  have hlt : 17 < ds.length := hlen
  have htake : ds.take Config.PREC = ds.take 17 ++ [ds[17]] := List.take_succ_eq_append_getElem hlt
  have hpow : number 10 (ds.take 17) < Config.D17 := by
    have := number_lt_pow (ds := ds.take 17) fun d hd => hdigits d (List.mem_of_mem_take hd)
    rwa [List.length_take, Nat.min_eq_left hlt.le] at this
  have hcons : frame (d :: ds) = d * Config.D17 + number 10 (ds.take 17) := by
    rw [frame, List.take_succ_cons, number_cons, List.length_take, Nat.min_eq_left hlt.le]
    rfl
  refine ⟨ds[17], hdigits _ (List.getElem_mem hlt), List.drop_eq_getElem_cons hlt, ?_, ?_⟩
  · rw [hcons, Nat.mul_comm, Nat.mul_add_div (by decide), Nat.div_eq_of_lt hpow, Nat.add_zero]
  · rw [frame, htake, number_append_singleton, hcons, Nat.mul_add_mod_of_lt hpow, Nat.mul_comm]

/-! ### Renormalization -/

theorem sameLead_iff (low high : Nat) : sameLead low high = true ↔ low / Config.D17 = high / Config.D17 := by
  rw [sameLead, beq_iff_eq]

theorem renorm_of_sameLead {low high : Nat} (h : sameLead low high = true) (k : Nat) :
    renorm (k + 1) low high = (low / Config.D17 :: (renorm k (shiftLow low) (shiftHigh high)).1,
      (renorm k (shiftLow low) (shiftHigh high)).2) := if_pos h

theorem renorm_of_not_sameLead {low high : Nat} (h : ¬ sameLead low high = true) (k : Nat) :
    renorm (k + 1) low high = ([], low, high) := if_neg h

theorem Interval.shift {low high : Nat} (h : Interval low high) (hlead : sameLead low high = true) :
    Interval (shiftLow low) (shiftHigh high) := by
  obtain ⟨hle, htop⟩ := h
  rw [sameLead_iff] at hlead
  simp only [Config.D17, Config.TOP, Interval, shiftLow, shiftHigh] at hlead htop ⊢
  omega

theorem Interval.lead_le_nine {low high : Nat} (h : Interval low high) : low / Config.D17 ≤ 9 := by
  obtain ⟨hle, htop⟩ := h
  simp only [Config.D17, Config.TOP] at htop ⊢
  omega

theorem Interval.renorm {low high : Nat} (h : Interval low high) (k : Nat) :
    Interval (Artifact.renorm k low high).2.1 (Artifact.renorm k low high).2.2 ∧
      ∀ d ∈ (Artifact.renorm k low high).1, d ≤ 9 := by
  induction k generalizing low high with
  | zero => exact ⟨h, nofun⟩
  | succ k ih =>
    by_cases hlead : sameLead low high = true
    · obtain ⟨hinterval, hdigits⟩ := ih (h.shift hlead)
      rw [renorm_of_sameLead hlead]
      exact ⟨hinterval, List.forall_mem_cons.mpr ⟨h.lead_le_nine, hdigits⟩⟩
    · rw [renorm_of_not_sameLead hlead]
      exact ⟨h, nofun⟩

/-- A frame of the shifted interval, with the shared digit put in front, is a frame of the interval. -/
theorem frame_mem_of_shift {low high : Nat} {ds : List Nat} (hds : Stream ds) (hlead : sameLead low high = true)
    (hlow : shiftLow low ≤ frame ds) (hhigh : frame ds ≤ shiftHigh high) :
    low ≤ frame (low / Config.D17 :: ds) ∧ frame (low / Config.D17 :: ds) ≤ high := by
  obtain ⟨e, he, -, hquot, hframe⟩ := frame_cons (d := low / Config.D17) hds
  rw [sameLead_iff] at hlead
  simp only [Config.D17, shiftLow, shiftHigh] at hlead hlow hhigh hquot hframe ⊢
  omega

/-- The same for all the digits of a renormalization. -/
theorem frame_mem_of_renorm {low high : Nat} (h : Interval low high) {ds : List Nat} (hds : Stream ds) (k : Nat)
    (hmem : (renorm k low high).2.1 ≤ frame ds ∧ frame ds ≤ (renorm k low high).2.2) :
    low ≤ frame ((renorm k low high).1 ++ ds) ∧ frame ((renorm k low high).1 ++ ds) ≤ high := by
  induction k generalizing low high with
  | zero => exact hmem
  | succ k ih =>
    by_cases hlead : sameLead low high = true
    · rw [renorm_of_sameLead hlead] at hmem ⊢
      obtain ⟨hlow, hhigh⟩ := ih (h.shift hlead) hmem
      exact frame_mem_of_shift (hds.append ((h.shift hlead).renorm k).2) hlead hlow hhigh
    · rw [renorm_of_not_sameLead hlead] at hmem ⊢
      exact hmem

end Sys2Proof.Arithmetic
end

section
/-! The table of a text as sub-intervals of [0, `T`) (42_arithmetic.md R150, R151), and what the decoder makes of it: the
search finds the entry an index lies in, and the high bounds come back from the low bounds and the total (R160, R163). -/

namespace Sys2Proof.Arithmetic

open Sys2Proof Sys2Proof.Machine Sys2Proof.Huffman Sys2Proof.Artifact

/-- The entries have sub-intervals of [0, `t`) that are not empty and in ascending order. -/
structure Ascending (t : Nat) (cum : List CumEntry) : Prop where
  bounds : ∀ x ∈ cum, x.lo < x.hi ∧ x.hi ≤ t
  sorted : cum.Pairwise fun x y => x.hi ≤ y.lo

theorem Ascending.pairwise_lo {t : Nat} {cum : List CumEntry} (h : Ascending t cum) :
    cum.Pairwise fun x y => x.lo < y.lo :=
  h.sorted.imp_of_mem fun hx _ hxy => (h.bounds _ hx).1.trans_le hxy

/-! ### The table of a text -/

theorem sum_count_allBytes (cs : Bytes) : (allBytes.map fun c => cs.count c).sum = cs.length := by
  have hsum := Multiset.sum_count_eq_card (s := allBytes.toFinset) (m := (cs : Multiset Byte))
    fun c _ => List.mem_toFinset.mpr (mem_allBytes c)
  rw [← List.sum_toFinset (fun c => cs.count c) nodup_allBytes]
  simpa only [Multiset.coe_count, Multiset.coe_card] using hsum

theorem sum_cell_countSyms (cs : Bytes) : (allBytes.map (cell (countSyms cs))).sum = cs.length := by
  rw [← sum_count_allBytes]
  exact congrArg List.sum (List.map_congr_left fun c _ => cell_countSyms cs c)

theorem pairwise_cumFrom (freq : Vector Nat 256) (cs : Bytes) (acc : Nat) :
    (cumFrom freq cs acc).Pairwise fun x y => x.hi ≤ y.lo := by
  induction cs generalizing acc with
  | nil => exact .nil
  | cons c cs ih =>
    obtain hc | hc := Nat.eq_zero_or_pos (cell freq c)
    · exact cumFrom_cons_of_not_counted hc cs acc ▸ ih acc
    · rw [cumFrom_cons_of_counted hc]
      refine List.pairwise_cons.mpr ⟨fun y hy => ?_, ih _⟩
      obtain ⟨-, -, hacc, -⟩ := bounds_of_mem_cumFrom hy
      exact hacc

/-- The cumulative table of a text partitions [0, `T`). -/
theorem ascending_cumTable (cs : Bytes) : Ascending cs.length (cumTable (countSyms cs)) where
  bounds x hx := by
    obtain ⟨hlt, -, -, hend⟩ := bounds_of_mem_cumFrom hx
    rw [sum_cell_countSyms] at hend
    exact ⟨hlt, by omega⟩
  sorted := pairwise_cumFrom _ _ _

theorem length_cumTable_le (freq : Vector Nat 256) : (cumTable freq).length ≤ 256 := by
  rw [← List.length_map CumEntry.sym, map_sym_cumTable]
  exact length_counted_le freq

/-- The look-up of the coding loop finds an entry for each of the symbols (42_arithmetic.md R158). -/
def HasEntries (cum : List CumEntry) (syms : Bytes) : Prop :=
  ∀ c ∈ syms, ∃ x, cum.find? (fun x => x.sym == c) = some x

theorem hasEntries_cumTable (cs : Bytes) : HasEntries (cumTable (countSyms cs)) cs := fun c hc => by
  have hcount : 0 < cell (countSyms cs) c := by
    rw [cell_countSyms]
    exact List.count_pos_iff.mpr hc
  obtain ⟨y, hy, hsym⟩ := (exists_mem_cumTable_iff _ c).mpr hcount
  exact Option.isSome_iff_exists.mp (List.find?_isSome.mpr ⟨y, hy, beq_iff_eq.mpr hsym⟩)

theorem mem_and_sym_of_find? {cum : List CumEntry} {c : Byte} {x : CumEntry}
    (h : cum.find? (fun x => x.sym == c) = some x) : x ∈ cum ∧ x.sym = c :=
  ⟨List.mem_of_find?_eq_some h, by simpa using List.find?_some h⟩

/-! ### The decoder's search -/

/-- In an ascending table the last entry whose low bound is at most `idx` is the one whose sub-interval `idx` lies in
(42_arithmetic.md R163). -/
theorem ariFind_eq_some {t : Nat} {cum : List CumEntry} (h : Ascending t cum) {x : CumEntry} (hx : x ∈ cum) {idx : Nat}
    (hlo : x.lo ≤ idx) (hhi : idx < x.hi) : ariFind cum idx = some x := by
  obtain ⟨before, after, rfl⟩ := List.append_of_mem hx
  obtain ⟨-, hafter, hcross⟩ := List.pairwise_append.mp h.sorted
  have hbefore : before.filter (fun y => decide (y.lo ≤ idx)) = before := List.filter_eq_self.mpr fun y hy => by
    have := (h.bounds y (List.mem_append_left _ hy)).1
    have := hcross y hy x (List.mem_cons_self ..)
    exact decide_eq_true (by omega)
  have hnone : after.filter (fun y => decide (y.lo ≤ idx)) = [] := List.filter_eq_nil_iff.mpr fun y hy => by
    have := (List.pairwise_cons.mp hafter).1 y hy
    simp only [decide_eq_true_eq]
    omega
  have hlen : ((before ++ x :: after).filter fun y => decide (y.lo ≤ idx)).length = before.length + 1 := by
    rw [List.filter_append, List.filter_cons_of_pos (by simpa using hlo), hbefore, hnone, List.length_append,
      List.length_singleton]
  rw [ariFind, hlen]
  simp

/-! ### The high bounds -/

/-- A parsed entry: the high bound is not set yet (42_arithmetic.md R159). -/
def withoutHigh (x : CumEntry) : CumEntry := { x with hi := 0 }

theorem setHighs_cons_cons (t : Nat) (x y : CumEntry) (cum : List CumEntry) :
    setHighs t (x :: y :: cum) = { x with hi := y.lo } :: setHighs t (y :: cum) := rfl

theorem setHighs_withoutHigh {t : Nat} {cum : List CumEntry} (hchain : cum.IsChain Follows)
    (hlast : ∀ x, cum.getLast? = some x → x.hi = t) : setHighs t (cum.map withoutHigh) = cum := by
  induction cum with
  | nil => rfl
  | cons x cum ih =>
    obtain ⟨hhead, hchain⟩ := List.isChain_cons.mp hchain
    have htail := ih hchain fun y hy => hlast y (by rw [List.getLast?_cons, hy, Option.getD_some])
    cases cum with
    | nil =>
      obtain rfl : x.hi = t := hlast x rfl
      rfl
    | cons y cum =>
      have hnext : x.hi = y.lo := (hhead y rfl).1
      rw [List.map_cons, List.map_cons, setHighs_cons_cons, ← List.map_cons, htail]
      simp [withoutHigh, ← hnext]

theorem setHighs_cumTable (cs : Bytes) :
    setHighs cs.length ((cumTable (countSyms cs)).map withoutHigh) = cumTable (countSyms cs) :=
  setHighs_withoutHigh (isChain_cumTable _) fun _ hx => (getLast?_cumTable hx).trans (sum_cell_countSyms cs)

end Sys2Proof.Arithmetic
end

section
/-! The digit stream of a text (42_arithmetic.md R153 to R158): what coding one symbol does to the interval, and that at
every step the frame of the digits still to come lies in the interval. -/

namespace Sys2Proof.Arithmetic

open Sys2Proof Sys2Proof.Machine Sys2Proof.Artifact

/-- The interval of an entry within the interval [`low`, `high`] (42_arithmetic.md R153). -/
theorem Interval.narrow {low high t : Nat} (h : Interval low high) {x : CumEntry} (hhi : x.lo < x.hi ∧ x.hi ≤ t)
    (hne : narrowPoint low high t x.lo < narrowPoint low high t x.hi) :
    Interval (narrowPoint low high t x.lo) (narrowPoint low high t x.hi - 1) ∧ low ≤ narrowPoint low high t x.lo ∧
      narrowPoint low high t x.hi - 1 ≤ high := by
  obtain ⟨hle, htop⟩ := h
  have hlow := le_narrowPoint low high t x.lo
  have hhigh := narrowPoint_mono low high t hhi.2
  rw [narrowPoint_total hle (by omega)] at hhigh
  exact ⟨⟨by omega, by omega⟩, hlow, by omega⟩

/-- The digits that coding an entry's symbol emits, and the interval after it (42_arithmetic.md R158). -/
def codeEntry (t low high : Nat) (x : CumEntry) : List Nat × Nat × Nat :=
  renorm Config.PREC (narrowPoint low high t x.lo) (narrowPoint low high t x.hi - 1)

theorem ariCode_cons {cum : List CumEntry} {c : Byte} {x : CumEntry}
    (hx : cum.find? (fun x => x.sym == c) = some x) (t : Nat) (syms : Bytes) (low high : Nat) :
    ariCode t cum (c :: syms) low high =
      if narrowPoint low high t x.hi ≤ narrowPoint low high t x.lo then ([], none)
      else ((codeEntry t low high x).1 ++
          (ariCode t cum syms (codeEntry t low high x).2.1 (codeEntry t low high x).2.2).1,
        (ariCode t cum syms (codeEntry t low high x).2.1 (codeEntry t low high x).2.2).2) := by
  rw [ariCode, hx]
  rfl

/-- Coding that reaches its end collapsed nowhere (42_arithmetic.md R155). -/
theorem ariCode_cons_eq_some {t : Nat} {cum : List CumEntry} {c : Byte} {x : CumEntry} {syms : Bytes}
    {low high : Nat} {p : Nat × Nat} (hx : cum.find? (fun x => x.sym == c) = some x)
    (h : (ariCode t cum (c :: syms) low high).2 = some p) :
    narrowPoint low high t x.lo < narrowPoint low high t x.hi ∧
      (ariCode t cum syms (codeEntry t low high x).2.1 (codeEntry t low high x).2.2).2 = some p ∧
      (ariCode t cum (c :: syms) low high).1 = (codeEntry t low high x).1 ++
        (ariCode t cum syms (codeEntry t low high x).2.1 (codeEntry t low high x).2.2).1 := by
  rw [ariCode_cons hx] at h ⊢
  split at h
  · cases h
  · rename_i hne
    rw [if_neg hne]
    exact ⟨Nat.lt_of_not_le hne, h, rfl⟩

/-- The digits of symbols coded from an interval on, and the midpoint's 18 digits after them (42_arithmetic.md R157). -/
def codedDigits (t : Nat) (cum : List CumEntry) (syms : Bytes) (low high : Nat) (p : Nat × Nat) : List Nat :=
  (ariCode t cum syms low high).1 ++ spell 10 Config.PREC (p.1 + (p.2 - p.1) / 2)

theorem stream_spell (v : Nat) : Stream (spell 10 Config.PREC v) :=
  ⟨(length_spell ..).ge, fun _ => le_nine_of_mem_spell⟩

theorem frame_spell {v : Nat} (h : v ≤ Config.TOP) : frame (spell 10 Config.PREC v) = v := by
  rw [frame, List.take_of_length_le (length_spell ..).le, number_spell]
  exact Nat.lt_succ_of_le h

/-- The frame of the digits to come lies in the interval (42_arithmetic.md R157, R165). -/
theorem frame_codedDigits_mem {t : Nat} {cum : List CumEntry} (hcum : Ascending t cum) {syms : Bytes}
    (hsyms : HasEntries cum syms) {low high : Nat} (hint : Interval low high) {p : Nat × Nat}
    (hp : (ariCode t cum syms low high).2 = some p) :
    Stream (codedDigits t cum syms low high p) ∧ low ≤ frame (codedDigits t cum syms low high p) ∧
      frame (codedDigits t cum syms low high p) ≤ high := by
  induction syms generalizing low high with
  | nil =>
    obtain ⟨hle, htop⟩ := hint
    obtain rfl : (low, high) = p := Option.some.inj hp
    have hdigits : codedDigits t cum [] low high (low, high) = spell 10 Config.PREC (low + (high - low) / 2) :=
      List.nil_append _
    rw [hdigits, frame_spell (by omega)]
    exact ⟨stream_spell _, by omega⟩
  | cons c syms ih =>
    obtain ⟨⟨x, hfind⟩, hsyms⟩ := List.forall_mem_cons.mp hsyms
    obtain ⟨hx, -⟩ := mem_and_sym_of_find? hfind
    obtain ⟨hne, hrest, hdigits⟩ := ariCode_cons_eq_some hfind hp
    obtain ⟨hint', hlow, hhigh⟩ := hint.narrow (hcum.bounds x hx) hne
    obtain ⟨hafter, hemitted⟩ := hint'.renorm Config.PREC
    obtain ⟨hstream, hmem⟩ := ih hsyms hafter hrest
    rw [codedDigits, hdigits, List.append_assoc]
    obtain ⟨hframe_lo, hframe_hi⟩ := frame_mem_of_renorm hint' hstream Config.PREC hmem
    exact ⟨hstream.append hemitted, hlow.trans hframe_lo, hframe_hi.trans hhigh⟩

end Sys2Proof.Arithmetic
end

section
/-! `ARI.DEC` up to its decoding steps (42_arithmetic.md R159 to R161): the parser recovers a bound table, a total and a
digit stream from their texts, numerals with leading zeros included. -/

namespace Sys2Proof.Arithmetic

open Sys2Proof Sys2Proof.Machine Sys2Proof.Safety Sys2Proof.Artifact Sys2Proof.Huffman

/-! ### The bound table -/

/-- The delimiter test does not fire at the start of an entry with a numeral, whatever its symbol (30_encoding.md R76). -/
theorem not_delimLine_isPrefix_bound {e : Byte × Bytes} (he : isNumeral e.2 = true) (more : Bytes) :
    ¬ delimLine <+: e.1 :: (e.2 ++ LF :: more) := by
  obtain ⟨hne, -, -⟩ := (isNumeral_iff e.2).mp he
  obtain ⟨b, bs, hb⟩ := List.exists_cons_of_ne_nil hne
  intro h
  rw [delimLine, hb, List.cons_append, List.cons_prefix_cons, List.cons_prefix_cons] at h
  obtain ⟨-, hdash, -⟩ := h
  exact notMem_of_isNumeral he (b := chDash) (by decide) (hb ▸ hdash ▸ List.mem_cons_self ..)

/-- The entry of `CUM` that a table line is parsed to (42_arithmetic.md R159). -/
def parsedBound (e : Byte × Bytes) : CumEntry := { sym := e.1, lo := numVal e.2, hi := 0 }

/-- `CUM` longer by the entries of table lines. -/
def addBounds (table : List (Byte × Bytes)) (h : AriWork) : AriWork := { h with cum := h.cum ++ table.map parsedBound }

theorem notAscending_eq_false {cum : List CumEntry} {lo : Nat} (h : ∀ x ∈ cum, x.lo < lo) : notAscending cum lo = false := by
  rw [notAscending]
  cases hlast : cum.getLast? with
  | none => rfl
  | some x => exact decide_eq_false (Nat.not_le_of_lt (h x (List.mem_of_getLast? hlast)))

/-- A good entry is appended to `CUM` and the cursor goes behind it (42_arithmetic.md R159). -/
theorem ariParseEntry_eq {s : State} (hs : s.srcAnswers = []) {e : Byte × Bytes} {more : Bytes}
    (he : isNumeral e.2 = true) (hdrop : (input s).drop s.work.sc = e.1 :: (e.2 ++ LF :: more))
    (hroom : s.work.ari.cum.length < 256) (hasc : ∀ x ∈ s.work.ari.cum, x.lo < numVal e.2) :
    ariParseEntry s = .ok () (State.setSc (s.work.sc + 1 + e.2.length + 1) (State.onAri (addBounds [e]) s)) := by
  obtain ⟨hcell, hlt⟩ := srcCell_of_drop hdrop
  have hdrop' : (input s).drop (s.work.sc + 1) = e.2 ++ LF :: more := by rw [← List.drop_drop, hdrop]; rfl
  have hne : ¬ s.work.sc = s.srcLen.toNat := Nat.ne_of_lt hlt
  have hfull : ¬ s.work.ari.cum.length = Config.TBL_MAX := Nat.ne_of_lt hroom
  simp only [ariParseEntry, cmd_bind, cmd_get, cmd_modify, hne, he, hfull, notAscending_eq_false hasc, if_false,
    srcByte_quiet hs, hcell, findLF_eq_some hs (LF_notMem_of_isNumeral he) hdrop', bytesOf_eq hs hdrop',
    Bool.true_eq_false, Bool.false_eq_true]
  rfl

theorem ariParseTable_succ (k : Nat) : ariParseTable (k + 1) = (do
    let atEnd ← atDelim
    if atEnd then modify (fun s => State.setSc (s.work.sc + 3) s)
    else do
      ariParseEntry
      ariParseTable k) := rfl

/-- The parser recovers the entries written and stops behind the delimiter line (42_arithmetic.md R159). -/
theorem ariParseTable_eq {table : List (Byte × Bytes)} {fuel : Nat} {s : State} {more : Bytes} (hs : s.srcAnswers = [])
    (hgood : ∀ e ∈ table, isNumeral e.2 = true) (hroom : s.work.ari.cum.length + table.length ≤ 256)
    (hasc : (s.work.ari.cum ++ table.map parsedBound).Pairwise fun x y => x.lo < y.lo) (hfuel : table.length < fuel)
    (hdrop : (input s).drop s.work.sc = tableText table ++ delimLine ++ more) :
    ariParseTable fuel s = .ok () (State.setSc (s.work.sc + (tableText table ++ delimLine).length)
      (State.onAri (addBounds table) s)) := by
  obtain ⟨k, rfl⟩ : ∃ k, fuel = k + 1 := ⟨fuel - 1, by omega⟩
  induction table generalizing s k with
  | nil =>
    have hdelim : delimLine <+: (input s).drop s.work.sc := ⟨more, hdrop.symm⟩
    rw [ariParseTable_succ, cmd_bind_ok (atDelim_eq hs), decide_eq_true hdelim]
    simp [addBounds, tableText, delimLine, State.onAri, State.setSc]
  | cons e table ih =>
    obtain ⟨he, hgood⟩ := List.forall_mem_cons.mp hgood
    simp only [List.length_cons] at hroom hfuel
    rw [tableText_cons] at hdrop
    simp only [List.cons_append, List.append_assoc] at hdrop
    have hdelim := hdrop ▸ not_delimLine_isPrefix_bound he (tableText table ++ (delimLine ++ more))
    obtain ⟨-, -, hbefore⟩ := List.pairwise_append.mp hasc
    have hentry := ariParseEntry_eq hs he hdrop (by omega) fun x hx =>
      hbefore x hx (parsedBound e) (List.mem_cons_self ..)
    obtain ⟨j, rfl⟩ : ∃ j, k = j + 1 := ⟨k - 1, by omega⟩
    have hdrop' : (input s).drop (s.work.sc + 1 + e.2.length + 1) = tableText table ++ delimLine ++ more := by
      rw [← List.drop_drop, ← List.drop_drop, ← List.drop_drop, hdrop]
      simp
    have htail := ih (s := State.setSc (s.work.sc + 1 + e.2.length + 1) (State.onAri (addBounds [e]) s)) hs hgood
      (by simp only [State.setSc_work, State.onAri_work, addBounds, List.length_append, List.length_map,
            List.length_singleton]; omega)
      (by simpa [addBounds] using hasc) hdrop' j (by omega)
    have hend : s.work.sc + 1 + e.2.length + 1 + (tableText table ++ delimLine).length =
        s.work.sc + (tableText (e :: table) ++ delimLine).length := by
      simp only [tableText_cons, List.length_append, List.length_cons]
      omega
    rw [ariParseTable_succ, cmd_bind_ok (atDelim_eq hs), decide_eq_false hdelim]
    simp only [Bool.false_eq_true, if_false]
    rw [cmd_bind_ok hentry, htail, ← hend]
    simp [State.setSc, State.onAri, addBounds]

/-! ### The total -/

/-- `T` and the high bounds set (42_arithmetic.md R160). -/
def setTotal (t : Nat) (h : AriWork) : AriWork := { h with t := t, cum := setHighs t h.cum }

theorem ariParseTotal_eq {s : State} (hs : s.srcAnswers = []) {num more : Bytes} (hnum : isNumeral num = true)
    (hdrop : (input s).drop s.work.sc = num ++ LF :: more) :
    ariParseTotal s = .ok () (State.setSc (s.work.sc + num.length + 1) (State.onAri (setTotal (numVal num)) s)) := by
  simp only [ariParseTotal, cmd_bind, cmd_get, cmd_modify, hnum, findLF_eq_some hs (LF_notMem_of_isNumeral hnum) hdrop,
    bytesOf_eq hs hdrop, Bool.true_eq_false, if_false]
  rfl

/-! ### The digit stream -/

/-- `DIG` longer by the digits `ds`. -/
def addDigits (ds : List Nat) (h : AriWork) : AriWork := { h with dig := h.dig ++ ds }

theorem ariReadGroup_eq {s : State} (hs : s.srcAnswers = []) {a d : Nat} {rest : Bytes} (hd : d ≤ 9)
    (hdrop : (input s).drop a = bin d Config.BCD_W ++ rest) :
    ariReadGroup a s = .ok () (State.onAri (addDigits [d]) s) := by
  obtain ⟨hbits, hval⟩ := isBits_and_val_bcd d hd
  have hread : bytesOf a (a + 4) s = .ok (bin d Config.BCD_W) s := by
    simpa using bytesOf_eq hs hdrop
  have hgood : ¬ (isBits (bin d Config.BCD_W) = false ∨ d > 9) := by
    rw [hbits]
    simpa using hd
  simp only [ariReadGroup, cmd_bind, hread, hval, hgood, if_false, cmd_modify]
  rfl

theorem ariReadGroups_eq {ds : List Nat} (hds : ∀ d ∈ ds, d ≤ 9) {s : State} (hs : s.srcAnswers = []) {a k : Nat}
    {rest : Bytes} (hdrop : (input s).drop (a + 4 * k) = bcdText ds ++ rest) :
    forRange k ds.length (fun g => ariReadGroup (a + 4 * g)) s = .ok () (State.onAri (addDigits ds) s) := by
  induction ds generalizing s k with
  | nil => simp [addDigits, State.onAri]
  | cons d ds ih =>
    obtain ⟨hd, hds⟩ := List.forall_mem_cons.mp hds
    rw [bcdText_cons, List.append_assoc] at hdrop
    have hdrop' : (input s).drop (a + 4 * (k + 1)) = bcdText ds ++ rest := by
      rw [Nat.mul_succ, ← Nat.add_assoc, ← List.drop_drop, hdrop]
      exact List.drop_left' (length_bin ..)
    rw [List.length_cons, forRange_succ, cmd_bind_ok (ariReadGroup_eq hs hd hdrop)]
    rw [ih hds (s := State.onAri (addDigits [d]) s) hs hdrop']
    simp [State.onAri, addDigits]

/-- `DIG` read, and the first frame (42_arithmetic.md R161). -/
def loadFrame (ds : List Nat) (h : AriWork) : AriWork := { h with dig := ds, v := frame ds, dp := Config.PREC }

theorem ariReadStream_eq {s : State} (hs : s.srcAnswers = []) {ds : List Nat} {tail : Bytes} (hds : Stream ds)
    (hdrop : (input s).drop s.work.sc = bcdText ds ++ tail) (htail : tail = [] ∨ tail.head? = some LF) :
    ariReadStream s = .ok () (State.onAri (loadFrame ds) s) := by
  obtain ⟨hlen, hdigits⟩ := hds
  obtain ⟨found, hfound, hcount⟩ := findLF_bits hs hdrop htail (isBits_bcdText hdigits)
  rw [length_bcdText] at hcount
  have hgroups := ariReadGroups_eq hdigits (s := State.onAri (fun h => { h with dig := [] }) s) hs (k := 0) hdrop
  have hmod : ¬ 4 * ds.length % 4 ≠ 0 := by omega
  have hdiv : 4 * ds.length / 4 = ds.length := by omega
  have hshort : ¬ ds.length < Config.PREC := Nat.not_lt.mpr hlen
  simp only [ariReadStream, cmd_bind, cmd_get, hfound, hcount, hmod, hdiv, if_false, cmd_modify, hgroups,
    State.onAri_work, addDigits, List.nil_append]
  exact congrFun (if_neg hshort) _

end Sys2Proof.Arithmetic
end

section
/-! The decoding steps of `ARI.DEC` on a coded stream (42_arithmetic.md R163, R164): each step finds the entry that was
coded, emits its symbol, and is left with the coder's interval and the digits after those the coder emitted. -/

namespace Sys2Proof.Arithmetic

open Sys2Proof Sys2Proof.Machine Sys2Proof.Safety Sys2Proof.Artifact Sys2Proof.Huffman

/-- The working state between two decoding steps: a total and a table, an interval, and the digits to come, the first 18 of
them in the frame and the others not yet shifted in. -/
structure Decoding (t : Nat) (cum : List CumEntry) (low high : Nat) (ds : List Nat) (h : AriWork) : Prop where
  total : h.t = t
  table : h.cum = cum
  low : h.low = low
  high : h.high = high
  frame : h.v = frame ds
  rest : h.dig.drop h.dp = ds.drop Config.PREC

/-! ### What emitting leaves -/

theorem emitted_onAri (f : AriWork → AriWork) (s : State) : Emitted [] s (State.onAri f s) := rfl

theorem dstAnswers_of_emitted {bs : Bytes} {s t : State} (h : Emitted bs s t) : t.dstAnswers = s.dstAnswers := by
  rw [h]
  exact appendBytes_dstAnswers bs s

/-- The room that is left after a part of what there was room for. -/
theorem room_left_of_emitted {bs : Bytes} {s t : State} (h : Emitted bs s t) {n : Nat}
    (room : s.dstLen.toNat + (bs.length + n) ≤ s.caps.dstCap.val) : t.dstLen.toNat + n ≤ t.caps.dstCap.val := by
  obtain ⟨-, hlen, -⟩ := appendBytes_spec (bs := bs) (s := s) (by omega)
  have hdst : t.dstLen = (appendBytes bs s).dstLen := by rw [h]
  have hcaps : t.caps = s.caps := by
    rw [h]
    exact appendBytes_caps bs s
  rw [hdst, hcaps, hlen]
  omega

/-! ### Narrowing -/

/-- `LOW` and `HIGH` set. -/
def setInterval (low high : Nat) (h : AriWork) : AriWork := { h with low := low, high := high }

/-- `Narrow` faults where the new interval is empty, else sets it (42_arithmetic.md R153, R155). -/
theorem narrow_eq (clo chi : Nat) (s : State) :
    narrow clo chi s =
      if narrowPoint s.work.ari.low s.work.ari.high s.work.ari.t chi ≤
          narrowPoint s.work.ari.low s.work.ari.high s.work.ari.t clo then .error (.fault .ariCollapse) s
      else .ok () (State.onAri (setInterval (narrowPoint s.work.ari.low s.work.ari.high s.work.ari.t clo)
        (narrowPoint s.work.ari.low s.work.ari.high s.work.ari.t chi - 1)) s) := by
  simp only [narrow, cmd_bind, cmd_get]
  split <;> rfl

theorem Decoding.narrow {t : Nat} {cum : List CumEntry} {low high : Nat} {ds : List Nat} {s : State}
    (h : Decoding t cum low high ds s.work.ari) {x : CumEntry}
    (hne : narrowPoint low high t x.lo < narrowPoint low high t x.hi) :
    ∃ u, Machine.narrow x.lo x.hi s = .ok () u ∧ Emitted [] s u ∧
      Decoding t cum (narrowPoint low high t x.lo) (narrowPoint low high t x.hi - 1) ds u.work.ari := by
  obtain ⟨rfl, rfl, rfl, rfl, hframe, hrest⟩ := h
  rw [narrow_eq, if_neg (Nat.not_le_of_lt hne)]
  exact ⟨_, rfl, emitted_onAri _ _, rfl, rfl, rfl, rfl, hframe, hrest⟩

/-! ### Renormalization -/

theorem renormDec_succ (k : Nat) : renormDec (k + 1) = (do
    let s ← get
    let h := s.work.ari
    if sameLead h.low h.high then do
      modify (State.onAri (fun h => { h with low := shiftLow h.low, high := shiftHigh h.high }))
      match h.dig[h.dp]? with
      | none => raise .ariStreamShort
      | some d => do
        modify (State.onAri (fun h => { h with v := h.v % Config.D17 * 10 + d, dp := h.dp + 1 }))
        renormDec k) := rfl

theorem renormDec_of_not_sameLead {s : State} (h : ¬ sameLead s.work.ari.low s.work.ari.high = true) (k : Nat) :
    renormDec (k + 1) s = .ok () s := by
  rw [renormDec_succ, cmd_bind_ok (cmd_get s)]
  exact congrFun (if_neg h) s

/-- One shift: the digit `d` comes in (42_arithmetic.md R163). -/
def shiftIn (d : Nat) (h : AriWork) : AriWork :=
  { h with low := shiftLow h.low, high := shiftHigh h.high, v := h.v % Config.D17 * 10 + d, dp := h.dp + 1 }

theorem renormDec_of_sameLead {s : State} (h : sameLead s.work.ari.low s.work.ari.high = true) {d : Nat}
    (hd : s.work.ari.dig[s.work.ari.dp]? = some d) (k : Nat) :
    renormDec (k + 1) s = renormDec k (State.onAri (shiftIn d) s) := by
  rw [renormDec_succ, cmd_bind_ok (cmd_get s)]
  simp only [h, if_true, hd, cmd_bind, cmd_modify]
  rfl

/-- Where the bounds share the first digit to come, it is shifted out and the next one in. -/
theorem Decoding.shift {t : Nat} {cum : List CumEntry} {low high d : Nat} {ds : List Nat} {h : AriWork}
    (hdec : Decoding t cum low high (d :: ds) h) (hds : Stream ds) :
    ∃ e, h.dig[h.dp]? = some e ∧ Decoding t cum (shiftLow low) (shiftHigh high) ds (shiftIn e h) := by
  obtain ⟨rfl, rfl, rfl, rfl, hframe, hrest⟩ := hdec
  obtain ⟨e, -, hnext, -, hshift⟩ := frame_cons (d := d) hds
  have hdrop : h.dig.drop h.dp = e :: ds.drop Config.PREC := hrest.trans hnext
  refine ⟨e, by rw [← List.head?_drop, hdrop, List.head?_cons], rfl, rfl, rfl, rfl, ?_, ?_⟩
  · rw [hshift, ← hframe]
    rfl
  · exact (List.drop_drop ..).symm.trans (congrArg (List.drop 1) hdrop)

/-- As many digits come in as the coder emitted (42_arithmetic.md R163). -/
theorem Decoding.renorm {t : Nat} {cum : List CumEntry} {low high : Nat} (k : Nat) {ds : List Nat} {s : State}
    (h : Decoding t cum low high ((renorm k low high).1 ++ ds) s.work.ari) (hint : Interval low high) (hds : Stream ds) :
    ∃ u, renormDec k s = .ok () u ∧ Emitted [] s u ∧
      Decoding t cum (Artifact.renorm k low high).2.1 (Artifact.renorm k low high).2.2 ds u.work.ari := by
  induction k generalizing low high s with
  | zero => exact ⟨s, rfl, rfl, h⟩
  | succ k ih =>
    by_cases hlead : sameLead low high = true
    · have hlead' : sameLead s.work.ari.low s.work.ari.high = true := by rw [h.low, h.high, hlead]
      rw [renorm_of_sameLead hlead] at h ⊢
      obtain ⟨e, he, hshift⟩ := h.shift (hds.append ((hint.shift hlead).renorm k).2)
      obtain ⟨u, hrun, hu, hdec⟩ := ih (s := State.onAri (shiftIn e) s) hshift (hint.shift hlead)
      exact ⟨u, by rw [renormDec_of_sameLead hlead' he, hrun], (emitted_onAri _ _).trans hu, hdec⟩
    · have hlead' : ¬ sameLead s.work.ari.low s.work.ari.high = true := by rwa [h.low, h.high]
      rw [renorm_of_not_sameLead hlead] at h ⊢
      exact ⟨s, renormDec_of_not_sameLead hlead' k, rfl, h⟩

/-! ### The steps -/

theorem ariDecodeStep_of_found {s : State} (hv : s.work.ari.low ≤ s.work.ari.v ∧ s.work.ari.v ≤ s.work.ari.high)
    {x : CumEntry}
    (hx : ariFind s.work.ari.cum (ariIndex s.work.ari.low s.work.ari.high s.work.ari.v s.work.ari.t) = some x) :
    ariDecodeStep s = (do
      emit x.sym
      narrow x.lo x.hi
      renormDec Config.PREC : Cmd Unit) s := by
  have hin : ¬ (s.work.ari.v < s.work.ari.low ∨ s.work.ari.high < s.work.ari.v) := by omega
  simp only [ariDecodeStep, cmd_bind, cmd_get, hin, if_false, hx]

/-- A step on the digits of an entry's symbol emits the symbol and does with the interval what the coder did
(42_arithmetic.md R163, R165). -/
theorem Decoding.step {t : Nat} {cum : List CumEntry} (hcum : Ascending t cum) {low high : Nat} (hint : Interval low high)
    {x : CumEntry} (hx : x ∈ cum) (hne : narrowPoint low high t x.lo < narrowPoint low high t x.hi) {ds : List Nat}
    (hds : Stream ds) (hmem : (codeEntry t low high x).2.1 ≤ Arithmetic.frame ds ∧
      Arithmetic.frame ds ≤ (codeEntry t low high x).2.2) {s : State}
    (h : Decoding t cum low high ((codeEntry t low high x).1 ++ ds) s.work.ari) (hdst : s.dstAnswers = [])
    (room : s.dstLen.toNat ≠ s.caps.dstCap.val) :
    ∃ u, ariDecodeStep s = .ok () u ∧ Emitted [x.sym] s u ∧
      Decoding t cum (codeEntry t low high x).2.1 (codeEntry t low high x).2.2 ds u.work.ari := by
  obtain ⟨hint', hlow, hhigh⟩ := hint.narrow (hcum.bounds x hx) hne
  have hv := frame_mem_of_renorm hint' hds Config.PREC hmem
  rw [← codeEntry, ← h.frame] at hv
  have ht : 0 < t := by
    have := hcum.bounds x hx
    omega
  have hfind : ariFind cum (ariIndex low high s.work.ari.v t) = some x := by
    have hlow_v : low ≤ s.work.ari.v := hlow.trans hv.1
    exact ariFind_eq_some hcum hx ((narrowPoint_le_iff hlow_v high x.lo ht).mp hv.1)
      ((lt_narrowPoint_iff hlow_v high x.hi ht).mp (by omega))
  rw [ariDecodeStep_of_found (x := x) (by rw [h.low, h.high]; omega)
    (by rw [h.table, h.low, h.high, h.total, hfind]), cmd_bind_ok (emit_quiet hdst room x.sym)]
  obtain ⟨u, hnarrow, hu, hdec⟩ := Decoding.narrow (s := appendByte x.sym s) h hne
  obtain ⟨w, hrenorm, hw, hdec'⟩ := Decoding.renorm Config.PREC hdec hint' hds
  exact ⟨w, by rw [cmd_bind_ok hnarrow, hrenorm], (emitted_appendBytes [x.sym] s).trans (hu.trans hw), hdec'⟩

/-- The loop on the digits of a symbol sequence emits the sequence (42_arithmetic.md R164, R167). -/
theorem Decoding.loop {t : Nat} {cum : List CumEntry} (hcum : Ascending t cum) {syms : Bytes} (hsyms : HasEntries cum syms)
    {low high : Nat} (hint : Interval low high) {p : Nat × Nat} (hp : (ariCode t cum syms low high).2 = some p) {s : State}
    (h : Decoding t cum low high (codedDigits t cum syms low high p) s.work.ari) (hdst : s.dstAnswers = [])
    (room : s.dstLen.toNat + syms.length ≤ s.caps.dstCap.val) :
    ∃ u, ariDecodeLoop syms.length s = .ok () u ∧ Emitted syms s u := by
  induction syms generalizing low high s with
  | nil => exact ⟨s, rfl, rfl⟩
  | cons c syms ih =>
    obtain ⟨⟨x, hfind⟩, hsyms⟩ := List.forall_mem_cons.mp hsyms
    obtain ⟨hx, hsym⟩ := mem_and_sym_of_find? hfind
    obtain ⟨hne, hrest, hdigits⟩ := ariCode_cons_eq_some hfind hp
    obtain ⟨hint', -, -⟩ := hint.narrow (hcum.bounds x hx) hne
    obtain ⟨hafter, -⟩ := hint'.renorm Config.PREC
    obtain ⟨hds, hmem⟩ := frame_codedDigits_mem hcum hsyms hafter hrest
    rw [codedDigits, hdigits, List.append_assoc] at h
    rw [List.length_cons] at room
    obtain ⟨u, hstep, hu, hdec⟩ := Decoding.step hcum hint hx hne hds hmem h hdst (by omega)
    obtain ⟨w, hloop, hw⟩ := ih hsyms hafter hrest hdec ((dstAnswers_of_emitted hu).trans hdst)
      (room_left_of_emitted hu (by rw [List.length_singleton]; omega))
    exact ⟨w, (cmd_bind_ok hstep).trans hloop, hsym ▸ hu.trans hw⟩

/-! ### The command -/

/-- The table of a text as the lines `ARI.ENC` writes (42_arithmetic.md R158). -/
def boundLines (cum : List CumEntry) : List (Byte × Bytes) := cum.map fun x => (x.sym, dec x.lo)

theorem boundText_ariBounds (text : Bytes) :
    boundText (ariBounds text) = tableText (boundLines (cumTable (countSyms (norm text)))) := by
  simp [boundText, ariBounds, tableText, boundLines, List.flatMap_map]

theorem map_parsedBound_boundLines (cum : List CumEntry) : (boundLines cum).map parsedBound = cum.map withoutHigh := by
  rw [boundLines, List.map_map]
  refine List.map_congr_left fun x _ => ?_
  rw [Function.comp_apply, parsedBound, numVal_dec, withoutHigh]

/-- The decoder rebuilds the table of a text from the lines written (42_arithmetic.md R160). -/
theorem setHighs_boundLines (cs : Bytes) :
    setHighs cs.length ((boundLines (cumTable (countSyms cs))).map parsedBound) = cumTable (countSyms cs) := by
  rw [map_parsedBound_boundLines, setHighs_cumTable]

theorem isNumeral_of_mem_boundLines {t : Nat} {cum : List CumEntry} (h : Ascending t cum) (hmax : t ≤ Config.NUM_MAX)
    {e : Byte × Bytes} (he : e ∈ boundLines cum) : isNumeral e.2 = true := by
  obtain ⟨x, hx, rfl⟩ := List.mem_map.mp he
  have := h.bounds x hx
  exact isNumeral_dec (by omega)

theorem pairwise_parsedBound_boundLines {t : Nat} {cum : List CumEntry} (h : Ascending t cum) :
    ((boundLines cum).map parsedBound).Pairwise fun x y => x.lo < y.lo := by
  rw [map_parsedBound_boundLines]
  exact List.pairwise_map.mpr h.pairwise_lo

/-- `ARI.DEC` behind its total (42_arithmetic.md R164). -/
def decodeStream : Cmd Unit := do
  ariReadStream
  ariInterval
  let s ← get
  ariDecodeLoop s.work.ari.t

/-- Reading a good stream sets up the decoder: the interval [0, `TOP`] and all the digits still to come
(42_arithmetic.md R161). -/
theorem decodeStream_eq {s : State} {tail : Bytes} {ds : List Nat} (hsrc : s.srcAnswers = [])
    (hdrop : (input s).drop s.work.sc = bcdText ds ++ tail) (htail : tail = [] ∨ tail.head? = some LF) (hds : Stream ds) :
    ∃ u, decodeStream s = ariDecodeLoop s.work.ari.t u ∧ Emitted [] s u ∧
      Decoding s.work.ari.t s.work.ari.cum 0 Config.TOP ds u.work.ari := by
  refine ⟨State.onAri (setInterval 0 Config.TOP) (State.onAri (loadFrame ds) s), ?_, rfl, rfl, rfl, rfl, rfl, rfl, rfl⟩
  rw [decodeStream, cmd_bind_ok (ariReadStream_eq hsrc hds hdrop htail)]
  rfl

/-- Parsing a good table and total recovers both, the high bounds set (42_arithmetic.md R159, R160). -/
theorem ariDecRule_eq_decodeStream {s : State} {table : List (Byte × Bytes)} {num more : Bytes} (hsrc : s.srcAnswers = [])
    (hinput : input s = tableText table ++ delimLine ++ (num ++ LF :: more)) (hlen : table.length ≤ 256)
    (hgood : ∀ e ∈ table, isNumeral e.2 = true) (hasc : (table.map parsedBound).Pairwise fun x y => x.lo < y.lo)
    (hnum : isNumeral num = true) :
    ∃ u, ariDecRule s = decodeStream u ∧ Emitted [] s u ∧ u.srcAnswers = [] ∧ (input u).drop u.work.sc = more ∧
      u.work.ari.t = numVal num ∧ u.work.ari.cum = setHighs (numVal num) (table.map parsedBound) := by
  let s₀ := State.onAri (fun h => { h with cum := [] }) (State.setSc 0 s)
  let s₁ := State.setSc (0 + (tableText table ++ delimLine).length) (State.onAri (addBounds table) s₀)
  have hfuel : table.length < s.srcLen.toNat + 1 := by
    have := length_le_length_tableText table
    rw [← input_length, hinput]
    simp only [List.length_append]
    omega
  have htable : ariParseTable (s.srcLen.toNat + 1) s₀ = .ok () s₁ :=
    ariParseTable_eq hsrc hgood (by simpa [s₀] using hlen) hasc hfuel hinput
  have hsc : s₁.work.sc = (tableText table ++ delimLine).length := Nat.zero_add _
  have hdrop : (input s₁).drop s₁.work.sc = num ++ LF :: more := hsc ▸ hinput ▸ List.drop_left
  have hs₁ : Emitted [] s s₁ := rfl
  have hsrc₁ : s₁.srcAnswers = [] := hsrc
  have hcum : s₁.work.ari.cum = table.map parsedBound := rfl
  clear_value s₁
  refine ⟨State.setSc (s₁.work.sc + num.length + 1) (State.onAri (setTotal (numVal num)) s₁), ?_, hs₁.trans rfl, hsrc₁, ?_,
    rfl, by rw [← hcum]; rfl⟩
  · rw [ariDecRule, cmd_bind_ok (cmd_modify _ s)]
    refine (cmd_bind_ok htable).trans ?_
    exact cmd_bind_ok (ariParseTotal_eq hsrc₁ hnum hdrop)
  · have hbehind : (num ++ LF :: more).drop (num.length + 1) = more := by rw [← List.drop_drop, List.drop_left]; rfl
    rw [← hdrop, List.drop_drop] at hbehind
    exact hbehind

/-- The rule of `ARI.DEC` on the artifact of a text whose coding does not collapse (42_arithmetic.md R164, R167). -/
theorem ariDecRule_eq {s : State} {text : Bytes} {p : Nat × Nat} {ds : List Nat} (hsrc : s.srcAnswers = [])
    (hdst : s.dstAnswers = []) (hp : (ariRun text).2 = some p)
    (hds : codedDigits (norm text).length (cumTable (countSyms (norm text))) (norm text) 0 Config.TOP p = ds)
    (hinput : input s = ariText (ariBounds text) (norm text).length ds) (hmax : (norm text).length ≤ Config.NUM_MAX)
    (room : s.dstLen.toNat + (norm text).length ≤ s.caps.dstCap.val) :
    ∃ t, ariDecRule s = .ok () t ∧ Emitted (norm text) s t := by
  have hcum := ascending_cumTable (norm text)
  have hentries := hasEntries_cumTable (norm text)
  have hint : Interval 0 Config.TOP := ⟨Nat.zero_le _, le_refl _⟩
  obtain ⟨hstream, -⟩ := frame_codedDigits_mem hcum hentries hint hp
  rw [hds] at hstream
  have hlines : input s = tableText (boundLines (cumTable (countSyms (norm text)))) ++ delimLine ++
      (dec (norm text).length ++ LF :: (bcdText ds ++ [LF])) := by
    simp [hinput, ariText, boundText_ariBounds]
  obtain ⟨u, hparse, hu, husrc, hdrop, ht, htable⟩ := ariDecRule_eq_decodeStream hsrc hlines
    ((List.length_map ..).trans_le (length_cumTable_le _)) (fun _ => isNumeral_of_mem_boundLines hcum hmax)
    (pairwise_parsedBound_boundLines hcum) (isNumeral_dec hmax)
  obtain ⟨w, hread, hw, hdec⟩ := decodeStream_eq husrc hdrop (.inr rfl) hstream
  rw [numVal_dec] at ht htable
  rw [ht] at hread
  rw [ht, htable, setHighs_boundLines, ← hds] at hdec
  have huw : Emitted [] s w := hu.trans hw
  obtain ⟨t, hloop, hwt⟩ := hdec.loop hcum hentries hint hp ((dstAnswers_of_emitted huw).trans hdst)
    (room_left_of_emitted huw (by simpa using room))
  exact ⟨t, hparse.trans (hread.trans hloop), huw.trans hwt⟩

/-- `ARI.DEC` on the artifact of a text completes with that text's `Norm`, where coding the text does not collapse
(42_arithmetic.md R167). -/
theorem ariDec_artifact_endsOk {s : State} {text : Bytes} {ds : List Nat} (hs : Ready s) (hds : ariDigits text = some ds)
    (hinput : input s = ariText (ariBounds text) (norm text).length ds) (hmax : (norm text).length ≤ Config.NUM_MAX)
    (room : (norm text).length ≤ s.caps.dstCap.val) :
    ∃ t, exec .ariDec s = .next t ∧ EndsOk .ariDec s t (norm text) := by
  obtain ⟨⟨hsrc, hdst⟩, hcap⟩ := hs
  obtain ⟨p, hp, hds⟩ := Option.map_eq_some_iff.mp hds
  obtain ⟨t, hrun, ht⟩ := ariDecRule_eq (s := startCommand (encode .ariDec) s) hsrc hdst hp hds hinput hmax
    (by simpa using room)
  exact ⟨_, rfl, endsOk_of_emitted hcap room hrun ht⟩

end Sys2Proof.Arithmetic
end

section
/-! `ARI.ENC` (42_arithmetic.md R150 to R158), stated of every run that goes on to its end: what has been emitted and what
the working state then holds, pass by pass. Where the command completes, coding the text did not collapse and the output is the
artifact. -/

namespace Sys2Proof.Arithmetic

open Sys2Proof Sys2Proof.Machine Sys2Proof.Safety Sys2Proof.Artifact Sys2Proof.Huffman

/-! ### What has been written -/

/-- `s` is `s₀` with `bs` emitted, for which there was room, and `h` as engine ARI's working state. -/
structure Wrote (s₀ : State) (bs : Bytes) (h : AriWork) (s : State) : Prop where
  state : s = State.onAri (fun _ => h) (appendBytes bs s₀)
  room : s₀.dstLen.toNat + bs.length ≤ s₀.caps.dstCap.val

/-- `Triple` for runs that go on to their end. -/
abbrev IfEnds {α : Type} (P : State → Prop) (m : Cmd α) (Q : α → State → Prop) : Prop := Triple P m Q fun _ _ => True

theorem IfEnds.of_ok {α : Type} {P : State → Prop} {m : Cmd α} {Q : α → State → Prop}
    (h : ∀ s a t, P s → m s = .ok a t → Q a t) : IfEnds P m Q := fun s hs => ⟨fun a t => h s a t hs, fun _ _ _ => trivial⟩

theorem IfEnds.post {α : Type} {P : State → Prop} {m : Cmd α} {Q Q' : α → State → Prop} (h : IfEnds P m Q)
    (hQ : ∀ a s, Q a s → Q' a s) : IfEnds P m Q' := h.consequence (fun _ hs => hs) hQ fun _ _ he => he

theorem appendBytes_onAri (bs : Bytes) (f : AriWork → AriWork) (s : State) :
    appendBytes bs (State.onAri f s) = State.onAri f (appendBytes bs s) := by
  induction bs generalizing s with
  | nil => rfl
  | cons b bs ih => exact ih (appendByte b s)

theorem wrote_self {s : State} (hle : s.dstLen.toNat ≤ s.caps.dstCap.val) : Wrote s [] s.work.ari s := ⟨rfl, hle⟩

theorem Wrote.emitted {s₀ s : State} {bs : Bytes} {h : AriWork} (hw : Wrote s₀ bs h s) : Emitted bs s₀ s := by
  rw [hw.state]
  exact rfl

theorem Wrote.ari_eq {s₀ s : State} {bs : Bytes} {h : AriWork} (hw : Wrote s₀ bs h s) : s.work.ari = h := by
  rw [hw.state]
  rfl

section
variable {s₀ : State} {bs : Bytes} {h : AriWork}

/-! ### One rule for each statement -/

theorem ifEnds_modify (f : AriWork → AriWork) :
    IfEnds (Wrote s₀ bs h) (modify (State.onAri f)) fun _ => Wrote s₀ bs (f h) :=
  Triple.modify fun s hs => ⟨by rw [hs.state]; rfl, hs.room⟩

theorem ifEnds_get {β : Type} {f : State → Cmd β} {Q : β → State → Prop}
    (hf : ∀ s, s.work.ari = h → IfEnds (Wrote s₀ bs h) (f s) Q) :
    IfEnds (Wrote s₀ bs h) (do let s ← get; f s) Q :=
  Triple.get_bind fun s hs t ht => hf s hs.ari_eq t (ht ▸ hs)

theorem emitStr_eq_ok {s t : State} (hdst : s.dstAnswers = []) (hle : s.dstLen.toNat ≤ s.caps.dstCap.val)
    (hrun : emitStr bs s = .ok () t) :
    t = appendBytes bs s ∧ s.dstLen.toNat + bs.length ≤ s.caps.dstCap.val := by
  by_cases room : s.dstLen.toNat + bs.length ≤ s.caps.dstCap.val
  · rw [emitStr_quiet hdst room] at hrun
    cases hrun
    exact ⟨rfl, room⟩
  · rw [emitStr_overflow hdst hle (by omega)] at hrun
    cases hrun

theorem ifEnds_emitStr (hdst : s₀.dstAnswers = []) (more : Bytes) :
    IfEnds (Wrote s₀ bs h) (emitStr more) fun _ => Wrote s₀ (bs ++ more) h := by
  refine IfEnds.of_ok fun s _ t ⟨hs, room⟩ hrun => ?_
  obtain ⟨-, hlen, -⟩ := appendBytes_spec room
  subst hs
  obtain ⟨rfl, hroom⟩ := emitStr_eq_ok (s := State.onAri (fun _ => h) (appendBytes bs s₀))
    (by simpa using hdst) (by simpa [hlen] using room) hrun
  simp only [State.onAri_dstLen, State.onAri_caps, appendBytes_caps, hlen] at hroom
  refine ⟨?_, by rw [List.length_append]; omega⟩
  rw [appendBytes_append, appendBytes_onAri]

theorem ifEnds_emit (hdst : s₀.dstAnswers = []) (b : Byte) :
    IfEnds (Wrote s₀ bs h) (emit b) fun _ => Wrote s₀ (bs ++ [b]) h :=
  emitStr_singleton b ▸ ifEnds_emitStr hdst [b]

theorem ifEnds_normSym {β : Type} (hsrc : s₀.srcAnswers = []) (i : Nat) {f : Byte → Cmd β} {Q : β → State → Prop}
    (hf : IfEnds (Wrote s₀ bs h) (f (symbolAt s₀ i)) Q) : IfEnds (Wrote s₀ bs h) (do let c ← normSym i; f c) Q := by
  intro s hs
  have hread : normSym i s = .ok (symbolAt s₀ i) s := by
    rw [hs.state, normSym_eq (by simpa using hsrc) i]
    exact congrArg (EStateM.Result.ok · _) (symbolAt_appendBytes bs s₀ i)
  rw [cmd_bind_ok hread]
  exact hf s hs

/-- A loop whose passes emit a string each emits the strings in order. -/
theorem ifEnds_forEach_emit {α : Type} {xs : List α} {body : α → Cmd Unit} {g : α → Bytes}
    (hbody : ∀ x bs, IfEnds (Wrote s₀ bs h) (body x) fun _ => Wrote s₀ (bs ++ g x) h) :
    IfEnds (Wrote s₀ bs h) (forEach xs body) fun _ => Wrote s₀ (bs ++ xs.flatMap g) h := by
  have hloop := Triple.forEach (xs := xs) (E := fun _ _ => True) (fun done => Wrote s₀ (bs ++ done.flatMap g) h)
    fun done x rest _ => by
      simpa only [List.flatMap_append, List.flatMap_singleton, List.append_assoc] using hbody x (bs ++ done.flatMap g)
  simpa only [List.flatMap_nil, List.append_nil] using hloop

/-! ### Counting -/

/-- `FREQ` with one more of each of the symbols `cs`. -/
def addSymbols (cs : Bytes) (h : AriWork) : AriWork := { h with freq := cs.foldl bumpCell h.freq }

theorem addSymbols_append (xs ys : Bytes) (h : AriWork) : addSymbols (xs ++ ys) h = addSymbols ys (addSymbols xs h) := by
  simp [addSymbols]

theorem ifEnds_ariCount (hsrc : s₀.srcAnswers = []) :
    IfEnds (Wrote s₀ bs h) (ariCount (norm (input s₀)).length) fun _ =>
      Wrote s₀ bs { addSymbols (norm (input s₀)) h with t := (norm (input s₀)).length } := by
  have hloop := Triple.forEach (xs := List.range' 0 (norm (input s₀)).length) (E := fun _ _ => True)
    (body := fun i => do
      let c ← normSym i
      modify (State.onAri fun h => { h with freq := bumpCell h.freq c }))
    (fun done => Wrote s₀ bs (addSymbols (done.map (symbolAt s₀)) h)) fun done i rest _ => by
      rw [List.map_append, List.map_singleton, addSymbols_append]
      exact ifEnds_normSym hsrc i (ifEnds_modify _)
  rw [← List.range_eq_range', map_symbolAt_norm] at hloop
  rw [ariCount, forRange_eq_forEach, ← List.range_eq_range']
  exact hloop.bind fun _ => ifEnds_modify _

/-! ### Coding -/

theorem renormEnc_succ (k : Nat) : renormEnc (k + 1) = (do
    let s ← get
    let h := s.work.ari
    if sameLead h.low h.high then do
      emitStr (bin (h.low / Config.D17) Config.BCD_W)
      modify (State.onAri (fun h => { h with low := shiftLow h.low, high := shiftHigh h.high }))
      renormEnc k) := rfl

theorem ifEnds_renormEnc (hdst : s₀.dstAnswers = []) (k : Nat) :
    IfEnds (Wrote s₀ bs h) (renormEnc k) fun _ => Wrote s₀ (bs ++ bcdText (renorm k h.low h.high).1)
      (setInterval (renorm k h.low h.high).2.1 (renorm k h.low h.high).2.2 h) := by
  induction k generalizing bs h with
  | zero => exact Triple.pure fun s hs => by simpa [renorm, setInterval] using hs
  | succ k ih =>
    rw [renormEnc_succ]
    refine ifEnds_get fun s hs => ?_
    subst hs
    by_cases hlead : sameLead s.work.ari.low s.work.ari.high = true
    · rw [renorm_of_sameLead hlead, bcdText_cons, ← List.append_assoc]
      simp only [hlead, if_true]
      exact (ifEnds_emitStr hdst _).bind fun _ => (ifEnds_modify _).bind fun _ => ih
    · rw [renorm_of_not_sameLead hlead, bcdText_nil, List.append_nil]
      simp only [hlead]
      exact Triple.pure fun _ ht => ht

theorem ifEnds_narrow (clo chi : Nat) :
    IfEnds (Wrote s₀ bs h) (narrow clo chi) fun _ s =>
      narrowPoint h.low h.high h.t clo < narrowPoint h.low h.high h.t chi ∧
        Wrote s₀ bs (setInterval (narrowPoint h.low h.high h.t clo) (narrowPoint h.low h.high h.t chi - 1) h) s := by
  refine IfEnds.of_ok fun s _ t hs hrun => ?_
  rw [narrow_eq, hs.ari_eq] at hrun
  split at hrun
  · cases hrun
  · cases hrun
    exact ⟨Nat.lt_of_not_le ‹_›, by rw [hs.state]; rfl, hs.room⟩

/-- Coding one symbol (42_arithmetic.md R158). -/
theorem ifEnds_ariEncSymbol (hdst : s₀.dstAnswers = []) {c : Byte} {x : CumEntry}
    (hx : h.cum.find? (fun x => x.sym == c) = some x) :
    IfEnds (Wrote s₀ bs h) (ariEncSymbol c) fun _ s =>
      narrowPoint h.low h.high h.t x.lo < narrowPoint h.low h.high h.t x.hi ∧
        Wrote s₀ (bs ++ bcdText (codeEntry h.t h.low h.high x).1)
          (setInterval (codeEntry h.t h.low h.high x).2.1 (codeEntry h.t h.low h.high x).2.2 h) s := by
  refine ifEnds_get fun s hs => ?_
  simp only [hs, hx]
  exact (ifEnds_narrow x.lo x.hi).bind fun _ s ⟨hne, hs⟩ =>
    (ifEnds_renormEnc hdst Config.PREC).post (fun _ _ hw => ⟨hne, hw⟩) s hs

/-- Coding symbols ends only where no narrowing collapses, with the digits of `ariCode` emitted and its interval set
(42_arithmetic.md R158). -/
theorem ifEnds_forEach_ariEncSymbol (hsrc : s₀.srcAnswers = []) (hdst : s₀.dstAnswers = []) {is : List Nat}
    (hsyms : HasEntries h.cum (is.map (symbolAt s₀))) :
    IfEnds (Wrote s₀ bs h) (forEach is fun i => do
      let c ← normSym i
      ariEncSymbol c) fun _ s => ∃ p, (ariCode h.t h.cum (is.map (symbolAt s₀)) h.low h.high).2 = some p ∧
        Wrote s₀ (bs ++ bcdText (ariCode h.t h.cum (is.map (symbolAt s₀)) h.low h.high).1) (setInterval p.1 p.2 h) s := by
  induction is generalizing bs h with
  | nil => exact Triple.pure fun s hs => ⟨_, rfl, by simpa [ariCode, setInterval] using hs⟩
  | cons i is ih =>
    obtain ⟨⟨x, hfind⟩, hsyms⟩ := List.forall_mem_cons.mp hsyms
    have hfirst : IfEnds (Wrote s₀ bs h) (do let c ← normSym i; ariEncSymbol c) _ :=
      ifEnds_normSym hsrc i (ifEnds_ariEncSymbol hdst hfind)
    refine hfirst.bind fun _ s hs => ?_
    obtain ⟨hne, hs⟩ := hs
    rw [List.map_cons, ariCode_cons hfind, if_neg (Nat.not_le_of_lt hne)]
    simp only [bcdText_append, ← List.append_assoc]
    exact ih (h := setInterval (codeEntry h.t h.low h.high x).2.1 (codeEntry h.t h.low h.high x).2.2 h) hsyms s hs

/-! ### Header and termination -/

theorem ifEnds_ariEmitBound (hdst : s₀.dstAnswers = []) (x : CumEntry) :
    IfEnds (Wrote s₀ bs h) (ariEmitBound x) fun _ => Wrote s₀ (bs ++ x.sym :: (dec x.lo ++ [LF])) h := by
  have hline : bs ++ x.sym :: (dec x.lo ++ [LF]) = bs ++ [x.sym] ++ dec x.lo ++ [LF] := by simp
  rw [hline]
  exact (ifEnds_emit hdst _).bind fun _ => (ifEnds_emitStr hdst _).bind fun _ => ifEnds_emit hdst LF

/-- The code of each digit character is the code of its digit (30_encoding.md R81). -/
theorem flatMap_bin_digitOf {ds : List Nat} (h : ∀ d ∈ ds, d ≤ 9) :
    (ds.map digitChar).flatMap (fun ch => bin (digitOf ch) Config.BCD_W) = bcdText ds := by
  rw [List.flatMap_map]
  exact List.flatMap_congr fun d hd => by rw [digitOf_digitChar (h d hd)]

theorem ifEnds_ariTerminate (hdst : s₀.dstAnswers = []) :
    IfEnds (Wrote s₀ bs h) ariTerminate fun _ =>
      Wrote s₀ (bs ++ bcdText (spell 10 Config.PREC (h.low + (h.high - h.low) / 2))) h := by
  refine ifEnds_get fun s hs => ?_
  rw [← flatMap_bin_digitOf fun _ => le_nine_of_mem_spell, ← dec18, hs]
  exact ifEnds_forEach_emit fun ch bs => ifEnds_emitStr hdst _

end

/-! ### The command -/

/-- The digit stream's line: the coding loop over the `n` symbols, termination, and the last `LF` (42_arithmetic.md R158). -/
def emitDigits (n : Nat) : Cmd Unit := do
  ariInterval
  forRange 0 n fun i => do
    let c ← normSym i
    ariEncSymbol c
  ariTerminate
  emit LF

theorem ifEnds_emitDigits {s₀ : State} {bs : Bytes} {h : AriWork} (hsrc : s₀.srcAnswers = []) (hdst : s₀.dstAnswers = [])
    (ht : h.t = (norm (input s₀)).length) (hcum : h.cum = cumTable (countSyms (norm (input s₀)))) :
    IfEnds (Wrote s₀ bs h) (emitDigits (norm (input s₀)).length) fun _ s =>
      ∃ ds h', ariDigits (input s₀) = some ds ∧ Wrote s₀ (bs ++ bcdText ds ++ [LF]) h' s := by
  have hcode := ifEnds_forEach_ariEncSymbol (s₀ := s₀) (bs := bs) (h := setInterval 0 Config.TOP h)
    (is := List.range (norm (input s₀)).length) hsrc hdst (by
      rw [map_symbolAt_norm]
      exact hcum ▸ hasEntries_cumTable _)
  have hrun : ariCode (setInterval 0 Config.TOP h).t (setInterval 0 Config.TOP h).cum (norm (input s₀))
      (setInterval 0 Config.TOP h).low (setInterval 0 Config.TOP h).high = ariRun (input s₀) := by
    rw [ariRun, ← ht, ← hcum]
    rfl
  rw [map_symbolAt_norm, hrun] at hcode
  rw [emitDigits, forRange_eq_forEach, ← List.range_eq_range']
  refine (ifEnds_modify (setInterval 0 Config.TOP)).bind fun _ => hcode.bind fun _ s hs => ?_
  obtain ⟨p, hp, hs⟩ := hs
  have hlast := (ifEnds_ariTerminate (s₀ := s₀) (bs := bs ++ bcdText (ariRun (input s₀)).1)
    (h := setInterval p.1 p.2 (setInterval 0 Config.TOP h)) hdst).bind fun _ => ifEnds_emit hdst LF
  refine IfEnds.post hlast (fun _ u hu => ?_) s hs
  rw [List.append_assoc bs, ← bcdText_append] at hu
  exact ⟨_, _, by rw [ariDigits, hp]; rfl, hu⟩

/-- `ARI.ENC` behind its table (42_arithmetic.md R158). -/
def emitArtifact (n : Nat) : Cmd Unit := do
  let s ← get
  forEach s.work.ari.cum ariEmitBound
  emitStr delimLine
  emitStr (dec s.work.ari.t)
  emit LF
  emitDigits n

theorem ariEncRule_eq : ariEncRule = (do
    let n ← normLen
    ariCount n
    modify (State.onAri fun h => { h with cum := cumTable h.freq })
    emitArtifact n) := rfl

theorem ifEnds_emitArtifact {s₀ : State} {h : AriWork} (hsrc : s₀.srcAnswers = []) (hdst : s₀.dstAnswers = [])
    (ht : h.t = (norm (input s₀)).length) (hcum : h.cum = cumTable (countSyms (norm (input s₀)))) :
    IfEnds (Wrote s₀ [] h) (emitArtifact (norm (input s₀)).length) fun _ s =>
      ∃ ds h', ariDigits (input s₀) = some ds ∧
        Wrote s₀ (ariText (ariBounds (input s₀)) (norm (input s₀)).length ds) h' s := by
  have hbounds : boundText (ariBounds (input s₀)) = h.cum.flatMap fun x => x.sym :: (dec x.lo ++ [LF]) := by
    rw [boundText, ariBounds, List.flatMap_map, hcum]
  refine ifEnds_get fun s hs => ?_
  rw [hs]
  simp only [ariText, hbounds, ← ht]
  exact (ifEnds_forEach_emit fun x bs => ifEnds_ariEmitBound hdst x).bind fun _ => (ifEnds_emitStr hdst _).bind fun _ =>
    (ifEnds_emitStr hdst _).bind fun _ => (ifEnds_emit hdst _).bind fun _ => ht ▸ ifEnds_emitDigits hsrc hdst ht hcum

theorem ifEnds_ariEncRule {s₀ : State} (hsrc : s₀.srcAnswers = []) (hdst : s₀.dstAnswers = [])
    (hwork : s₀.work = Work.clear) :
    IfEnds (Wrote s₀ [] s₀.work.ari) ariEncRule fun _ s =>
      ∃ ds h', ariDigits (input s₀) = some ds ∧
        Wrote s₀ (ariText (ariBounds (input s₀)) (norm (input s₀)).length ds) h' s := by
  rw [ariEncRule_eq]
  intro s hs
  have hlen : normLen s = .ok (norm (input s₀)).length s := by
    rw [hs.state]
    exact normLen_eq hsrc
  rw [cmd_bind_ok hlen]
  refine (ifEnds_ariCount hsrc).bind (fun _ => (ifEnds_modify _).bind fun _ => ifEnds_emitArtifact hsrc hdst rfl ?_) s hs
  rw [hwork]
  rfl

/-- A command that completed ran its rule to the end. -/
theorem ok_of_endCommand_status_ok {r : EStateM.Result Stop State Unit} (h : (endCommand r).status = statusOk) :
    ∃ u, r = .ok () u := by
  match r with
  | .ok _ u => exact ⟨u, rfl⟩
  | .error (.fault c) u => cases congrArg Status.state h
  | .error .reset u => cases congrArg Status.state h

/-- The symbols of an input that SRC can hold are few enough for their number to be a numeral (00_scope.md R5). -/
theorem length_norm_le {s : State} (hs : Ready s) : (norm (input s)).length ≤ Config.NUM_MAX := by
  obtain ⟨-, hcap⟩ := hs
  have hmax := s.caps.srcCap.isLt
  have hle : (norm (input s)).length ≤ (input s).length + 1 := by
    rw [norm_eq_ite]
    split
    · exact Nat.le_succ _
    · exact (List.length_append ..).le
  rw [input_length] at hle
  simp only [Config.NUM_MAX]
  omega

/-- Where `ARI.ENC` completes, coding its input does not collapse and its output is the artifact
(42_arithmetic.md R155, R158). -/
theorem ariEnc_of_status_ok {s t : State} (hs : Ready s) (hrun : exec .ariEnc s = .next t) (hok : t.status = statusOk) :
    ∃ ds, ariDigits (input s) = some ds ∧ output t = ariText (ariBounds (input s)) (norm (input s)).length ds := by
  obtain ⟨⟨hsrc, hdst⟩, hcap⟩ := hs
  cases hrun
  rw [runCommand_checked (legalWord_encode .ariEnc) hcap] at hok
  obtain ⟨u, hu⟩ := ok_of_endCommand_status_ok hok
  obtain ⟨ds, h, hds, hw⟩ := (ifEnds_ariEncRule (s₀ := startCommand (encode .ariEnc) s) hsrc hdst rfl _
    (wrote_self (Nat.zero_le _))).1 () u hu
  have hroom := hw.room
  rw [show (startCommand (encode .ariEnc) s).dstLen.toNat = 0 from rfl, Nat.zero_add] at hroom
  obtain ⟨-, -, hout, -⟩ := endsOk_of_emitted hcap hroom hu hw.emitted
  exact ⟨ds, hds, hout⟩

/-- Settles O51: where `ARI.ENC` completes its output is the artifact, and `ARI.DEC` on the artifact gives `Norm(S)`. -/
theorem arithmeticRoundTrip : Obligations.ArithmeticRoundTrip := by
  unfold Obligations.ArithmeticRoundTrip
  intro s t s' hs hrun hok hs' hinput room
  obtain ⟨ds, hds, hout⟩ := ariEnc_of_status_ok hs hrun hok
  exact ariDec_artifact_endsOk hs' hds (hinput.trans hout) (length_norm_le hs) room

end Sys2Proof.Arithmetic
end

section
/-! The sorted rotations of a block (43_bwt.md R191 to R193): the order of 43_bwt.md R192 as a linear order, the offsets
sorted by it, and the row of the rotation the key index names. -/

namespace Sys2Proof.Bwt

open Sys2Proof Sys2Proof.Machine

/-! ### The order -/

/-- A byte string as unsigned numbers, whose lexicographic order is the order of 43_bwt.md R192. -/
def codes (w : Bytes) : List Nat := w.map BitVec.toNat

@[simp] theorem codes_cons (c : Byte) (w : Bytes) : codes (c :: w) = c.toNat :: codes w := rfl

theorem codes_injective : Function.Injective codes := List.map_injective_iff.mpr fun _ _ => BitVec.eq_of_toNat_eq

theorem compareBytes_iff (a b : Bytes) :
    (compareBytes a b = .lt ↔ codes a < codes b) ∧ (compareBytes a b = .eq ↔ codes a = codes b) := by
  induction a generalizing b with
  | nil => cases b <;> simp [compareBytes, codes]
  | cons p a ih =>
    cases b with
    | nil => simp [compareBytes, codes]
    | cons q b =>
      rw [compareBytes, codes_cons, codes_cons, List.cons_lt_cons_iff, List.cons.injEq]
      obtain hpq | hpq | hqp := lt_trichotomy p.toNat q.toNat
      · simp [hpq, hpq.ne]
      · simp [hpq, ih]
      · simp [hqp, hqp.asymm, hqp.ne']

/-- What the sorter compares of an offset: its rotation, then the offset itself (43_bwt.md R192). -/
def sortKey (x : Bytes) (j : Nat) : List Nat ×ₗ Nat := toLex (codes (rotation x j), j)

theorem rotBefore_iff (x : Bytes) (i j : Nat) : rotBefore x i j = true ↔ sortKey x i < sortKey x j := by
  obtain ⟨hlt, heq⟩ := compareBytes_iff (rotation x i) (rotation x j)
  rw [rotBefore, sortKey, sortKey, Prod.Lex.toLex_lt_toLex, ← hlt, ← heq]
  cases compareBytes (rotation x i) (rotation x j) <;> simp

theorem rotBefore_eq_false_iff (x : Bytes) (i j : Nat) : rotBefore x j i = false ↔ sortKey x i ≤ sortKey x j := by
  rw [← not_lt, ← rotBefore_iff, Bool.not_eq_true]

/-! ### The sorted offsets -/

theorem sortRotations_perm (x : Bytes) : (sortRotations x).Perm (List.range x.length) := List.perm_insertionSort _ _

@[simp] theorem length_sortRotations (x : Bytes) : (sortRotations x).length = x.length := by
  simpa using (sortRotations_perm x).length_eq

theorem mem_sortRotations {x : Bytes} {j : Nat} : j ∈ sortRotations x ↔ j < x.length :=
  (sortRotations_perm x).mem_iff.trans List.mem_range

theorem pairwise_sortRotations (x : Bytes) :
    (sortRotations x).Pairwise fun i j => codes (rotation x i) ≤ codes (rotation x j) := by
  have htotal : Std.Total fun i j => rotBefore x j i = false :=
    ⟨fun i j => by simpa only [rotBefore_eq_false_iff] using le_total (sortKey x i) (sortKey x j)⟩
  have htrans : IsTrans Nat fun i j => rotBefore x j i = false :=
    ⟨fun i j k => by simpa only [rotBefore_eq_false_iff] using le_trans⟩
  refine (List.pairwise_insertionSort _ _).imp fun {i j} hij => ?_
  obtain hlt | ⟨heq, -⟩ := Prod.Lex.toLex_le_toLex.mp ((rotBefore_eq_false_iff x i j).mp hij)
  · exact hlt.le
  · exact heq.le

/-! ### The rotations in sorted order -/

theorem rotation_eq_rotate {x : Bytes} {j : Nat} (h : j ≤ x.length) : rotation x j = x.rotate j :=
  (List.rotate_eq_drop_append_take h).symm

/-- The rows of the sorted matrix of rotations (43_bwt.md R192). -/
def sortedRotations (x : Bytes) : List Bytes := (sortRotations x).map x.rotate

@[simp] theorem length_sortedRotations (x : Bytes) : (sortedRotations x).length = x.length := by simp [sortedRotations]

theorem sortedRotations_perm (x : Bytes) : (sortedRotations x).Perm ((List.range x.length).map x.rotate) :=
  (sortRotations_perm x).map _

theorem length_of_mem_sortedRotations {x w : Bytes} (h : w ∈ sortedRotations x) : w.length = x.length := by
  obtain ⟨j, -, rfl⟩ := List.mem_map.mp h
  exact List.length_rotate ..

theorem pairwise_sortedRotations (x : Bytes) : (sortedRotations x).Pairwise fun v w => codes v ≤ codes w := by
  refine List.pairwise_map.mpr ((pairwise_sortRotations x).imp_of_mem fun hi hj h => ?_)
  rwa [rotation_eq_rotate (mem_sortRotations.mp hi).le, rotation_eq_rotate (mem_sortRotations.mp hj).le] at h

/-- Rotating every row of the matrix by one symbol gives the same rows in another order. -/
theorem map_rotate_one_perm (x : Bytes) :
    ((sortedRotations x).map (List.rotate · 1)).Perm (sortedRotations x) := by
  refine ((sortedRotations_perm x).map _).trans (.trans ?_ (sortedRotations_perm x).symm)
  rw [List.map_map]
  cases hx : x.length with
  | zero => rfl
  | succ m =>
    have hlast : (x.rotate m).rotate 1 = x.rotate 0 := by
      rw [List.rotate_rotate, ← hx, List.rotate_length, List.rotate_zero]
    have hturned : (List.range (m + 1)).map ((List.rotate · 1) ∘ x.rotate) =
        (List.range m).map (x.rotate ∘ Nat.succ) ++ [x.rotate 0] := by
      rw [List.range_succ, List.map_append, List.map_singleton, Function.comp_apply, hlast]
      exact congrArg (· ++ _) (List.map_congr_left fun j _ => List.rotate_rotate ..)
    rw [hturned, List.range_succ_eq_map, List.map_cons, List.map_map]
    exact List.perm_append_singleton _ _

theorem keyIndex_lt {x : Bytes} (hx : x ≠ []) : keyIndex (sortRotations x) < x.length := by
  rw [← length_sortRotations]
  exact List.idxOf_lt_length_of_mem (mem_sortRotations.mpr (List.length_pos_iff.mpr hx))

/-- The key index is a row that holds the block itself (43_bwt.md R193). -/
theorem getElem?_keyIndex {x : Bytes} (hx : x ≠ []) : (sortedRotations x)[keyIndex (sortRotations x)]? = some x := by
  have hmem : 0 ∈ sortRotations x := mem_sortRotations.mpr (List.length_pos_iff.mpr hx)
  rw [sortedRotations, List.getElem?_map, keyIndex, List.getElem?_idxOf hmem, Option.map_some, List.rotate_zero]

end Sys2Proof.Bwt
end

section
/-! The next pointers (43_bwt.md R202, R203): `NEXT` lists the row positions in the order of their symbols, equal symbols in
the order of the row. -/

namespace Sys2Proof.Bwt

open Sys2Proof Sys2Proof.Machine Sys2Proof.Artifact Sys2Proof.Huffman Sys2Proof.Arithmetic

/-! ### The C array -/

theorem cell_cArrayFrom_of_notMem (cnt : Vector Nat 256) {cs : Bytes} {c : Byte} (hc : c ∉ cs) (acc : Nat)
    (carr : Vector Nat 256) : cell (cArrayFrom cnt cs acc carr) c = cell carr c := by
  induction cs generalizing acc carr with
  | nil => rfl
  | cons d cs ih =>
    obtain ⟨hne, hcs⟩ := not_or.mp (mt List.mem_cons.mpr hc)
    rw [cArrayFrom, ih hcs, cell_setCell, if_neg (Ne.symm hne)]

theorem cell_cArrayFrom_of_mem (cnt : Vector Nat 256) {cs : Bytes} (hcs : cs.Pairwise fun d e => d.toNat < e.toNat)
    {c : Byte} (hc : c ∈ cs) (acc : Nat) (carr : Vector Nat 256) :
    cell (cArrayFrom cnt cs acc carr) c = acc + (cs.map fun d => if d.toNat < c.toNat then cell cnt d else 0).sum := by
  induction cs generalizing acc carr with
  | nil => exact absurd hc List.not_mem_nil
  | cons d cs ih =>
    obtain ⟨hd, hcs⟩ := List.pairwise_cons.mp hcs
    rw [cArrayFrom, List.map_cons, List.sum_cons]
    obtain rfl | hc := List.mem_cons.mp hc
    · have hnot : c ∉ cs := fun hmem => (hd c hmem).false
      have hzero : (cs.map fun d => if d.toNat < c.toNat then cell cnt d else 0).sum = 0 :=
        List.sum_eq_zero fun m hm => by
          obtain ⟨e, he, rfl⟩ := List.mem_map.mp hm
          exact if_neg (hd e he).asymm
      rw [cell_cArrayFrom_of_notMem cnt hnot, cell_setCell, if_pos rfl, hzero, if_neg (lt_irrefl _),
        Nat.add_zero]
    · rw [ih hcs hc, if_pos (hd c hc), Nat.add_assoc]

/-- `CARR[c]` is the number of row positions with a smaller symbol (43_bwt.md R202). -/
theorem cell_cArray (row : Bytes) (c : Byte) : cell (cArray row) c = row.countP fun d => decide (d.toNat < c.toNat) := by
  rw [cArray, cell_cArrayFrom_of_mem _ pairwise_allBytes (mem_allBytes c), Nat.zero_add, List.countP_eq_length_filter,
    ← sum_count_allBytes]
  refine congrArg List.sum (List.map_congr_left fun d _ => ?_)
  by_cases hd : d.toNat < c.toNat
  · rw [if_pos hd, cell_countSyms, List.count_filter (by simpa using hd)]
  · rw [if_neg hd, List.count_eq_zero_of_not_mem (by simp [hd])]

/-! ### The stable rank -/

/-- The place of a row position: after all smaller symbols and the earlier copies of its own (43_bwt.md R203). -/
def rank (row : Bytes) (i : Nat) : Nat :=
  row.countP (fun d => decide (d.toNat < (symAt row i).toNat)) + (row.take i).count (symAt row i)

/-- What the ranks order: a position's symbol, then the position itself. -/
def rankKey (row : Bytes) (i : Nat) : Nat ×ₗ Nat := toLex ((symAt row i).toNat, i)

theorem symAt_eq_getElem {row : Bytes} {i : Nat} (h : i < row.length) : symAt row i = row[i] := by
  simp [symAt, h]

theorem countP_lt_add_count_le (row : Bytes) (c : Byte) {p : Byte → Bool}
    (hp : ∀ d : Byte, d.toNat ≤ c.toNat → p d = true) :
    row.countP (fun d => decide (d.toNat < c.toNat)) + row.count c ≤ row.countP p := by
  induction row with
  | nil => rfl
  | cons d row ih =>
    rw [List.countP_cons, List.countP_cons, List.count_cons]
    obtain hlt | heq | hgt := lt_trichotomy d.toNat c.toNat
    · have hne : ¬ d = c := fun h => hlt.ne (congrArg _ h)
      simp [hlt, hp d hlt.le, hne]
      omega
    · simp [BitVec.eq_of_toNat_eq heq, hp c le_rfl]
      omega
    · have hne : ¬ d = c := fun h => hgt.ne' (congrArg _ h)
      simp [hgt.asymm, hne]
      omega

theorem count_take_succ {row : Bytes} {i : Nat} (hi : i < row.length) :
    (row.take (i + 1)).count (symAt row i) = (row.take i).count (symAt row i) + 1 := by
  rw [List.take_add_one, List.getElem?_eq_getElem hi, symAt_eq_getElem hi, Option.toList_some, List.count_append,
    List.count_singleton_self]

theorem count_take_lt {row : Bytes} {i j : Nat} (hi : i < row.length) (hij : i < j) :
    (row.take i).count (symAt row i) < (row.take j).count (symAt row i) := by
  have := ((List.take_prefix_take_left (l := row) hij).sublist).count_le (symAt row i)
  rw [count_take_succ hi] at this
  omega

theorem rank_lt {row : Bytes} {i : Nat} (hi : i < row.length) {p : Byte → Bool}
    (hp : ∀ d : Byte, d.toNat ≤ (symAt row i).toNat → p d = true) : rank row i < row.countP p := by
  have hcount := count_take_lt hi hi
  rw [List.take_length] at hcount
  have := countP_lt_add_count_le row (symAt row i) hp
  rw [rank]
  omega

theorem rank_lt_length {row : Bytes} {i : Nat} (hi : i < row.length) : rank row i < row.length := by
  simpa using rank_lt hi (p := fun _ => true) fun _ _ => rfl

theorem rank_lt_rank {row : Bytes} {i j : Nat} (hi : i < row.length) (h : rankKey row i < rankKey row j) :
    rank row i < rank row j := by
  obtain hlt | ⟨heq, hij⟩ := Prod.Lex.toLex_lt_toLex.mp h
  · exact (rank_lt hi fun d hd => decide_eq_true (hd.trans_lt hlt)).trans_le (Nat.le_add_right ..)
  · have hsym : symAt row i = symAt row j := BitVec.eq_of_toNat_eq heq
    rw [rank, rank, ← hsym]
    exact Nat.add_lt_add_left (count_take_lt hi hij) _

theorem rankKey_injective (row : Bytes) : Function.Injective (rankKey row) := fun _ _ h => congrArg (fun k => (ofLex k).2) h

theorem rank_injOn {row : Bytes} {i j : Nat} (hi : i < row.length) (hj : j < row.length) (h : rank row i = rank row j) :
    i = j := by
  obtain hlt | heq | hgt := lt_trichotomy (rankKey row i) (rankKey row j)
  · exact absurd h (rank_lt_rank hi hlt).ne
  · exact rankKey_injective row heq
  · exact absurd h (rank_lt_rank hj hgt).ne'

theorem rankKey_lt_of_rank_lt {row : Bytes} {i j : Nat} (hj : j < row.length) (h : rank row i < rank row j) :
    rankKey row i < rankKey row j := by
  by_contra hle
  obtain hgt | heq := (not_lt.mp hle).lt_or_eq
  · exact absurd (rank_lt_rank hj hgt) h.asymm
  · exact h.ne (congrArg (rank row) (rankKey_injective row heq.symm))

/-! ### The next pointers -/

@[simp] theorem length_nextFrom (carr : Vector Nat 256) (row : Bytes) (i : Nat) (occ : Vector Nat 256) (next : List Nat) :
    (nextFrom carr row i occ next).2.length = next.length := by
  induction row generalizing i occ next with
  | nil => rfl
  | cons c row ih => rw [nextFrom, ih, List.length_set]

@[simp] theorem length_nextPointers (row : Bytes) : (nextPointers row).2.length = row.length := by
  simp [nextPointers]

/-- The construction of `NEXT` puts every position at its rank, once the positions `done` are there. -/
theorem getElem?_rank_nextFrom {row done rest : Bytes} {next : List Nat} (hrow : row = done ++ rest)
    (hlen : next.length = row.length) (hdone : ∀ k < done.length, next[rank row k]? = some k) :
    ∀ k < row.length, (nextFrom (cArray row) rest done.length (countSyms done) next).2[rank row k]? = some k := by
  induction rest generalizing done next with
  | nil => simpa [nextFrom, hrow] using hdone
  | cons c rest ih =>
    have hpos : done.length < row.length := by simp [hrow]
    have hsym : symAt row done.length = c := by simp [symAt, hrow]
    have hrank : cell (cArray row) c + cell (countSyms done) c = rank row done.length := by
      rw [rank, hsym, cell_cArray, cell_countSyms, hrow, List.take_left]
    have hocc : bumpCell (countSyms done) c = countSyms (done ++ [c]) := by simp [countSyms]
    have hslot : rank row done.length < next.length := hlen ▸ rank_lt_length hpos
    have hlast : (done ++ [c]).length = done.length + 1 := List.length_append
    rw [nextFrom, hrank, hocc, ← hlast]
    refine ih (by simp [hrow]) (by rw [List.length_set, hlen]) fun k hk => ?_
    obtain hk | rfl : k < done.length ∨ k = done.length := by omega
    · have hne : rank row done.length ≠ rank row k := fun h => hk.ne' (rank_injOn hpos (hk.trans hpos) h)
      rw [List.getElem?_set_ne hne]
      exact hdone k hk
    · exact List.getElem?_set_self hslot

theorem getElem?_rank_nextPointers {row : Bytes} {k : Nat} (hk : k < row.length) :
    (nextPointers row).2[rank row k]? = some k :=
  getElem?_rank_nextFrom (done := []) rfl (by simp) (fun k hk => absurd hk (Nat.not_lt_zero k)) k hk

/-- `NEXT` is a permutation of the positions (43_bwt.md R203). -/
theorem nextPointers_perm (row : Bytes) : (nextPointers row).2.Perm (List.range row.length) := by
  have hsub : List.range row.length ⊆ (nextPointers row).2 := fun k hk =>
    List.mem_of_getElem? (getElem?_rank_nextPointers (List.mem_range.mp hk))
  exact ((List.nodup_range.subperm hsub).perm_of_length_le (by simp)).symm

/-- What stands at place `q` of `NEXT` is the position of rank `q`. -/
theorem rank_getElem_nextPointers {row : Bytes} {q : Nat} (hq : q < (nextPointers row).2.length) :
    rank row (nextPointers row).2[q] = q := by
  have hpos : (nextPointers row).2[q] < row.length :=
    List.mem_range.mp ((nextPointers_perm row).mem_iff.mp (List.getElem_mem hq))
  have hrank := getElem?_rank_nextPointers hpos
  have hnodup := (nextPointers_perm row).nodup_iff.mpr List.nodup_range
  obtain ⟨hlt, heq⟩ := List.getElem?_eq_some_iff.mp hrank
  exact (hnodup.getElem_inj_iff).mp heq

/-- `NEXT` lists the positions in the order of their symbols, equal symbols in the order of the row (43_bwt.md R203). -/
theorem pairwise_nextPointers (row : Bytes) : (nextPointers row).2.Pairwise fun i j => rankKey row i < rankKey row j := by
  refine List.pairwise_iff_getElem.mpr fun p q hp hq hpq => rankKey_lt_of_rank_lt ?_ ?_
  · exact List.mem_range.mp ((nextPointers_perm row).mem_iff.mp (List.getElem_mem hq))
  · rwa [rank_getElem_nextPointers, rank_getElem_nextPointers]

end Sys2Proof.Bwt
end

section
/-! The inverse transform (43_bwt.md R194, R202 to R205, R207): going from a row of the sorted matrix to its next pointer
turns the rotation there by one symbol, also where several rows hold the same rotation, so the read-out from the key index
gives the block back. -/

namespace Sys2Proof.Bwt

open Sys2Proof Sys2Proof.Machine Sys2Proof.Artifact

/-! ### Turning a rotation back -/

/-- The last symbol of a string. -/
def lastSym (w : Bytes) : Byte := symAt w (w.length - 1)

/-- The string with its last symbol moved to the front. -/
def turnBack (w : Bytes) : Bytes := w.rotate (w.length - 1)

@[simp] theorem lastSym_concat (u : Bytes) (c : Byte) : lastSym (u ++ [c]) = c := by simp [lastSym, symAt]

@[simp] theorem turnBack_concat (u : Bytes) (c : Byte) : turnBack (u ++ [c]) = c :: u := by
  simp [turnBack]

theorem turnBack_rotate_one {w : Bytes} : turnBack (w.rotate 1) = w := by
  cases w with
  | nil => rfl
  | cons c u => rw [List.rotate_cons_succ, List.rotate_zero, turnBack_concat]

theorem rotate_one_turnBack (w : Bytes) : (turnBack w).rotate 1 = w := by
  obtain rfl | ⟨u, c, rfl⟩ := w.eq_nil_or_concat'
  · rfl
  · rw [turnBack_concat, List.rotate_cons_succ, List.rotate_zero]

theorem codes_append_singleton_lt {u v : Bytes} (hlen : u.length = v.length) (h : codes u < codes v) (c : Byte) :
    codes (u ++ [c]) < codes (v ++ [c]) := by
  induction u generalizing v with
  | nil => cases v with
    | nil => exact absurd h (lt_irrefl _)
    | cons q v => simp at hlen
  | cons p u ih => cases v with
    | nil => simp at hlen
    | cons q v =>
      simp only [codes_cons, List.cons_append, List.cons_lt_cons_iff] at h ⊢
      exact h.imp_right fun ⟨heq, hlt⟩ => ⟨heq, ih (by simpa using hlen) hlt⟩

/-- Strings of one length turned back are in order where their last symbols are, or these are equal and the strings in
order. -/
theorem codes_turnBack_le {v w : Bytes} (hlen : v.length = w.length)
    (h : (lastSym v).toNat < (lastSym w).toNat ∨ (lastSym v = lastSym w ∧ codes v ≤ codes w)) :
    codes (turnBack v) ≤ codes (turnBack w) := by
  obtain rfl | ⟨u, c, rfl⟩ := v.eq_nil_or_concat'
  · obtain rfl : w = [] := List.length_eq_zero_iff.mp hlen.symm
    exact le_rfl
  · obtain rfl | ⟨u', c', rfl⟩ := w.eq_nil_or_concat'
    · simp at hlen
    · rw [lastSym_concat, lastSym_concat] at h
      rw [turnBack_concat, turnBack_concat, codes_cons, codes_cons]
      obtain hlt | ⟨rfl, hle⟩ := h
      · exact (List.cons_lt_cons_iff.mpr (.inl hlt)).le
      · refine not_lt.mp fun hlt => hle.not_gt ?_
        have hinit : codes u' < codes u := by simpa [List.cons_lt_cons_iff] using hlt
        exact codes_append_singleton_lt (by simpa using hlen.symm) hinit c

/-! ### The transformed row -/

theorem lastSym_rotate {x : Bytes} {j : Nat} (hx : x ≠ []) :
    lastSym (x.rotate j) = symAt x ((j + x.length - 1) % x.length) := by
  have hpos := List.length_pos_iff.mpr hx
  rw [lastSym, symAt, symAt, List.getD_eq_getElem?_getD, List.getD_eq_getElem?_getD, List.length_rotate,
    List.getElem?_rotate (by omega), show x.length - 1 + j = j + x.length - 1 by omega]

/-- The row is the last column of the sorted matrix (43_bwt.md R194). -/
theorem transformedRow_eq_map_lastSym (x : Bytes) :
    transformedRow x (sortRotations x) = (sortedRotations x).map lastSym := by
  rw [transformedRow, sortedRotations, List.map_map]
  refine List.map_congr_left fun j hj => (lastSym_rotate ?_).symm
  exact List.length_pos_iff.mp (Nat.zero_lt_of_lt (mem_sortRotations.mp hj))

@[simp] theorem length_transformedRow (x : Bytes) : (transformedRow x (sortRotations x)).length = x.length := by
  simp [transformedRow]

/-- The rotation in a row of the sorted matrix. -/
def sortedRow (x : Bytes) (p : Nat) : Bytes := (sortedRotations x).getD p []

theorem sortedRow_mem {x : Bytes} {p : Nat} (hp : p < x.length) : sortedRow x p ∈ sortedRotations x := by
  rw [sortedRow, List.getD_eq_getElem _ _ (by simpa using hp)]
  exact List.getElem_mem _

theorem symAt_transformedRow {x : Bytes} {p : Nat} (hp : p < x.length) :
    symAt (transformedRow x (sortRotations x)) p = lastSym (sortedRow x p) := by
  have hp' : p < (sortedRotations x).length := by simpa using hp
  rw [transformedRow_eq_map_lastSym, symAt_eq_getElem (by simpa using hp), List.getElem_map, sortedRow,
    List.getD_eq_getElem _ _ hp']

/-- `NEXT` of a block's transformed row. -/
def nextOf (x : Bytes) : List Nat := (nextPointers (transformedRow x (sortRotations x))).2

@[simp] theorem length_nextOf (x : Bytes) : (nextOf x).length = x.length := by simp [nextOf]

theorem nextOf_perm (x : Bytes) : (nextOf x).Perm (List.range x.length) := by
  rw [nextOf, ← length_transformedRow x]
  exact nextPointers_perm _

theorem mem_nextOf {x : Bytes} {i : Nat} : i ∈ nextOf x ↔ i < x.length := (nextOf_perm x).mem_iff.trans List.mem_range

/-! ### One step of the read-out -/

theorem map_sortedRow_range (x : Bytes) : (List.range x.length).map (sortedRow x) = sortedRotations x := by
  refine List.ext_getElem (by simp) fun i h _ => ?_
  have hi : i < (sortedRotations x).length := by simpa using h
  rw [List.getElem_map, List.getElem_range, sortedRow, List.getD_eq_getElem _ _ hi]

theorem pairwise_turnBack_nextOf (x : Bytes) :
    ((nextOf x).map (turnBack ∘ sortedRow x)).Pairwise fun v w => codes v ≤ codes w := by
  refine List.pairwise_map.mpr ((pairwise_nextPointers _).imp_of_mem fun {i j} hi hj h => ?_)
  have hi := mem_nextOf.mp hi
  have hj := mem_nextOf.mp hj
  have hlen : (sortedRow x i).length = (sortedRow x j).length :=
    (length_of_mem_sortedRotations (sortedRow_mem hi)).trans (length_of_mem_sortedRotations (sortedRow_mem hj)).symm
  refine codes_turnBack_le hlen ?_
  rw [← symAt_transformedRow hi, ← symAt_transformedRow hj]
  refine (Prod.Lex.toLex_lt_toLex.mp h).imp_right fun ⟨hsym, hij⟩ => ⟨BitVec.eq_of_toNat_eq hsym, ?_⟩
  rw [sortedRow, sortedRow, List.getD_eq_getElem _ _ (by simpa using hi), List.getD_eq_getElem _ _ (by simpa using hj)]
  exact List.pairwise_iff_getElem.mp (pairwise_sortedRotations x) _ _ _ _ hij

theorem turnBack_nextOf_perm (x : Bytes) :
    ((nextOf x).map (turnBack ∘ sortedRow x)).Perm (sortedRotations x) := by
  have hturned := ((map_rotate_one_perm x).map turnBack).symm
  have hid : turnBack ∘ (List.rotate · 1) = id := funext fun _ => turnBack_rotate_one
  rw [List.map_map, hid, List.map_id] at hturned
  have hnext := ((nextOf_perm x).map (sortedRow x)).map turnBack
  rw [List.map_map, map_sortedRow_range] at hnext
  exact hnext.trans hturned

/-- The sorted matrix is what its rows turned back are in the order of `NEXT` (43_bwt.md R205). -/
theorem map_turnBack_nextOf (x : Bytes) : (nextOf x).map (turnBack ∘ sortedRow x) = sortedRotations x :=
  (turnBack_nextOf_perm x).eq_of_pairwise (fun _ _ _ _ h h' => codes_injective (le_antisymm h h'))
    (pairwise_turnBack_nextOf x) (pairwise_sortedRotations x)

theorem getD_nextOf_lt {x : Bytes} {p : Nat} (hp : p < x.length) : (nextOf x).getD p 0 < x.length := by
  rw [List.getD_eq_getElem _ _ (by simpa using hp)]
  exact mem_nextOf.mp (List.getElem_mem _)

/-- The next pointer leads to the rotation one symbol further on. -/
theorem sortedRow_getD_nextOf {x : Bytes} {p : Nat} (hp : p < x.length) :
    sortedRow x ((nextOf x).getD p 0) = (sortedRow x p).rotate 1 := by
  have hp' : p < (nextOf x).length := by simpa using hp
  have hrow : sortedRow x p = turnBack (sortedRow x ((nextOf x).getD p 0)) := by
    rw [List.getD_eq_getElem _ _ hp', sortedRow, ← map_turnBack_nextOf, List.getD_eq_getElem _ _ (by simpa using hp),
      List.getElem_map, Function.comp_apply]
  rw [hrow, rotate_one_turnBack]

/-! ### The whole read-out -/

theorem lastSym_rotate_succ {x : Bytes} {k : Nat} (hk : k < x.length) : lastSym (x.rotate (k + 1)) = x[k] := by
  have hmod : (k + 1 + x.length - 1) % x.length = k := by
    rw [show k + 1 + x.length - 1 = k + x.length by omega, Nat.add_mod_right, Nat.mod_eq_of_lt hk]
  rw [lastSym_rotate (List.length_pos_iff.mp (Nat.zero_lt_of_lt hk)), hmod, symAt_eq_getElem hk]

/-- From a row that holds the rotation `k + 1` symbols on, the read-out gives the block from symbol `k` on. -/
theorem map_symAt_visits {x : Bytes} {count k p : Nat} (hcount : k + count = x.length) (hp : p < x.length)
    (hrow : sortedRow x p = x.rotate (k + 1)) :
    (visits (nextOf x) count p).map (symAt (transformedRow x (sortRotations x))) = x.drop k := by
  induction count generalizing k p with
  | zero => rw [visits, List.map_nil, List.drop_of_length_le (by omega)]
  | succ count ih =>
    have hk : k < x.length := by omega
    have hnext : sortedRow x ((nextOf x).getD p 0) = x.rotate (k + 1 + 1) := by
      rw [sortedRow_getD_nextOf hp, hrow, List.rotate_rotate]
    rw [visits, List.map_cons, ih (by omega) (getD_nextOf_lt hp) hnext, symAt_transformedRow hp, hrow,
      lastSym_rotate_succ hk, ← List.drop_eq_getElem_cons hk]

/-- The read-out from the key index gives the block back, periodic blocks included (43_bwt.md R207). -/
theorem inverseRow_transformedRow (x : Bytes) :
    inverseRow (transformedRow x (sortRotations x)) (keyIndex (sortRotations x)) = x := by
  by_cases hx : x = []
  · subst hx
    rfl
  · have hkey := keyIndex_lt hx
    have hrow : sortedRow x (keyIndex (sortRotations x)) = x := by
      rw [sortedRow, List.getD_eq_getElem?_getD, getElem?_keyIndex hx, Option.getD_some]
    rw [inverseRow, visitSequence, length_transformedRow]
    exact map_symAt_visits (Nat.zero_add _) (getD_nextOf_lt hkey) (by rw [← nextOf, sortedRow_getD_nextOf hkey, hrow])

end Sys2Proof.Bwt
end

section
/-! The text of a block (43_bwt.md R190, R195 to R198): the bit-strings of its indices read back, move-to-front decoding
undoes the encoding, and the fields that `BWT.ENC` writes for a block pass the checks of `BWT.DEC` and stand for the
block. -/

namespace Sys2Proof.Bwt

open Sys2Proof Sys2Proof.Machine Sys2Proof.Artifact Sys2Proof.Huffman Sys2Proof.Arithmetic

/-! ### Bit-strings (00_scope.md R8) -/

theorem lt_of_mem_spell {base w v d : Nat} (hbase : 0 < base) (h : d ∈ spell base w v) : d < base := by
  induction w generalizing v with
  | zero => exact absurd h List.not_mem_nil
  | succ k ih =>
    obtain h | h := List.mem_append.mp h
    · exact ih h
    · exact List.mem_singleton.mp h ▸ Nat.mod_lt v hbase

/-- In every base the digits spelled spell the number again. -/
theorem number_spell_of_lt_pow {base w v : Nat} (h : v < base ^ w) : number base (spell base w v) = v := by
  induction w generalizing v with
  | zero =>
    obtain rfl : v = 0 := by simpa using h
    rfl
  | succ k ih =>
    rw [spell, number_append_singleton, ih (Nat.div_lt_of_lt_mul (pow_succ' base k ▸ h)), Nat.div_add_mod]

theorem le_one_of_mem_spell {w v d : Nat} (h : d ∈ spell 2 w v) : d ≤ 1 :=
  Nat.le_of_lt_succ (lt_of_mem_spell (by decide) h)

theorem val_bin {w v : Nat} (h : v < 2 ^ w) : val (bin v w) = v := by
  rw [val, bin, map_digitOf_map_digitChar fun _ hd => (le_one_of_mem_spell hd).trans (by decide), number_spell_of_lt_pow h]

theorem isBit_digitChar : ∀ d ≤ 1, isBit (digitChar d) = true := by decide

theorem isBits_bin (v w : Nat) : isBits (bin v w) = true := by
  refine List.all_eq_true.mpr fun b hb => ?_
  obtain ⟨d, hd, rfl⟩ := List.mem_map.mp hb
  exact isBit_digitChar d (le_one_of_mem_spell hd)

theorem mtfBits_cons (w i : Nat) (is : List Nat) : mtfBits w (i :: is) = bin i w ++ mtfBits w is := rfl

theorem isBits_mtfBits (w : Nat) (indices : List Nat) : isBits (mtfBits w indices) = true := by
  refine List.all_eq_true.mpr fun b hb => ?_
  obtain ⟨i, -, hb⟩ := List.mem_flatMap.mp hb
  exact List.all_eq_true.mp (isBits_bin i w) b hb

@[simp] theorem length_mtfBits (w : Nat) (indices : List Nat) : (mtfBits w indices).length = indices.length * w := by
  simp [mtfBits, List.length_flatMap]

/-! ### The code width (43_bwt.md R196) -/

theorem le_two_pow_clog2 (n : Nat) : n ≤ 2 ^ clog2 n := by
  obtain ⟨k, hk⟩ : ∃ k, (List.range (n + 1)).find? (fun k => decide (n ≤ 2 ^ k)) = some k := by
    refine Option.isSome_iff_exists.mp (List.find?_isSome.mpr ⟨n, by simp, decide_eq_true Nat.lt_two_pow_self.le⟩)
  rw [clog2, hk, Option.getD_some]
  simpa using List.find?_some hk

theorem codeWidth_pos (na : Nat) : 0 < codeWidth na := Nat.lt_of_lt_of_le Nat.zero_lt_one (le_max_left ..)

theorem lt_two_pow_codeWidth {i na : Nat} (h : i < na) : i < 2 ^ codeWidth na :=
  h.trans_le ((le_two_pow_clog2 na).trans (Nat.pow_le_pow_right (by decide) (le_max_right ..)))

/-! ### Move-to-front (43_bwt.md R197, R201) -/

theorem symAt_idxOf {mtf : Bytes} {c : Byte} (h : c ∈ mtf) : symAt mtf (mtf.idxOf c) = c := by
  rw [symAt, List.getD_eq_getElem?_getD, List.getElem?_idxOf h, Option.getD_some]

theorem moveToFront_perm {mtf : Bytes} {i : Nat} (h : i < mtf.length) : (moveToFront mtf i).Perm mtf := by
  rw [moveToFront, symAt_eq_getElem h]
  exact List.getElem_cons_eraseIdx_perm h

theorem moveToFront_idxOf_perm {mtf : Bytes} {c : Byte} (h : c ∈ mtf) : (moveToFront mtf (mtf.idxOf c)).Perm mtf :=
  moveToFront_perm (List.idxOf_lt_length_of_mem h)

theorem mtfRow_mtfIndices {mtf row : Bytes} (h : ∀ c ∈ row, c ∈ mtf) : mtfRow mtf (mtfIndices mtf row) = row := by
  induction row generalizing mtf with
  | nil => rfl
  | cons c row ih =>
    obtain ⟨hc, hrow⟩ := List.forall_mem_cons.mp h
    rw [mtfIndices, mtfRow, symAt_idxOf hc, ih fun d hd => (moveToFront_idxOf_perm hc).mem_iff.mpr (hrow d hd)]

@[simp] theorem length_mtfIndices (mtf row : Bytes) : (mtfIndices mtf row).length = row.length := by
  induction row generalizing mtf with
  | nil => rfl
  | cons c row ih => rw [mtfIndices, List.length_cons, ih, List.length_cons]

@[simp] theorem length_mtfRow (mtf : Bytes) (indices : List Nat) : (mtfRow mtf indices).length = indices.length := by
  induction indices generalizing mtf with
  | nil => rfl
  | cons i is ih => rw [mtfRow, List.length_cons, ih, List.length_cons]

theorem lt_length_of_mem_mtfIndices {mtf row : Bytes} (h : ∀ c ∈ row, c ∈ mtf) {i : Nat}
    (hi : i ∈ mtfIndices mtf row) : i < mtf.length := by
  induction row generalizing mtf with
  | nil => exact absurd hi List.not_mem_nil
  | cons c row ih =>
    obtain ⟨hc, hrow⟩ := List.forall_mem_cons.mp h
    obtain rfl | hi := List.mem_cons.mp hi
    · exact List.idxOf_lt_length_of_mem hc
    · have hperm := moveToFront_idxOf_perm hc
      exact hperm.length_eq ▸ ih (fun d hd => hperm.mem_iff.mpr (hrow d hd)) hi

/-! ### The alphabet (43_bwt.md R195) -/

theorem mem_alphabet {x : Bytes} {c : Byte} : c ∈ alphabet x ↔ c ∈ x := by
  simp [alphabet, mem_allBytes]

theorem length_alphabet_le (x : Bytes) : (alphabet x).length ≤ 256 :=
  (List.length_filter_le ..).trans (by simp [allBytes])

theorem length_alphabet_pos {x : Bytes} (hx : x ≠ []) : 1 ≤ (alphabet x).length := by
  obtain ⟨c, hc⟩ := List.exists_mem_of_ne_nil x hx
  exact List.length_pos_of_mem (mem_alphabet.mpr hc)

theorem mem_alphabet_of_mem_transformedRow {x : Bytes} {c : Byte} (h : c ∈ transformedRow x (sortRotations x)) :
    c ∈ alphabet x := by
  obtain ⟨j, hj, rfl⟩ := List.mem_map.mp h
  have hpos := Nat.zero_lt_of_lt (mem_sortRotations.mp hj)
  rw [mem_alphabet, symAt_eq_getElem (Nat.mod_lt _ hpos)]
  exact List.getElem_mem _

/-! ### The fields `BWT.ENC` writes for a block (43_bwt.md R198) -/

/-- The fields of a block's text. -/
def blockOf (x : Bytes) : BwtBlock where
  alpha := alphabet x
  num := dec (keyIndex (sortRotations x))
  indices := mtfIndices (alphabet x) (transformedRow x (sortRotations x))

theorem text_blockOf (x : Bytes) : (blockOf x).text = bwtBlockArtifact x := rfl

theorem decoded_blockOf (x : Bytes) : (blockOf x).decoded = x := by
  rw [BwtBlock.decoded, BwtBlock.key, blockOf, numVal_dec, mtfRow_mtfIndices fun _ => mem_alphabet_of_mem_transformedRow,
    inverseRow_transformedRow]

theorem valid_iff (b : BwtBlock) : b.valid = true ↔
    1 ≤ b.alpha.length ∧ b.alpha.length ≤ 256 ∧ isNumeral b.num = true ∧ b.indices.length ≤ 1000 ∧
      (∀ i ∈ b.indices, i < b.alpha.length) ∧ (b.indices = [] ∨ b.key < b.indices.length) := by
  simp [BwtBlock.valid, and_assoc]

theorem valid_blockOf {x : Bytes} (hx : x ≠ []) (hlen : x.length ≤ 1000) : (blockOf x).valid = true := by
  have hkey := keyIndex_lt hx
  refine (valid_iff _).mpr ⟨length_alphabet_pos hx, length_alphabet_le x, isNumeral_dec ?_, ?_, fun i hi => ?_, .inr ?_⟩
  · exact (hkey.le.trans hlen).trans (by decide)
  · simpa [blockOf] using hlen
  · exact lt_length_of_mem_mtfIndices (fun _ => mem_alphabet_of_mem_transformedRow) hi
  · simpa [BwtBlock.key, blockOf, numVal_dec] using hkey

/-! ### The block partition (43_bwt.md R190) -/

theorem flatten_blocksIn {fuel : Nat} {s : Bytes} (h : s.length ≤ fuel) : (blocksIn fuel s).flatten = s := by
  induction fuel generalizing s with
  | zero => exact (List.length_eq_zero_iff.mp (Nat.le_zero.mp h)).symm
  | succ k ih =>
    rw [blocksIn]
    split
    · rename_i hs
      exact hs.symm
    · rename_i hs
      have hpos := List.length_pos_iff.mpr hs
      rw [List.flatten_cons, ih (by rw [List.length_drop]; simp only [Config.BLOCK]; omega), List.take_append_drop]

theorem flatten_blocks (s : Bytes) : (blocks s).flatten = s := flatten_blocksIn le_rfl

theorem mem_blocksIn {fuel : Nat} {s x : Bytes} (h : x ∈ blocksIn fuel s) : x ≠ [] ∧ x.length ≤ 1000 := by
  induction fuel generalizing s with
  | zero => exact absurd h List.not_mem_nil
  | succ k ih =>
    rw [blocksIn] at h
    split at h
    · exact absurd h List.not_mem_nil
    · obtain rfl | h := List.mem_cons.mp h
      · rename_i hs
        exact ⟨by simpa using hs, List.length_take_le ..⟩
      · exact ih h

theorem blocksIn_eq_map_range {fuel : Nat} {s : Bytes} (h : s.length ≤ fuel) :
    blocksIn fuel s = (List.range ((s.length + 999) / 1000)).map fun b => (s.drop (1000 * b)).take 1000 := by
  induction fuel generalizing s with
  | zero =>
    obtain rfl := List.length_eq_zero_iff.mp (Nat.le_zero.mp h)
    rfl
  | succ k ih =>
    rw [blocksIn]
    split
    · rename_i hs
      subst hs
      rfl
    · rename_i hs
      have hpos := List.length_pos_iff.mpr hs
      have hcount : (s.length + 999) / 1000 = ((s.drop 1000).length + 999) / 1000 + 1 := by
        rw [List.length_drop]
        omega
      rw [ih (by rw [List.length_drop]; simp only [Config.BLOCK]; omega), hcount, List.range_succ_eq_map, List.map_cons,
        List.map_map]
      refine congrArg₂ List.cons rfl (List.map_congr_left fun b _ => ?_)
      rw [List.drop_drop, Function.comp_apply, Nat.mul_succ, Nat.add_comm]

theorem blocks_eq_map_range (s : Bytes) :
    blocks s = (List.range ((s.length + 999) / 1000)).map fun b => (s.drop (1000 * b)).take 1000 :=
  blocksIn_eq_map_range le_rfl

theorem valid_of_mem_blocks {s : Bytes} {b : BwtBlock} (h : b ∈ (blocks s).map blockOf) : b.valid = true := by
  obtain ⟨x, hx, rfl⟩ := List.mem_map.mp h
  obtain ⟨hne, hlen⟩ := mem_blocksIn hx
  exact valid_blockOf hne hlen

theorem flatMap_text_blocks (s : Bytes) : ((blocks s).map blockOf).flatMap BwtBlock.text = bwtArtifact s := by
  rw [List.flatMap_map, funext text_blockOf, bwtArtifact]

theorem flatMap_decoded_blocks (s : Bytes) : ((blocks s).map blockOf).flatMap BwtBlock.decoded = s := by
  rw [List.flatMap_map, funext decoded_blockOf, List.flatMap_id', flatten_blocks]

end Sys2Proof.Bwt
end

section
/-! `BWT.ENC` (43_bwt.md R190 to R198): each block is read, worked out and emitted, so the command completes with the
artifact as its output. -/

namespace Sys2Proof.Bwt

open Sys2Proof Sys2Proof.Machine Sys2Proof.Safety Sys2Proof.Artifact Sys2Proof.Huffman Sys2Proof.Arithmetic

/-! ### A command at work on an input -/

/-- A state under the launch premise with the input `inp`, whatever has been emitted (20_memory.md R57). -/
structure Serving (inp : Bytes) (s : State) : Prop where
  src : s.srcAnswers = []
  dst : s.dstAnswers = []
  reads : input s = inp

theorem Serving.of_emitted {inp bs : Bytes} {s t : State} (hs : Serving inp s) (h : Emitted bs s t) : Serving inp t := by
  obtain ⟨hsrc, hdst, hreads⟩ := hs
  rw [h]
  refine ⟨(appendBytes_srcAnswers bs s).trans hsrc, (appendBytes_dstAnswers bs s).trans hdst, hreads ▸ ?_⟩
  simp [input, srcCell]

theorem serving_startCommand {s : State} (h : Quiet s) (w : Word) : Serving (input s) (startCommand w s) :=
  ⟨h.1, h.2, rfl⟩

theorem emitted_onBwt (f : BwtWork → BwtWork) (s : State) : Emitted [] s (State.onBwt f s) := rfl

theorem emitted_setSc (v : Nat) (s : State) : Emitted [] s (State.setSc v s) := rfl

theorem emitted_appendBytes_onBwt (bs : Bytes) (f : BwtWork → BwtWork) (s : State) :
    Emitted bs s (State.onBwt f (appendBytes bs s)) := rfl

/-- A loop whose passes each emit a string, wherever the passes before left the state, emits the strings in order. -/
theorem forEach_emitted {α : Type} {xs : List α} {body : α → Cmd Unit} {g : α → Bytes} {inp : Bytes} {s : State}
    (hs : Serving inp s) (room : s.dstLen.toNat + (xs.flatMap g).length ≤ s.caps.dstCap.val)
    (hbody : ∀ x ∈ xs, ∀ s₁, Serving inp s₁ → s₁.dstLen.toNat + (g x).length ≤ s₁.caps.dstCap.val →
      ∃ t, body x s₁ = .ok () t ∧ Emitted (g x) s₁ t) :
    ∃ t, forEach xs body s = .ok () t ∧ Emitted (xs.flatMap g) s t := by
  induction xs generalizing s with
  | nil => exact ⟨s, rfl, rfl⟩
  | cons x xs ih =>
    obtain ⟨hx, hxs⟩ := List.forall_mem_cons.mp hbody
    rw [List.flatMap_cons, List.length_append] at room
    obtain ⟨t, hrun, ht⟩ := hx s hs (by omega)
    obtain ⟨u, hrest, hu⟩ := ih (hs.of_emitted ht) (room_left_of_emitted ht room) hxs
    exact ⟨u, by rw [forEach_cons, cmd_bind_ok hrun, hrest], ht.trans hu⟩

/-! ### Move-to-front encoding -/

/-- The symbol at index `i` of `MTF` moved to the front. -/
def toFront (i : Nat) (h : BwtWork) : BwtWork := { h with mtf := moveToFront h.mtf i }

theorem mtfEncSymbol_eq {s : State} (hdst : s.dstAnswers = []) (c : Byte)
    (room : s.dstLen.toNat + (bin (s.work.bwt.mtf.idxOf c) s.work.bwt.w).length ≤ s.caps.dstCap.val) :
    mtfEncSymbol c s = .ok () (State.onBwt (toFront (s.work.bwt.mtf.idxOf c))
      (appendBytes (bin (s.work.bwt.mtf.idxOf c) s.work.bwt.w) s)) := by
  rw [mtfEncSymbol, cmd_bind_ok (cmd_get s), cmd_bind_ok (emitStr_quiet hdst room)]
  rfl

theorem forEach_mtfEncSymbol_eq {row : Bytes} {s : State} (hdst : s.dstAnswers = [])
    (room : s.dstLen.toNat + (mtfBits s.work.bwt.w (mtfIndices s.work.bwt.mtf row)).length ≤ s.caps.dstCap.val) :
    ∃ t, forEach row mtfEncSymbol s = .ok () t ∧
      Emitted (mtfBits s.work.bwt.w (mtfIndices s.work.bwt.mtf row)) s t := by
  induction row generalizing s with
  | nil => exact ⟨s, rfl, rfl⟩
  | cons c row ih =>
    rw [mtfIndices, mtfBits_cons, List.length_append] at room
    have hrun := mtfEncSymbol_eq hdst c (by omega)
    generalize hbits : bin (s.work.bwt.mtf.idxOf c) s.work.bwt.w = bits at hrun room
    have ht : Emitted bits s (State.onBwt (toFront (s.work.bwt.mtf.idxOf c)) (appendBytes bits s)) :=
      emitted_appendBytes_onBwt ..
    have hbwt : (State.onBwt (toFront (s.work.bwt.mtf.idxOf c)) (appendBytes bits s)).work.bwt =
        toFront (s.work.bwt.mtf.idxOf c) s.work.bwt := by
      rw [State.onBwt_work, appendBytes_work]
    obtain ⟨u, hrest, hu⟩ := ih ((dstAnswers_of_emitted ht).trans hdst)
      (by rw [hbwt]; exact room_left_of_emitted ht room)
    rw [hbwt] at hu
    refine ⟨u, by rw [forEach_cons, cmd_bind_ok hrun, hrest], ?_⟩
    rw [mtfIndices, mtfBits_cons, hbits]
    exact ht.trans hu

/-! ### One block -/

/-- The working registers of a block worked out (43_bwt.md R192 to R196). -/
def analysed (x : Bytes) (h : BwtWork) : BwtWork :=
  { h with
    blk := x
    n := x.length
    rot := sortRotations x
    key := keyIndex (sortRotations x)
    row := transformedRow x (sortRotations x)
    alpha := alphabet x
    w := codeWidth (alphabet x).length }

theorem bwtAnalyse_eq (x : Bytes) (s : State) : bwtAnalyse x s = .ok () (State.onBwt (analysed x) s) := by
  simp only [bwtAnalyse, cmd_bind, cmd_modify]
  rfl

theorem emitLetters_eq {alpha : Bytes} {s : State} (hdst : s.dstAnswers = [])
    (room : s.dstLen.toNat + (alphaText alpha).length ≤ s.caps.dstCap.val) :
    forEach alpha bwtEmitLetter s = .ok () (appendBytes (alphaText alpha) s) :=
  forEach_emitStr_after (done := []) hdst room fun c _ done => by
    rw [bwtEmitLetter, emitStr_cons, emitStr_singleton]

/-- Everything of a block before its bit-string (43_bwt.md R198). -/
def blockHead (x : Bytes) : Bytes := alphaText (alphabet x) ++ delimLine ++ dec (keyIndex (sortRotations x)) ++ [LF]

/-- The bit-string of a block (43_bwt.md R197, R198). -/
def blockBits (x : Bytes) : Bytes :=
  mtfBits (codeWidth (alphabet x).length) (mtfIndices (alphabet x) (transformedRow x (sortRotations x)))

theorem bwtBlockArtifact_eq (x : Bytes) : bwtBlockArtifact x = blockHead x ++ (blockBits x ++ [LF]) :=
  List.append_assoc ..

/-- `MTF` set to the alphabet. -/
def startMtf (h : BwtWork) : BwtWork := { h with mtf := h.alpha }

/-- The alphabet, the delimiter line and the key line of a block worked out, and the start of its coding. -/
theorem bwtEmitBlock_eq_bits {x : Bytes} {s : State} {h : BwtWork} (hdst : s.dstAnswers = [])
    (hwork : s.work.bwt = analysed x h) (room : s.dstLen.toNat + (blockHead x).length ≤ s.caps.dstCap.val) :
    bwtEmitBlock s = (do
      forEach (transformedRow x (sortRotations x)) mtfEncSymbol
      emit LF : Cmd Unit) (State.onBwt startMtf (appendBytes (blockHead x) s)) := by
  simp only [blockHead, List.length_append] at room
  rw [bwtEmitBlock, cmd_bind_ok (cmd_get s), hwork, ← emitStr_singleton LF]
  simp only [analysed]
  rw [cmd_bind_ok (emitLetters_eq hdst (by omega)),
    cmd_bind_ok (emitStr_after hdst (by simp only [List.length_append]; omega)),
    cmd_bind_ok (emitStr_after hdst (by simp only [List.length_append]; omega)),
    cmd_bind_ok (emitStr_after hdst (by simp only [List.length_append]; omega)), cmd_bind_ok (cmd_modify ..)]
  rfl

/-- A block worked out is emitted as its artifact (43_bwt.md R198). -/
theorem bwtEmitBlock_eq {x : Bytes} {s : State} {h : BwtWork} (hdst : s.dstAnswers = [])
    (hwork : s.work.bwt = analysed x h) (room : s.dstLen.toNat + (bwtBlockArtifact x).length ≤ s.caps.dstCap.val) :
    ∃ t, bwtEmitBlock s = .ok () t ∧ Emitted (bwtBlockArtifact x) s t := by
  rw [bwtBlockArtifact_eq] at room ⊢
  rw [List.length_append] at room
  rw [bwtEmitBlock_eq_bits hdst hwork (by omega)]
  have hhead := emitted_appendBytes_onBwt (blockHead x) startMtf s
  have hbwt : (State.onBwt startMtf (appendBytes (blockHead x) s)).work.bwt = startMtf (analysed x h) := by
    rw [State.onBwt_work, appendBytes_work, hwork]
  generalize State.onBwt startMtf (appendBytes (blockHead x) s) = s₁ at hhead hbwt ⊢
  have hdst₁ : s₁.dstAnswers = [] := (dstAnswers_of_emitted hhead).trans hdst
  have room₁ := room_left_of_emitted hhead room
  have hbits :
      mtfBits s₁.work.bwt.w (mtfIndices s₁.work.bwt.mtf (transformedRow x (sortRotations x))) = blockBits x := by
    rw [hbwt]
    rfl
  rw [List.length_append] at room₁
  obtain ⟨t, hrun, ht⟩ := forEach_mtfEncSymbol_eq hdst₁ (by rw [hbits]; omega)
  rw [hbits] at ht
  refine ⟨appendBytes [LF] t, ?_, hhead.trans (ht.trans (emitted_appendBytes [LF] t))⟩
  rw [cmd_bind_ok hrun, ← emitStr_singleton,
    emitStr_quiet ((dstAnswers_of_emitted ht).trans hdst₁) (room_left_of_emitted ht room₁)]

/-! ### The command -/

/-- One pass of `BWT.ENC`'s loop: the block is read, worked out and emitted (43_bwt.md R190, R198). -/
theorem bwtEncBlock_eq {inp : Bytes} {s : State} (hs : Serving inp s) {b : Nat} (hb : 1000 * b ≤ inp.length)
    (room : s.dstLen.toNat + (bwtBlockArtifact ((inp.drop (1000 * b)).take 1000)).length ≤ s.caps.dstCap.val) :
    ∃ t, (do
      let x ← bytesOf (Config.BLOCK * b) (min (Config.BLOCK * b + Config.BLOCK) inp.length)
      bwtAnalyse x
      bwtEmitBlock : Cmd Unit) s = .ok () t ∧ Emitted (bwtBlockArtifact ((inp.drop (1000 * b)).take 1000)) s t := by
  obtain ⟨hsrc, hdst, rfl⟩ := hs
  have hread : bytesOf (1000 * b) (min (1000 * b + 1000) (input s).length) s =
      .ok (((input s).drop (1000 * b)).take 1000) s := by
    have hlen := input_length s
    rw [bytesOf_quiet hsrc, cells_eq_input s _ _ (by omega)]
    congr 1
    rw [List.take_eq_take_iff, List.length_drop]
    omega
  rw [cmd_bind_ok hread, cmd_bind_ok (bwtAnalyse_eq _ s)]
  obtain ⟨t, hrun, ht⟩ := bwtEmitBlock_eq (s := State.onBwt (analysed _) s) hdst rfl room
  exact ⟨t, hrun, (emitted_onBwt _ s).trans ht⟩

theorem bwtEncRule_eq {inp : Bytes} {s : State} (hs : Serving inp s)
    (room : s.dstLen.toNat + (bwtArtifact inp).length ≤ s.caps.dstCap.val) :
    ∃ t, bwtEncRule s = .ok () t ∧ Emitted (bwtArtifact inp) s t := by
  have hlen : s.srcLen.toNat = inp.length := hs.reads ▸ (input_length s).symm
  have hartifact : bwtArtifact inp = (List.range' 0 ((inp.length + 999) / 1000)).flatMap fun b =>
      bwtBlockArtifact ((inp.drop (1000 * b)).take 1000) := by
    rw [bwtArtifact, blocks_eq_map_range, List.flatMap_map, List.range_eq_range']
  rw [hartifact] at room ⊢
  rw [bwtEncRule, cmd_bind_ok (cmd_get s), hlen, forRange_eq_forEach]
  refine forEach_emitted hs room fun b hb s₁ hs₁ room₁ => bwtEncBlock_eq hs₁ ?_ room₁
  obtain ⟨i, hi, rfl⟩ := List.mem_range'.mp hb
  simp only [Config.BLOCK] at hi
  omega

/-- `BWT.ENC` completes on every input whose artifact fits, with the artifact as its output (43_bwt.md R198). -/
theorem bwtEnc_endsOk {s : State} (hs : Ready s) (room : (bwtArtifact (input s)).length ≤ s.caps.dstCap.val) :
    ∃ t, exec .bwtEnc s = .next t ∧ EndsOk .bwtEnc s t (bwtArtifact (input s)) := by
  obtain ⟨hquiet, hlen⟩ := hs
  obtain ⟨t, hrun, ht⟩ := bwtEncRule_eq (serving_startCommand hquiet (encode .bwtEnc)) (by simpa using room)
  exact ⟨_, rfl, endsOk_of_emitted hlen room hrun ht⟩

end Sys2Proof.Bwt
end

section
/-! `BWT.DEC` up to its read-out (43_bwt.md R199 to R201): the parser recovers a block's fields from its text. -/

namespace Sys2Proof.Bwt

open Sys2Proof Sys2Proof.Machine Sys2Proof.Safety Sys2Proof.Artifact Sys2Proof.Huffman Sys2Proof.Arithmetic

/-! ### The alphabet (43_bwt.md R199) -/

theorem alphaText_cons (c : Byte) (alpha : Bytes) : alphaText (c :: alpha) = c :: LF :: alphaText alpha := rfl

@[simp] theorem length_alphaText (alpha : Bytes) : (alphaText alpha).length = 2 * alpha.length := by
  simp [alphaText, List.length_flatMap, Nat.mul_comm]

/-- The delimiter test does not fire at the start of an alphabet entry, whatever its symbol (30_encoding.md R76). -/
theorem not_delimLine_isPrefix_letter (c : Byte) (more : Bytes) : ¬ delimLine <+: c :: LF :: more := by
  intro h
  rw [delimLine, List.cons_prefix_cons, List.cons_prefix_cons] at h
  obtain ⟨-, hdash, -⟩ := h
  exact absurd hdash (by decide)

/-- `ALPHA` longer by the symbols `cs`. -/
def addLetters (cs : Bytes) (h : BwtWork) : BwtWork := { h with alpha := h.alpha ++ cs }

theorem bwtParseLetter_eq {s : State} (hs : s.srcAnswers = []) {c : Byte} {more : Bytes}
    (hdrop : (input s).drop s.work.sc = c :: LF :: more) (hroom : s.work.bwt.alpha.length < 256) :
    bwtParseLetter s = .ok () (State.setSc (s.work.sc + 2) (State.onBwt (addLetters [c]) s)) := by
  obtain ⟨hfirst, -⟩ := srcCell_of_drop hdrop
  have hdrop' : (input s).drop (s.work.sc + 1) = LF :: more := by rw [← List.drop_drop, hdrop]; rfl
  obtain ⟨hsecond, hlt⟩ := srcCell_of_drop hdrop'
  have hin : ¬ s.work.sc + 1 ≥ s.srcLen.toNat := Nat.not_le.mpr hlt
  have hfull : ¬ s.work.bwt.alpha.length = Config.TBL_MAX := Nat.ne_of_lt hroom
  simp only [bwtParseLetter, cmd_bind, cmd_get, cmd_modify, hin, hfull, if_false, srcByte_quiet hs, hfirst, hsecond,
    ne_eq, not_true_eq_false]
  rfl

theorem bwtParseLetters_succ (k : Nat) : bwtParseLetters (k + 1) = (do
    let atEnd ← atDelim
    if atEnd then modify (fun s => State.setSc (s.work.sc + 3) s)
    else do
      bwtParseLetter
      bwtParseLetters k) := rfl

/-- The parser recovers the letters written and stops behind the delimiter line (43_bwt.md R199). -/
theorem bwtParseLetters_eq {alpha : Bytes} {fuel : Nat} {s : State} {more : Bytes} (hs : s.srcAnswers = [])
    (hroom : s.work.bwt.alpha.length + alpha.length ≤ 256) (hfuel : alpha.length < fuel)
    (hdrop : (input s).drop s.work.sc = alphaText alpha ++ delimLine ++ more) :
    bwtParseLetters fuel s = .ok () (State.setSc (s.work.sc + (alphaText alpha ++ delimLine).length)
      (State.onBwt (addLetters alpha) s)) := by
  obtain ⟨k, rfl⟩ : ∃ k, fuel = k + 1 := ⟨fuel - 1, by omega⟩
  induction alpha generalizing s k with
  | nil =>
    have hdelim : delimLine <+: (input s).drop s.work.sc := ⟨more, hdrop.symm⟩
    rw [bwtParseLetters_succ, cmd_bind_ok (atDelim_eq hs), decide_eq_true hdelim]
    simp [addLetters, alphaText, delimLine, State.onBwt, State.setSc]
  | cons c alpha ih =>
    simp only [List.length_cons] at hroom hfuel
    simp only [alphaText_cons, List.cons_append] at hdrop
    have hdelim := hdrop ▸ not_delimLine_isPrefix_letter c (alphaText alpha ++ delimLine ++ more)
    have hletter := bwtParseLetter_eq hs hdrop (by omega)
    obtain ⟨j, rfl⟩ : ∃ j, k = j + 1 := ⟨k - 1, by omega⟩
    have hdrop' : (input s).drop (s.work.sc + 2) = alphaText alpha ++ delimLine ++ more := by
      rw [← List.drop_drop, hdrop]
      rfl
    have htail := ih (s := State.setSc (s.work.sc + 2) (State.onBwt (addLetters [c]) s)) hs
      (by simp only [State.setSc_work, State.onBwt_work, addLetters, List.length_append, List.length_singleton]; omega)
      hdrop' j (by omega)
    have hend : s.work.sc + 2 + (alphaText alpha ++ delimLine).length =
        s.work.sc + (alphaText (c :: alpha) ++ delimLine).length := by
      simp only [alphaText_cons, List.length_append, List.length_cons]
      omega
    rw [bwtParseLetters_succ, cmd_bind_ok (atDelim_eq hs), decide_eq_false hdelim]
    simp only [Bool.false_eq_true, if_false]
    rw [cmd_bind_ok hletter, htail, ← hend]
    simp [State.setSc, State.onBwt, addLetters]

/-- `ALPHA` set, and the code width. -/
def setAlpha (alpha : Bytes) (h : BwtWork) : BwtWork := { h with alpha := alpha, w := codeWidth alpha.length }

theorem bwtParseAlphabet_eq {alpha : Bytes} {s : State} {more : Bytes} (hs : s.srcAnswers = [])
    (hpos : 1 ≤ alpha.length) (hroom : alpha.length ≤ 256)
    (hdrop : (input s).drop s.work.sc = alphaText alpha ++ delimLine ++ more) :
    bwtParseAlphabet s = .ok () (State.setSc (s.work.sc + (alphaText alpha ++ delimLine).length)
      (State.onBwt (setAlpha alpha) s)) := by
  have hfuel : alpha.length < s.srcLen.toNat + 1 := by
    have hle := congrArg List.length hdrop
    simp only [List.length_drop, List.length_append, length_alphaText, input_length] at hle
    omega
  have hne : ¬ ([] ++ alpha).length = 0 := Nat.ne_of_gt hpos
  have hletters := bwtParseLetters_eq (s := State.onBwt (fun h => { h with alpha := [] }) s) hs
    (by simpa using hroom) hfuel hdrop
  simp only [bwtParseAlphabet, cmd_bind, cmd_get, cmd_modify, State.onBwt_srcLen, hletters, State.setSc_work,
    State.onBwt_work, addLetters]
  exact congrFun (if_neg hne) _

/-! ### The key line (43_bwt.md R200) -/

/-- `KEY` set. -/
def setKey (key : Nat) (h : BwtWork) : BwtWork := { h with key := key }

theorem bwtParseKey_eq {s : State} (hs : s.srcAnswers = []) {num more : Bytes} (hnum : isNumeral num = true)
    (hdrop : (input s).drop s.work.sc = num ++ LF :: more) :
    bwtParseKey s = .ok () (State.setSc (s.work.sc + num.length + 1) (State.onBwt (setKey (numVal num)) s)) := by
  simp only [bwtParseKey, cmd_bind, cmd_get, cmd_modify, hnum, findLF_eq_some hs (LF_notMem_of_isNumeral hnum) hdrop,
    bytesOf_eq hs hdrop, Bool.true_eq_false, if_false]
  rfl

/-! ### The bit-string (43_bwt.md R201) -/

/-- `ROW` longer by the symbols of the indices `is`, and `MTF` after them. -/
def addIndices (is : List Nat) (h : BwtWork) : BwtWork :=
  { h with row := h.row ++ mtfRow h.mtf is, mtf := is.foldl moveToFront h.mtf }

theorem addIndices_cons (i : Nat) (is : List Nat) (h : BwtWork) :
    addIndices (i :: is) h = addIndices is (addIndices [i] h) := by
  simp [addIndices, mtfRow]

theorem mtfDecIndex_eq {s : State} {i : Nat} (hi : i < s.work.bwt.alpha.length) :
    mtfDecIndex i s = .ok () (State.onBwt (addIndices [i]) s) := by
  have hlt : ¬ i ≥ s.work.bwt.alpha.length := Nat.not_le.mpr hi
  simp only [mtfDecIndex, cmd_bind, cmd_get, cmd_modify, hlt, if_false]
  rfl

/-- The decoding loop reads the indices at their places in the line (43_bwt.md R201). -/
theorem forRange_mtfDecIndex_eq {w : Nat} {line : Bytes} {is : List Nat} {s : State} {k : Nat}
    (hdrop : line.drop (k * w) = mtfBits w is) (his : ∀ i ∈ is, i < s.work.bwt.alpha.length ∧ i < 2 ^ w) :
    forRange k is.length (fun p => mtfDecIndex (val ((line.drop (p * w)).take w))) s =
      .ok () (State.onBwt (addIndices is) s) := by
  induction is generalizing s k with
  | nil => simp [addIndices, mtfRow, State.onBwt]
  | cons i is ih =>
    obtain ⟨⟨hi, hwidth⟩, his⟩ := List.forall_mem_cons.mp his
    rw [mtfBits_cons] at hdrop
    have hread : val ((line.drop (k * w)).take w) = i := by
      rw [hdrop, List.take_left' (length_bin ..), val_bin hwidth]
    have hdrop' : line.drop ((k + 1) * w) = mtfBits w is := by
      rw [Nat.succ_mul, ← List.drop_drop, hdrop, List.drop_left' (length_bin ..)]
    rw [List.length_cons, forRange_succ, cmd_bind, hread, mtfDecIndex_eq hi]
    refine (ih (s := State.onBwt (addIndices [i]) s) hdrop' his).trans ?_
    rw [funext (addIndices_cons i is)]
    rfl

/-- `N`, `ROW` and `MTF` after a bit-string. -/
def setIndices (is : List Nat) (h : BwtWork) : BwtWork :=
  { h with n := is.length, row := mtfRow h.alpha is, mtf := is.foldl moveToFront h.alpha }

theorem bwtParseBits_eq {s : State} (hs : s.srcAnswers = []) {is : List Nat} {more : Bytes}
    (hw : s.work.bwt.w = codeWidth s.work.bwt.alpha.length) (hlen : is.length ≤ 1000)
    (his : ∀ i ∈ is, i < s.work.bwt.alpha.length)
    (hdrop : (input s).drop s.work.sc = mtfBits s.work.bwt.w is ++ LF :: more) :
    bwtParseBits s = .ok () (State.setSc (s.work.sc + (mtfBits s.work.bwt.w is).length + 1)
      (State.onBwt (setIndices is) s)) := by
  have hbits := isBits_mtfBits s.work.bwt.w is
  have hpos : 0 < s.work.bwt.w := hw ▸ codeWidth_pos _
  have hcount : (mtfBits s.work.bwt.w is).length / s.work.bwt.w = is.length := by
    rw [length_mtfBits, Nat.mul_div_cancel _ hpos]
  have hgood : ¬ (isBits (mtfBits s.work.bwt.w is) = false ∨ (mtfBits s.work.bwt.w is).length % s.work.bwt.w ≠ 0) := by
    simp [hbits]
  have hmax : ¬ is.length > Config.BLOCK := Nat.not_lt.mpr hlen
  have hloop := forRange_mtfDecIndex_eq (w := s.work.bwt.w) (line := mtfBits s.work.bwt.w is) (is := is) (k := 0)
    (s := State.setSc (s.work.sc + (mtfBits s.work.bwt.w is).length + 1) (State.onBwt
      (fun h => { h with n := is.length, mtf := h.alpha, row := [] }) s)) (by simp)
    fun i hi => ⟨his i hi, hw ▸ lt_two_pow_codeWidth (his i hi)⟩
  simp only [bwtParseBits, cmd_bind, cmd_get, cmd_modify, findLF_eq_some hs (LF_notMem_of_isBits hbits) hdrop,
    Option.getD_some, bytesOf_eq hs hdrop, hgood, if_false, hcount, hmax]
  exact hloop

end Sys2Proof.Bwt
end

section
/-! `BWT.DEC` (43_bwt.md R202 to R206): a row is inverted and emitted, block after block, and the round trip of engine BWT
(43_bwt.md R208); `BwtRoundTrip` follows. -/

namespace Sys2Proof.Bwt

open Sys2Proof Sys2Proof.Machine Sys2Proof.Safety Sys2Proof.Artifact Sys2Proof.Huffman Sys2Proof.Arithmetic

/-! ### The read-out (43_bwt.md R204) -/

theorem bwtReadOut_succ (count p : Nat) : bwtReadOut (count + 1) p = (do
    let s ← get
    emit (symAt s.work.bwt.row p)
    bwtReadOut count (s.work.bwt.next.getD p 0)) := rfl

theorem length_visits (next : List Nat) (count p : Nat) : (visits next count p).length = count := by
  induction count generalizing p with
  | zero => rfl
  | succ count ih => rw [visits, List.length_cons, ih]

theorem bwtReadOut_eq {count p : Nat} {s : State} (hdst : s.dstAnswers = [])
    (room : s.dstLen.toNat + count ≤ s.caps.dstCap.val) :
    bwtReadOut count p s =
      .ok () (appendBytes ((visits s.work.bwt.next count p).map (symAt s.work.bwt.row)) s) := by
  induction count generalizing p s with
  | zero => rfl
  | succ count ih =>
    rw [bwtReadOut_succ, cmd_bind_ok (cmd_get s), cmd_bind_ok (emit_quiet hdst (by omega) _)]
    exact ih (s := appendByte _ s) hdst (by rw [appendByte_dstLen (by omega), appendByte_caps]; omega)

/-- The C array and the next pointers of the row. -/
def inverted (h : BwtWork) : BwtWork :=
  { h with carr := cArray h.row, occ := (nextPointers h.row).1, next := (nextPointers h.row).2 }

@[simp] theorem inverted_row (h : BwtWork) : (inverted h).row = h.row := by rw [inverted]

@[simp] theorem inverted_next (h : BwtWork) : (inverted h).next = (nextPointers h.row).2 := by rw [inverted]

theorem bwtInvert_eq_readOut (s : State) :
    bwtInvert s =
      bwtReadOut s.work.bwt.n ((nextPointers s.work.bwt.row).2.getD s.work.bwt.key 0) (State.onBwt inverted s) := by
  rw [bwtInvert, cmd_bind_ok (cmd_modify ..), cmd_bind_ok (cmd_modify ..), cmd_bind_ok (cmd_get _)]
  simp only [State.onBwt, inverted]

/-- A row is inverted from the key index (43_bwt.md R202 to R204). -/
theorem bwtInvert_eq {s : State} (hdst : s.dstAnswers = []) (hn : s.work.bwt.n = s.work.bwt.row.length)
    (room : s.dstLen.toNat + s.work.bwt.row.length ≤ s.caps.dstCap.val) :
    bwtInvert s = .ok () (appendBytes (inverseRow s.work.bwt.row s.work.bwt.key) (State.onBwt inverted s)) := by
  have hread := bwtReadOut_eq (s := State.onBwt inverted s) (p := (nextPointers s.work.bwt.row).2.getD s.work.bwt.key 0)
    (by rwa [State.onBwt_dstAnswers]) (by rwa [State.onBwt_dstLen, State.onBwt_caps])
  rw [State.onBwt_work, inverted_row, inverted_next] at hread
  rw [bwtInvert_eq_readOut, hn, hread, inverseRow, visitSequence]

/-! ### One block (43_bwt.md R206) -/

theorem text_eq (b : BwtBlock) (more : Bytes) : b.text ++ more =
    alphaText b.alpha ++ delimLine ++ (b.num ++ LF :: (mtfBits (codeWidth b.alpha.length) b.indices ++ LF :: more)) := by
  simp [BwtBlock.text, bwtBlockText]

@[simp] theorem length_decoded (b : BwtBlock) : b.decoded.length = b.indices.length := by
  rw [BwtBlock.decoded, inverseRow, List.length_map, visitSequence, length_visits, length_mtfRow]

/-- The working registers that a block's text is parsed to. -/
def parsed (b : BwtBlock) (h : BwtWork) : BwtWork := setIndices b.indices (setKey b.key (setAlpha b.alpha h))

/-- What `BWT.DEC` does with a block parsed (43_bwt.md R206). -/
def bwtDecParsed : Cmd Unit := do
  let s ← get
  if s.work.bwt.n ≠ 0 then do
    if s.work.bwt.key ≥ s.work.bwt.n then raise .bwtBadKey
    bwtInvert

/-- The parser recovers the fields of a good block and stops behind it (43_bwt.md R199 to R201). -/
theorem bwtDecBlock_eq_parsed {s : State} {b : BwtBlock} {more : Bytes} (hs : s.srcAnswers = []) (hb : b.valid = true)
    (hdrop : (input s).drop s.work.sc = b.text ++ more) :
    bwtDecBlock s = bwtDecParsed (State.setSc (s.work.sc + b.text.length) (State.onBwt (parsed b) s)) := by
  obtain ⟨hpos, halpha, hnum, hlen, his, -⟩ := (valid_iff b).mp hb
  have hend : s.work.sc + b.text.length = s.work.sc + (alphaText b.alpha ++ delimLine).length + b.num.length + 1 +
      (mtfBits (codeWidth b.alpha.length) b.indices).length + 1 := by
    simp only [BwtBlock.text, bwtBlockText, List.length_append, List.length_singleton]
    omega
  rw [text_eq] at hdrop
  have hdropKey : (input s).drop (s.work.sc + (alphaText b.alpha ++ delimLine).length) =
      b.num ++ LF :: (mtfBits (codeWidth b.alpha.length) b.indices ++ LF :: more) := by
    rw [← List.drop_drop, hdrop, List.drop_left]
  have hdropBits : (input s).drop (s.work.sc + (alphaText b.alpha ++ delimLine).length + b.num.length + 1) =
      mtfBits (codeWidth b.alpha.length) b.indices ++ LF :: more := by
    rw [← List.drop_drop, ← List.drop_drop, hdropKey, List.drop_left]
    rfl
  rw [bwtDecBlock, cmd_bind_ok (bwtParseAlphabet_eq hs hpos halpha hdrop),
    cmd_bind_ok (bwtParseKey_eq (by exact hs) hnum (by exact hdropKey)),
    cmd_bind_ok (bwtParseBits_eq (by exact hs) rfl hlen (by exact his) (by exact hdropBits)), hend]
  rfl

theorem bwtDecParsed_of_nil {s : State} (hn : s.work.bwt.n = 0) : bwtDecParsed s = .ok () s := by
  rw [bwtDecParsed, cmd_bind_ok (cmd_get s), if_neg (not_not.mpr hn), cmd_pure]

theorem bwtDecParsed_of_key_lt {s : State} (hkey : s.work.bwt.key < s.work.bwt.n) : bwtDecParsed s = bwtInvert s := by
  rw [bwtDecParsed, cmd_bind_ok (cmd_get s), if_pos (Nat.ne_zero_of_lt hkey), if_neg (Nat.not_le.mpr hkey)]

/-- A good block parsed is inverted and emitted, or is empty (43_bwt.md R206). -/
theorem bwtDecParsed_eq {s : State} {b : BwtBlock} {h : BwtWork} (hdst : s.dstAnswers = []) (hb : b.valid = true)
    (hwork : s.work.bwt = parsed b h) (room : s.dstLen.toNat + b.decoded.length ≤ s.caps.dstCap.val) :
    ∃ t, bwtDecParsed s = .ok () t ∧ Emitted b.decoded s t ∧ t.work.sc = s.work.sc := by
  obtain ⟨-, -, -, -, -, hkey⟩ := (valid_iff b).mp hb
  obtain hnil | hkey := hkey
  · have hdecoded : b.decoded = [] := List.length_eq_zero_iff.mp (by rw [length_decoded, hnil, List.length_nil])
    exact ⟨s, bwtDecParsed_of_nil (by rw [hwork, parsed, hnil]; rfl), hdecoded ▸ rfl, rfl⟩
  · have hrow : s.work.bwt.row.length = b.indices.length := by rw [hwork]; exact length_mtfRow ..
    have hdecoded : inverseRow s.work.bwt.row s.work.bwt.key = b.decoded := by rw [hwork]; rfl
    have hrun := bwtInvert_eq hdst (by rw [hrow, hwork]; rfl) (by rwa [hrow, ← length_decoded])
    rw [hdecoded, ← bwtDecParsed_of_key_lt (by rw [hwork]; exact hkey)] at hrun
    refine ⟨_, hrun, (emitted_onBwt inverted s).trans (emitted_appendBytes _ _), ?_⟩
    rw [appendBytes_work, State.onBwt_work]

/-- A good block is decoded to the bytes it stands for (43_bwt.md R206). -/
theorem bwtDecBlock_eq {inp : Bytes} {s : State} (hs : Serving inp s) {b : BwtBlock} {more : Bytes} (hb : b.valid = true)
    (hdrop : inp.drop s.work.sc = b.text ++ more) (room : s.dstLen.toNat + b.decoded.length ≤ s.caps.dstCap.val) :
    ∃ t, bwtDecBlock s = .ok () t ∧ Emitted b.decoded s t ∧ t.work.sc = s.work.sc + b.text.length := by
  obtain ⟨hsrc, hdst, rfl⟩ := hs
  have hparsed : Emitted [] s (State.setSc (s.work.sc + b.text.length) (State.onBwt (parsed b) s)) := rfl
  obtain ⟨t, hrun, ht, hsc⟩ := bwtDecParsed_eq (s := State.setSc (s.work.sc + b.text.length) (State.onBwt (parsed b) s))
    hdst hb rfl room
  exact ⟨t, by rw [bwtDecBlock_eq_parsed hsrc hb hdrop, hrun], hparsed.trans ht, hsc⟩

/-! ### The command -/

theorem bwtDecBlocks_succ (k : Nat) : bwtDecBlocks (k + 1) = (do
    let s ← get
    if s.work.sc < s.srcLen.toNat then do
      bwtDecBlock
      bwtDecBlocks k) := rfl

theorem length_le_length_flatMap_text (bs : List BwtBlock) : bs.length ≤ (bs.flatMap BwtBlock.text).length := by
  induction bs with
  | nil => exact Nat.zero_le _
  | cons b bs ih =>
    rw [List.flatMap_cons, List.length_append, List.length_cons]
    have : 1 ≤ b.text.length := by
      simp only [BwtBlock.text, bwtBlockText, List.length_append, List.length_singleton]
      omega
    omega

/-- The loop decodes the blocks it finds in order (43_bwt.md R206). -/
theorem bwtDecBlocks_eq {inp : Bytes} {bs : List BwtBlock} {fuel : Nat} {s : State} (hs : Serving inp s)
    (hvalid : ∀ b ∈ bs, b.valid = true) (hfuel : bs.length ≤ fuel)
    (hdrop : inp.drop s.work.sc = bs.flatMap BwtBlock.text)
    (room : s.dstLen.toNat + (bs.flatMap BwtBlock.decoded).length ≤ s.caps.dstCap.val) :
    ∃ t, bwtDecBlocks fuel s = .ok () t ∧ Emitted (bs.flatMap BwtBlock.decoded) s t := by
  have hlen : inp.length = s.srcLen.toNat := hs.reads ▸ input_length s
  induction bs generalizing s fuel with
  | nil =>
    refine ⟨s, ?_, rfl⟩
    cases fuel with
    | zero => rfl
    | succ k =>
      have hend : ¬ s.work.sc < s.srcLen.toNat := by
        rw [← hlen, Nat.not_lt]
        exact List.drop_eq_nil_iff.mp hdrop
      rw [bwtDecBlocks_succ, cmd_bind_ok (cmd_get s), if_neg hend, cmd_pure]
  | cons b bs ih =>
    obtain ⟨hb, hvalid⟩ := List.forall_mem_cons.mp hvalid
    obtain ⟨k, rfl⟩ : ∃ k, fuel = k + 1 := ⟨fuel - 1, by rw [List.length_cons] at hfuel; omega⟩
    rw [List.flatMap_cons] at hdrop room ⊢
    rw [List.length_append] at room
    obtain ⟨t, hrun, ht, hsc⟩ := bwtDecBlock_eq hs hb hdrop (by omega)
    have hmore : s.work.sc < s.srcLen.toNat := by
      have := length_le_length_flatMap_text (b :: bs)
      rw [List.flatMap_cons, ← hdrop, List.length_drop, List.length_cons] at this
      omega
    have hs' := hs.of_emitted ht
    have hdrop' : inp.drop t.work.sc = bs.flatMap BwtBlock.text := by
      rw [hsc, ← List.drop_drop, hdrop, List.drop_left]
    obtain ⟨u, hrest, hu⟩ := ih hs' hvalid (Nat.le_of_succ_le_succ hfuel) hdrop' (room_left_of_emitted ht room)
      (hs'.reads ▸ input_length t)
    exact ⟨u, by rw [bwtDecBlocks_succ, cmd_bind_ok (cmd_get s), if_pos hmore, cmd_bind_ok hrun, hrest], ht.trans hu⟩

/-- `BWT.DEC` completes on every sequence of good blocks, each with its last `LF`, and emits what they stand for
(43_bwt.md R206). -/
theorem bwtDec_endsOk {s : State} {bs : List BwtBlock} (hs : Ready s) (hinput : input s = bs.flatMap BwtBlock.text)
    (hvalid : ∀ b ∈ bs, b.valid = true) (room : (bs.flatMap BwtBlock.decoded).length ≤ s.caps.dstCap.val) :
    ∃ t, exec .bwtDec s = .next t ∧ EndsOk .bwtDec s t (bs.flatMap BwtBlock.decoded) := by
  obtain ⟨hquiet, hlen⟩ := hs
  have hserving := serving_startCommand hquiet (encode .bwtDec)
  have hfuel : bs.length ≤ s.srcLen.toNat := by
    rw [← input_length, hinput]
    exact length_le_length_flatMap_text bs
  obtain ⟨t, hrun, ht⟩ := bwtDecBlocks_eq (s := State.setSc 0 (startCommand (encode .bwtDec) s))
    (hserving.of_emitted (emitted_setSc 0 _)) hvalid hfuel hinput (by simpa using room)
  refine ⟨_, rfl, endsOk_of_emitted hlen room ?_ ((emitted_setSc 0 _).trans ht)⟩
  rw [bwtDecRule, cmd_bind_ok (cmd_modify ..), cmd_bind_ok (cmd_get _)]
  exact hrun

/-! ### The round trip -/

/-- `BWT.DEC` on the artifact of an input completes with that input (43_bwt.md R208). -/
theorem bwtDec_artifact_endsOk {s : State} {inp : Bytes} (hs : Ready s) (hinput : input s = bwtArtifact inp)
    (room : inp.length ≤ s.caps.dstCap.val) : ∃ t, exec .bwtDec s = .next t ∧ EndsOk .bwtDec s t inp := by
  have hdec := bwtDec_endsOk hs (bs := (blocks inp).map blockOf) (hinput.trans (flatMap_text_blocks inp).symm)
    (fun _ => valid_of_mem_blocks) (by rwa [flatMap_decoded_blocks])
  rwa [flatMap_decoded_blocks] at hdec

/-- Settles O60: `BWT.ENC` writes the artifact, and `BWT.DEC` on the artifact gives the input byte for byte. -/
theorem bwtRoundTrip : Obligations.BwtRoundTrip := by
  unfold Obligations.BwtRoundTrip
  intro s hs room
  obtain ⟨t, hrun, hstatus, -, hout, -⟩ := bwtEnc_endsOk hs room
  refine ⟨t, hrun, hstatus, fun s' hs' hinput room' => bwtDec_artifact_endsOk hs' (hinput.trans hout) ?_⟩
  rwa [input_length]

end Sys2Proof.Bwt
end

section
/-! The Hamming code (44_hamming.md R230 to R236, R239): frames and syndromes are linear in exclusive or, so the distance
of two frames is the weight of a third, and an inverted position shows in the syndrome as its own number; `SixteenFrames`
follows. -/

namespace Sys2Proof.Hamming

open Sys2Proof Sys2Proof.Machine Sys2Proof.Safety Sys2Proof.Artifact

/-! ### Exclusive or -/

theorem framePos_xor (f g : BitVec 7) (k : Nat) : framePos (f ^^^ g) k = (framePos f k ^^ framePos g k) :=
  BitVec.getMsbD_xor

theorem ofBool_append_xor {w : Nat} (a b : Bool) (x y : BitVec w) :
    (BitVec.ofBool a ++ x) ^^^ (BitVec.ofBool b ++ y) = BitVec.ofBool (a ^^ b) ++ (x ^^^ y) := by
  rw [BitVec.xor_append, BitVec.ofBool_xor_ofBool]

theorem frameOf_xor (a1 a2 a3 a4 a5 a6 a7 b1 b2 b3 b4 b5 b6 b7 : Bool) :
    frameOf a1 a2 a3 a4 a5 a6 a7 ^^^ frameOf b1 b2 b3 b4 b5 b6 b7 =
      frameOf (a1 ^^ b1) (a2 ^^ b2) (a3 ^^ b3) (a4 ^^ b4) (a5 ^^ b5) (a6 ^^ b6) (a7 ^^ b7) := by
  simp only [frameOf, ofBool_append_xor (w := 6), ofBool_append_xor (w := 5), ofBool_append_xor (w := 4),
    ofBool_append_xor (w := 3), ofBool_append_xor (w := 2), ofBool_append_xor (w := 1), BitVec.ofBool_xor_ofBool]

/-- The parity bits are sums of data bits (44_hamming.md R231). -/
theorem hamFrame_xor (p q : BitVec 4) : hamFrame (p ^^^ q) = hamFrame p ^^^ hamFrame q := by
  simp only [hamFrame, BitVec.getMsbD_xor, frameOf_xor, Bool.xor_assoc, Bool.xor_left_comm]

/-- The syndrome bits are sums of frame bits (44_hamming.md R234). -/
theorem syndrome_xor (f g : BitVec 7) : syndrome (f ^^^ g) = syndrome f ^^^ syndrome g := by
  simp only [syndrome, framePos_xor, ofBool_append_xor (w := 2), ofBool_append_xor (w := 1), BitVec.ofBool_xor_ofBool,
    Bool.xor_assoc, Bool.xor_left_comm]

/-! ### The sixteen frames (44_hamming.md R232) -/

/-- The positions at which a frame has a 1. -/
def onePositions (f : BitVec 7) : List Nat := (List.range' 1 7).filter (framePos f)

theorem three_le_weight_hamFrame : ∀ q : BitVec 4, q ≠ 0#4 → 3 ≤ (onePositions (hamFrame q)).length := by decide

/-- Two frames differ where the frame of the nibbles' exclusive or has a 1. -/
theorem differing_positions_eq (p q : BitVec 4) :
    (List.range' 1 7).filter (fun k => framePos (hamFrame p) k != framePos (hamFrame q) k) =
      onePositions (hamFrame (p ^^^ q)) := by
  refine List.filter_congr fun k _ => ?_
  rw [hamFrame_xor, framePos_xor, Bool.bne_eq_xor]

/-- Settles O28: the sixteen frames are evaluated, and the distance of two is the weight of the frame of their nibbles'
exclusive or, which is not 0. -/
theorem sixteenFrames : Obligations.SixteenFrames := by
  unfold Obligations.SixteenFrames
  refine ⟨by decide, fun p q hpq => ?_⟩
  rw [differing_positions_eq]
  exact three_le_weight_hamFrame _ (mt BitVec.xor_eq_zero_iff.mp hpq)

/-! ### Correction of one position (44_hamming.md R235, R239) -/

@[simp] theorem flipPos_zero (f : BitVec 7) : flipPos f 0 = f := BitVec.xor_zero

@[simp] theorem flipPos_flipPos (f : BitVec 7) (k : Nat) : flipPos (flipPos f k) k = f := by
  rw [flipPos, flipPos, BitVec.xor_assoc, BitVec.xor_self, BitVec.xor_zero]

theorem hitFrame_eq_flipPos (f : BitVec 7) (k : Fin 8) : hitFrame f k = flipPos f k.val := by
  by_cases hk : k = 0
  · simp [hitFrame, hk]
  · exact if_neg hk

theorem correctFrame_eq_flipPos (f : BitVec 7) (syn : BitVec 3) : correctFrame f syn = flipPos f syn.toNat := by
  by_cases hsyn : syn = 0#3
  · simp [correctFrame, hsyn]
  · exact if_neg hsyn

@[simp] theorem syndrome_hamFrame : ∀ q : BitVec 4, syndrome (hamFrame q) = 0#3 := by decide

@[simp] theorem frameNibble_hamFrame : ∀ q : BitVec 4, frameNibble (hamFrame q) = q := by decide

/-- The one inverted position has its own number for a syndrome (44_hamming.md R234). -/
theorem syndrome_single : ∀ k : Fin 8, syndrome (BitVec.ofNat 7 (2 ^ (7 - k.val))) = BitVec.ofNat 3 k.val := by decide

theorem syndrome_flipPos_hamFrame (q : BitVec 4) (k : Fin 8) :
    (syndrome (flipPos (hamFrame q) k.val)).toNat = k.val := by
  rw [flipPos, syndrome_xor, syndrome_hamFrame, BitVec.zero_xor, syndrome_single, BitVec.toNat_ofNat]
  exact Nat.mod_eq_of_lt k.isLt

/-- One inverted position, or none, is repaired (44_hamming.md R239). -/
theorem decodeFrame_hitFrame_hamFrame (q : BitVec 4) (k : Fin 8) : decodeFrame (hitFrame (hamFrame q) k) = q := by
  rw [decodeFrame, hitFrame_eq_flipPos, correctFrame_eq_flipPos, syndrome_flipPos_hamFrame, flipPos_flipPos,
    frameNibble_hamFrame]

theorem joinNibbles_highNibble_lowNibble (v : Byte) : joinNibbles (highNibble v) (lowNibble v) = v := by
  have hv := v.isLt
  apply BitVec.eq_of_toNat_eq
  simp only [joinNibbles, highNibble, lowNibble, BitVec.toNat_ofNat]
  omega

end Sys2Proof.Hamming
end

section
/-! `HAM.ENC` (44_hamming.md R233): the rule only emits, a unit for each symbol of `Norm(S)`, so the command completes
with the artifact as its output. -/

namespace Sys2Proof.Hamming

open Sys2Proof Sys2Proof.Machine Sys2Proof.Safety Sys2Proof.Artifact
open Sys2Proof.Huffman Sys2Proof.Arithmetic Sys2Proof.Bwt

/-! ### Sequences under the launch premise -/

theorem emitted_onHam (f : HamWork → HamWork) (s : State) : Emitted [] s (State.onHam f s) := rfl

theorem emitStr_emitted {bs : Bytes} {s : State} (hdst : s.dstAnswers = [])
    (room : s.dstLen.toNat + bs.length ≤ s.caps.dstCap.val) : ∃ t, emitStr bs s = .ok () t ∧ Emitted bs s t :=
  ⟨_, emitStr_quiet hdst room, emitted_appendBytes bs s⟩

/-- A part that emits, then another, wherever the first left the state. -/
theorem bind_emitted {m m' : Cmd Unit} {xs ys inp : Bytes} {s : State} (hs : Serving inp s)
    (room : s.dstLen.toNat + (xs ++ ys).length ≤ s.caps.dstCap.val)
    (hm : s.dstLen.toNat + xs.length ≤ s.caps.dstCap.val → ∃ t, m s = .ok () t ∧ Emitted xs s t)
    (hm' : ∀ t, Serving inp t → t.dstLen.toNat + ys.length ≤ t.caps.dstCap.val →
      ∃ u, m' t = .ok () u ∧ Emitted ys t u) :
    ∃ u, (do m; m' : Cmd Unit) s = .ok () u ∧ Emitted (xs ++ ys) s u := by
  rw [List.length_append] at room
  obtain ⟨t, hrun, ht⟩ := hm (by omega)
  obtain ⟨u, hrest, hu⟩ := hm' t (hs.of_emitted ht) (room_left_of_emitted ht room)
  exact ⟨u, by rw [cmd_bind_ok hrun, hrest], ht.trans hu⟩

/-! ### One symbol -/

/-- `NIB` and `FR` set for a nibble. -/
def loadNibble (q : BitVec 4) (h : HamWork) : HamWork := { h with nib := q, fr := hamFrame q }

theorem hamEmitNibble_eq_emitStr (q : BitVec 4) (s : State) :
    hamEmitNibble q s = emitStr (frameChars (hamFrame q)) (State.onHam (loadNibble q) s) := rfl

theorem hamEmitNibble_eq {inp : Bytes} {s : State} (hs : Serving inp s) (q : BitVec 4)
    (room : s.dstLen.toNat + (frameChars (hamFrame q)).length ≤ s.caps.dstCap.val) :
    ∃ t, hamEmitNibble q s = .ok () t ∧ Emitted (frameChars (hamFrame q)) s t := by
  obtain ⟨t, hrun, ht⟩ := emitStr_emitted (s := State.onHam (loadNibble q) s) hs.dst room
  exact ⟨t, by rw [hamEmitNibble_eq_emitStr, hrun], (emitted_onHam _ s).trans ht⟩

/-- The `LF` behind the unit of an `LF` (44_hamming.md R233). -/
theorem emit_LF_if_eq {inp : Bytes} {s : State} (hs : Serving inp s) (v : Byte)
    (room : s.dstLen.toNat + (if v = LF then [LF] else []).length ≤ s.caps.dstCap.val) :
    ∃ t, (if v = LF then emit LF else pure () : Cmd Unit) s = .ok () t ∧ Emitted (if v = LF then [LF] else []) s t := by
  by_cases hv : v = LF
  · simp only [hv, if_true, ← emitStr_singleton LF] at room ⊢
    exact emitStr_emitted hs.dst room
  · simp only [hv, if_false]
    exact ⟨s, rfl, rfl⟩

/-- A symbol is coded as its text (44_hamming.md R233). -/
theorem hamEncSymbol_eq {inp : Bytes} {s : State} (hs : Serving inp s) (v : Byte)
    (room : s.dstLen.toNat + (hamSymbolText v).length ≤ s.caps.dstCap.val) :
    ∃ t, hamEncSymbol v s = .ok () t ∧ Emitted (hamSymbolText v) s t := by
  rw [hamSymbolText, hamUnit, List.append_assoc] at room ⊢
  exact bind_emitted hs room (hamEmitNibble_eq hs _) fun s₁ hs₁ room₁ =>
    bind_emitted hs₁ room₁ (hamEmitNibble_eq hs₁ _) fun s₂ hs₂ => emit_LF_if_eq hs₂ v

/-! ### The command -/

theorem symbolAt_eq_getD (s : State) (i : Nat) : symbolAt s i = (input s).getD i LF := by
  by_cases hi : i < s.srcLen.toNat <;> simp [symbolAt, input, hi]

theorem flatMap_hamSymbolText_range (s : State) :
    (List.range' 0 (norm (input s)).length).flatMap (fun i => hamSymbolText (symbolAt s i)) =
      hamArtifact (input s) := by
  rw [hamArtifact, ← List.range_eq_range', ← List.flatMap_map (f := symbolAt s), map_symbolAt_norm]

theorem hamEncRule_eq {inp : Bytes} {s : State} (hs : Serving inp s)
    (room : s.dstLen.toNat + (hamArtifact inp).length ≤ s.caps.dstCap.val) :
    ∃ t, hamEncRule s = .ok () t ∧ Emitted (hamArtifact inp) s t := by
  obtain rfl := hs.reads
  rw [← flatMap_hamSymbolText_range] at room ⊢
  rw [hamEncRule, cmd_bind_ok (normLen_eq hs.src), forRange_eq_forEach]
  refine forEach_emitted hs room fun i _ s₁ hs₁ room₁ => ?_
  rw [cmd_bind_ok (normSym_eq hs₁.src i)]
  rw [symbolAt_eq_getD s, ← hs₁.reads, ← symbolAt_eq_getD s₁] at room₁ ⊢
  exact hamEncSymbol_eq hs₁ _ room₁

/-- `HAM.ENC` completes on every input whose artifact fits, with the artifact as its output (44_hamming.md R233). -/
theorem hamEnc_endsOk {s : State} (hs : Ready s) (room : (hamArtifact (input s)).length ≤ s.caps.dstCap.val) :
    ∃ t, exec .hamEnc s = .next t ∧ EndsOk .hamEnc s t (hamArtifact (input s)) := by
  obtain ⟨hquiet, hlen⟩ := hs
  obtain ⟨t, hrun, ht⟩ := hamEncRule_eq (serving_startCommand hquiet (encode .hamEnc)) (by simpa using room)
  exact ⟨_, rfl, endsOk_of_emitted hlen room hrun ht⟩

end Sys2Proof.Hamming
end

section
/-! `HAM.DEC` (44_hamming.md R236, R237): a received unit is decoded to its byte, a line to the bytes of its units, and
the command completes on every sequence of lines. -/

namespace Sys2Proof.Hamming

open Sys2Proof Sys2Proof.Machine Sys2Proof.Safety Sys2Proof.Artifact
open Sys2Proof.Huffman Sys2Proof.Arithmetic Sys2Proof.Bwt

/-! ### The text of a frame and of units -/

@[simp] theorem length_frameChars (f : BitVec 7) : (frameChars f).length = 7 := length_bin ..

theorem frameBits_frameChars (f : BitVec 7) : frameBits (frameChars f) = f := by
  rw [frameBits, frameChars, val_bin f.isLt, BitVec.ofNat_toNat, BitVec.setWidth_eq]

theorem isBits_append (xs ys : Bytes) : isBits (xs ++ ys) = (isBits xs && isBits ys) := List.all_append

theorem unitsText_cons (u : BitVec 7 × BitVec 7) (us : List (BitVec 7 × BitVec 7)) :
    unitsText (u :: us) = frameChars u.1 ++ frameChars u.2 ++ unitsText us := rfl

@[simp] theorem length_unitsText (us : List (BitVec 7 × BitVec 7)) : (unitsText us).length = 14 * us.length := by
  induction us with
  | nil => rfl
  | cons u us ih =>
    simp only [unitsText_cons, List.length_append, length_frameChars, ih, List.length_cons]
    omega

theorem isBits_unitText (f g : BitVec 7) : isBits (frameChars f ++ frameChars g) = true := by
  rw [isBits_append, frameChars, frameChars, isBits_bin, isBits_bin, Bool.and_self]

theorem isBits_unitsText (us : List (BitVec 7 × BitVec 7)) : isBits (unitsText us) = true := by
  induction us with
  | nil => rfl
  | cons u us ih => rw [unitsText_cons, isBits_append, isBits_unitText, ih, Bool.and_self]

/-! ### One unit (44_hamming.md R236) -/

/-- The working registers after a frame was decoded. -/
def frameDecoded (f : BitVec 7) : HamWork where
  fr := correctFrame f (syndrome f)
  syn := syndrome f
  nib := decodeFrame f

theorem hamDecodeFrame_eq (f : BitVec 7) (s : State) :
    hamDecodeFrame (frameChars f) s = .ok (decodeFrame f) (State.onHam (fun _ => frameDecoded f) s) := by
  simp only [hamDecodeFrame, frameBits_frameChars, cmd_bind, cmd_modify, cmd_get, cmd_pure]
  rfl

theorem hamDecUnit_eq_emit (f g : BitVec 7) (s : State) :
    hamDecUnit (frameChars f ++ frameChars g) s =
      emit (decodeUnit f g) (State.onHam (fun _ => frameDecoded g) s) := by
  rw [hamDecUnit, List.take_left' (length_frameChars f), List.drop_left' (length_frameChars f)]
  simp only [isBits_unitText, Bool.true_eq_false, if_false, cmd_bind, hamDecodeFrame_eq]
  rfl

theorem hamDecUnit_eq {inp : Bytes} {s : State} (hs : Serving inp s) (f g : BitVec 7)
    (room : s.dstLen.toNat + 1 ≤ s.caps.dstCap.val) :
    ∃ t, hamDecUnit (frameChars f ++ frameChars g) s = .ok () t ∧ Emitted [decodeUnit f g] s t := by
  obtain ⟨t, hrun, ht⟩ :=
    emitStr_emitted (bs := [decodeUnit f g]) (s := State.onHam (fun _ => frameDecoded g) s) hs.dst room
  exact ⟨t, by rw [hamDecUnit_eq_emit, ← emitStr_singleton, hrun], (emitted_onHam _ s).trans ht⟩

/-! ### One line (44_hamming.md R237) -/

/-- The text of a line of received units, its `LF` included. -/
def lineText (us : List (BitVec 7 × BitVec 7)) : Bytes := unitsText us ++ [LF]

@[simp] theorem length_lineText (us : List (BitVec 7 × BitVec 7)) : (lineText us).length = 14 * us.length + 1 := by
  rw [lineText, List.length_append, length_unitsText, List.length_singleton]

/-- The loop over a line decodes the units at their places. -/
theorem forRange_hamDecUnit_eq {us : List (BitVec 7 × BitVec 7)} {a k : Nat} {inp more : Bytes} {s : State}
    (hs : Serving inp s) (hdrop : inp.drop (a + 14 * k) = unitsText us ++ more)
    (room : s.dstLen.toNat + (decodeUnits us).length ≤ s.caps.dstCap.val) :
    ∃ t, forRange k us.length (fun u => do
      let unit ← bytesOf (a + Config.UNIT * u) (a + Config.UNIT * u + Config.UNIT)
      hamDecUnit unit) s = .ok () t ∧ Emitted (decodeUnits us) s t := by
  induction us generalizing s k with
  | nil => exact ⟨s, rfl, rfl⟩
  | cons u us ih =>
    have hlen : (frameChars u.1 ++ frameChars u.2).length = 14 := length_unitsText [u]
    rw [unitsText_cons, List.append_assoc] at hdrop
    have hread : bytesOf (a + 14 * k) (a + 14 * k + 14) s = .ok (frameChars u.1 ++ frameChars u.2) s :=
      hlen ▸ bytesOf_eq hs.src (by rw [hs.reads]; exact hdrop)
    have hdrop' : inp.drop (a + 14 * (k + 1)) = unitsText us ++ more := by
      rw [Nat.mul_succ, ← Nat.add_assoc, ← List.drop_drop, hdrop, List.drop_left' hlen]
    rw [List.length_cons, forRange_succ]
    refine bind_emitted (xs := [decodeUnit u.1 u.2]) hs room (fun room₁ => ?_) fun t ht room₂ => ih ht hdrop' room₂
    rw [cmd_bind_ok hread]
    exact hamDecUnit_eq hs _ _ room₁

/-- A line that ends in `LF` is decoded to its units' bytes, and `SC` is behind its `LF`. -/
theorem hamDecLine_eq {us : List (BitVec 7 × BitVec 7)} {inp more : Bytes} {s : State} (hs : Serving inp s)
    (hdrop : inp.drop s.work.sc = lineText us ++ more)
    (room : s.dstLen.toNat + (decodeUnits us).length ≤ s.caps.dstCap.val) :
    ∃ t, hamDecLine s = .ok () t ∧ Emitted (decodeUnits us) s t ∧ t.work.sc = s.work.sc + (lineText us).length := by
  rw [lineText, List.append_assoc] at hdrop
  have hfound : findLF s.work.sc s = .ok (some (s.work.sc + 14 * us.length)) s :=
    length_unitsText us ▸
      findLF_eq_some hs.src (LF_notMem_of_isBits (isBits_unitsText us)) (by rw [hs.reads]; exact hdrop)
  have hgood : ¬ 14 * us.length % 14 ≠ 0 := by omega
  have hcount : 14 * us.length / 14 = us.length := by omega
  obtain ⟨t, hrun, ht⟩ := forRange_hamDecUnit_eq (k := 0) hs hdrop room
  refine ⟨State.setSc (s.work.sc + 14 * us.length + 1) t, ?_, ?_, ?_⟩
  · simp only [hamDecLine, cmd_bind, cmd_get, cmd_modify, hfound, Option.getD_some, Nat.add_sub_cancel_left,
      Config.UNIT, hgood, hcount, if_false]
    rw [hrun]
  · simpa using ht.trans (emitted_setSc _ t)
  · rw [length_lineText, ← Nat.add_assoc]
    rfl

/-! ### The command -/

theorem hamDecLines_succ (k : Nat) : hamDecLines (k + 1) = (do
    let s ← get
    if s.work.sc < s.srcLen.toNat then do
      hamDecLine
      hamDecLines k) := rfl

theorem length_le_length_flatMap_lineText (ls : List (List (BitVec 7 × BitVec 7))) :
    ls.length ≤ (ls.flatMap lineText).length := by
  induction ls with
  | nil => exact Nat.zero_le _
  | cons us ls ih =>
    rw [List.flatMap_cons, List.length_append, List.length_cons, length_lineText]
    omega

theorem hamDecLines_at_end (fuel : Nat) {s : State} (h : s.srcLen.toNat ≤ s.work.sc) :
    hamDecLines fuel s = .ok () s := by
  cases fuel with
  | zero => rfl
  | succ k => rw [hamDecLines_succ, cmd_bind_ok (cmd_get s), if_neg (Nat.not_lt.mpr h), cmd_pure]

/-- The loop decodes the lines it finds in order (44_hamming.md R237). -/
theorem hamDecLines_eq {inp : Bytes} {ls : List (List (BitVec 7 × BitVec 7))} {fuel : Nat} {s : State}
    (hs : Serving inp s) (hfuel : ls.length ≤ fuel) (hdrop : inp.drop s.work.sc = ls.flatMap lineText)
    (room : s.dstLen.toNat + (ls.flatMap decodeUnits).length ≤ s.caps.dstCap.val) :
    ∃ t, hamDecLines fuel s = .ok () t ∧ Emitted (ls.flatMap decodeUnits) s t := by
  have hlen : inp.length = s.srcLen.toNat := hs.reads ▸ input_length s
  induction ls generalizing s fuel with
  | nil => exact ⟨s, hamDecLines_at_end fuel (hlen ▸ List.drop_eq_nil_iff.mp hdrop), rfl⟩
  | cons us ls ih =>
    obtain ⟨k, rfl⟩ : ∃ k, fuel = k + 1 := ⟨fuel - 1, by rw [List.length_cons] at hfuel; omega⟩
    have hmore : s.work.sc < s.srcLen.toNat := by
      have := length_le_length_flatMap_lineText (us :: ls)
      rw [← hdrop, List.length_drop, List.length_cons] at this
      omega
    rw [List.flatMap_cons] at hdrop room ⊢
    rw [List.length_append] at room
    obtain ⟨t, hrun, ht, hsc⟩ := hamDecLine_eq hs hdrop (by omega)
    have hs' := hs.of_emitted ht
    have hdrop' : inp.drop t.work.sc = ls.flatMap lineText := by
      rw [hsc, ← List.drop_drop, hdrop, List.drop_left]
    obtain ⟨u, hrest, hu⟩ := ih hs' (Nat.le_of_succ_le_succ hfuel) hdrop' (room_left_of_emitted ht room)
      (hs'.reads ▸ input_length t)
    exact ⟨u, by rw [hamDecLines_succ, cmd_bind_ok (cmd_get s), if_pos hmore, cmd_bind_ok hrun, hrest], ht.trans hu⟩

/-- `HAM.DEC` completes on every sequence of lines of received units, each with its `LF`, and emits the units' bytes
(44_hamming.md R237). -/
theorem hamDec_endsOk {s : State} {ls : List (List (BitVec 7 × BitVec 7))} (hs : Ready s)
    (hinput : input s = ls.flatMap lineText) (room : (ls.flatMap decodeUnits).length ≤ s.caps.dstCap.val) :
    ∃ t, exec .hamDec s = .next t ∧ EndsOk .hamDec s t (ls.flatMap decodeUnits) := by
  obtain ⟨hquiet, hlen⟩ := hs
  have hfuel : ls.length ≤ s.srcLen.toNat := by
    rw [← input_length, hinput]
    exact length_le_length_flatMap_lineText ls
  obtain ⟨t, hrun, ht⟩ := hamDecLines_eq (s := State.setSc 0 (startCommand (encode .hamDec) s))
    ((serving_startCommand hquiet _).of_emitted (emitted_setSc 0 _)) hfuel hinput (by simpa using room)
  refine ⟨_, rfl, endsOk_of_emitted hlen room ?_ ((emitted_setSc 0 _).trans ht)⟩
  rw [hamDecRule, cmd_bind_ok (cmd_modify ..), cmd_bind_ok (cmd_get _)]
  exact hrun

end Sys2Proof.Hamming
end

section
/-! The round trip of engine HAM, with at most one inverted character in each frame (44_hamming.md R239, R240): a copy of
the artifact is a sequence of lines of units that each decode to the symbol coded; `HamRoundTripWithOneErrorPerFrame`
follows. -/

namespace Sys2Proof.Hamming

open Sys2Proof Sys2Proof.Machine Sys2Proof.Safety Sys2Proof.Artifact

/-! ### A copy of the artifact as lines of units -/

/-- The unit received for a symbol, with a hit or none in each frame (44_hamming.md R239). -/
def hitUnit (p : Byte × (Fin 8 × Fin 8)) : BitVec 7 × BitVec 7 :=
  (hitFrame (hamFrame (highNibble p.1)) p.2.1, hitFrame (hamFrame (lowNibble p.1)) p.2.2)

theorem decodeUnit_hitUnit (p : Byte × (Fin 8 × Fin 8)) : decodeUnit (hitUnit p).1 (hitUnit p).2 = p.1 := by
  simp only [decodeUnit, hitUnit, decodeFrame_hitFrame_hamFrame, joinNibbles_highNibble_lowNibble]

theorem decodeUnits_map_hitUnit (syms : List (Byte × (Fin 8 × Fin 8))) :
    decodeUnits (syms.map hitUnit) = syms.map Prod.fst := by
  rw [decodeUnits, List.map_map]
  exact List.map_congr_left fun p _ => decodeUnit_hitUnit p

theorem hitArtifact_append (xs ys : List (Byte × (Fin 8 × Fin 8))) :
    hitArtifact (xs ++ ys) = hitArtifact xs ++ hitArtifact ys := List.flatMap_append

theorem hitArtifact_of_LF_notMem {syms : List (Byte × (Fin 8 × Fin 8))} (h : LF ∉ syms.map Prod.fst) :
    hitArtifact syms = unitsText (syms.map hitUnit) := by
  rw [hitArtifact, unitsText, List.flatMap_map]
  refine List.flatMap_congr fun p hp => ?_
  have hne : p.1 ≠ LF := fun heq => h (heq ▸ List.mem_map_of_mem hp)
  simp [hitSymbolText, hitUnit, hne]

/-- The symbols of a line and its `LF` become a line of units: the `LF` is coded as a unit, then written out. -/
theorem hitArtifact_line {syms : List (Byte × (Fin 8 × Fin 8))} (h : LF ∉ syms.map Prod.fst) (hit : Fin 8 × Fin 8) :
    hitArtifact (syms ++ [(LF, hit)]) = lineText ((syms ++ [(LF, hit)]).map hitUnit) := by
  rw [hitArtifact_append, hitArtifact_of_LF_notMem h]
  simp [hitArtifact, hitSymbolText, lineText, unitsText, hitUnit]

theorem exists_lines_of_hitArtifact {ls : List Bytes} (hls : ∀ l ∈ ls, LF ∉ l) {syms : List (Byte × (Fin 8 × Fin 8))}
    (hsyms : syms.map Prod.fst = ls.flatMap (fun l => l ++ [LF])) :
    ∃ us : List (List (BitVec 7 × BitVec 7)),
      hitArtifact syms = us.flatMap lineText ∧ us.flatMap decodeUnits = syms.map Prod.fst := by
  induction ls generalizing syms with
  | nil =>
    obtain rfl : syms = [] := List.map_eq_nil_iff.mp hsyms
    exact ⟨[], rfl, rfl⟩
  | cons l ls ih =>
    obtain ⟨hl, hls⟩ := List.forall_mem_cons.mp hls
    rw [List.flatMap_cons] at hsyms
    obtain ⟨line, rest, rfl, hline, hrest⟩ := List.map_eq_append_iff.mp hsyms
    obtain ⟨us, htext, hdecoded⟩ := ih hls hrest
    obtain ⟨line, lf, rfl, rfl, hlf⟩ := List.map_eq_append_iff.mp hline
    obtain ⟨⟨c, hit⟩, rfl, rfl⟩ := List.map_eq_singleton_iff.mp hlf
    refine ⟨(line ++ [(LF, hit)]).map hitUnit :: us, ?_, ?_⟩
    · rw [hitArtifact_append, hitArtifact_line hl, htext, List.flatMap_cons]
    · rw [List.flatMap_cons, decodeUnits_map_hitUnit, hdecoded, ← List.map_append]

/-- The artifact itself is the copy without a hit. -/
theorem hamArtifact_eq_hitArtifact (s : Bytes) : hamArtifact s = hitArtifact ((norm s).map fun v => (v, (0, 0))) := by
  rw [hamArtifact, hitArtifact, List.flatMap_map]
  rfl

/-! ### The round trip -/

/-- `HAM.DEC` on a copy of the artifact with at most one hit in each frame completes with `Norm(S)` (44_hamming.md R239,
R240). -/
theorem hamDec_hitArtifact_endsOk {s : State} {inp : Bytes} {syms : List (Byte × (Fin 8 × Fin 8))} (hs : Ready s)
    (hsyms : syms.map Prod.fst = norm inp) (hinput : input s = hitArtifact syms)
    (room : (norm inp).length ≤ s.caps.dstCap.val) : ∃ t, exec .hamDec s = .next t ∧ EndsOk .hamDec s t (norm inp) := by
  obtain ⟨us, htext, hdecoded⟩ := exists_lines_of_hitArtifact (fun _ => LF_notMem_of_mem_lines) hsyms
  rw [hsyms] at hdecoded
  rw [← hdecoded] at room ⊢
  exact hamDec_endsOk hs (hinput.trans htext) room

/-- Settles O34: `HAM.ENC` writes the artifact, and the artifact and every copy with one hit in each frame decode to
`Norm(S)`. -/
theorem hamRoundTripWithOneErrorPerFrame : Obligations.HamRoundTripWithOneErrorPerFrame := by
  unfold Obligations.HamRoundTripWithOneErrorPerFrame
  intro s hs room
  obtain ⟨t, hrun, hstatus, -, hout, -⟩ := hamEnc_endsOk hs room
  refine ⟨t, hrun, hstatus, fun s' hs' hinput room' => ?_⟩
  obtain hsame | ⟨syms, hsyms, hhit⟩ := hinput
  · refine hamDec_hitArtifact_endsOk hs' ?_ ((hsame.trans hout).trans (hamArtifact_eq_hitArtifact _)) room'
    rw [List.map_map]
    exact List.map_id _
  · exact hamDec_hitArtifact_endsOk hs' hsyms hhit room'

end Sys2Proof.Hamming
end

section
/-! The visit sequence of a block's row (43_bwt.md R204, R205): its positions hold the rotations of the block in turn, so for
a block whose rotations are all different no position is visited twice. `InverseRecoversTheBlock` and the statements about
the sorter, the next pointers and move-to-front follow from the laws of the engine. -/

namespace Sys2Proof.Bwt

open Sys2Proof Sys2Proof.Machine Sys2Proof.Artifact Sys2Proof.Huffman

/-! ### The statements proved along the round trip -/

/-- Settles O54: every read-out step turns the rotation back by one symbol. -/
theorem inverseRecoversTheBlock : Obligations.InverseRecoversTheBlock := inverseRow_transformedRow

/-- Settles O53: the entries of `NEXT` are the stable ranks' inverse. -/
theorem nextPointersArePermutation : Obligations.NextPointersArePermutation := nextPointers_perm

/-- Settles O56: the index of a symbol in the list leads back to it, and moving it to the front only permutes the list. -/
theorem moveToFrontRoundTrip : Obligations.MoveToFrontRoundTrip := fun mtf row h =>
  ⟨mtfRow_mtfIndices h, length_mtfIndices mtf row, fun _ => lt_length_of_mem_mtfIndices h⟩

/-- Settles O57. -/
theorem bwtEncWritesTheArtifact : Obligations.BwtEncWritesTheArtifact := fun _ => bwtEnc_endsOk

/-! ### The visit sequence (43_bwt.md R205) -/

theorem lt_length_of_mem_visits {x : Bytes} {count p : Nat} (hp : p < x.length) {q : Nat}
    (hq : q ∈ visits (nextOf x) count p) : q < x.length := by
  induction count generalizing p with
  | zero => exact absurd hq List.not_mem_nil
  | succ count ih =>
    obtain rfl | hq := List.mem_cons.mp hq
    · exact hp
    · exact ih (getD_nextOf_lt hp) hq

/-- Each position visited holds the rotation one symbol further on than the position before. -/
theorem map_sortedRow_visits {x : Bytes} {count k p : Nat} (hp : p < x.length) (hrow : sortedRow x p = x.rotate k) :
    (visits (nextOf x) count p).map (sortedRow x) = (List.range' k count).map x.rotate := by
  induction count generalizing k p with
  | zero => rfl
  | succ count ih =>
    have hnext : sortedRow x ((nextOf x).getD p 0) = x.rotate (k + 1) := by
      rw [sortedRow_getD_nextOf hp, hrow, List.rotate_rotate]
    rw [visits, List.map_cons, hrow, ih (getD_nextOf_lt hp) hnext, List.range'_succ, List.map_cons]

/-- The rotations of a primitive block are different from any offset on. -/
theorem nodup_map_rotate {x : Bytes}
    (h : ∀ i j : Nat, i < x.length → j < x.length → i ≠ j → rotation x i ≠ rotation x j) (k : Nat) :
    ((List.range' k x.length).map x.rotate).Nodup := by
  refine List.Nodup.map_on (fun i hi j hj heq => ?_) List.nodup_range'
  obtain ⟨hik, hi⟩ := List.mem_range'_1.mp hi
  obtain ⟨hjk, hj⟩ := List.mem_range'_1.mp hj
  have hpos : 0 < x.length := by omega
  have hmod : i % x.length = j % x.length := by
    by_contra hne
    refine h _ _ (Nat.mod_lt i hpos) (Nat.mod_lt j hpos) hne ?_
    rw [rotation_eq_rotate (Nat.mod_lt i hpos).le, rotation_eq_rotate (Nat.mod_lt j hpos).le, List.rotate_mod,
      List.rotate_mod, heq]
  have hsub : (i - k) % x.length = (j - k) % x.length := by
    have hcongr : k + (i - k) ≡ k + (j - k) [MOD x.length] := by
      rwa [Nat.add_sub_cancel' hik, Nat.add_sub_cancel' hjk]
    exact Nat.ModEq.add_left_cancel' k hcongr
  rw [Nat.mod_eq_of_lt (by omega), Nat.mod_eq_of_lt (by omega)] at hsub
  omega

/-- Settles O55: the visited positions hold different rotations, so they are different. -/
theorem primitiveBlockVisitsEachPositionOnce : Obligations.PrimitiveBlockVisitsEachPositionOnce := by
  unfold Obligations.PrimitiveBlockVisitsEachPositionOnce
  intro x hprim
  by_cases hx : x = []
  · subst hx
    rfl
  have hkey := keyIndex_lt hx
  have hfirst := getD_nextOf_lt hkey
  have hrow : sortedRow x ((nextOf x).getD (keyIndex (sortRotations x)) 0) = x.rotate 1 := by
    rw [sortedRow_getD_nextOf hkey, sortedRow, List.getD_eq_getElem?_getD, getElem?_keyIndex hx, Option.getD_some]
  rw [visitSequence, length_transformedRow, ← nextOf]
  have hnodup : (visits (nextOf x) x.length ((nextOf x).getD (keyIndex (sortRotations x)) 0)).Nodup :=
    .of_map (sortedRow x) (map_sortedRow_visits hfirst hrow ▸ nodup_map_rotate hprim 1)
  have hsub : visits (nextOf x) x.length ((nextOf x).getD (keyIndex (sortRotations x)) 0) ⊆ List.range x.length :=
    fun q hq => List.mem_range.mpr (lt_length_of_mem_visits hfirst hq)
  exact (hnodup.subperm hsub).perm_of_length_le (by rw [List.length_range, length_visits])

/-! ### The sorter (43_bwt.md R192, R193) -/

theorem pairwise_rotBefore_sortRotations (x : Bytes) :
    (sortRotations x).Pairwise fun i j => rotBefore x i j = true := by
  have hle : (sortRotations x).Pairwise fun i j => rotBefore x j i = false := by
    have htotal : Std.Total fun i j => rotBefore x j i = false :=
      ⟨fun i j => by simpa only [rotBefore_eq_false_iff] using le_total (sortKey x i) (sortKey x j)⟩
    have htrans : IsTrans Nat fun i j => rotBefore x j i = false :=
      ⟨fun i j k => by simpa only [rotBefore_eq_false_iff] using le_trans⟩
    exact List.pairwise_insertionSort _ _
  have hnodup : (sortRotations x).Nodup := (sortRotations_perm x).nodup_iff.mpr List.nodup_range
  refine (hle.and hnodup).imp fun {i j} ⟨hij, hne⟩ => ?_
  rw [rotBefore_iff]
  refine lt_of_le_of_ne ((rotBefore_eq_false_iff x i j).mp hij) fun heq => hne ?_
  exact congrArg (fun k => (ofLex k).2) heq

/-- Settles O52: what stands before offset 0 in the sorted order has a smaller rotation, for no offset is smaller. -/
theorem rotationsAreSorted : Obligations.RotationsAreSorted := by
  unfold Obligations.RotationsAreSorted
  refine fun x => ⟨sortRotations_perm x, pairwise_rotBefore_sortRotations x, fun hx => ?_⟩
  have hmem : 0 ∈ sortRotations x := mem_sortRotations.mpr (List.length_pos_iff.mpr hx)
  have hkey : (sortRotations x)[keyIndex (sortRotations x)]? = some 0 := List.getElem?_idxOf hmem
  have hzero : rotation x 0 = x := by simp [Machine.rotation]
  refine ⟨0, hkey, hzero, fun p k hp hk heq => ?_⟩
  obtain ⟨hplt, hpk⟩ := List.getElem?_eq_some_iff.mp hk
  obtain ⟨hqlt, hq0⟩ := List.getElem?_eq_some_iff.mp hkey
  have hbefore := List.pairwise_iff_getElem.mp (pairwise_rotBefore_sortRotations x) p _ hplt hqlt hp
  rw [hpk, hq0, rotBefore_iff, sortKey, sortKey, heq, hzero, Prod.Lex.toLex_lt_toLex] at hbefore
  simp at hbefore

/-! ### The code width (30_encoding.md R83) -/

theorem clog2_le {n k : Nat} (h : n ≤ 2 ^ k) : clog2 n ≤ k := by
  rw [clog2]
  cases hfind : (List.range (n + 1)).find? (fun k => decide (n ≤ 2 ^ k)) with
  | none => exact Nat.zero_le k
  | some j =>
    by_contra hlt
    obtain ⟨-, i, hi, hget, hmin⟩ := List.find?_eq_some_iff_getElem.mp hfind
    simp only [List.getElem_range] at hget hmin
    rw [Option.getD_some, Nat.not_le] at hlt
    simpa [h] using hmin k (hget ▸ hlt)

/-- Settles O26: the search of `clog2` goes upwards, so what it finds is the least exponent. -/
theorem codeWidthHoldsEveryIndex : Obligations.CodeWidthHoldsEveryIndex := by
  unfold Obligations.CodeWidthHoldsEveryIndex
  refine ⟨fun n _ => ⟨le_two_pow_clog2 n, fun k => clog2_le⟩, fun n hn => ⟨codeWidth_pos n, ?_, fun hmax => ?_⟩⟩
  · have := lt_two_pow_codeWidth (Nat.sub_lt hn Nat.zero_lt_one)
    omega
  · exact max_le (by decide) (clog2_le (k := 8) hmax)

end Sys2Proof.Bwt
end

section
/-! The host's accesses (10_state.md R20 to R24, 20_memory.md R50, R51, 40_command_dispatch.md R100): what one step does for
each of them, and the host program `LOAD` as a run of steps. -/

namespace Sys2Proof.Machine

open Sys2Proof Sys2Proof.Safety Sys2Proof.Huffman

/-! ### One step -/

theorem step_cons {s : State} {op : HostOp} {rest : List HostOp} (h : s.host = op :: rest) :
    step s = hostAccess exec op (State.takeHost rest s) := by
  rw [step, h]

@[simp] theorem isBusy_takeHost (rest : List HostOp) (s : State) : isBusy (State.takeHost rest s) = isBusy s := rfl

theorem isBusy_of_busy {s : State} (h : s.status.state = .busy) : isBusy s = true := by
  rw [isBusy, h]
  rfl

/-- Settles O2, each word decoded as written. -/
theorem writtenOutWordsDecode : Obligations.WrittenOutWordsDecode := by
  unfold Obligations.WrittenOutWordsDecode
  decide

/-- Settles O3. -/
theorem stepRunsTheDecodedCommand : Obligations.StepRunsTheDecodedCommand := by
  unfold Obligations.StepRunsTheDecodedCommand
  intro s w rest i hhost hbusy hdecode _
  rw [step_writeReg_offCmd hhost hbusy, issueCommand, hdecode]
  rfl

/-- Settles O5: a read answers `regWord`, a write stores `SRC_LEN` or is ignored. -/
theorem registerReadsAndWrites : Obligations.RegisterReadsAndWrites := by
  unfold Obligations.RegisterReadsAndWrites
  intro s off w rest
  refine ⟨fun hhost hbusy => ?_, fun hhost hbusy => ?_, fun hhost h0 h8 => ?_⟩
  · have hidle := (isBusy_eq_false_iff s).mpr hbusy
    simp only [step_cons hhost, hostAccess, hostReadReg, isBusy_takeHost, hidle, Bool.false_and, Bool.false_eq_true, if_false]
    rfl
  · have hidle := (isBusy_eq_false_iff s).mpr hbusy
    simp only [step_cons hhost, hostAccess, hostWriteReg, isBusy_takeHost, hidle, Bool.false_eq_true, if_false]
    rfl
  · simp only [step_cons hhost, hostAccess, hostWriteReg, offCmd, offSrcLen, h0, h8, if_false]
    rfl

/-- Settles O8: the three writes that test for BUSY. -/
theorem busyRefusesHostWrites : Obligations.BusyRefusesHostWrites := by
  unfold Obligations.BusyRefusesHostWrites
  intro s rest hbusy
  have hb := isBusy_of_busy hbusy
  refine ⟨fun w hhost => ?_, fun w hhost => ?_, fun a v hhost => ?_⟩
  · simp only [step_cons hhost, hostAccess, hostWriteReg, isBusy_takeHost, hb, if_true]
  · simp only [step_cons hhost, hostAccess, hostWriteReg, isBusy_takeHost, hb, if_true]
    rfl
  · simp only [step_cons hhost, hostAccess, hostWriteSrc, isBusy_takeHost, hb, if_true]

/-! ### Buffer cells -/

theorem step_writeSrc {s : State} {a : Nat} {v : Byte} {rest : List HostOp} (hhost : s.host = .writeSrc a v :: rest)
    (hbusy : s.status.state ≠ .busy) (ha : a < s.caps.srcCap.val) :
    step s = .next { State.takeHost rest s with src := Memory.write s.src a v } := by
  have hidle := (isBusy_eq_false_iff s).mpr hbusy
  simp only [step_cons hhost, hostAccess, hostWriteSrc, isBusy_takeHost, hidle, Bool.false_eq_true, if_false,
    State.takeHost_caps, ha, if_true]
  rfl

theorem srcCell_of_src_eq_write {s t : State} {a : Nat} {v : Byte} (h : t.src = Memory.write s.src a v) (b : Nat) :
    srcCell t b = if b = a then v else srcCell s b := by
  rw [srcCell, h, Memory.read_write]
  split <;> rfl

/-- Settles O6, by the law of a read after a write. -/
theorem hostWritesOneSrcCell : Obligations.HostWritesOneSrcCell := by
  unfold Obligations.HostWritesOneSrcCell
  intro s a v rest hhost hbusy
  refine ⟨fun ha => ⟨_, step_writeSrc hhost hbusy ha, ?_, fun b hb => ?_, rfl⟩, fun ha => ?_⟩
  · rw [srcCell_of_src_eq_write rfl, if_pos rfl]
  · rw [srcCell_of_src_eq_write rfl, if_neg hb]
  · have hidle := (isBusy_eq_false_iff s).mpr hbusy
    simp only [step_cons hhost, hostAccess, hostWriteSrc, isBusy_takeHost, hidle, Bool.false_eq_true, if_false,
      State.takeHost_caps, Nat.not_lt.mpr ha]

/-- Settles O7. -/
theorem hostReadsOneDstCell : Obligations.HostReadsOneDstCell := by
  unfold Obligations.HostReadsOneDstCell
  intro s a rest hhost hbusy
  have hidle := (isBusy_eq_false_iff s).mpr hbusy
  refine ⟨fun ha => ?_, fun ha => ?_⟩
  · simp only [step_cons hhost, hostAccess, hostReadDst, isBusy_takeHost, hidle, Bool.false_eq_true, if_false,
      State.takeHost_caps, ha, if_true]
    rfl
  · simp only [step_cons hhost, hostAccess, hostReadDst, State.takeHost_caps, Nat.not_lt.mpr ha, if_false]

/-! ### `LOAD` (30_encoding.md R74) -/

/-- `m` steps, then `n`. -/
theorem core_run_add {m n : Nat} {s t : State} (h : core.run m s = .next t) :
    core.run (m + n) s = core.run n t := by
  induction m generalizing s with
  | zero =>
    obtain rfl : s = t := Host.Outcome.next.inj h
    rw [Nat.zero_add]
  | succ m ih =>
    rw [Nat.succ_add]
    simp only [Host.Core.run] at h ⊢
    cases hstep : core.step s with
    | next u => simp only [hstep] at h ⊢; exact ih h
    | fault r => simp only [hstep] at h; cases h
    | refused r => simp only [hstep] at h; cases h

theorem core_run_one {s t : State} (h : step s = .next t) : core.run 1 s = .next t := by
  have hcore : core.step s = .next t := h
  simp only [Host.Core.run, hcore]

/-- The text's writes, one step each: the cells from `a` on hold the text, the others what they held. -/
theorem core_run_writeOps {text : Bytes} {a : Nat} {s : State} {rest : List HostOp} (hne : text ≠ [])
    (hhost : s.host = writeOps a text ++ rest) (hbusy : s.status.state ≠ .busy)
    (hcap : a + text.length ≤ s.caps.srcCap.val) :
    ∃ t, core.run text.length s = .next t ∧ t = { s with src := t.src, host := rest, reply := none } ∧
      ∀ b, srcCell t b = if a ≤ b ∧ b < a + text.length then text.getD (b - a) 0#8 else srcCell s b := by
  induction text generalizing a s with
  | nil => exact absurd rfl hne
  | cons v text ih =>
    rw [List.length_cons] at hcap ⊢
    have hstep := step_writeSrc (rest := writeOps (a + 1) text ++ rest) hhost hbusy (by omega)
    by_cases htext : text = []
    · subst htext
      refine ⟨_, core_run_one hstep, rfl, fun b => ?_⟩
      rw [srcCell_of_src_eq_write rfl]
      by_cases hb : b = a
      · subst hb
        simp
      · have hout : ¬ (a ≤ b ∧ b < a + (List.length ([] : Bytes) + 1)) := by
          rw [List.length_nil]
          omega
        rw [if_neg hb, if_neg hout]
    · obtain ⟨t, hrun, ht, hcells⟩ := ih htext (a := a + 1)
        (s := { State.takeHost (writeOps (a + 1) text ++ rest) s with src := Memory.write s.src a v }) rfl hbusy
        (by simp only [State.takeHost_caps]; omega)
      refine ⟨t, ?_, ht, fun b => ?_⟩
      · rw [Nat.add_comm, core_run_add (core_run_one hstep), hrun]
      · rw [hcells b, srcCell_of_src_eq_write rfl]
        obtain hlt | rfl | hgt := lt_trichotomy b a
        · rw [if_neg (by omega), if_neg (by omega), if_neg (by omega)]
        · rw [if_neg (by omega), if_pos rfl, if_pos (by omega), Nat.sub_self]
          rfl
        · by_cases hin : b < a + (text.length + 1)
          · rw [if_pos (by omega), if_pos (by omega), show b - a = b - (a + 1) + 1 by omega, List.getD_cons_succ]
          · rw [if_neg (by omega), if_neg (by omega), if_neg (by omega)]

/-- The same for every text; the empty one takes no step and leaves the reply. -/
theorem core_run_text {text : Bytes} {s : State} {rest : List HostOp} (hhost : s.host = writeOps 0 text ++ rest)
    (hbusy : s.status.state ≠ .busy) (hcap : text.length ≤ s.caps.srcCap.val) :
    ∃ t, core.run text.length s = .next t ∧ t = { s with src := t.src, host := rest, reply := t.reply } ∧
      ∀ b, srcCell t b = if b < text.length then text.getD b 0#8 else srcCell s b := by
  by_cases hne : text = []
  · subst hne
    obtain rfl : s.host = rest := hhost
    exact ⟨s, rfl, rfl, fun b => by simp⟩
  · obtain ⟨t, hrun, ht, hcells⟩ := core_run_writeOps hne hhost hbusy (by omega)
    refine ⟨t, hrun, ?_, fun b => by simpa using hcells b⟩
    have hreply : t.reply = none := by rw [ht]
    rw [hreply]
    exact ht

/-- Settles O9: the text's writes, then the write of `SRC_LEN`. -/
theorem loadPreparesTheInput : Obligations.LoadPreparesTheInput := by
  unfold Obligations.LoadPreparesTheInput
  intro s text rest hhost hbusy hcap
  obtain ⟨t, hrun, ht, hcells⟩ := core_run_text (rest := .writeReg offSrcLen (BitVec.ofNat 32 text.length) :: rest)
    (hhost.trans (by simp [loadOps])) hbusy hcap
  have hhost' : t.host = .writeReg 8 (BitVec.ofNat 32 text.length) :: rest := by rw [ht]
  have hbusy' : t.status.state ≠ .busy := by rw [ht]; exact hbusy
  have hstep := (registerReadsAndWrites t 8 (BitVec.ofNat 32 text.length) rest).2.1 hhost' hbusy'
  have hlen : (BitVec.ofNat 32 text.length).toNat = text.length := by
    have := s.caps.srcCap.isLt
    rw [BitVec.toNat_ofNat, Nat.mod_eq_of_lt (by omega)]
  refine ⟨_, (core_run_add hrun).trans (core_run_one hstep), ?_, fun a ha => ?_, ?_⟩
  · refine List.ext_getElem (by rw [input_length, hlen]) fun i h₁ h₂ => ?_
    simp only [input, List.getElem_map, List.getElem_range]
    refine (hcells i).trans ?_
    rw [if_pos h₂, List.getD_eq_getElem?_getD, List.getElem?_eq_getElem h₂, Option.getD_some]
  · exact (hcells a).trans (if_neg (Nat.not_lt.mpr ha))
  · rw [ht]

/-! ### The invariant's base case and the `STATUS` word -/

/-- Settles O12. -/
theorem invariantHoldsAtReset : Obligations.InvariantHoldsAtReset :=
  ⟨Memory.nil_wf, Memory.nil_wf, nofun, nofun, rfl, Nat.zero_le _, nofun, .inl ⟨rfl, rfl, rfl⟩⟩

/-- What O14 says of a `STATUS`. -/
def LegalStatusWord (st : Status) : Prop :=
  st.word.extractLsb 3 2 = 0#2 ∧ st.word.extractLsb 31 16 = 0#16 ∧
    (st.word.extractLsb 7 4).toNat ≤ 4 ∧ st.word.extractLsb 1 0 ≠ 1#2 ∧
    (st.word.extractLsb 7 4 ≠ 0#4 ↔ st.word.extractLsb 1 0 = 3#2) ∧
    (st.word.extractLsb 15 8 ≠ 0#8 ↔ st.word.extractLsb 7 4 ≠ 0#4)

theorem legalStatusWord_fault (c : Cause) : LegalStatusWord (statusFault c) := by
  unfold LegalStatusWord
  cases c <;> decide

/-- Settles O14: the word of each of the three kinds of legal `STATUS`, the faults by cause. -/
theorem statusWordIsLegal : Obligations.StatusWordIsLegal := by
  unfold Obligations.StatusWordIsLegal
  intro s hinv
  obtain ⟨-, -, -, -, -, -, -, ⟨hreset, -⟩ | ⟨hok, -⟩ | ⟨c, hfault, -⟩⟩ := hinv
  · rw [hreset]
    decide
  · rw [hok]
    decide
  · rw [hfault]
    exact legalStatusWord_fault c

end Sys2Proof.Machine
end

section
/-! The Hamming code's properties of one and of two inverted positions (44_hamming.md R238, R239). -/

namespace Sys2Proof.Hamming

open Sys2Proof Sys2Proof.Machine Sys2Proof.Artifact

/-- Settles O31. -/
theorem hamEncWritesTheArtifact : Obligations.HamEncWritesTheArtifact := fun _ => hamEnc_endsOk

/-- Settles O29, by the syndrome's linearity. -/
theorem oneInvertedBitIsCorrected : Obligations.OneInvertedBitIsCorrected := by
  unfold Obligations.OneInvertedBitIsCorrected
  intro q
  have hdecode := fun k => hitFrame_eq_flipPos (hamFrame q) k ▸ decodeFrame_hitFrame_hamFrame q k
  exact ⟨syndrome_hamFrame q, by simpa using hdecode 0, fun k _ => ⟨syndrome_flipPos_hamFrame q k, hdecode k⟩⟩

/-- The vector that an inverted position adds. -/
def single (k : Nat) : BitVec 7 := BitVec.ofNat 7 (2 ^ (7 - k))

theorem flipPos_eq_xor_single (f : BitVec 7) (k : Nat) : flipPos f k = f ^^^ single k := rfl

theorem frameNibble_xor (f g : BitVec 7) : frameNibble (f ^^^ g) = frameNibble f ^^^ frameNibble g := by
  simp only [frameNibble, framePos_xor, ofBool_append_xor (w := 3), ofBool_append_xor (w := 2), ofBool_append_xor (w := 1),
    BitVec.ofBool_xor_ofBool]

/-- What the corrector adds to two inverted positions changes the nibble (44_hamming.md R238). -/
theorem frameNibble_two_singles : ∀ j k : Fin 8, j ≠ 0 → k ≠ 0 → j ≠ k →
    (syndrome (single j.val ^^^ single k.val)).toNat = (j.val ^^^ k.val) ∧
      frameNibble (correctFrame (single j.val ^^^ single k.val) (syndrome (single j.val ^^^ single k.val))) ≠ 0#4 := by
  decide

/-- Settles O30: syndrome and correction do not see the frame, only the two inverted positions. -/
theorem twoInvertedBitsDecodeWrong : Obligations.TwoInvertedBitsDecodeWrong := by
  unfold Obligations.TwoInvertedBitsDecodeWrong
  intro q j k hj hk hjk
  obtain ⟨hsyn, hwrong⟩ := frameNibble_two_singles j k hj hk hjk
  have hsum : flipPos (flipPos (hamFrame q) j.val) k.val = hamFrame q ^^^ (single j.val ^^^ single k.val) :=
    BitVec.xor_assoc ..
  have hsyndrome : syndrome (hamFrame q ^^^ (single j.val ^^^ single k.val)) = syndrome (single j.val ^^^ single k.val) := by
    rw [syndrome_xor, syndrome_hamFrame, BitVec.zero_xor]
  rw [hsum, decodeFrame, hsyndrome]
  refine ⟨hsyn, fun heq => hwrong ?_⟩
  rw [correctFrame_eq_flipPos, flipPos_eq_xor_single, BitVec.xor_assoc, frameNibble_xor, frameNibble_hamFrame] at heq
  rw [correctFrame_eq_flipPos, flipPos_eq_xor_single]
  have hcancel := congrArg (q ^^^ ·) heq
  rwa [← BitVec.xor_assoc, BitVec.xor_self, BitVec.zero_xor] at hcancel

end Sys2Proof.Hamming
end

section
/-! Numerals and bit-strings read back (00_scope.md R8, 30_encoding.md R77), and the arithmetic of one coding step: the
narrowing function and the number of passes of a renormalization (42_arithmetic.md R154, R156). -/

namespace Sys2Proof.Arithmetic

open Sys2Proof Sys2Proof.Machine Sys2Proof.Artifact Sys2Proof.Bwt

/-! ### Numerals -/

theorem number_replicate_zero_append (base z : Nat) (ds : List Nat) :
    number base (List.replicate z 0 ++ ds) = number base ds := by
  induction z with
  | zero => rfl
  | succ z ih => rw [List.replicate_succ, List.cons_append, number_cons, ih, Nat.zero_mul, Nat.zero_add]

theorem numVal_replicate_append (z : Nat) (num : Bytes) : numVal (List.replicate z ch0 ++ num) = numVal num := by
  rw [numVal, List.map_append, List.map_replicate]
  exact number_replicate_zero_append 10 z _

/-- Leading zeros leave a numeral a numeral of the same value (30_encoding.md R77). -/
theorem isNumeral_replicate_append {num : Bytes} (h : isNumeral num = true) (z : Nat) :
    isNumeral (List.replicate z ch0 ++ num) = true := by
  obtain ⟨hne, hdigits, hmax⟩ := (isNumeral_iff num).mp h
  refine (isNumeral_iff _).mpr ⟨List.append_ne_nil_of_right_ne_nil _ hne, fun c hc => ?_, ?_⟩
  · obtain hc | hc := List.mem_append.mp hc
    · rw [List.eq_of_mem_replicate hc]
      decide
    · exact hdigits c hc
  · rwa [numVal_replicate_append]

theorem head?_decDigits_ne_zero {fuel v : Nat} (h : v < fuel) (hpos : 0 < v) : (decDigits fuel v).head? ≠ some 0 := by
  induction fuel generalizing v with
  | zero => omega
  | succ k ih =>
    rw [decDigits]
    split
    · rw [List.head?_cons, ne_eq, Option.some.injEq]
      omega
    · rw [List.head?_append_of_ne_nil _ (decDigits_ne_nil (by omega))]
      exact ih (by omega) (by omega)

theorem head?_dec_ne_ch0 {v : Nat} (hpos : 0 < v) : (dec v).head? ≠ some ch0 := by
  rw [dec, List.head?_map]
  intro h
  obtain ⟨d, hd, hchar⟩ := Option.map_eq_some_iff.mp h
  have hnine := le_nine_of_mem_decDigits (List.mem_of_mem_head? hd)
  have hzero : d = 0 := by rw [← digitOf_digitChar hnine, hchar]; rfl
  exact head?_decDigits_ne_zero (Nat.lt_succ_self v) hpos (hzero ▸ hd)

/-- Settles O24. -/
theorem numeralsAreReadBack : Obligations.NumeralsAreReadBack := by
  unfold Obligations.NumeralsAreReadBack
  refine ⟨fun v z hv => ⟨isNumeral_replicate_append (isNumeral_dec hv) z, ?_⟩, fun v => ?_, fun v hv => ?_,
    fun xs ys c hc => ?_, rfl⟩
  · rw [numVal_replicate_append, numVal_dec]
  · obtain rfl | hpos := Nat.eq_zero_or_pos v
    · exact .inl rfl
    · exact .inr (head?_dec_ne_ch0 hpos)
  · refine Bool.eq_false_iff.mpr fun h => ?_
    obtain ⟨-, -, hmax⟩ := (isNumeral_iff _).mp h
    rw [numVal_dec] at hmax
    omega
  · refine Bool.eq_false_iff.mpr fun h => ?_
    obtain ⟨-, hdigits, -⟩ := (isNumeral_iff _).mp h
    have := hdigits c (List.mem_append_right xs (List.mem_cons_self ..))
    omega

/-- Settles O25: both notations are `spell`, which `number` undoes. -/
theorem bitStringsAreReadBack : Obligations.BitStringsAreReadBack := by
  unfold Obligations.BitStringsAreReadBack
  refine ⟨fun v w => ⟨length_bin v w, isBits_bin v w, val_bin⟩, fun v hv => ⟨?_, ?_⟩⟩
  · rw [dec18, List.length_map, length_spell]
  · rw [numVal, dec18, map_digitOf_map_digitChar fun _ => le_nine_of_mem_spell, number_spell (Nat.lt_succ_of_le hv)]

/-! ### Narrowing (42_arithmetic.md R154) -/

theorem width_le_narrowPoint_sub (low high t : Nat) {clo chi : Nat} (h : clo ≤ chi) :
    (high - low + 1) * (chi - clo) / t ≤ narrowPoint low high t chi - narrowPoint low high t clo := by
  have hsum : (high - low + 1) * chi = (high - low + 1) * clo + (high - low + 1) * (chi - clo) := by
    rw [← Nat.mul_add, Nat.add_sub_cancel' h]
  have hdiv : (high - low + 1) * clo / t + (high - low + 1) * (chi - clo) / t ≤ (high - low + 1) * chi / t :=
    hsum ▸ Nat.div_add_div_le_add_div
  rw [narrowPoint, narrowPoint]
  omega

/-- Settles O44. -/
theorem narrowingPartitionsTheInterval : Obligations.NarrowingPartitionsTheInterval := by
  unfold Obligations.NarrowingPartitionsTheInterval
  intro low high t hle ht
  refine ⟨by simp [narrowPoint], narrowPoint_total hle ht, fun x y => narrowPoint_mono low high t,
    fun clo chi => width_le_narrowPoint_sub low high t, fun hwide clo chi hlt => ?_⟩
  have hwidth := width_le_narrowPoint_sub low high t hlt.le
  have hone : 1 ≤ (high - low + 1) * (chi - clo) / t := by
    rw [Nat.le_div_iff_mul_le ht, Nat.one_mul]
    exact hwide.trans (Nat.le_mul_of_pos_right _ (Nat.sub_pos_of_lt hlt))
  omega

/-! ### Renormalization (42_arithmetic.md R156) -/

theorem width_shift {low high : Nat} (h : low ≤ high) (hlead : sameLead low high = true) :
    shiftHigh high - shiftLow low + 1 = (high - low + 1) * 10 := by
  rw [sameLead_iff] at hlead
  simp only [Config.D17, shiftLow, shiftHigh] at hlead ⊢
  omega

/-- With passes enough to make the width 10^18, the leading digits differ at the end. -/
theorem renorm_spec {k low high : Nat} (h : Interval low high) (hfuel : 10 ^ 18 ≤ (high - low + 1) * 10 ^ k) :
    (renorm k low high).2.1 / Config.D17 < (renorm k low high).2.2 / Config.D17 ∧ (renorm k low high).1.length ≤ k ∧
      (renorm k low high).2.2 - (renorm k low high).2.1 + 1 = (high - low + 1) * 10 ^ (renorm k low high).1.length := by
  induction k generalizing low high with
  | zero =>
    obtain ⟨hle, htop⟩ := h
    simp only [Config.TOP, renorm, Config.D17, List.length_nil] at htop hfuel ⊢
    omega
  | succ k ih =>
    by_cases hlead : sameLead low high = true
    · have hwidth := width_shift h.1 hlead
      obtain ⟨hdiffer, hlen, hfinal⟩ := ih (h.shift hlead) (by rw [hwidth, Nat.mul_assoc, ← pow_succ']; exact hfuel)
      rw [renorm_of_sameLead hlead]
      refine ⟨hdiffer, Nat.succ_le_succ hlen, hfinal.trans ?_⟩
      rw [hwidth, List.length_cons, pow_succ', Nat.mul_assoc]
    · obtain ⟨hle, htop⟩ := h
      rw [renorm_of_not_sameLead hlead]
      rw [sameLead_iff] at hlead
      refine ⟨lt_of_le_of_ne (Nat.div_le_div_right hle) hlead, Nat.zero_le _, ?_⟩
      rw [List.length_nil, pow_zero, Nat.mul_one]

/-- Settles O46: 18 passes make any width at least 10^18. -/
theorem renormalizationEndsWithin18Passes : Obligations.RenormalizationEndsWithin18Passes := by
  unfold Obligations.RenormalizationEndsWithin18Passes
  intro low high hle htop
  have hint : Interval low high := ⟨hle, htop⟩
  obtain ⟨⟨-, hhigh⟩, hdigits⟩ := hint.renorm Config.PREC
  obtain ⟨hdiffer, hlen, hwidth⟩ := renorm_spec (k := Config.PREC) hint (Nat.le_mul_of_pos_left _ (Nat.succ_pos _))
  exact ⟨hdiffer, hhigh, hlen, hdigits, hwidth⟩

end Sys2Proof.Arithmetic
end

section
/-! The tree builder (41_huffman.md R121 to R123): the priority order is linear, a merge takes its two lowest members, and what
the merging loop keeps of arena and `Q`, from which the shape of the tree follows. -/

namespace Sys2Proof.Huffman

open Sys2Proof Sys2Proof.Machine Sys2Proof.Safety Sys2Proof.Artifact

/-! ### The priority order (41_huffman.md R122) -/

/-- What the builder compares of a node: its weight, then its index. -/
def priority (node : List Node) (i : Nat) : Nat ×ₗ Nat := toLex (nodeWeight node i, i)

theorem priority_injective (node : List Node) : Function.Injective (priority node) := fun _ _ h =>
  congrArg (fun k => (ofLex k).2) h

theorem comesBefore_iff (node : List Node) (i j : Nat) :
    comesBefore node i j = true ↔
      nodeWeight node i < nodeWeight node j ∨ (nodeWeight node i = nodeWeight node j ∧ i < j) := by
  simp [comesBefore]

theorem comesBefore_iff_priority_lt (node : List Node) (i j : Nat) :
    comesBefore node i j = true ↔ priority node i < priority node j := by
  rw [comesBefore_iff, priority, priority, Prod.Lex.toLex_lt_toLex]

theorem comesBefore_iff_not_comesBefore (node : List Node) {i j : Nat} (hne : i ≠ j) :
    comesBefore node i j = true ↔ comesBefore node j i = false := by
  rw [← Bool.not_eq_true, comesBefore_iff_priority_lt, comesBefore_iff_priority_lt, not_lt]
  exact (le_iff_lt_or_eq.trans (or_iff_left ((priority_injective node).ne hne))).symm

theorem priority_lowestOf_le (node : List Node) (best : Nat) (q : List Nat) :
    ∀ j ∈ best :: q, priority node (lowestOf node best q) ≤ priority node j := by
  induction q generalizing best with
  | nil => simp [lowestOf]
  | cons i rest ih =>
    rw [lowestOf, List.forall_mem_cons, List.forall_mem_cons]
    by_cases hlt : comesBefore node i best = true
    · obtain ⟨hi, hrest⟩ := List.forall_mem_cons.mp (ih i)
      rw [if_pos hlt]
      exact ⟨hi.trans ((comesBefore_iff_priority_lt node i best).mp hlt).le, hi, hrest⟩
    · obtain ⟨hbest, hrest⟩ := List.forall_mem_cons.mp (ih best)
      rw [if_neg hlt]
      rw [comesBefore_iff_priority_lt, not_lt] at hlt
      exact ⟨hbest, hbest.trans hlt, hrest⟩

theorem comesBefore_lowestOf (node : List Node) (best : Nat) (q : List Nat) :
    ∀ j ∈ best :: q, j ≠ lowestOf node best q → comesBefore node (lowestOf node best q) j = true := fun j hj hne =>
  (comesBefore_iff_priority_lt node _ j).mpr
    (lt_of_le_of_ne (priority_lowestOf_le node best q j hj) ((priority_injective node).ne hne.symm))

/-! ### One merge (41_huffman.md R123) -/

theorem erase_erase_eq_filter {q : List Nat} (hq : q.Nodup) (a b : Nat) :
    (q.erase a).erase b = q.filter fun j => j != a && j != b := by
  rw [(hq.erase a).erase_eq_filter, hq.erase_eq_filter, List.filter_filter]
  exact List.filter_congr fun j _ => Bool.and_comm ..

/-- The two lowest members of `Q` leave it and their parent goes to its end. -/
theorem mergeTwo_eq (node : List Node) {q : List Nat} (hq : q.Nodup) (hlen : 2 ≤ q.length) :
    ∃ a b, a ∈ q ∧ (∀ j ∈ q, j ≠ a → comesBefore node a j = true) ∧
      b ∈ q ∧ b ≠ a ∧ (∀ j ∈ q, j ≠ a → j ≠ b → comesBefore node b j = true) ∧
      mergeTwo node q = (node ++ [joinNode node a b], (q.filter fun j => j != a && j != b) ++ [node.length]) := by
  obtain _ | ⟨i, rest⟩ := q
  · simp at hlen
  have hmem := lowestOf_mem node i rest
  have hlowest := comesBefore_lowestOf node i rest
  rw [mergeTwo]
  generalize lowestOf node i rest = a at hmem hlowest
  have hothers : ∀ j, j ∈ (i :: rest).erase a ↔ j ≠ a ∧ j ∈ i :: rest := fun j => hq.mem_erase_iff
  have herase := erase_erase_eq_filter hq a
  cases hrest : (i :: rest).erase a with
  | nil =>
    have hsize := List.length_erase_of_mem hmem
    rw [hrest, List.length_nil] at hsize
    omega
  | cons j rest' =>
    rw [hrest] at hothers herase
    obtain ⟨hne, hb⟩ := (hothers _).mp (lowestOf_mem node j rest')
    refine ⟨a, lowestOf node j rest', hmem, hlowest, hb, hne, fun k hk hka hkb => ?_, ?_⟩
    · exact comesBefore_lowestOf node j rest' k ((hothers k).mpr ⟨hka, hk⟩) hkb
    · simp only [← herase]

/-! ### The loop -/

theorem length_mergeTwo_snd (node : List Node) {q : List Nat} (hq : 2 ≤ q.length) :
    (mergeTwo node q).2.length + 1 = q.length := by
  obtain ⟨a, b, rest, hperm, hmerge⟩ := mergeTwo_cases node hq
  simp [hmerge, hperm.length_eq]

theorem mergeLoop_eq_iterate (count : Nat) (node : List Node) (q : List Nat) :
    mergeLoop count node q = (fun p => mergeTwo p.1 p.2)^[count] (node, q) := by
  induction count generalizing node q with
  | zero => rfl
  | succ k ih => rw [mergeLoop, ih, Function.iterate_succ_apply]

theorem length_mergeLoop_snd {count : Nat} (node : List Node) {q : List Nat} (hq : q.length = count + 1) :
    (mergeLoop count node q).2.length = 1 := by
  induction count generalizing node q with
  | zero => exact hq
  | succ k ih =>
    have := length_mergeTwo_snd node (q := q) (by omega)
    exact ih _ (by omega)

/-- Settles O35. -/
theorem lowestComesBeforeTheOthers : Obligations.LowestComesBeforeTheOthers := by
  unfold Obligations.LowestComesBeforeTheOthers
  refine ⟨fun node => ⟨comesBefore_iff node, fun i j => comesBefore_iff_not_comesBefore node, fun i q => ?_,
    fun q => mergeTwo_eq node⟩, fun leaves hlen => ?_⟩
  · exact ⟨lowestOf_mem node i q, comesBefore_lowestOf node i q⟩
  · have hone := length_mergeLoop_snd leaves (q := List.range leaves.length) (count := leaves.length - 1)
      (by rw [List.length_range]; omega)
    obtain ⟨r, hr⟩ := List.length_eq_one_iff.mp hone
    refine ⟨(mergeLoop (leaves.length - 1) leaves (List.range leaves.length)).1, r, ?_, ?_⟩
    · rw [← mergeLoop_eq_iterate, ← hr]
    · rw [hufTree_of_two_le hlen, hr]
      rfl

/-! ### The arena while the loop runs -/

/-- A node the loop made: two different older children and the sum of their weights (41_huffman.md R123). -/
def Inner (node : List Node) (i : Nat) (x : Node) : Prop :=
  x.leaf = false ∧ ∃ a b, x.l = some a ∧ x.r = some b ∧ a < i ∧ b < i ∧ a ≠ b ∧
    x.w = nodeWeight node a + nodeWeight node b

/-- What the merging loop keeps: the leaves stand first, the nodes after them are inner nodes, `Q` holds different places of
the arena, and the weights of its members sum up to those of the leaves. -/
structure Merging (leaves node : List Node) (q : List Nat) : Prop where
  first : leaves <+: node
  inner : ∀ i x, node[i]? = some x → leaves.length ≤ i → Inner node i x
  nodup : q.Nodup
  below : ∀ j ∈ q, j < node.length
  weight : (q.map (nodeWeight node)).sum = (leaves.map Node.w).sum

theorem nodeWeight_append {node : List Node} {i : Nat} (hi : i < node.length) (more : List Node) :
    nodeWeight (node ++ more) i = nodeWeight node i := by
  rw [nodeWeight, nodeWeight, List.getElem?_append_left hi]

theorem nodeWeight_append_length (node : List Node) (x : Node) : nodeWeight (node ++ [x]) node.length = x.w := by
  simp [nodeWeight]

theorem Inner.append {node : List Node} {i : Nat} {x : Node} (h : Inner node i x) (hi : i ≤ node.length)
    (more : List Node) : Inner (node ++ more) i x := by
  obtain ⟨hleaf, a, b, hl, hr, ha, hb, hne, hw⟩ := h
  refine ⟨hleaf, a, b, hl, hr, ha, hb, hne, ?_⟩
  rw [nodeWeight_append (by omega), nodeWeight_append (by omega), hw]

theorem merging_start (leaves : List Node) : Merging leaves leaves (List.range leaves.length) where
  first := List.prefix_refl _
  inner i x hx hi := by
    obtain ⟨hlt, -⟩ := List.getElem?_eq_some_iff.mp hx
    omega
  nodup := List.nodup_range
  below j hj := List.mem_range.mp hj
  weight := by
    refine congrArg List.sum (List.ext_getElem (by simp) fun i h₁ h₂ => ?_)
    have hi : i < leaves.length := by simpa using h₂
    simp [nodeWeight, hi]

theorem Merging.mergeTwo {leaves node : List Node} {q : List Nat} (h : Merging leaves node q) (hq : 2 ≤ q.length) :
    Merging leaves (Machine.mergeTwo node q).1 (Machine.mergeTwo node q).2 ∧
      (Machine.mergeTwo node q).1.length = node.length + 1 ∧
      (Machine.mergeTwo node q).2.getLast? = some node.length := by
  obtain ⟨a, b, rest, hperm, hmerge⟩ := mergeTwo_cases node hq
  have hnodup := hperm.nodup_iff.mp h.nodup
  obtain ⟨hab, hnodup'⟩ := List.nodup_cons.mp hnodup
  have hbelow : ∀ j ∈ a :: b :: rest, j < node.length := fun j hj => h.below j (hperm.mem_iff.mpr hj)
  obtain ⟨ha, hb, hrest⟩ : a < node.length ∧ b < node.length ∧ ∀ j ∈ rest, j < node.length := by
    simpa only [List.forall_mem_cons] using hbelow
  rw [hmerge]
  refine ⟨⟨h.first.trans (List.prefix_append ..), fun i x hx hi => ?_, ?_, fun j hj => ?_, ?_⟩, by simp, by simp⟩
  · by_cases hold : i < node.length
    · rw [List.getElem?_append_left hold] at hx
      exact (h.inner i x hx hi).append hold.le _
    · obtain ⟨hlt, hget⟩ := List.getElem?_eq_some_iff.mp hx
      obtain rfl : i = node.length := by simp at hlt; omega
      obtain rfl : joinNode node a b = x := by simpa using hget
      refine Inner.append ⟨rfl, a, b, rfl, rfl, ha, hb, ?_, rfl⟩ le_rfl _
      exact fun heq => hab (heq ▸ List.mem_cons_self ..)
  · refine List.nodup_append.mpr ⟨(List.nodup_cons.mp hnodup').2, List.nodup_singleton _, fun j hj k hk => ?_⟩
    rw [List.mem_singleton.mp hk]
    exact (hrest j hj).ne
  · rw [List.length_append, List.length_singleton]
    obtain hj | hj := List.mem_append.mp hj
    · exact (hrest j hj).trans (Nat.lt_succ_self _)
    · rw [List.mem_singleton.mp hj]
      exact Nat.lt_succ_self _
  · have hsame : rest.map (nodeWeight (node ++ [joinNode node a b])) = rest.map (nodeWeight node) :=
      List.map_congr_left fun j hj => nodeWeight_append (hrest j hj) _
    have hsum := (hperm.map (nodeWeight node)).sum_eq
    rw [← h.weight, hsum, List.map_append, hsame, List.map_singleton, nodeWeight_append_length, List.sum_append]
    simp only [joinNode, List.map_cons, List.sum_cons, List.sum_nil]
    omega

/-- The loop leaves one member, the node made last. -/
theorem Merging.mergeLoop {leaves node : List Node} {q : List Nat} {count : Nat} (h : Merging leaves node q)
    (hq : q.length = count + 2) :
    ∃ node' r, Machine.mergeLoop (count + 1) node q = (node', [r]) ∧ Merging leaves node' [r] ∧
      node'.length = node.length + count + 1 ∧ r + 1 = node'.length := by
  obtain ⟨hmerge, hnode, hlast⟩ := h.mergeTwo (by omega)
  have hlen := length_mergeTwo_snd node (q := q) (by omega)
  rw [Machine.mergeLoop]
  generalize Machine.mergeTwo node q = p at hmerge hnode hlast hlen
  induction count generalizing node q p with
  | zero =>
    obtain ⟨r, hr⟩ := List.length_eq_one_iff.mp (show p.2.length = 1 by omega)
    rw [hr] at hmerge hlast
    obtain rfl : r = node.length := by simpa using hlast
    exact ⟨p.1, _, by rw [Machine.mergeLoop, hr], hmerge, hnode, hnode.symm⟩
  | succ k ih =>
    obtain ⟨hmerge', hnode', hlast'⟩ := hmerge.mergeTwo (by omega)
    have hlen' := length_mergeTwo_snd p.1 (q := p.2) (by omega)
    obtain ⟨node', r, hloop, hmerging, hsize, hr⟩ := ih hmerge (by omega) _ hmerge' hnode' hlast' hlen'
    exact ⟨node', r, by rw [Machine.mergeLoop, hloop], hmerging, by omega, hr⟩

/-! ### The shape of the tree -/

theorem sum_weights_hufLeaves (freq : Vector Nat 256) :
    ((hufLeaves freq).map Node.w).sum = (allBytes.map (cell freq)).sum := by
  rw [hufLeaves]
  induction allBytes with
  | nil => rfl
  | cons c cs ih =>
    obtain hc | hc := Nat.eq_zero_or_pos (cell freq c)
    · simpa [hc] using ih
    · simp only [List.filterMap_cons, hc, if_true, List.map_cons, List.sum_cons, ih]
      rfl

theorem leaf_of_mem_hufLeaves {freq : Vector Nat 256} {x : Node} (hx : x ∈ hufLeaves freq) : x.leaf = true := by
  obtain ⟨c, -, hc⟩ := List.mem_filterMap.mp hx
  obtain ⟨-, rfl⟩ : 0 < cell freq c ∧ leafNode c (cell freq c) = x := by simpa using hc
  rfl

theorem leaf_of_prefix {freq : Vector Nat 256} {node : List Node} (h : hufLeaves freq <+: node) {i : Nat} {x : Node}
    (hx : node[i]? = some x) (hi : i < (hufLeaves freq).length) : x.leaf = true := by
  obtain ⟨more, rfl⟩ := h
  rw [List.getElem?_append_left hi] at hx
  exact leaf_of_mem_hufLeaves (List.mem_of_getElem? hx)

/-- The tree of two leaves or more. -/
theorem exists_hufTree_of_two_le {freq : Vector Nat 256} (h : 2 ≤ (hufLeaves freq).length) :
    ∃ node r, hufTree (hufLeaves freq) = (node, some r) ∧ Merging (hufLeaves freq) node [r] ∧
      node.length = 2 * (hufLeaves freq).length - 1 ∧ r = 2 * (hufLeaves freq).length - 2 := by
  obtain ⟨count, hcount⟩ : ∃ count, (hufLeaves freq).length = count + 2 := ⟨_, (Nat.sub_add_cancel h).symm⟩
  obtain ⟨node, r, hloop, hmerging, hlen, hr⟩ := (merging_start (hufLeaves freq)).mergeLoop
    (count := count) (by rw [List.length_range, hcount])
  refine ⟨node, r, ?_, hmerging, by omega, by omega⟩
  rw [hufTree_of_two_le h, show (hufLeaves freq).length - 1 = count + 1 by omega, hloop]
  rfl

/-- Settles O36: no leaf and one leaf by the builder's own cases, two or more by what the loop keeps. -/
theorem huffmanTreeShape : Obligations.HuffmanTreeShape := by
  unfold Obligations.HuffmanTreeShape
  intro freq
  have hcount : (hufLeaves freq).length = allBytes.countP fun c => decide (0 < cell freq c) := by
    rw [length_hufLeaves, counted, List.countP_eq_length_filter]
  have hmax : (hufLeaves freq).length ≤ 256 := length_hufLeaves freq ▸ length_counted_le freq
  have hsum := sum_weights_hufLeaves freq
  have hleaf : ∀ x ∈ hufLeaves freq, x.leaf = true := fun x => leaf_of_mem_hufLeaves
  refine ⟨hcount, ?_⟩
  by_cases htwo : 2 ≤ (hufLeaves freq).length
  · obtain ⟨node, r, htree, hmerging, hlen, hr⟩ := exists_hufTree_of_two_le htwo
    simp only [htree]
    refine ⟨fun h => by omega, fun h => by omega, fun _ => ⟨hlen, congrArg some hr⟩, by omega, fun r' hr' => ?_,
      fun i x hx => leaf_of_prefix hmerging.first hx, fun _ => hmerging.inner⟩
    obtain rfl := Option.some.inj hr'
    simpa [hsum] using hmerging.weight
  · generalize hufLeaves freq = leaves at *
    match leaves with
    | [] => simp [hufTree]
    | [x] =>
      have hx : x.leaf = true := hleaf x (List.mem_singleton.mpr rfl)
      have hw : x.w = (allBytes.map (cell freq)).sum := by simpa using hsum
      refine ⟨by simp, by simp [hufTree], by simp, by simp [hufTree], fun r hr => ?_, fun i y hy hi => ?_, by simp⟩
      · obtain rfl := Option.some.inj hr
        exact hw
      · obtain rfl : i = 0 := Nat.lt_one_iff.mp hi
        obtain rfl : x = y := Option.some.inj hy
        exact hx
    | _ :: _ :: _ => exact absurd (by simp) htwo

/-! ### The two commands where they complete -/

/-- Settles O38. -/
theorem hufEncWritesTheArtifact : Obligations.HufEncWritesTheArtifact := fun _ => hufEnc_endsOk

/-- Settles O39. -/
theorem hufDecDecodesGreedily : Obligations.HufDecDecodesGreedily := by
  unfold Obligations.HufDecDecodesGreedily
  intro s table bits tail hs hinput htail hlen hgood hbits hused room
  exact hufDec_endsOk hs (by rw [hinput, List.append_assoc]; rfl) htail hlen hgood hbits hused room

end Sys2Proof.Huffman
end

section
/-! Commands as programs over the working state. `Runs` says of a statement of the pseudocode that it is put together from the
model's own operations, that it reads SRC below `SRC_LEN` only, which causes it raises, which output positions it writes, and
what holds of the working state where it goes on. It is shown once for each command; what every command does in every
environment and what it computes under the launch premise (20_memory.md R57) are inductions over it. -/

namespace Sys2Proof.Machine

open Sys2Proof Sys2Proof.Safety Sys2Proof.Huffman

/-- From the working state `w`, with `k` bytes emitted, the statement `m` is such a program: it raises causes of `may` only,
emits a byte at position `j` only where `fits j`, and where it goes on with a value, with the working state and the number of
bytes emitted then, `Q` holds. `n` is `SRC_LEN`. -/
inductive Runs (n : Nat) (may : Cause → Prop) (fits : Nat → Prop) :
    {α : Type} → Work → Nat → Cmd α → (α → Work → Nat → Prop) → Prop where
  | pure {α : Type} {w : Work} {k : Nat} {a : α} {Q : α → Work → Nat → Prop} (h : Q a w k) :
      Runs n may fits w k (Pure.pure a) Q
  | raise {α : Type} {w : Work} {k : Nat} {c : Cause} {Q : α → Work → Nat → Prop} (h : may c) :
      Runs n may fits w k (Machine.raise c) Q
  | bind {α β : Type} {w : Work} {k : Nat} {m : Cmd α} {f : α → Cmd β} {R : α → Work → Nat → Prop}
      {Q : β → Work → Nat → Prop} (hm : Runs n may fits w k m R)
      (hf : ∀ a w' k', R a w' k' → Runs n may fits w' k' (f a) Q) : Runs n may fits w k (m >>= f) Q
  | get {β : Type} {w : Work} {k : Nat} {f : State → Cmd β} {Q : β → Work → Nat → Prop}
      (hsame : ∀ s t, s.work = t.work → s.srcLen = t.srcLen → f s = f t)
      (hf : ∀ s, s.work = w → s.srcLen.toNat = n → Runs n may fits w k (f s) Q) :
      Runs n may fits w k (do let s ← get; f s) Q
  | work {w : Work} {k : Nat} (g : Work → Work) {Q : Unit → Work → Nat → Prop} (h : Q () (g w) k) :
      Runs n may fits w k (modify fun s => { s with work := g s.work }) Q
  | srcByte {w : Work} {k i : Nat} {Q : Byte → Work → Nat → Prop} (hi : i < n) (h : ∀ b, Q b w k) :
      Runs n may fits w k (Machine.srcByte i) Q
  | emit {w : Work} {k : Nat} {b : Byte} {Q : Unit → Work → Nat → Prop} (hfits : fits k) (h : Q () w (k + 1)) :
      Runs n may fits w k (Machine.emit b) Q

/-! ### What a run leaves, in every environment -/

/-- `t` is `s` with a string emitted, for which there was room and which stands where it fits, the working state and the
answers of the environment apart, and no reset is to come that was not to come before. -/
structure Ran (fits : Nat → Prop) (s t : State) : Prop where
  emitted : ∃ bs, t = { appendBytes bs s with work := t.work, srcAnswers := t.srcAnswers, dstAnswers := t.dstAnswers } ∧
    s.dstLen.toNat + bs.length ≤ s.caps.dstCap.val ∧ ∀ j < bs.length, fits (s.dstLen.toNat + j)
  noReset : NoReset s → NoReset t

/-- Why a run from `s` stops: a cause it may raise, an I/O cause, or a reset that was to come. -/
def StopsBy (may : Cause → Prop) (s : State) : Stop → Prop
  | .fault c => may c ∨ c.kind = .io
  | .reset => ¬ NoReset s

theorem appendBytes_with (bs : Bytes) (w : Work) (q r : Answers) (s : State) :
    appendBytes bs { s with work := w, srcAnswers := q, dstAnswers := r } =
      { appendBytes bs s with work := w, srcAnswers := q, dstAnswers := r } := by
  induction bs generalizing s with
  | nil => rfl
  | cons b bs ih => exact ih (appendByte b s)

section
variable {fits : Nat → Prop} {s t u : State}

theorem Ran.of_unemitted (ht : t = { s with work := t.work, srcAnswers := t.srcAnswers, dstAnswers := t.dstAnswers })
    (hroom : s.dstLen.toNat ≤ s.caps.dstCap.val) (hreset : NoReset s → NoReset t) : Ran fits s t :=
  ⟨⟨[], ht, hroom, nofun⟩, hreset⟩

theorem Ran.refl (hroom : s.dstLen.toNat ≤ s.caps.dstCap.val) : Ran fits s s := .of_unemitted rfl hroom id

theorem Ran.trans (h₁ : Ran fits s t) (h₂ : Ran fits t u) : Ran fits s u := by
  obtain ⟨⟨xs, ht, hxs, hfits⟩, hreset⟩ := h₁
  obtain ⟨⟨ys, hu, hys, hfits'⟩, hreset'⟩ := h₂
  obtain ⟨-, hlen, -⟩ := appendBytes_spec hxs
  have hdst : t.dstLen.toNat = s.dstLen.toNat + xs.length := by rw [ht]; exact hlen
  have hcaps : t.caps = s.caps := by rw [ht]; exact appendBytes_caps xs s
  rw [hdst, hcaps] at hys
  refine ⟨⟨xs ++ ys, ?_, by rw [List.length_append]; omega, fun j hj => ?_⟩, hreset' ∘ hreset⟩
  · rw [ht, appendBytes_with] at hu
    rw [appendBytes_append]
    exact hu
  · rw [List.length_append] at hj
    by_cases hj' : j < xs.length
    · exact hfits j hj'
    · have := hfits' (j - xs.length) (by omega)
      rwa [hdst, show s.dstLen.toNat + xs.length + (j - xs.length) = s.dstLen.toNat + j by omega] at this

theorem Ran.dstLen_le (h : Ran fits s t) : t.dstLen.toNat ≤ t.caps.dstCap.val := by
  obtain ⟨⟨bs, ht, hbs, -⟩, -⟩ := h
  obtain ⟨-, hlen, -⟩ := appendBytes_spec hbs
  rw [ht]
  simpa [hlen] using hbs

theorem Ran.srcLen_eq (h : Ran fits s t) : t.srcLen = s.srcLen := by
  obtain ⟨⟨bs, ht, -⟩, -⟩ := h
  rw [ht]
  exact appendBytes_srcLen bs s

theorem NoReset.src_rest {q : Answers} {r : Option Upset} (h : nextAnswer s.srcAnswers = (r, q)) (hs : NoReset s) :
    NoReset { s with srcAnswers := q } := by
  obtain ⟨hsrc, hdst⟩ := List.forall_mem_append.mp hs
  exact List.forall_mem_append.mpr ⟨nextAnswer_rest h (· ≠ .reset) hsrc, hdst⟩

theorem NoReset.dst_rest {q : Answers} {r : Option Upset} (h : nextAnswer s.dstAnswers = (r, q)) (hs : NoReset s) :
    NoReset { s with dstAnswers := q } := by
  obtain ⟨hsrc, hdst⟩ := List.forall_mem_append.mp hs
  exact List.forall_mem_append.mpr ⟨hsrc, nextAnswer_rest h (· ≠ .reset) hdst⟩

theorem not_noReset_of_src {q : Answers} (h : nextAnswer s.srcAnswers = (some .reset, q)) : ¬ NoReset s := fun hs =>
  hs _ (List.mem_append_left _ (nextAnswer_mem h)) rfl

theorem not_noReset_of_dst {q : Answers} (h : nextAnswer s.dstAnswers = (some .reset, q)) : ¬ NoReset s := fun hs =>
  hs _ (List.mem_append_right _ (nextAnswer_mem h)) rfl

theorem StopsBy.of_ran {may : Cause → Prop} {e : Stop} (h : Ran fits s t) (he : StopsBy may t e) : StopsBy may s e :=
  match e, he with
  | .fault _, he => he
  | .reset, he => he ∘ h.noReset

end

/-- The outcome of a run: `P` where it goes on, `E` where it stops. -/
def Outcome {α : Type} (r : EStateM.Result Stop State α) (P : α → State → Prop) (E : Stop → State → Prop) : Prop :=
  (∀ a t, r = .ok a t → P a t) ∧ ∀ e t, r = .error e t → E e t

theorem Outcome.ok {α : Type} {P : α → State → Prop} {E : Stop → State → Prop} {a : α} {t : State} (h : P a t) :
    Outcome (.ok a t) P E :=
  ⟨fun _ _ heq => (by cases heq; exact h), fun _ _ heq => (by cases heq)⟩

theorem Outcome.error {α : Type} {P : α → State → Prop} {E : Stop → State → Prop} {e : Stop} {t : State} (h : E e t) :
    Outcome (.error e t : EStateM.Result Stop State α) P E :=
  ⟨fun _ _ heq => (by cases heq), fun _ _ heq => (by cases heq; exact h)⟩

/-- What a run does in every environment: it emits, and goes on with `Q` or stops for a reason it has. -/
theorem Runs.ran {n : Nat} {may : Cause → Prop} {fits : Nat → Prop} {α : Type} {w : Work} {k : Nat} {m : Cmd α}
    {Q : α → Work → Nat → Prop} (h : Runs n may fits w k m Q) {s : State} (hw : s.work = w) (hn : s.srcLen.toNat = n)
    (hk : s.dstLen.toNat = k) (hcap : k ≤ s.caps.dstCap.val) :
    Outcome (m s) (fun a t => Ran fits s t ∧ Q a t.work t.dstLen.toNat) fun e t => Ran fits s t ∧ StopsBy may s e := by
  induction h generalizing s with
  | pure h =>
    subst hw hk
    exact .ok ⟨.refl hcap, h⟩
  | raise h =>
    subst hk
    exact .error ⟨.refl hcap, .inl h⟩
  | bind hm hf ihm ihf =>
    obtain ⟨hok, herr⟩ := ihm hw hn hk hcap
    rw [cmd_bind]
    split
    · obtain ⟨hran, hR⟩ := hok _ _ ‹_›
      obtain ⟨hok', herr'⟩ := ihf _ _ _ hR rfl (hran.srcLen_eq ▸ hn) rfl hran.dstLen_le
      refine ⟨fun b u hrun => ?_, fun e u hrun => ?_⟩
      · obtain ⟨hran', hQ⟩ := hok' b u hrun
        exact ⟨hran.trans hran', hQ⟩
      · obtain ⟨hran', hstop⟩ := herr' e u hrun
        exact ⟨hran.trans hran', hstop.of_ran hran⟩
    · exact .error (herr _ _ ‹_›)
  | get hsame hf ih =>
    rw [cmd_bind_ok (cmd_get s)]
    exact ih s hw hn hw hn hk hcap
  | work g h =>
    subst hw hk
    exact .ok ⟨.of_unemitted rfl hcap id, h⟩
  | srcByte hi h =>
    subst hw hk
    obtain ⟨q, ⟨hrun, hq⟩ | ⟨hrun, hq⟩ | ⟨hrun, hq⟩⟩ := srcByte_cases _ s <;> rw [hrun]
    · exact .ok ⟨.of_unemitted rfl hcap (NoReset.src_rest hq), h _⟩
    · exact .error ⟨.of_unemitted rfl hcap (NoReset.src_rest hq), .inr rfl⟩
    · exact .error ⟨.of_unemitted rfl hcap (NoReset.src_rest hq), not_noReset_of_src hq⟩
  | @emit w k b Q hfits h =>
    subst hw hk
    obtain ⟨-, hrun⟩ | ⟨hroom, q, ⟨hrun, hq⟩ | ⟨hrun, hq⟩ | ⟨hrun, hq⟩⟩ := emit_cases b s <;> rw [hrun]
    · exact .error ⟨.refl hcap, .inr rfl⟩
    · have hlt : s.dstLen.toNat < s.caps.dstCap.val := by omega
      have hone : ∀ j < [b].length, fits (s.dstLen.toNat + j) := fun j hj => by
        rw [Nat.lt_one_iff.mp hj]
        exact hfits
      have hlen : ({ appendByte b s with dstAnswers := q } : State).dstLen.toNat = s.dstLen.toNat + 1 :=
        appendByte_dstLen hlt b
      exact .ok ⟨⟨⟨[b], rfl, hlt, hone⟩, NoReset.dst_rest hq⟩, hlen ▸ h⟩
    · exact .error ⟨.of_unemitted rfl hcap (NoReset.dst_rest hq), .inr rfl⟩
    · exact .error ⟨.of_unemitted rfl hcap (NoReset.dst_rest hq), not_noReset_of_dst hq⟩

/-! ### Rules for sequences -/

section
variable {n : Nat} {may : Cause → Prop} {fits : Nat → Prop} {α β : Type} {w : Work} {k : Nat}
  {Q : β → Work → Nat → Prop}

theorem Runs.imp {m : Cmd β} {Q' : β → Work → Nat → Prop} (h : Runs n may fits w k m Q)
    (hQ : ∀ a w k, Q a w k → Q' a w k) : Runs n may fits w k m Q' := by
  induction h with
  | pure h => exact .pure (hQ _ _ _ h)
  | raise h => exact .raise h
  | bind hm hf _ ihf => exact .bind hm fun a w k hR => ihf a w k hR hQ
  | get hsame hf ih => exact .get hsame fun s hs hn => ih s hs hn hQ
  | work g h => exact .work g (hQ _ _ _ h)
  | srcByte hi h => exact .srcByte hi fun b => hQ _ _ _ (h b)
  | emit hfits h => exact .emit hfits (hQ _ _ _ h)

theorem Runs.raise_bind {c : Cause} {f : α → Cmd β} (h : may c) : Runs n may fits w k (Machine.raise c >>= f) Q :=
  .bind (R := fun _ _ _ => False) (.raise h) fun _ _ _ h => h.elim

/-- `if c then raise cause` before the rest. -/
theorem Runs.guard {c : Prop} [Decidable c] {cause : Cause} {f : Unit → Cmd β} (hmay : c → may cause)
    (hf : ¬ c → Runs n may fits w k (f ()) Q) :
    Runs n may fits w k (if c then Machine.raise cause >>= f else f ()) Q := by
  by_cases hc : c
  · rw [if_pos hc]
    exact .raise_bind (hmay hc)
  · rw [if_neg hc]
    exact hf hc

theorem Runs.ite {c : Prop} [Decidable c] {m m' : Cmd β} (hm : c → Runs n may fits w k m Q)
    (hm' : ¬ c → Runs n may fits w k m' Q) : Runs n may fits w k (if c then m else m') Q := by
  by_cases hc : c
  · rw [if_pos hc]
    exact hm hc
  · rw [if_neg hc]
    exact hm' hc

theorem Runs.work_bind (g : Work → Work) {f : Unit → Cmd β} (hf : Runs n may fits (g w) k (f ()) Q) :
    Runs n may fits w k ((modify fun s => { s with work := g s.work }) >>= f) Q :=
  .bind (R := fun _ w' k' => w' = g w ∧ k' = k) (.work g ⟨rfl, rfl⟩) fun _ _ _ ⟨hw, hk⟩ => hw ▸ hk ▸ hf

theorem Runs.srcByte_bind {i : Nat} {f : Byte → Cmd β} (hi : i < n) (hf : ∀ b, Runs n may fits w k (f b) Q) :
    Runs n may fits w k (Machine.srcByte i >>= f) Q :=
  .bind (R := fun _ w' k' => w' = w ∧ k' = k) (.srcByte hi fun _ => ⟨rfl, rfl⟩) fun b _ _ ⟨hw, hk⟩ => hw ▸ hk ▸ hf b

theorem Runs.emit_bind {b : Byte} {f : Unit → Cmd β} (hfits : fits k) (hf : Runs n may fits w (k + 1) (f ()) Q) :
    Runs n may fits w k (Machine.emit b >>= f) Q :=
  .bind (R := fun _ w' k' => w' = w ∧ k' = k + 1) (.emit hfits ⟨rfl, rfl⟩) fun _ _ _ ⟨hw, hk⟩ => hw ▸ hk ▸ hf

theorem Runs.emitStr (bs : Bytes) (hfits : ∀ j, fits j) {k : Nat} {Q : Unit → Work → Nat → Prop}
    (h : ∀ k', Q () w k') : Runs n may fits w k (Machine.emitStr bs) Q := by
  induction bs generalizing k with
  | nil => exact .pure (h k)
  | cons b bs ih => exact .emit_bind (hfits k) ih

theorem Runs.forRange {body : Nat → Cmd Unit} {start count : Nat} (I : Nat → Work → Nat → Prop) (h : I start w k)
    (hbody : ∀ i w k, start ≤ i → i < start + count → I i w k → Runs n may fits w k (body i) fun _ => I (i + 1)) :
    Runs n may fits w k (Machine.forRange start count body) fun _ => I (start + count) := by
  induction count generalizing start w k with
  | zero => exact .pure h
  | succ count ih =>
    refine .bind (hbody start w k le_rfl (by omega) h) fun _ w' k' h' => ?_
    rw [show start + (count + 1) = start + 1 + count by omega]
    exact ih h' fun i w k hlo hhi => hbody i w k (by omega) (by omega)

theorem Runs.forEach {xs : List α} {body : α → Cmd Unit} (I : Work → Nat → Prop) (h : I w k)
    (hbody : ∀ x ∈ xs, ∀ w k, I w k → Runs n may fits w k (body x) fun _ => I) :
    Runs n may fits w k (Machine.forEach xs body) fun _ => I := by
  induction xs generalizing w k with
  | nil => exact .pure h
  | cons x xs ih =>
    exact .bind (hbody x (List.mem_cons_self ..) w k h) fun _ _ _ h' => ih h' fun y hy =>
      hbody y (List.mem_cons_of_mem _ hy)

/-! ### The shared readers (40_command_dispatch.md R107, R108) -/

theorem Runs.matchAt {a : Nat} {pat : Bytes} (ha : a + pat.length ≤ n) {Q : Bool → Work → Nat → Prop}
    (h : ∀ b, Q b w k) : Runs n may fits w k (Machine.matchAt a pat) Q := by
  induction pat generalizing a with
  | nil => exact .pure (h true)
  | cons c pat ih =>
    rw [List.length_cons] at ha
    refine .srcByte_bind (by omega) fun b => .ite (fun _ => ih (by omega)) fun _ => .pure (h false)

theorem Runs.atDelim_bind {f : Bool → Cmd β} (hf : ∀ b, (b = true → w.sc + 3 ≤ n) → Runs n may fits w k (f b) Q) :
    Runs n may fits w k (atDelim >>= f) Q := by
  refine .bind (R := fun b w' k' => (b = true → w.sc + 3 ≤ n) ∧ w' = w ∧ k' = k) ?_
    fun b _ _ ⟨hb, hw, hk⟩ => hw ▸ hk ▸ hf b hb
  refine .get (fun s t hw hn => by simp only [hw, hn]) fun s hs hn => ?_
  refine .ite (fun hin => ?_) fun _ => .pure ⟨nofun, rfl, rfl⟩
  rw [hs, hn] at hin
  exact .matchAt (hs ▸ hin) fun _ => ⟨fun _ => hin, rfl, rfl⟩

theorem Runs.findLFIn {count a : Nat} (ha : a + count ≤ n ∨ count = 0) {Q : Option Nat → Work → Nat → Prop}
    (h : ∀ found : Option Nat, (∀ e, found = some e → a ≤ e ∧ e < n) → Q found w k) :
    Runs n may fits w k (Machine.findLFIn count a) Q := by
  induction count generalizing a with
  | zero => exact .pure (h none nofun)
  | succ count ih =>
    refine .srcByte_bind (by omega) fun b => .ite (fun _ => .pure (h _ fun e he => ?_)) fun _ => ?_
    · cases he
      omega
    · exact ih (by omega) fun found hfound => h found fun e he => ⟨by have := hfound e he; omega, (hfound e he).2⟩

theorem Runs.findLF_bind {a : Nat} {f : Option Nat → Cmd β}
    (hf : ∀ found : Option Nat, (∀ e, found = some e → a ≤ e ∧ e < n) → Runs n may fits w k (f found) Q) :
    Runs n may fits w k (findLF a >>= f) Q := by
  refine .bind (R := fun found w' k' => (∀ e, found = some e → a ≤ e ∧ e < n) ∧ w' = w ∧ k' = k) ?_
    fun found _ _ ⟨he, hw, hk⟩ => hw ▸ hk ▸ hf found he
  refine .get (fun s t _ hn => by simp only [hn]) fun s _ hn => ?_
  exact .findLFIn (by omega) fun found hfound => ⟨hfound, rfl, rfl⟩

theorem Runs.bytesIn {count a : Nat} (ha : a + count ≤ n ∨ count = 0) {Q : Bytes → Work → Nat → Prop}
    (h : ∀ bs : Bytes, bs.length = count → Q bs w k) : Runs n may fits w k (Machine.bytesIn count a) Q := by
  induction count generalizing a Q with
  | zero => exact .pure (h [] rfl)
  | succ count ih =>
    refine .srcByte_bind (by omega) fun b => ?_
    refine .bind (ih (Q := fun bs w' k' => bs.length = count ∧ w' = w ∧ k' = k) (by omega) fun bs hbs => ⟨hbs, rfl, rfl⟩)
      fun bs _ _ ⟨hbs, hw, hk⟩ => ?_
    exact .pure (hw ▸ hk ▸ h _ (congrArg Nat.succ hbs))

theorem Runs.bytesOf_bind {a e : Nat} {f : Bytes → Cmd β} (he : e ≤ n)
    (hf : ∀ bs : Bytes, bs.length = e - a → Runs n may fits w k (f bs) Q) :
    Runs n may fits w k (bytesOf a e >>= f) Q :=
  .bind (R := fun bs w' k' => bs.length = e - a ∧ w' = w ∧ k' = k)
    (.bytesIn (by omega) fun _ hbs => ⟨hbs, rfl, rfl⟩) fun bs _ _ ⟨hbs, hw, hk⟩ => hw ▸ hk ▸ hf bs hbs

theorem Runs.normLen_bind {f : Nat → Cmd β} (hf : ∀ len, Runs n may fits w k (f len) Q) :
    Runs n may fits w k (normLen >>= f) Q := by
  refine .bind (R := fun _ w' k' => w' = w ∧ k' = k) ?_ fun len _ _ ⟨hw, hk⟩ => hw ▸ hk ▸ hf len
  refine .get (fun s t _ hn => by simp only [hn]) fun s _ hn => ?_
  refine .ite (fun _ => .pure ⟨rfl, rfl⟩) fun hne => .srcByte_bind (by omega) fun b => ?_
  exact .ite (fun _ => .pure ⟨rfl, rfl⟩) fun _ => .pure ⟨rfl, rfl⟩

theorem Runs.normSym_bind {i : Nat} {f : Byte → Cmd β} (hf : ∀ c, Runs n may fits w k (f c) Q) :
    Runs n may fits w k (normSym i >>= f) Q := by
  refine .bind (R := fun _ w' k' => w' = w ∧ k' = k) ?_ fun c _ _ ⟨hw, hk⟩ => hw ▸ hk ▸ hf c
  refine .get (fun s t _ hn => by simp only [hn]) fun s _ hn => ?_
  exact .ite (fun hi => .srcByte (hn ▸ hi) fun _ => ⟨rfl, rfl⟩) fun _ => .pure ⟨rfl, rfl⟩

end

end Sys2Proof.Machine
end

section
/-! The decoder's search on any table with strictly ascending low bounds (42_arithmetic.md R160, R163): it finds what
`enclosing` gives, whose sub-interval the index lies in. -/

namespace Sys2Proof.Arithmetic

open Sys2Proof Sys2Proof.Machine Sys2Proof.Artifact

/-- The low bounds of a table strictly ascend (42_arithmetic.md R159). -/
abbrev AscendingLows (cum : List CumEntry) : Prop := cum.Pairwise fun x y => x.lo < y.lo

/-- The symbols and low bounds of a table. -/
def lowBounds (cum : List CumEntry) : List (Byte × Nat) := cum.map fun x => (x.sym, x.lo)

/-- The entry of `CUM` that is an enclosing sub-interval. -/
def entryOf (found : Byte × Nat × Nat) : CumEntry := { sym := found.1, lo := found.2.1, hi := found.2.2 }

theorem lt_of_notAscending_eq_false {cum : List CumEntry} (hcum : AscendingLows cum) {lo : Nat}
    (h : notAscending cum lo = false) : ∀ x ∈ cum, x.lo < lo := by
  rcases List.eq_nil_or_concat' cum with rfl | ⟨init, last, rfl⟩
  · exact nofun
  · have hlast : last.lo < lo := by simpa [notAscending] using h
    obtain ⟨-, -, hcross⟩ := List.pairwise_append.mp hcum
    intro x hx
    rcases List.mem_append.mp hx with hx | hx
    · exact (hcross x hx last (List.mem_singleton_self _)).trans hlast
    · rwa [List.mem_singleton.mp hx]

theorem AscendingLows.concat {cum : List CumEntry} (hcum : AscendingLows cum) {y : CumEntry}
    (hy : ∀ x ∈ cum, x.lo < y.lo) : AscendingLows (cum ++ [y]) :=
  List.pairwise_append.mpr ⟨hcum, List.pairwise_singleton .., fun x hx _ hz => List.mem_singleton.mp hz ▸ hy x hx⟩

/-! ### `ariFind` at the head of a table -/

theorem ariFind_eq_none {cum : List CumEntry} {idx : Nat} (h : ∀ x ∈ cum, idx < x.lo) : ariFind cum idx = none := by
  have hnone : cum.filter (fun x => decide (x.lo ≤ idx)) = [] := List.filter_eq_nil_iff.mpr fun x hx => by
    have := h x hx
    simp only [decide_eq_true_eq]
    omega
  rw [ariFind, hnone]
  rfl

theorem ariFind_cons_of_le {x : CumEntry} {cum : List CumEntry} {idx : Nat} (h : x.lo ≤ idx) :
    ariFind (x :: cum) idx = (ariFind cum idx).or (some x) := by
  have hlen := List.length_filter_le (fun y : CumEntry => decide (y.lo ≤ idx)) cum
  rw [ariFind, List.filter_cons_of_pos (by simpa using h), List.length_cons, ariFind]
  cases hj : (cum.filter fun y => decide (y.lo ≤ idx)).length with
  | zero => rfl
  | succ j =>
    have hlt : j < cum.length := by omega
    simp [List.getElem?_eq_getElem hlt]

/-! ### The high bounds -/

/-- The high bound of an entry before `rest` (42_arithmetic.md R160). -/
def highBefore (t : Nat) (rest : List CumEntry) : Nat := ((lowBounds rest).head?.map Prod.snd).getD t

theorem setHighs_cons (t : Nat) (x : CumEntry) (rest : List CumEntry) :
    setHighs t (x :: rest) = { x with hi := highBefore t rest } :: setHighs t rest := by
  cases rest <;> rfl

theorem lowBounds_setHighs (t : Nat) (cum : List CumEntry) : lowBounds (setHighs t cum) = lowBounds cum := by
  induction cum with
  | nil => rfl
  | cons x cum ih => rw [setHighs_cons, lowBounds, List.map_cons, ← lowBounds, ih]; rfl

theorem lt_lo_of_mem_setHighs {t idx : Nat} {cum : List CumEntry} (h : ∀ x ∈ cum, idx < x.lo) :
    ∀ x ∈ setHighs t cum, idx < x.lo := fun x hx => by
  have hmem : (x.sym, x.lo) ∈ lowBounds (setHighs t cum) := List.mem_map_of_mem hx
  rw [lowBounds_setHighs] at hmem
  obtain ⟨y, hy, heq⟩ := List.mem_map.mp hmem
  exact (Prod.mk.inj heq).2 ▸ h y hy

/-! ### The search -/

theorem ariFind_setHighs (t idx : Nat) {cum : List CumEntry} (hcum : AscendingLows cum) :
    ariFind (setHighs t cum) idx = (enclosing t idx (lowBounds cum)).map entryOf := by
  induction cum with
  | nil => rfl
  | cons x cum ih =>
    obtain ⟨hhead, htail⟩ := List.pairwise_cons.mp hcum
    rw [lowBounds, List.map_cons, ← lowBounds, enclosing]
    by_cases hx : x.lo ≤ idx
    · rw [setHighs_cons, ariFind_cons_of_le (x := { x with hi := highBefore t cum }) hx, ih htail, if_pos hx]
      cases enclosing t idx (lowBounds cum) <;> rfl
    · rw [if_neg hx]
      refine ariFind_eq_none (lt_lo_of_mem_setHighs fun y hy => ?_)
      rcases List.mem_cons.mp hy with rfl | hy
      · exact Nat.not_le.mp hx
      · exact (Nat.not_le.mp hx).trans (hhead y hy)

theorem not_le_of_enclosing_eq_none {t idx : Nat} {e : Byte × Nat} {bounds : List (Byte × Nat)}
    (h : enclosing t idx (e :: bounds) = none) : ¬ e.2 ≤ idx := by
  intro he
  rw [enclosing, if_pos he] at h
  cases hrest : enclosing t idx bounds <;> rw [hrest] at h <;> cases h

/-- The index lies in the sub-interval found (42_arithmetic.md R163, R165). -/
theorem mem_of_enclosing {t idx : Nat} (ht : idx < t) {bounds : List (Byte × Nat)} {c : Byte} {lo hi : Nat}
    (h : enclosing t idx bounds = some (c, lo, hi)) : lo ≤ idx ∧ idx < hi := by
  induction bounds with
  | nil => cases h
  | cons e bounds ih =>
    rw [enclosing] at h
    split at h
    · cases hrest : enclosing t idx bounds with
      | some found =>
        rw [hrest] at h
        cases h
        exact ih hrest
      | none =>
        rw [hrest] at h
        cases h
        refine ⟨‹_›, ?_⟩
        cases bounds with
        | nil => exact ht
        | cons e' bounds => exact Nat.not_le.mp (not_le_of_enclosing_eq_none hrest)
    · cases h

/-- Where the frame lies in the interval, narrowing to the entry found leaves it in (42_arithmetic.md R165, R166). -/
theorem narrow_of_enclosing {low high v t : Nat} (hlow : low ≤ v) (hhigh : v ≤ high) (ht : 0 < t)
    {bounds : List (Byte × Nat)} {c : Byte} {lo hi : Nat}
    (h : enclosing t (ariIndex low high v t) bounds = some (c, lo, hi)) :
    narrowPoint low high t lo ≤ v ∧ v < narrowPoint low high t hi := by
  obtain ⟨hlo, hhi⟩ := mem_of_enclosing (ariIndex_lt hlow hhigh ht) h
  exact ⟨(narrowPoint_le_iff hlow high lo ht).mpr hlo, (lt_narrowPoint_iff hlow high hi ht).mpr hhi⟩

end Sys2Proof.Arithmetic
end

section
/-! Each of the eight commands is such a program. The encode commands and `ARI.DEC` may write anywhere; the other three decode
commands write below `SRC_LEN` only, for they emit no more bytes than they have read (70_reset_and_hazards.md R285). -/

namespace Sys2Proof.Machine

open Sys2Proof Sys2Proof.Safety Sys2Proof.Artifact

section
variable {n : Nat} {may : Cause → Prop} {fits : Nat → Prop} {β : Type} {w : Work} {k : Nat}

/-! ### Updates of the working state -/

section
variable {f : Unit → Cmd β} {Q : β → Work → Nat → Prop}

theorem Runs.setSc_bind (v : Nat) (hf : Runs n may fits { w with sc := v } k (f ()) Q) :
    Runs n may fits w k (modify (State.setSc v) >>= f) Q := .work_bind (fun w => { w with sc := v }) hf

theorem Runs.onHuf_bind (g : HufWork → HufWork) (hf : Runs n may fits { w with huf := g w.huf } k (f ()) Q) :
    Runs n may fits w k (modify (State.onHuf g) >>= f) Q := .work_bind (fun w => { w with huf := g w.huf }) hf

theorem Runs.onAri_bind (g : AriWork → AriWork) (hf : Runs n may fits { w with ari := g w.ari } k (f ()) Q) :
    Runs n may fits w k (modify (State.onAri g) >>= f) Q := .work_bind (fun w => { w with ari := g w.ari }) hf

theorem Runs.onBwt_bind (g : BwtWork → BwtWork) (hf : Runs n may fits { w with bwt := g w.bwt } k (f ()) Q) :
    Runs n may fits w k (modify (State.onBwt g) >>= f) Q := .work_bind (fun w => { w with bwt := g w.bwt }) hf

theorem Runs.onHam_bind (g : HamWork → HamWork) (hf : Runs n may fits { w with ham := g w.ham } k (f ()) Q) :
    Runs n may fits w k (modify (State.onHam g) >>= f) Q := .work_bind (fun w => { w with ham := g w.ham }) hf

end

section
variable {Q : Unit → Work → Nat → Prop}

theorem Runs.setSc (v : Nat) (h : Q () { w with sc := v } k) : Runs n may fits w k (modify (State.setSc v)) Q :=
  .work (fun w => { w with sc := v }) h

theorem Runs.advance (v : Nat) (h : Q () { w with sc := w.sc + v } k) :
    Runs n may fits w k (modify fun s => State.setSc (s.work.sc + v) s) Q :=
  .work (fun w => { w with sc := w.sc + v }) h

theorem Runs.onHuf (g : HufWork → HufWork) (h : Q () { w with huf := g w.huf } k) :
    Runs n may fits w k (modify (State.onHuf g)) Q := .work (fun w => { w with huf := g w.huf }) h

theorem Runs.onAri (g : AriWork → AriWork) (h : Q () { w with ari := g w.ari } k) :
    Runs n may fits w k (modify (State.onAri g)) Q := .work (fun w => { w with ari := g w.ari }) h

theorem Runs.onBwt (g : BwtWork → BwtWork) (h : Q () { w with bwt := g w.bwt } k) :
    Runs n may fits w k (modify (State.onBwt g)) Q := .work (fun w => { w with bwt := g w.bwt }) h

end

/-! ### The encode commands -/

/-- No position is out of bounds and nothing is said of the working state. -/
abbrev RunsFreely {α : Type} (n : Nat) (may : Cause → Prop) (m : Cmd α) : Prop :=
  ∀ (w : Work) (k : Nat), Runs n may (fun _ => True) w k m fun _ _ _ => True

theorem RunsFreely.bind {α : Type} {m : Cmd α} {f : α → Cmd β} (hm : RunsFreely n may m) (hf : ∀ a, RunsFreely n may (f a)) :
    RunsFreely n may (m >>= f) := fun w k => .bind (hm w k) fun a w' k' _ => hf a w' k'

theorem RunsFreely.emitStr (bs : Bytes) : RunsFreely n may (Machine.emitStr bs) := fun _ _ =>
  .emitStr bs (fun _ => trivial) fun _ => trivial

theorem RunsFreely.emit (b : Byte) : RunsFreely n may (Machine.emit b) := fun _ _ => .emit trivial trivial

theorem RunsFreely.work (g : Work → Work) : RunsFreely n may (modify fun s => { s with work := g s.work }) := fun _ _ =>
  .work g trivial

theorem RunsFreely.get {f : State → Cmd β} (hsame : ∀ s t, s.work = t.work → s.srcLen = t.srcLen → f s = f t)
    (hf : ∀ s, RunsFreely n may (f s)) : RunsFreely n may (do let s ← get; f s) := fun w k =>
  .get hsame fun s _ _ => hf s w k

theorem RunsFreely.ite {c : Prop} [Decidable c] {m m' : Cmd β} (hm : RunsFreely n may m) (hm' : RunsFreely n may m') :
    RunsFreely n may (if c then m else m') := fun w k => .ite (fun _ => hm w k) fun _ => hm' w k

theorem RunsFreely.pure (b : β) : RunsFreely n may (Pure.pure b) := fun _ _ => .pure trivial

theorem RunsFreely.forRange {start count : Nat} {body : Nat → Cmd Unit} (h : ∀ i, RunsFreely n may (body i)) :
    RunsFreely n may (Machine.forRange start count body) := fun _ _ =>
  .forRange (fun _ _ _ => True) trivial fun i w k _ _ _ => h i w k

theorem RunsFreely.forEach {α : Type} {xs : List α} {body : α → Cmd Unit} (h : ∀ x, RunsFreely n may (body x)) :
    RunsFreely n may (Machine.forEach xs body) := fun _ _ =>
  .forEach (fun _ _ => True) trivial fun x _ w k _ => h x w k

theorem RunsFreely.normSym_bind {i : Nat} {f : Byte → Cmd β} (hf : ∀ c, RunsFreely n may (f c)) :
    RunsFreely n may (normSym i >>= f) := fun w k => .normSym_bind fun c => hf c w k

theorem RunsFreely.normLen_bind {f : Nat → Cmd β} (hf : ∀ len, RunsFreely n may (f len)) :
    RunsFreely n may (normLen >>= f) := fun w k => .normLen_bind fun len => hf len w k

theorem runs_hufCount (len : Nat) : RunsFreely n may (hufCount len) :=
  .forRange fun _ => .normSym_bind fun c =>
    .work fun w => { w with huf := { w.huf with freq := bumpCell w.huf.freq c } }

theorem runs_hufBuild : RunsFreely n may hufBuild := fun _ _ =>
  .onHuf_bind _ (.onHuf_bind _ (.onHuf _ trivial))

theorem runs_hufEmitEntry (c : Byte) : RunsFreely n may (hufEmitEntry c) :=
  .get (fun s t hw _ => by simp only [hw]) fun _ =>
    .ite (.bind (.emit c) fun _ => .bind (.emitStr _) fun _ => .emit LF) (.pure ())

theorem runs_hufEncRule : RunsFreely n may hufEncRule :=
  .normLen_bind fun len => .bind (runs_hufCount len) fun _ => .bind runs_hufBuild fun _ =>
    .bind (.forEach runs_hufEmitEntry) fun _ => .bind (.emitStr _) fun _ => .bind
      (.forRange fun _ => .normSym_bind fun _ => .get (fun s t hw _ => by simp only [hw]) fun _ => .emitStr _)
      fun _ => .emit LF

theorem runs_ariCount (len : Nat) : RunsFreely n may (ariCount len) :=
  .bind (.forRange fun _ => .normSym_bind fun c =>
    .work fun w => { w with ari := { w.ari with freq := bumpCell w.ari.freq c } }) fun _ =>
    .work fun w => { w with ari := { w.ari with t := len } }

theorem runs_renormEnc (fuel : Nat) : RunsFreely n may (renormEnc fuel) := by
  induction fuel with
  | zero => exact .pure ()
  | succ fuel ih =>
    exact .get (fun s t hw _ => by simp only [hw]) fun s =>
      .ite (.bind (.emitStr _) fun _ => .bind (fun _ _ => .onAri _ trivial) fun _ => ih) (.pure ())

theorem runs_narrow (h : may .ariCollapse) (clo chi : Nat) : RunsFreely n may (narrow clo chi) :=
  .get (fun s t hw _ => by simp only [hw]) fun s _ _ => .guard (fun _ => h) fun _ => .onAri _ trivial

theorem runs_ariEncSymbol (h : may .ariCollapse) (c : Byte) : RunsFreely n may (ariEncSymbol c) := by
  refine .get (fun s t hw _ => by simp only [hw]) fun s => ?_
  cases s.work.ari.cum.find? fun x => x.sym == c with
  | none => exact .pure ()
  | some x => exact .bind (runs_narrow h x.lo x.hi) fun _ => runs_renormEnc _

theorem runs_ariTerminate : RunsFreely n may ariTerminate :=
  .get (fun s t hw _ => by simp only [hw]) fun _ => .forEach fun _ => .emitStr _

theorem runs_ariEncRule (h : may .ariCollapse) : RunsFreely n may ariEncRule :=
  .normLen_bind fun len => .bind (runs_ariCount len) fun _ => .bind (fun _ _ => .onAri _ trivial) fun _ =>
    .get (fun s t hw _ => by simp only [hw]) fun _ =>
      .bind (.forEach fun x => .bind (.emit x.sym) fun _ => .bind (.emitStr _) fun _ => .emit LF) fun _ =>
        .bind (.emitStr _) fun _ => .bind (.emitStr _) fun _ => .bind (.emit LF) fun _ =>
          .bind (fun _ _ => .onAri _ trivial) fun _ =>
            .bind (.forRange fun _ => .normSym_bind (runs_ariEncSymbol h)) fun _ => .bind runs_ariTerminate fun _ => .emit LF

theorem runs_bwtAnalyse (x : Bytes) : RunsFreely n may (bwtAnalyse x) := fun _ _ =>
  .onBwt_bind _ (.onBwt_bind _ (.onBwt_bind _ (.onBwt_bind _ (.onBwt _ trivial))))

theorem runs_mtfEncSymbol (c : Byte) : RunsFreely n may (mtfEncSymbol c) :=
  .get (fun s t hw _ => by simp only [hw]) fun _ => .bind (.emitStr _) fun _ _ _ => .onBwt _ trivial

theorem runs_bwtEmitBlock : RunsFreely n may bwtEmitBlock :=
  .get (fun s t hw _ => by simp only [hw]) fun _ =>
    .bind (.forEach fun c => .bind (.emit c) fun _ => .emit LF) fun _ => .bind (.emitStr _) fun _ =>
      .bind (.emitStr _) fun _ => .bind (.emit LF) fun _ => .bind (fun _ _ => .onBwt _ trivial) fun _ =>
        .bind (.forEach runs_mtfEncSymbol) fun _ => .emit LF

theorem runs_bwtEncRule : RunsFreely n may bwtEncRule := fun _ _ =>
  .get (fun s t _ hn => by simp only [hn]) fun _ _ hn =>
    .forRange (fun _ _ _ => True) trivial fun _ w k _ _ _ => .bytesOf_bind (hn ▸ min_le_right ..) fun x _ =>
      (RunsFreely.bind (runs_bwtAnalyse x) fun _ => runs_bwtEmitBlock) w k

theorem runs_hamEmitNibble (q : BitVec 4) : RunsFreely n may (hamEmitNibble q) := fun w k =>
  .onHam_bind _ (.onHam_bind _ (RunsFreely.get (fun s t hw _ => by simp only [hw]) (fun _ => .emitStr _) _ k))

theorem runs_hamEncRule : RunsFreely n may hamEncRule :=
  .normLen_bind fun _ => .forRange fun _ => .normSym_bind fun _ => .bind (runs_hamEmitNibble _) fun _ =>
    .bind (runs_hamEmitNibble _) fun _ => .ite (.emit LF) (.pure ())

/-! ### `HUF.DEC` -/

/-- The causes `mayRaise` gives a command. -/
abbrev causes (i : Instr) (c : Cause) : Prop := mayRaise i c = true

theorem runs_hufParseEntry (hsc : w.sc ≤ n) :
    Runs n (causes .hufDec) fits w k hufParseEntry fun _ w' k' => w'.sc ≤ n ∧ k' = k := by
  refine .get (fun s t hw hn => by simp only [hw, hn]) fun s hw hn => .guard (fun _ => rfl) fun hne => ?_
  refine .srcByte_bind (by rw [hw]; rw [hw, hn] at hne; omega) fun sym => .findLF_bind fun found hfound => ?_
  cases found with
  | none => exact .raise rfl
  | some e =>
    obtain ⟨-, he⟩ := hfound e rfl
    refine .bytesOf_bind he.le fun code _ => .guard (fun _ => rfl) fun _ => ?_
    exact .get (fun s t hw _ => by simp only [hw]) fun _ _ _ => .guard (fun _ => rfl) fun _ =>
      .onHuf_bind _ (.setSc _ ⟨he, rfl⟩)

theorem runs_hufParseTable (fuel : Nat) {w : Work} (hsc : w.sc ≤ n) :
    Runs n (causes .hufDec) fits w k (hufParseTable fuel) fun _ w' k' => w'.sc ≤ n ∧ k' = k := by
  induction fuel generalizing w with
  | zero => exact .pure ⟨hsc, rfl⟩
  | succ fuel ih =>
    refine .atDelim_bind fun atEnd hend => .ite (fun h => .advance 3 ⟨hend h, rfl⟩) fun _ => ?_
    exact .bind (runs_hufParseEntry hsc) fun _ w' k' ⟨hsc', hk⟩ => hk ▸ ih hsc'

theorem runs_hufMatchChar (hk : k < n) (ch : Byte) :
    Runs n (causes .hufDec) (· < n) w k (hufMatchChar ch) fun _ _ k' => k' ≤ k + 1 := by
  unfold hufMatchChar
  refine .guard (fun _ => rfl) fun _ => .onHuf_bind _ (.get (fun s t hw _ => by simp only [hw]) fun s _ _ => ?_)
  cases hufLookup s.work.huf.dtbl s.work.huf.acc with
  | some sym => exact .emit_bind hk (.onHuf _ le_rfl)
  | none => exact .ite (fun _ => .raise rfl) fun _ => .pure (Nat.le_succ k)

theorem runs_hufMatch (hk : k = 0) :
    Runs n (causes .hufDec) (· < n) w k hufMatch fun _ _ _ => True := by
  refine .get (fun s t hw hn => by simp only [hw, hn]) fun s hw hn => .findLF_bind fun found hfound => ?_
  have he : found.getD s.srcLen.toNat ≤ n := by
    cases found with
    | none => exact hn.le
    | some e => exact (hfound e rfl).2.le
  refine .onHuf_bind _ (.bind (.forRange (fun i _ k' => k' ≤ i) (by rw [hk]; exact Nat.zero_le _) fun i w' k' _ hi hk' => ?_)
    fun _ _ _ _ => ?_)
  · have hin : i < n := by omega
    exact .srcByte_bind hin fun ch => (runs_hufMatchChar (by omega) ch).imp fun _ _ _ h => by omega
  · exact .get (fun s t hw _ => by simp only [hw]) fun _ _ _ => .ite (fun _ => .raise rfl) fun _ => .pure trivial

theorem runs_hufDecRule (hk : k = 0) : Runs n (causes .hufDec) (· < n) w k hufDecRule fun _ _ _ => True :=
  .setSc_bind 0 <| .onHuf_bind _ <| .get (fun s t _ hn => by simp only [hn]) fun _ _ _ =>
    .bind (runs_hufParseTable _ (Nat.zero_le n)) fun _ _ _ ⟨_, hk'⟩ => runs_hufMatch (hk'.trans hk)

/-! ### `HAM.DEC` -/

theorem runs_hamDecodeFrame (f : Bytes) :
    Runs n may fits w k (hamDecodeFrame f) fun _ w' k' => w'.sc = w.sc ∧ k' = k :=
  .onHam_bind _ <| .onHam_bind _ <| .onHam_bind _ <| .onHam_bind _ <|
    .get (fun s t hw _ => by simp only [hw]) fun _ _ _ => .pure ⟨rfl, rfl⟩

theorem runs_hamDecUnit (hk : k < n) (unit : Bytes) :
    Runs n (causes .hamDec) (· < n) w k (hamDecUnit unit) fun _ w' k' => w'.sc = w.sc ∧ k' = k + 1 := by
  unfold hamDecUnit
  refine .guard (fun _ => rfl) fun _ => .bind (runs_hamDecodeFrame _) fun _ w₁ k₁ ⟨hsc₁, hk₁⟩ => ?_
  refine .bind (runs_hamDecodeFrame _) fun _ w₂ k₂ ⟨hsc₂, hk₂⟩ => ?_
  exact .emit (by omega) ⟨hsc₂.trans hsc₁, by omega⟩

/-- Each unit of a line is longer than the byte it is decoded to. -/
theorem runs_hamDecLine (hk : k ≤ w.sc) (hsc : w.sc < n) :
    Runs n (causes .hamDec) (· < n) w k hamDecLine fun _ w' k' => k' ≤ w'.sc ∧ w'.sc ≤ n := by
  refine .get (fun s t hw hn => by simp only [hw, hn]) fun s hw hn => .findLF_bind fun found hfound => ?_
  subst hw
  obtain ⟨e, he, hle, hnext⟩ : ∃ e, found.getD s.srcLen.toNat = e ∧ s.work.sc ≤ e ∧ e ≤ n := by
    cases found with
    | none => exact ⟨s.srcLen.toNat, rfl, by omega, hn.le⟩
    | some e => exact ⟨e, rfl, (hfound e rfl).1, (hfound e rfl).2.le⟩
  simp only [he]
  refine .guard (fun _ => rfl) fun _ => .bind
    (.forRange (fun u w' k' => k' ≤ s.work.sc + u ∧ w'.sc = s.work.sc) ⟨hk, rfl⟩ fun u w' k' _ hu ⟨hk', hsc'⟩ => ?_)
    fun _ w' k' ⟨hk', _⟩ => .setSc _ ?_
  · simp only [Config.UNIT] at hu ⊢
    refine .bytesOf_bind (by omega) fun unit _ => ?_
    exact (runs_hamDecUnit (by omega) unit).imp fun _ w'' k'' ⟨hsc'', hk''⟩ => ⟨by omega, by omega⟩
  · simp only [Config.UNIT] at hk'
    cases found with
    | none => exact ⟨by simp at he; simp only; omega, hn.le⟩
    | some e' =>
      obtain ⟨-, hlt⟩ := hfound e' rfl
      exact ⟨by simp at he; simp only; omega, hlt⟩

theorem runs_hamDecLines (fuel : Nat) {w : Work} {k : Nat} (hk : k ≤ w.sc) (hsc : w.sc ≤ n) :
    Runs n (causes .hamDec) (· < n) w k (hamDecLines fuel) fun _ _ _ => True := by
  induction fuel generalizing w k with
  | zero => exact .pure trivial
  | succ fuel ih =>
    refine .get (fun s t hw hn => by simp only [hw, hn]) fun s hw hn => .ite (fun hlt => ?_) fun _ => .pure trivial
    subst hw
    exact .bind (runs_hamDecLine hk (hn ▸ hlt)) fun _ w' k' ⟨hk', hsc'⟩ => ih hk' hsc'

theorem runs_hamDecRule (hk : k = 0) : Runs n (causes .hamDec) (· < n) w k hamDecRule fun _ _ _ => True :=
  .setSc_bind 0 <| .get (fun s t _ hn => by simp only [hn]) fun _ _ _ => runs_hamDecLines _ hk.le (Nat.zero_le n)

/-! ### `BWT.DEC` -/

theorem runs_bwtParseLetter (hsc : w.sc ≤ n) :
    Runs n (causes .bwtDec) fits w k bwtParseLetter fun _ w' k' => w.sc ≤ w'.sc ∧ w'.sc ≤ n ∧ k' = k := by
  refine .get (fun s t hw hn => by simp only [hw, hn]) fun s hw hn => .guard (fun _ => rfl) fun hin => ?_
  subst hw
  refine .srcByte_bind (by omega) fun second => .guard (fun _ => rfl) fun _ => .guard (fun _ => rfl) fun _ => ?_
  exact .srcByte_bind (by omega) fun sym => .onBwt_bind _ (.setSc _ ⟨by simp only; omega, by simp only; omega, rfl⟩)

theorem runs_bwtParseLetters (fuel : Nat) {w : Work} (hsc : w.sc ≤ n) :
    Runs n (causes .bwtDec) fits w k (bwtParseLetters fuel) fun _ w' k' => w.sc ≤ w'.sc ∧ w'.sc ≤ n ∧ k' = k := by
  induction fuel generalizing w with
  | zero => exact .pure ⟨le_rfl, hsc, rfl⟩
  | succ fuel ih =>
    refine .atDelim_bind fun atEnd hend =>
      .ite (fun h => .advance 3 ⟨Nat.le_add_right .., hend h, rfl⟩) fun _ => ?_
    refine .bind (runs_bwtParseLetter hsc) fun _ w' k' ⟨hle, hsc', hk⟩ => ?_
    subst hk
    exact (ih hsc').imp fun _ w'' k'' ⟨hle', hsc'', hk'⟩ => ⟨hle.trans hle', hsc'', hk'⟩

theorem runs_bwtParseAlphabet (hsc : w.sc ≤ n) :
    Runs n (causes .bwtDec) fits w k bwtParseAlphabet fun _ w' k' => w.sc ≤ w'.sc ∧ w'.sc ≤ n ∧ k' = k := by
  refine .onBwt_bind _ (.get (fun s t _ hn => by simp only [hn]) fun _ _ _ => ?_)
  refine .bind (runs_bwtParseLetters _ hsc) fun _ w' k' hw' => ?_
  exact .get (fun s t hw _ => by simp only [hw]) fun _ _ _ => .guard (fun _ => rfl) fun _ => .onBwt _ hw'

theorem runs_bwtParseKey :
    Runs n (causes .bwtDec) fits w k bwtParseKey fun _ w' k' => w.sc ≤ w'.sc ∧ w'.sc ≤ n ∧ k' = k := by
  refine .get (fun s t hw _ => by simp only [hw]) fun s hw _ => .findLF_bind fun found hfound => ?_
  subst hw
  cases found with
  | none => exact .raise rfl
  | some e =>
    obtain ⟨hle, he⟩ := hfound e rfl
    exact .bytesOf_bind he.le fun num _ => .guard (fun _ => rfl) fun _ =>
      .onBwt_bind _ (.setSc _ ⟨hle.trans (Nat.le_succ e), he, rfl⟩)

theorem runs_mtfDecIndex (i : Nat) :
    Runs n (causes .bwtDec) fits w k (mtfDecIndex i) fun _ w' k' => w'.sc = w.sc ∧ w'.bwt.n = w.bwt.n ∧ k' = k :=
  .get (fun s t hw _ => by simp only [hw]) fun _ _ _ => .guard (fun _ => rfl) fun _ => .onBwt _ ⟨rfl, rfl, rfl⟩

/-- The row is no longer than the line it is read from. -/
theorem runs_bwtParseBits (hsc : w.sc ≤ n) :
    Runs n (causes .bwtDec) fits w k bwtParseBits fun _ w' k' => w.sc + w'.bwt.n ≤ w'.sc ∧ w'.sc ≤ n ∧ k' = k := by
  refine .get (fun s t hw hn => by simp only [hw, hn]) fun s hw hn => .findLF_bind fun found hfound => ?_
  subst hw
  obtain ⟨e, nxt, he, hnxt, hle, hlast⟩ : ∃ e nxt, found.getD s.srcLen.toNat = e ∧
      (match (generalizing := false) found with
        | none => s.srcLen.toNat
        | some e => e + 1) = nxt ∧ s.work.sc ≤ e ∧ e ≤ nxt ∧ nxt ≤ n := by
    cases found with
    | none => exact ⟨s.srcLen.toNat, s.srcLen.toNat, rfl, rfl, by omega, le_rfl, hn.le⟩
    | some e => exact ⟨e, e + 1, rfl, rfl, (hfound e rfl).1, Nat.le_succ e, (hfound e rfl).2⟩
  simp only [he]
  refine .bytesOf_bind (by omega) fun line hline => .setSc_bind _ (.guard (fun _ => rfl) fun _ => .onBwt_bind _ ?_)
  refine .guard (fun _ => rfl) fun _ => .onBwt_bind _ ?_
  have hrow : line.length / s.work.bwt.w ≤ e - s.work.sc := (Nat.div_le_self ..).trans hline.le
  refine .imp (.forRange (fun _ w' k' => w'.sc = nxt ∧ w'.bwt.n = line.length / s.work.bwt.w ∧ k' = k)
    ⟨hnxt, rfl, rfl⟩ fun p w' k' _ _ ⟨hsc', hn', hk'⟩ => ?_) fun _ w' k' ⟨hsc', hn', hk'⟩ => ⟨by omega, by omega, hk'⟩
  exact (runs_mtfDecIndex _).imp fun _ w'' k'' ⟨hsc'', hn'', hk''⟩ =>
    ⟨hsc''.trans hsc', hn''.trans hn', hk''.trans hk'⟩

theorem runs_bwtReadOut {count p : Nat} {k : Nat} (hcount : k + count ≤ n) :
    Runs n may (· < n) w k (bwtReadOut count p) fun _ w' k' => w' = w ∧ k' = k + count := by
  induction count generalizing p k with
  | zero => exact .pure ⟨rfl, rfl⟩
  | succ count ih =>
    refine .get (fun s t hw _ => by simp only [hw]) fun _ _ _ => .emit_bind (by omega) ?_
    exact (ih (by omega)).imp fun _ w' k' ⟨hw', hk'⟩ => ⟨hw', by omega⟩

theorem runs_bwtInvert (hn : k + w.bwt.n ≤ n) :
    Runs n may (· < n) w k bwtInvert fun _ w' k' => w'.sc = w.sc ∧ k' = k + w.bwt.n := by
  refine .onBwt_bind _ (.onBwt_bind _ (.get (fun s t hw _ => by simp only [hw]) fun s hw _ => ?_))
  have hcount : s.work.bwt.n = w.bwt.n := by rw [hw]
  rw [hcount]
  exact (runs_bwtReadOut hn).imp fun _ w' k' ⟨hw', hk'⟩ => ⟨by rw [hw'], hk'⟩

theorem runs_bwtDecBlock (hk : k ≤ w.sc) (hsc : w.sc ≤ n) :
    Runs n (causes .bwtDec) (· < n) w k bwtDecBlock fun _ w' k' => k' ≤ w'.sc ∧ w'.sc ≤ n := by
  refine .bind (runs_bwtParseAlphabet hsc) fun _ w₁ k₁ ⟨hle₁, hsc₁, hk₁⟩ => ?_
  refine .bind runs_bwtParseKey fun _ w₂ k₂ ⟨hle₂, hsc₂, hk₂⟩ => ?_
  refine .bind (runs_bwtParseBits hsc₂) fun _ w₃ k₃ ⟨hle₃, hsc₃, hk₃⟩ => ?_
  refine .get (fun s t hw _ => by simp only [hw]) fun s hw _ => .ite (fun _ => ?_) fun _ => .pure ⟨by omega, hsc₃⟩
  refine .guard (fun _ => rfl) fun _ => ?_
  exact (runs_bwtInvert (by omega)).imp fun _ w' k' ⟨hsc', hk'⟩ => ⟨by omega, by omega⟩

theorem runs_bwtDecBlocks (fuel : Nat) {w : Work} {k : Nat} (hk : k ≤ w.sc) (hsc : w.sc ≤ n) :
    Runs n (causes .bwtDec) (· < n) w k (bwtDecBlocks fuel) fun _ _ _ => True := by
  induction fuel generalizing w k with
  | zero => exact .pure trivial
  | succ fuel ih =>
    refine .get (fun s t hw hn => by simp only [hw, hn]) fun s hw hn => .ite (fun hlt => ?_) fun _ => .pure trivial
    exact .bind (runs_bwtDecBlock hk hsc) fun _ w' k' ⟨hk', hsc'⟩ => ih hk' hsc'

theorem runs_bwtDecRule (hk : k = 0) : Runs n (causes .bwtDec) (· < n) w k bwtDecRule fun _ _ _ => True :=
  .setSc_bind 0 <| .get (fun s t _ hn => by simp only [hn]) fun _ _ _ => runs_bwtDecBlocks _ hk.le (Nat.zero_le n)

end

end Sys2Proof.Machine
end

section
/-! `ARI.DEC` is such a program too, and it never raises `ARI_COLLAPSE` (42_arithmetic.md R166): its table's low bounds ascend,
so the sub-interval a step finds holds the index, and the narrowed interval holds the frame. -/

namespace Sys2Proof.Machine

open Sys2Proof Sys2Proof.Safety Sys2Proof.Artifact Sys2Proof.Arithmetic

section
variable {n : Nat} {w : Work} {k : Nat}

/-- A statement of `ARI.DEC`: it may emit anywhere. -/
abbrev RunsAriDec {α : Type} (n : Nat) (w : Work) (k : Nat) (m : Cmd α) (Q : Work → Prop) : Prop :=
  Runs n (causes .ariDec) (fun _ => True) w k m fun _ w' _ => Q w'

/-! ### Parsing -/

/-- The table parsed so far, with the cursor within the source. -/
def ParsingTable (n : Nat) (w : Work) : Prop := w.sc ≤ n ∧ AscendingLows w.ari.cum

theorem runs_ariParseEntry (hw : ParsingTable n w) : RunsAriDec n w k ariParseEntry (ParsingTable n) := by
  obtain ⟨hsc, hcum⟩ := hw
  refine .get (fun s t hw hn => by simp only [hw, hn]) fun s hw hn => .guard (fun _ => rfl) fun hne => ?_
  subst hw
  refine .srcByte_bind (by omega) fun sym => .findLF_bind fun found hfound => ?_
  cases found with
  | none => exact .raise rfl
  | some e =>
    obtain ⟨-, he⟩ := hfound e rfl
    refine .bytesOf_bind he.le fun num _ => .guard (fun _ => rfl) fun _ => ?_
    refine .get (fun s t hw _ => by simp only [hw]) fun s' hw' _ => .guard (fun _ => rfl) fun _ => ?_
    rw [hw']
    refine .guard (fun _ => rfl) fun hasc => .onAri_bind _ (.setSc _ ⟨he, ?_⟩)
    exact hcum.concat (lt_of_notAscending_eq_false hcum (Bool.eq_false_iff.mpr hasc))

theorem runs_ariParseTable (fuel : Nat) {w : Work} {k : Nat} (hw : ParsingTable n w) :
    RunsAriDec n w k (ariParseTable fuel) (ParsingTable n) := by
  induction fuel generalizing w k with
  | zero => exact .pure hw
  | succ fuel ih =>
    refine .atDelim_bind fun atEnd hend => .ite (fun h => .advance 3 ⟨hend h, hw.2⟩) fun _ => ?_
    exact .bind (runs_ariParseEntry hw) fun _ w' k' hw' => ih hw'

/-- `CUM` is a table with ascending low bounds whose high bounds are set, and `t` is the total. -/
def TableSet (t : Nat) (w : Work) : Prop := w.ari.t = t ∧ ∃ cum, AscendingLows cum ∧ w.ari.cum = setHighs t cum

theorem runs_ariParseTotal (hcum : AscendingLows w.ari.cum) :
    RunsAriDec n w k ariParseTotal fun w' => ∃ t, TableSet t w' := by
  refine .get (fun s t hw _ => by simp only [hw]) fun s hw _ => .findLF_bind fun found hfound => ?_
  cases found with
  | none => exact .raise rfl
  | some e =>
    refine .bytesOf_bind (hfound e rfl).2.le fun num _ => .guard (fun _ => rfl) fun _ => ?_
    exact .onAri_bind _ (.setSc _ ⟨numVal num, rfl, _, hcum, rfl⟩)

theorem runs_ariReadStream {t : Nat} (hw : TableSet t w) : RunsAriDec n w k ariReadStream (TableSet t) := by
  refine .get (fun s t hw hn => by simp only [hw, hn]) fun s hs hn => .findLF_bind fun found hfound => ?_
  have he : found.getD s.srcLen.toNat ≤ n := by
    cases found with
    | none => exact hn.le
    | some e => exact (hfound e rfl).2.le
  refine .guard (fun _ => rfl) fun hmod => .onAri_bind _ (.bind (.forRange (fun _ w' _ => TableSet t w') hw
    fun g w' k' _ hg hw' => ?_) fun _ w' k' hw' => ?_)
  · refine .bytesOf_bind (by omega) fun grp _ => .guard (fun _ => rfl) fun _ => .onAri _ hw'
  · exact .get (fun s t hw _ => by simp only [hw]) fun _ _ _ => .guard (fun _ => rfl) fun _ => .onAri _ hw'

/-! ### Decoding -/

theorem runs_narrow_of_lt {clo chi : Nat}
    (h : narrowPoint w.ari.low w.ari.high w.ari.t clo < narrowPoint w.ari.low w.ari.high w.ari.t chi) {t : Nat}
    (hw : TableSet t w) : RunsAriDec n w k (narrow clo chi) (TableSet t) := by
  refine .get (fun s t hw _ => by simp only [hw]) fun s hs _ => .guard (fun hle => ?_) fun _ => .onAri _ hw
  subst hs
  exact absurd h (Nat.not_lt.mpr hle)

theorem runs_renormDec (fuel : Nat) {t : Nat} {w : Work} (hw : TableSet t w) :
    RunsAriDec n w k (renormDec fuel) (TableSet t) := by
  induction fuel generalizing w with
  | zero => exact .pure hw
  | succ fuel ih =>
    refine .get (fun s t hw _ => by simp only [hw]) fun s hs _ => .ite (fun _ => .onAri_bind _ ?_) fun _ => .pure hw
    cases s.work.ari.dig[s.work.ari.dp]? with
    | none => exact .raise rfl
    | some d =>
      refine .onAri_bind _ (ih ?_)
      exact hw

/-- A step whose frame lies in the interval finds an entry it can narrow to, or none (42_arithmetic.md R165, R166). -/
theorem runs_ariDecodeStep {t : Nat} (ht : 0 < t) (hw : TableSet t w) : RunsAriDec n w k ariDecodeStep (TableSet t) := by
  refine .get (fun s t hw _ => by simp only [hw]) fun s hs _ => .guard (fun _ => rfl) fun hin => ?_
  subst hs
  obtain ⟨htotal, cum, hcum, htable⟩ := hw
  rw [htable, htotal, ariFind_setHighs _ _ hcum]
  cases hfound : enclosing t (ariIndex s.work.ari.low s.work.ari.high s.work.ari.v t) (lowBounds cum) with
  | none => exact .raise rfl
  | some found =>
    obtain ⟨c, lo, hi⟩ := found
    obtain ⟨hlo, hhi⟩ := narrow_of_enclosing (by omega) (by omega) ht hfound
    refine .emit_bind trivial (.bind (runs_narrow_of_lt ?_ ⟨htotal, cum, hcum, htable⟩) fun _ w' k' hw' =>
      runs_renormDec _ hw')
    rw [htotal]
    exact hlo.trans_lt hhi

theorem runs_ariDecodeLoop {t : Nat} (ht : 0 < t) (count : Nat) {w : Work} {k : Nat} (hw : TableSet t w) :
    RunsAriDec n w k (ariDecodeLoop count) (TableSet t) := by
  induction count generalizing w k with
  | zero => exact .pure hw
  | succ count ih => exact .bind (runs_ariDecodeStep ht hw) fun _ w' k' hw' => ih hw'

theorem runs_ariDecRule : RunsAriDec n w k ariDecRule fun _ => True := by
  refine .setSc_bind 0 (.onAri_bind _ (.get (fun s t _ hn => by simp only [hn]) fun _ _ _ => ?_))
  refine .bind (runs_ariParseTable _ ⟨Nat.zero_le n, .nil⟩) fun _ w₁ k₁ hw₁ => ?_
  refine .bind (runs_ariParseTotal hw₁.2) fun _ w₂ k₂ ⟨t, hw₂⟩ => .bind (runs_ariReadStream hw₂) fun _ w₃ k₃ hw₃ => ?_
  refine .onAri_bind _ (.get (fun s t hw _ => by simp only [hw]) fun s hs _ => ?_)
  rw [hs, hw₃.1]
  rcases Nat.eq_zero_or_pos t with rfl | ht
  · exact .pure trivial
  · exact .imp (runs_ariDecodeLoop ht t ⟨rfl, hw₃.2⟩) fun _ _ _ _ => trivial

end

end Sys2Proof.Machine
end

section
/-! What every command does in every environment: it emits, and ends in completion, a fault it may raise, or a reset that was
to come (40_command_dispatch.md R101 to R104, 60_exceptions.md R254 to R262). -/

namespace Sys2Proof.Machine

open Sys2Proof Sys2Proof.Safety Sys2Proof.Huffman

/-! ### The eight commands as programs -/

/-- The engine's rule of a command (40_command_dispatch.md R105). -/
def ruleOf (i : Instr) : Cmd Unit :=
  match i with
  | .hufEnc => hufEncRule
  | .hufDec => hufDecRule
  | .ariEnc => ariEncRule
  | .ariDec => ariDecRule
  | .bwtEnc => bwtEncRule
  | .bwtDec => bwtDecRule
  | .hamEnc => hamEncRule
  | .hamDec => hamDecRule

theorem exec_eq (i : Instr) (s : State) : exec i s = .next (runCommand (encode i) (ruleOf i) s) := by
  cases i <;> rfl

/-- The output positions a command may write, for `SRC_LEN` = `n` (70_reset_and_hazards.md R285). -/
def fitsOf (i : Instr) (n j : Nat) : Prop :=
  match i with
  | .hufDec => j < n
  | .bwtDec => j < n
  | .hamDec => j < n
  | _ => True

theorem runs_rule (i : Instr) (n : Nat) :
    Runs n (causes i) (fitsOf i n) Work.clear 0 (ruleOf i) fun _ _ _ => True :=
  match i with
  | .hufEnc => runs_hufEncRule ..
  | .hufDec => runs_hufDecRule rfl
  | .ariEnc => runs_ariEncRule (may := causes .ariEnc) rfl ..
  | .ariDec => runs_ariDecRule
  | .bwtEnc => runs_bwtEncRule ..
  | .bwtDec => runs_bwtDecRule rfl
  | .hamEnc => runs_hamEncRule ..
  | .hamDec => runs_hamDecRule rfl

theorem mayRaise_of_io {c : Cause} (h : c.kind = .io) (i : Instr) : mayRaise i c = true := by
  cases i <;> simp [mayRaise, h]

/-- A command whose input is longer than SRC faults at its start checks (40_command_dispatch.md R103). -/
theorem runCommand_of_long {w : Word} {s : State} (hw : legalWord w = true) (hlong : s.caps.srcCap.val < s.srcLen.toNat)
    (rule : Cmd Unit) : runCommand w rule s = faultEntry .srcRange (startCommand w s) := by
  have hchecks : startChecks w (startCommand w s) = .error (.fault .srcRange) (startCommand w s) := by
    rw [startChecks_apply, hw, if_neg Bool.true_eq_false.mp]
    exact if_pos hlong
  rw [runCommand, cmd_bind_error hchecks, endCommand_fault]

/-- All a command can do: the state it has emitted to, and one of its three ends. -/
theorem exec_cases (i : Instr) (s : State) :
    ∃ t, Ran (fitsOf i s.srcLen.toNat) (startCommand (encode i) s) t ∧
      (exec i s = .next (finishCommand t) ∨ (∃ c, mayRaise i c = true ∧ exec i s = .next (faultEntry c t)) ∨
        (¬ NoReset s ∧ exec i s = .next (resetCore t))) := by
  have hstart : (startCommand (encode i) s).dstLen.toNat ≤ s.caps.dstCap.val := Nat.zero_le _
  rw [exec_eq]
  by_cases hlen : s.srcLen.toNat ≤ s.caps.srcCap.val
  · obtain ⟨hok, herr⟩ := (runs_rule i s.srcLen.toNat).ran (s := startCommand (encode i) s) rfl rfl rfl hstart
    rw [runCommand_checked (legalWord_encode i) hlen]
    cases hrun : ruleOf i (startCommand (encode i) s) with
    | ok a t => exact ⟨t, (hok a t hrun).1, .inl rfl⟩
    | error e t =>
      obtain ⟨hran, hstop⟩ := herr e t hrun
      refine ⟨t, hran, .inr ?_⟩
      match e, hstop with
      | .fault c, hstop => exact .inl ⟨c, hstop.elim id fun h => mayRaise_of_io h i, rfl⟩
      | .reset, hstop => exact .inr ⟨hstop, rfl⟩
  · refine ⟨_, .refl hstart, .inr (.inl ⟨.srcRange, mayRaise_of_io rfl i, ?_⟩)⟩
    rw [runCommand_of_long (legalWord_encode i) (Nat.lt_of_not_le hlen)]

/-! ### The frame of a command -/

section
variable {fits : Nat → Prop} {w : Word} {s t : State}

theorem Ran.status_eq (h : Ran fits s t) : t.status = s.status := by
  obtain ⟨⟨bs, ht, -⟩, -⟩ := h
  rw [ht, appendBytes_frame]

theorem Ran.src_eq (h : Ran fits s t) : t.src = s.src := by
  obtain ⟨⟨bs, ht, -⟩, -⟩ := h
  rw [ht]
  exact appendBytes_src bs s

theorem Ran.cmd_eq (h : Ran fits s t) : t.cmd = s.cmd := by
  obtain ⟨⟨bs, ht, -⟩, -⟩ := h
  rw [ht, appendBytes_frame]

theorem Ran.caps_eq (h : Ran fits s t) : t.caps = s.caps := by
  obtain ⟨⟨bs, ht, -⟩, -⟩ := h
  rw [ht]
  exact appendBytes_caps bs s

/-- A command that ends without a reset keeps what no command changes, whatever `STATUS` it ends with. -/
theorem Ran.commandFrame (h : Ran fits (startCommand w s) t) (st : Status) :
    CommandFrame w s (State.clearWork { t with status := st }) := by
  obtain ⟨⟨bs, ht, hroom, -⟩, -⟩ := h
  obtain ⟨-, hlen, hcells⟩ := appendBytes_spec hroom
  have hdst : ∀ a, t.dstLen.toNat ≤ a → dstCell t a = dstCell s a := fun a ha => by
    rw [ht] at ha ⊢
    exact hcells a (hlen ▸ ha)
  rw [appendBytes_frame] at ht
  rw [ht] at hdst ⊢
  exact ⟨rfl, rfl, rfl, rfl, rfl, rfl, rfl, rfl, hdst⟩

theorem Ran.finish_status (h : Ran fits (startCommand w s) t) : (finishCommand t).status = statusOk := by
  rw [finishCommand, State.clearWork, h.status_eq]
  rfl

/-- Bytes stand at positions that fit only. -/
theorem Ran.length_le {n : Nat} (h : Ran (· < n) (startCommand w s) t) : t.dstLen.toNat ≤ n := by
  obtain ⟨⟨bs, ht, hroom, hfits⟩, -⟩ := h
  obtain ⟨-, hlen, -⟩ := appendBytes_spec hroom
  have hzero : (startCommand w s).dstLen.toNat = 0 := rfl
  have hdst : t.dstLen.toNat = bs.length := by rw [ht]; exact hlen.trans (by rw [hzero, Nat.zero_add])
  by_contra hlt
  have := hfits n (by omega)
  omega

end

/-! ### The statements -/

/-- Settles O15: each of the three ends clears the working state. -/
theorem everyCommandEnds : Obligations.EveryCommandEnds := by
  unfold Obligations.EveryCommandEnds
  intro i s
  obtain ⟨t, -, h | ⟨c, -, h⟩ | ⟨-, h⟩⟩ := exec_cases i s
  · exact ⟨_, h, rfl, .inl rfl⟩
  · exact ⟨_, h, rfl, .inr (.inl rfl)⟩
  · exact ⟨_, h, rfl, .inr (.inr rfl)⟩

/-- Settles O16: without a reset to come a command ends in completion or fault entry, and both keep the frame. -/
theorem commandsChangeOnlyTheirOutput : Obligations.CommandsChangeOnlyTheirOutput := by
  unfold Obligations.CommandsChangeOnlyTheirOutput
  intro i s hreset
  obtain ⟨t, hran, h | ⟨c, -, h⟩ | ⟨hr, -⟩⟩ := exec_cases i s
  · exact ⟨_, h, hran.commandFrame _, hran.caps_eq ▸ hran.dstLen_le, .inl hran.finish_status⟩
  · exact ⟨_, h, hran.commandFrame _, hran.caps_eq ▸ hran.dstLen_le, .inr ⟨c, rfl⟩⟩
  · exact absurd hreset hr

/-- Settles O17: by what each command's rule is a program of (`runs_rule`); that of `ARI.DEC` raises no `ARI_COLLAPSE` because
its table's low bounds ascend. -/
theorem faultsByCommand : Obligations.FaultsByCommand := by
  unfold Obligations.FaultsByCommand
  intro i s t ht
  obtain ⟨u, hran, h | ⟨c, hc, h⟩ | ⟨-, h⟩⟩ := exec_cases i s <;> cases h.symm.trans ht
  · exact .inr (.inl hran.finish_status)
  · exact .inr (.inr ⟨c, hc, rfl⟩)
  · exact .inl rfl

/-- Settles O18: the start checks stop the command in the state it started in. -/
theorem longInputFaultsAtStart : Obligations.LongInputFaultsAtStart := by
  unfold Obligations.LongInputFaultsAtStart
  intro i s hlong
  rw [exec_eq, runCommand_of_long (legalWord_encode i) hlong]
  rfl

/-- Settles O20: the three decode commands write below `SRC_LEN` only. -/
theorem decodersEmitNoMoreThanTheyRead : Obligations.DecodersEmitNoMoreThanTheyRead := by
  unfold Obligations.DecodersEmitNoMoreThanTheyRead
  intro i s t hi ht
  obtain ⟨u, hran, hend⟩ := exec_cases i s
  have hfits : fitsOf i s.srcLen.toNat = (· < s.srcLen.toNat) := by
    rcases hi with rfl | rfl | rfl <;> rfl
  rw [hfits] at hran
  obtain h | ⟨c, -, h⟩ | ⟨-, h⟩ := hend <;> cases h.symm.trans ht
  · exact hran.length_le
  · exact hran.length_le
  · exact Nat.zero_le _

/-! ### The invariant -/

/-- Both buffers are canonical and within their capacities, and every byte of the output has been written
(20_memory.md R50, R51, R56). -/
def BuffersLegal (s : State) : Prop :=
  (Memory.wf s.src ∧ ∀ c ∈ s.src, c.1 < s.caps.srcCap.val) ∧ (Memory.wf s.dst ∧ ∀ c ∈ s.dst, c.1 < s.caps.dstCap.val) ∧
    s.dstLen.toNat ≤ s.caps.dstCap.val ∧ ∀ a, a < s.dstLen.toNat → (Memory.read s.dst a).isSome = true

theorem inv_iff (s : State) : Safety.Inv s ↔ BuffersLegal s ∧ s.work = Work.clear ∧ StatusLegal s := by
  unfold Safety.Inv BuffersLegal
  tauto

theorem BuffersLegal.startCommand {s : State} (h : BuffersLegal s) (w : Word) : BuffersLegal (startCommand w s) := by
  obtain ⟨hsrc, hdst, -, -⟩ := h
  exact ⟨hsrc, hdst, Nat.zero_le _, nofun⟩

theorem BuffersLegal.resetCore {s : State} (h : BuffersLegal s) : BuffersLegal (resetCore s) := by
  obtain ⟨hsrc, hdst, -, -⟩ := h
  exact ⟨hsrc, hdst, Nat.zero_le _, nofun⟩

theorem BuffersLegal.writeSrc {s : State} (h : BuffersLegal s) {a : Nat} (ha : a < s.caps.srcCap.val) (v : Byte) :
    BuffersLegal { s with src := Memory.write s.src a v } := by
  obtain ⟨⟨hwf, hbelow⟩, hdst, hlen, hwritten⟩ := h
  exact ⟨⟨Memory.write_wf hwf a v, Memory.write_below hbelow ha⟩, hdst, hlen, hwritten⟩

theorem BuffersLegal.appendByte {s : State} (h : BuffersLegal s) (room : s.dstLen.toNat < s.caps.dstCap.val) (b : Byte) :
    BuffersLegal (appendByte b s) := by
  obtain ⟨hsrc, ⟨hwf, hbelow⟩, -, hwritten⟩ := h
  have hlen := appendByte_dstLen room b
  refine ⟨hsrc, ⟨Memory.write_wf hwf _ b, Memory.write_below hbelow room⟩, hlen ▸ room, fun a ha => ?_⟩
  show (Memory.read (Memory.write s.dst s.dstLen.toNat b) a).isSome = true
  rw [Memory.read_write]
  split
  · rfl
  · exact hwritten a (by omega)

theorem BuffersLegal.appendBytes {bs : Bytes} {s : State} (h : BuffersLegal s)
    (room : s.dstLen.toNat + bs.length ≤ s.caps.dstCap.val) : BuffersLegal (appendBytes bs s) := by
  induction bs generalizing s with
  | nil => exact h
  | cons b bs ih =>
    rw [List.length_cons] at room
    have hroom : s.dstLen.toNat < s.caps.dstCap.val := by omega
    refine ih (h.appendByte hroom b) ?_
    rw [appendByte_dstLen hroom, appendByte_caps]
    omega

theorem BuffersLegal.ran {fits : Nat → Prop} {s t : State} (h : BuffersLegal s) (hran : Ran fits s t) : BuffersLegal t := by
  obtain ⟨⟨bs, ht, hroom, -⟩, -⟩ := hran
  rw [ht]
  exact h.appendBytes hroom

/-- A command keeps the invariant: its end writes a legal `STATUS`. -/
theorem inv_of_exec {i : Instr} {s t : State} (h : Safety.Inv s) (ht : exec i s = .next t) : Safety.Inv t := by
  obtain ⟨hbuf, -, -⟩ := (inv_iff s).mp h
  obtain ⟨u, hran, hend⟩ := exec_cases i s
  have hbuf' : BuffersLegal u := (hbuf.startCommand _).ran hran
  have hlegal : legalWord u.cmd = true := hran.cmd_eq ▸ legalWord_encode i
  rw [inv_iff]
  obtain h | ⟨c, hc, h⟩ | ⟨-, h⟩ := hend <;> cases h.symm.trans ht
  · exact ⟨hbuf', rfl, .inr (.inl ⟨hran.finish_status, hlegal⟩)⟩
  · refine ⟨hbuf', rfl, .inr (.inr ⟨c, rfl, ⟨?_, fun h => by cases hlegal.symm.trans h⟩⟩)⟩
    rintro rfl
    cases i <;> cases hc
  · exact ⟨hbuf'.resetCore, rfl, .inl ⟨rfl, rfl, rfl⟩⟩

theorem inv_resetCore {s : State} (h : Safety.Inv s) : Safety.Inv (resetCore s) := by
  obtain ⟨hbuf, -, -⟩ := (inv_iff s).mp h
  exact (inv_iff _).mpr ⟨hbuf.resetCore, rfl, .inl ⟨rfl, rfl, rfl⟩⟩

theorem inv_of_illegalWord {w : Word} {s : State} (h : Safety.Inv s) (hw : legalWord w = false) :
    Safety.Inv (runCommand w (pure ()) s) := by
  obtain ⟨hbuf, -, -⟩ := (inv_iff s).mp h
  rw [runCommand_of_not_legalWord hw, inv_iff]
  exact ⟨hbuf.startCommand w, rfl, .inr (.inr ⟨.illegalCmd, rfl, fun _ => hw, fun _ => rfl⟩)⟩

theorem legalWord_eq_false_of_decode {w : Word} {e : DecodeError} (h : decode w = .error e) : legalWord w = false := by
  by_contra hw
  obtain ⟨i, hi⟩ := (exists_decode_eq_ok_iff w).mpr (Bool.eq_true_of_not_eq_false hw)
  cases hi.symm.trans h

/-- Settles O13: an access writes one SRC cell or `SRC_LEN`, which is in bounds, or is a command or a reset. -/
theorem everyStepKeepsTheInvariant : Obligations.EveryStepKeepsTheInvariant := by
  unfold Obligations.EveryStepKeepsTheInvariant
  intro s t hs hstep
  obtain ⟨-, h⟩ | ⟨op, rest, -, h⟩ := step_cases s
  · cases h.symm.trans hstep
    exact hs
  · have hinv : Safety.Inv (State.takeHost rest s) := hs
    obtain ⟨hbuf, hwork, hstatus⟩ := (inv_iff _).mp hinv
    obtain rfl | ⟨r, rfl | rfl⟩ | ⟨-, ⟨a, v, ha, rfl⟩ | ⟨w, rfl⟩ | ⟨i, w, -, hrun⟩ | ⟨w, e, hw, rfl⟩⟩ | rfl :=
      hostAccess_next_cases (h.symm.trans hstep)
    · exact hinv
    · exact hinv
    · exact hinv
    · exact (inv_iff _).mpr ⟨hbuf.writeSrc ha v, hwork, hstatus⟩
    · exact hinv
    · exact inv_of_exec hinv hrun
    · exact inv_of_illegalWord hinv (legalWord_eq_false_of_decode hw)
    · exact inv_resetCore hinv

end Sys2Proof.Machine
end

section
/-! What a command's pseudocode computes of its input: the string it emits, and the value it goes on with or the cause it
raises. Where every read succeeds a command does what emitting that string, and then going on or raising, does: so it is the
same for every DST capacity and for every answer of the DST port (20_memory.md R56, R57, 40_command_dispatch.md R106). -/

namespace Sys2Proof.Machine

open Sys2Proof Sys2Proof.Safety Sys2Proof.Huffman

/-! ### Outcomes up to the working state of a stop -/

/-- An outcome with the working state of a stop cleared, as every end of a command clears it. -/
def settled {α : Type} (r : EStateM.Result Stop State α) : EStateM.Result Stop State α :=
  match r with
  | .ok a t => .ok a t
  | .error e t => .error e (State.clearWork t)

theorem endCommand_settled (r : EStateM.Result Stop State Unit) : endCommand (settled r) = endCommand r := by
  match r with
  | .ok _ _ => rfl
  | .error (.fault _) _ => rfl
  | .error .reset _ => rfl

theorem eq_ok_of_settled {α : Type} {r : EStateM.Result Stop State α} {a : α} {t : State} (h : settled r = .ok a t) :
    r = .ok a t := by
  cases r with
  | ok b u => exact h
  | error e u => cases h

theorem eq_error_of_settled {α : Type} {r : EStateM.Result Stop State α} {e : Stop} {u : State}
    (h : settled r = .error e u) : ∃ t, r = .error e t ∧ State.clearWork t = u := by
  cases r with
  | ok b t => cases h
  | error e' t =>
    cases h
    exact ⟨t, rfl, rfl⟩

theorem emit_with_work (b : Byte) (w : Work) (s : State) :
    emit b { s with work := w } = match emit b s with
      | .ok _ t => .ok () { t with work := w }
      | .error e t => .error e { t with work := w } := by
  by_cases hfull : s.dstLen.toNat = s.caps.dstCap.val
  · simp only [emit, cmd_bind_ok (cmd_get _), hfull, if_true, cmd_bind, raise_apply]
  · simp only [emit, cmd_bind_ok (cmd_get _), hfull, if_false, cmd_bind, dstByte]
    generalize nextAnswer s.dstAnswers = r
    match r with
    | (none, _) => rfl
    | (some .err, _) => rfl
    | (some .reset, _) => rfl

/-- Emitting with another working state. -/
theorem emitStr_with_work (bs : Bytes) (w : Work) (s : State) :
    emitStr bs { s with work := w } = match emitStr bs s with
      | .ok _ t => .ok () { t with work := w }
      | .error e t => .error e { t with work := w } := by
  induction bs generalizing s with
  | nil => rfl
  | cons b bs ih =>
    rw [emitStr_cons, cmd_bind, cmd_bind, emit_with_work]
    cases emit b s with
    | ok a t => exact ih t
    | error e t => rfl

/-- What a string emitted whole leaves unchanged. -/
theorem emitStr_ok {bs : Bytes} {s t : State} (h : emitStr bs s = .ok () t) :
    t.srcAnswers = s.srcAnswers ∧ t.src = s.src ∧ t.srcLen = s.srcLen ∧ t.work = s.work := by
  induction bs generalizing s with
  | nil =>
    cases h
    exact ⟨rfl, rfl, rfl, rfl⟩
  | cons b bs ih =>
    obtain ⟨_, u, hemit, hrest⟩ := cmd_bind_eq_ok h
    obtain ⟨-, hrun⟩ | ⟨-, q, ⟨hrun, -⟩ | ⟨hrun, -⟩ | ⟨hrun, -⟩⟩ := emit_cases b s <;> rw [hrun] at hemit <;> cases hemit
    exact ih (s := { appendByte b s with dstAnswers := q }) hrest

theorem input_congr {s t : State} (hsrc : t.src = s.src) (hlen : t.srcLen = s.srcLen) : input t = input s := by
  have hcell : srcCell t = srcCell s := funext fun a => by rw [srcCell, srcCell, hsrc]
  rw [input, input, hcell, hlen]

/-! ### What is computed -/

/-- Going on with a value and a working state, or raising a cause. -/
def endWith {α : Type} (r : Except Cause (α × Work)) : Cmd α :=
  match r with
  | .ok (a, w) => fun s => .ok a { s with work := w }
  | .error c => raise c

/-- On the input `inp`, from the working state `w`, where every read succeeds, `m` emits `bs` and then goes on or raises as
`r` says; if a byte of `bs` cannot be emitted it stops there. -/
def Computes (inp : Bytes) {α : Type} (w : Work) (m : Cmd α) (bs : Bytes) (r : Except Cause (α × Work)) : Prop :=
  ∀ s : State, s.srcAnswers = [] → input s = inp → s.work = w →
    settled (m s) = settled ((emitStr bs >>= fun _ => endWith r : Cmd α) s)

section
variable {inp : Bytes} {α β : Type} {w : Work}

/-- A statement that emits nothing. -/
theorem Computes.of_eq {m : Cmd α} {r : Except Cause (α × Work)}
    (h : ∀ s : State, s.srcAnswers = [] → input s = inp → s.work = w → m s = endWith r s) : Computes inp w m [] r :=
  fun s hs hinp hw => congrArg settled (h s hs hinp hw)

theorem Computes.congr {m m' : Cmd α} {bs : Bytes} {r : Except Cause (α × Work)} (h : Computes inp w m' bs r)
    (heq : ∀ s : State, s.srcAnswers = [] → input s = inp → s.work = w → m s = m' s) : Computes inp w m bs r :=
  fun s hs hinp hw => (congrArg settled (heq s hs hinp hw)).trans (h s hs hinp hw)

theorem Computes.pure (a : α) : Computes inp w (pure a) [] (.ok (a, w)) := .of_eq fun _ _ _ hw => by
  subst hw
  rfl

theorem Computes.raise (c : Cause) : Computes inp w (Machine.raise c : Cmd α) [] (.error c) := .of_eq fun _ _ _ _ => rfl

theorem Computes.work (g : Work → Work) :
    Computes inp w (modify fun s => { s with work := g s.work }) [] (.ok ((), g w)) := .of_eq fun _ _ _ hw => by
  subst hw
  rfl

theorem Computes.emitStr (bs : Bytes) : Computes inp w (Machine.emitStr bs) bs (.ok ((), w)) := fun s _ _ hw => by
  rw [cmd_bind]
  cases h : Machine.emitStr bs s with
  | ok a t =>
    obtain ⟨-, -, -, hwork⟩ := emitStr_ok h
    subst hw
    rw [← hwork]
    rfl
  | error e t => rfl

theorem Computes.emit (b : Byte) : Computes inp w (Machine.emit b) [b] (.ok ((), w)) :=
  emitStr_singleton b ▸ .emitStr [b]

theorem Computes.get_bind {f : State → Cmd β} {bs : Bytes} {r : Except Cause (β × Work)}
    (hf : ∀ s : State, input s = inp → s.work = w → Computes inp w (f s) bs r) :
    Computes inp w (do let s ← get; f s) bs r := fun s hs hinp hw => by
  rw [cmd_bind_ok (cmd_get s)]
  exact hf s hinp hw s hs hinp hw

theorem Computes.bind {m : Cmd α} {f : α → Cmd β} {xs ys : Bytes} {a : α} {w' : Work} {r : Except Cause (β × Work)}
    (hm : Computes inp w m xs (.ok (a, w'))) (hf : Computes inp w' (f a) ys r) : Computes inp w (m >>= f) (xs ++ ys) r :=
  fun s hs hinp hw => by
  have hms := hm s hs hinp hw
  rw [cmd_bind] at hms
  rw [cmd_bind, cmd_bind, emitStr_append, cmd_bind]
  cases hxs : Machine.emitStr xs s with
  | error e t =>
    rw [hxs] at hms
    obtain ⟨u, hu, hclear⟩ := eq_error_of_settled hms
    rw [hu]
    exact congrArg (EStateM.Result.error e) hclear
  | ok u t =>
    rw [hxs] at hms
    obtain ⟨hsrc, hcells, hlen, -⟩ := emitStr_ok hxs
    rw [eq_ok_of_settled hms]
    refine (hf { t with work := w' } (hsrc.trans hs) ((input_congr hcells hlen).trans hinp) rfl).trans ?_
    rw [cmd_bind, emitStr_with_work]
    simp only
    cases Machine.emitStr ys t with
    | error e v => rfl
    | ok b v => cases r <;> rfl

theorem Computes.bind_raise {m : Cmd α} {f : α → Cmd β} {bs : Bytes} {c : Cause} (hm : Computes inp w m bs (.error c)) :
    Computes inp w (m >>= f) bs (.error c) := fun s hs hinp hw => by
  have hms := hm s hs hinp hw
  rw [cmd_bind] at hms ⊢
  rw [cmd_bind]
  cases hbs : Machine.emitStr bs s with
  | error e t =>
    rw [hbs] at hms
    obtain ⟨u, hu, hclear⟩ := eq_error_of_settled hms
    rw [hu]
    exact congrArg (EStateM.Result.error e) hclear
  | ok u t =>
    rw [hbs] at hms
    obtain ⟨u, hu, hclear⟩ := eq_error_of_settled hms
    rw [hu]
    exact congrArg (EStateM.Result.error (Stop.fault c)) hclear

/-- A first part that emits nothing. -/
theorem Computes.bind_silent {m : Cmd α} {f : α → Cmd β} {bs : Bytes} {a : α} {w' : Work} {r : Except Cause (β × Work)}
    (hm : Computes inp w m [] (.ok (a, w'))) (hf : Computes inp w' (f a) bs r) : Computes inp w (m >>= f) bs r :=
  hm.bind hf

/-- A last part that emits nothing. -/
theorem Computes.bind_end {m : Cmd α} {f : α → Cmd β} {bs : Bytes} {a : α} {w' : Work} {r : Except Cause (β × Work)}
    (hm : Computes inp w m bs (.ok (a, w'))) (hf : Computes inp w' (f a) [] r) : Computes inp w (m >>= f) bs r := by
  simpa only [List.append_nil] using hm.bind hf

theorem Computes.modify_bind (g : Work → Work) {f : Unit → Cmd β} {bs : Bytes} {r : Except Cause (β × Work)}
    (hf : Computes inp (g w) (f ()) bs r) : Computes inp w ((modify fun s => { s with work := g s.work }) >>= f) bs r :=
  (Computes.work g).bind_silent hf

/-! ### Loops -/

/-- A loop whose passes each emit a string and keep a condition on the working state. -/
theorem Computes.forEach_keeping {xs : List α} {body : α → Cmd Unit} {g : α → Bytes} (I : Work → Prop) (hw : I w)
    (hbody : ∀ x ∈ xs, ∀ w, I w → ∃ w', I w' ∧ Computes inp w (body x) (g x) (.ok ((), w'))) :
    ∃ w', I w' ∧ Computes inp w (forEach xs body) (xs.flatMap g) (.ok ((), w')) := by
  induction xs generalizing w with
  | nil => exact ⟨w, hw, .pure ()⟩
  | cons x xs ih =>
    obtain ⟨w₁, hw₁, hx⟩ := hbody x (List.mem_cons_self ..) w hw
    obtain ⟨w₂, hw₂, hxs⟩ := ih hw₁ fun y hy => hbody y (List.mem_cons_of_mem _ hy)
    exact ⟨w₂, hw₂, hx.bind hxs⟩

/-- A loop whose passes each emit a string and leave the working state alone. -/
theorem Computes.forEach {xs : List α} {body : α → Cmd Unit} {g : α → Bytes}
    (hbody : ∀ x ∈ xs, Computes inp w (body x) (g x) (.ok ((), w))) :
    Computes inp w (Machine.forEach xs body) (xs.flatMap g) (.ok ((), w)) := by
  induction xs with
  | nil => exact .pure ()
  | cons x xs ih => exact (hbody x (List.mem_cons_self ..)).bind (ih fun y hy => hbody y (List.mem_cons_of_mem _ hy))

end

/-! ### A command whose rule computes -/

/-- The command `i` ran from `s` to `t`, ended with `cause`, or completed where there is none, and emitted `out`. -/
def Ends (i : Instr) (s t : State) (cause : Option Cause) (out : Bytes) : Prop :=
  match cause with
  | none => EndsOk i s t out
  | some c => EndsFault i s t c out

/-- The cause a rule ends its command with, if it raises one. -/
def causeOf {α : Type} (r : Except Cause α) : Option Cause :=
  match r with
  | .ok _ => none
  | .error c => some c

section
variable {i : Instr} {s : State} {bs : Bytes} {r : Except Cause (Unit × Work)}

/-- What a command's rule computes decides how the command ends, whatever the DST port answers. -/
theorem exec_of_computes (h : Computes (input s) Work.clear (ruleOf i) bs r) (hsrc : s.srcAnswers = [])
    (hlen : s.srcLen.toNat ≤ s.caps.srcCap.val) :
    exec i s = .next (endCommand ((emitStr bs >>= fun _ => endWith r : Cmd Unit) (startCommand (encode i) s))) := by
  have hrule := h (startCommand (encode i) s) hsrc rfl rfl
  rw [exec_eq, runCommand_checked (legalWord_encode i) hlen, ← endCommand_settled]
  exact congrArg Host.Outcome.next ((congrArg endCommand hrule).trans (endCommand_settled _))

/-- A rule that stops, having emitted `bs`, makes its command fault with the output `bs` (60_exceptions.md R256, R257). -/
theorem endsFault_of_emitted {c : Cause} {t : State} (room : bs.length ≤ s.caps.dstCap.val)
    (ht : Emitted bs (startCommand (encode i) s) t) : EndsFault i s (faultEntry c t) c bs := by
  have hzero : (startCommand (encode i) s).dstLen.toNat = 0 := rfl
  have hnone : output (startCommand (encode i) s) = [] := rfl
  obtain ⟨hout, hlen, hcells⟩ := appendBytes_spec (bs := bs) (s := startCommand (encode i) s) (by simpa using room)
  rw [hnone, List.nil_append] at hout
  rw [hzero, Nat.zero_add] at hlen hcells
  rw [ht, appendBytes_frame]
  exact ⟨rfl, hlen, hout, rfl, rfl, rfl, rfl, rfl, rfl, rfl, rfl, fun a ha => hcells a (hlen ▸ ha)⟩

/-- A command that stops before its first write faults with no output. -/
theorem endsFault_of_unwritten {c : Cause} {t : State}
    (ht : t = { startCommand (encode i) s with work := t.work, srcAnswers := t.srcAnswers, dstAnswers := t.dstAnswers }) :
    EndsFault i s (faultEntry c t) c [] := by
  rw [ht]
  exact ⟨rfl, rfl, rfl, rfl, rfl, rfl, rfl, rfl, rfl, rfl, rfl, fun _ _ => rfl⟩

/-- A command under the launch premise with room for what its rule computes. -/
theorem ends_of_computes (h : Computes (input s) Work.clear (ruleOf i) bs r) (hs : Ready s)
    (room : bs.length ≤ s.caps.dstCap.val) : ∃ t, exec i s = .next t ∧ Ends i s t (causeOf r) bs := by
  obtain ⟨⟨hsrc, hdst⟩, hlen⟩ := hs
  refine ⟨_, exec_of_computes h hsrc hlen, ?_⟩
  have hemit : emitStr bs (startCommand (encode i) s) = .ok () (appendBytes bs (startCommand (encode i) s)) :=
    emitStr_quiet hdst (by simpa using room)
  rw [cmd_bind_ok hemit]
  match r with
  | .ok (u, w) =>
    have hrun := endsOk_of_emitted (i := i) (bs := bs)
      (rule := fun _ => .ok () { appendBytes bs (startCommand (encode i) s) with work := w }) hlen room rfl rfl
    exact Eq.subst (motive := fun t => EndsOk i s t bs) (runCommand_checked (legalWord_encode i) hlen) hrun
  | .error c => exact endsFault_of_emitted room (emitted_appendBytes bs _)

/-- A command under the launch premise without room for what its rule computes: what fits is emitted
(20_memory.md R56). -/
theorem full_of_computes (h : Computes (input s) Work.clear (ruleOf i) bs r) (hs : Ready s)
    (full : s.caps.dstCap.val < bs.length) :
    ∃ t, exec i s = .next t ∧ EndsFault i s t .dstFull (bs.take s.caps.dstCap.val) := by
  obtain ⟨⟨hsrc, hdst⟩, hlen⟩ := hs
  refine ⟨_, exec_of_computes h hsrc hlen, ?_⟩
  have hemit : emitStr bs (startCommand (encode i) s) =
      .error (.fault .dstFull) (appendBytes (bs.take s.caps.dstCap.val) (startCommand (encode i) s)) :=
    emitStr_overflow hdst (Nat.zero_le _) (by simpa using full)
  rw [cmd_bind_error hemit]
  exact endsFault_of_emitted (by simp) (emitted_appendBytes _ _)

/-- The stop that an upset of a DST write makes (20_memory.md R55, R57). -/
def stopOf (u : Upset) : Stop :=
  match u with
  | .err => .fault .dstWrite
  | .reset => .reset

/-- A command whose first DST write is upset stops there, nothing written (20_memory.md R55, R57). -/
theorem stops_of_computes (h : Computes (input s) Work.clear (ruleOf i) bs r) (hsrc : s.srcAnswers = [])
    (hlen : s.srcLen.toNat ≤ s.caps.srcCap.val) (hbs : bs ≠ []) {u : Upset} {q : Answers}
    (hdst : s.dstAnswers = (0, u) :: q) (hroom : 0 < s.caps.dstCap.val) :
    exec i s = .next (endCommand (.error (stopOf u) { startCommand (encode i) s with dstAnswers := q })) := by
  obtain ⟨b, bs, rfl⟩ := List.exists_cons_of_ne_nil hbs
  rw [exec_of_computes h hsrc hlen, cmd_bind, emitStr_cons, cmd_bind]
  have hroom' : ¬ (startCommand (encode i) s).dstLen.toNat = (startCommand (encode i) s).caps.dstCap.val :=
    Nat.ne_of_lt hroom
  have hnext : nextAnswer (startCommand (encode i) s).dstAnswers = (some u, q) := by
    rw [show (startCommand (encode i) s).dstAnswers = (0, u) :: q from hdst]
    rfl
  have hemit : emit b (startCommand (encode i) s) = .error (stopOf u) { startCommand (encode i) s with dstAnswers := q } := by
    simp only [emit, cmd_bind, cmd_get, hroom', if_false, dstByte, hnext]
    cases u <;> rfl
  rw [hemit]

end

end Sys2Proof.Machine
end

section
/-! Every command computes something of its input alone (40_command_dispatch.md R106, 70_reset_and_hazards.md R282): an
induction over the programs of the eight commands. -/

namespace Sys2Proof.Machine

open Sys2Proof Sys2Proof.Safety Sys2Proof.Huffman

theorem srcCell_eq_getD {s : State} {i : Nat} (hi : i < s.srcLen.toNat) (d : Byte) : srcCell s i = (input s).getD i d := by
  simp [input, hi]

/-- A program computes a string and a result, and where it goes on its condition holds of them. -/
theorem Runs.computes {n : Nat} {may : Cause → Prop} {fits : Nat → Prop} {α : Type} {w : Work} {k : Nat} {m : Cmd α}
    {Q : α → Work → Nat → Prop} (h : Runs n may fits w k m Q) {inp : Bytes} (hinp : inp.length = n) :
    ∃ bs r, Computes inp w m bs r ∧ ∀ a w', r = .ok (a, w') → Q a w' (k + bs.length) := by
  induction h with
  | @pure α w k a Q h =>
    refine ⟨[], _, .pure a, fun b w' heq => ?_⟩
    cases heq
    exact h
  | raise h => exact ⟨[], _, .raise _, fun _ _ heq => by cases heq⟩
  | bind hm hf ihm ihf =>
    obtain ⟨xs, r, hcomp, hR⟩ := ihm
    cases r with
    | error c => exact ⟨xs, _, hcomp.bind_raise, fun _ _ heq => by cases heq⟩
    | ok p =>
      obtain ⟨ys, r, hcomp', hQ⟩ := ihf p.1 p.2 _ (hR p.1 p.2 rfl)
      refine ⟨xs ++ ys, r, hcomp.bind hcomp', fun b w' heq => ?_⟩
      rw [List.length_append, ← Nat.add_assoc]
      exact hQ b w' heq
  | @get β w k f Q hsame hf ih =>
    by_cases hex : ∃ s : State, input s = inp ∧ s.work = w
    · obtain ⟨s, hs, hw⟩ := hex
      obtain ⟨bs, r, hcomp, hQ⟩ := ih s hw (by rw [← input_length, hs, hinp])
      refine ⟨bs, r, .get_bind fun t ht hwt => ?_, hQ⟩
      have hlen : t.srcLen = s.srcLen :=
        BitVec.eq_of_toNat_eq (by rw [← input_length, ← input_length, ht, hs])
      rwa [hsame t s (hwt.trans hw.symm) hlen]
    · exact ⟨[], .error .illegalCmd, fun s _ hs hw => absurd ⟨s, hs, hw⟩ hex, fun _ _ heq => by cases heq⟩
  | @work w k g Q h =>
    refine ⟨[], _, .work g, fun _ w' heq => ?_⟩
    cases heq
    exact h
  | @srcByte w k i Q hi h =>
    refine ⟨[], .ok (inp.getD i 0#8, w), .of_eq fun s hs hsinp hw => ?_, fun b w' heq => ?_⟩
    · have hlt : i < s.srcLen.toNat := by rwa [← input_length, hsinp, hinp]
      subst hw
      rw [srcByte_quiet hs, srcCell_eq_getD hlt 0#8, hsinp]
      rfl
    · cases heq
      exact h _
  | @emit w k b Q hfits h =>
    refine ⟨[b], _, .emit b, fun _ w' heq => ?_⟩
    cases heq
    exact h

theorem exists_computes_rule (i : Instr) (inp : Bytes) : ∃ bs r, Computes inp Work.clear (ruleOf i) bs r := by
  obtain ⟨bs, r, h, -⟩ := (runs_rule i inp.length).computes rfl
  exact ⟨bs, r, h⟩

/-- The `STATUS` a command ends with. -/
def statusOf (cause : Option Cause) : Status := cause.elim statusOk statusFault

theorem Ends.observed {i : Instr} {s t : State} {cause : Option Cause} {out : Bytes} (h : Ends i s t cause out) :
    t.status = statusOf cause ∧ t.dstLen.toNat = out.length ∧ output t = out :=
  match cause, h with
  | none, ⟨hstatus, hlen, hout, _⟩ => ⟨hstatus, hlen, hout⟩
  | some _, ⟨hstatus, hlen, hout, _⟩ => ⟨hstatus, hlen, hout⟩

/-- Two runs that end with the same cause and output cannot be told apart by what a host reads of the outcome. -/
theorem Ends.agree {i : Instr} {s₁ s₂ t₁ t₂ : State} {cause : Option Cause} {out : Bytes} (h₁ : Ends i s₁ t₁ cause out)
    (h₂ : Ends i s₂ t₂ cause out) : t₁.status = t₂.status ∧ t₁.dstLen = t₂.dstLen ∧ output t₁ = output t₂ := by
  obtain ⟨hstatus₁, hlen₁, hout₁⟩ := h₁.observed
  obtain ⟨hstatus₂, hlen₂, hout₂⟩ := h₂.observed
  exact ⟨hstatus₁.trans hstatus₂.symm, BitVec.eq_of_toNat_eq (hlen₁.trans hlen₂.symm), hout₁.trans hout₂.symm⟩

/-- Settles O19: the string and the result that the command's rule computes are the same in both runs, and so is how much of
the string fits. -/
theorem outcomeDependsOnTheInputAlone : Obligations.OutcomeDependsOnTheInputAlone := by
  unfold Obligations.OutcomeDependsOnTheInputAlone
  intro i s₁ s₂ hs₁ hs₂ hinput hcap
  obtain ⟨bs, r, h₁⟩ := exists_computes_rule i (input s₁)
  have h₂ : Computes (input s₂) Work.clear (ruleOf i) bs r := hinput ▸ h₁
  by_cases room : bs.length ≤ s₁.caps.dstCap.val
  · obtain ⟨t₁, hrun₁, hend₁⟩ := ends_of_computes h₁ hs₁ room
    obtain ⟨t₂, hrun₂, hend₂⟩ := ends_of_computes h₂ hs₂ (hcap ▸ room)
    exact ⟨t₁, t₂, hrun₁, hrun₂, hend₁.agree hend₂⟩
  · obtain ⟨t₁, hrun₁, hend₁⟩ := full_of_computes h₁ hs₁ (Nat.lt_of_not_le room)
    obtain ⟨t₂, hrun₂, hend₂⟩ := full_of_computes h₂ hs₂ (hcap ▸ Nat.lt_of_not_le room)
    rw [← hcap] at hend₂
    exact ⟨t₁, t₂, hrun₁, hrun₂, Ends.agree (cause := some .dstFull) hend₁ hend₂⟩

end Sys2Proof.Machine
end

section
/-! The encode commands compute their artifacts, `ARI.ENC` also where a narrowing collapses: what they end with where DST is too
small, and where its first write is upset, follows. -/

namespace Sys2Proof.Machine

open Sys2Proof Sys2Proof.Safety Sys2Proof.Artifact
open Sys2Proof.Huffman Sys2Proof.Arithmetic Sys2Proof.Bwt Sys2Proof.Hamming

section
variable {inp : Bytes} {w : Work}

/-! ### The input as symbols -/

theorem computes_normLen : Computes inp w normLen [] (.ok ((norm inp).length, w)) := .of_eq fun s hs hinp hw => by
  subst hinp hw
  exact normLen_eq hs

theorem computes_normSym_bind {β : Type} {f : Byte → Cmd β} {i : Nat} {bs : Bytes} {r : Except Cause (β × Work)}
    (hf : Computes inp w (f (inp.getD i LF)) bs r) : Computes inp w (normSym i >>= f) bs r :=
  .bind_silent (a := inp.getD i LF) (w' := w) (.of_eq fun s hs hinp hw => by
    subst hinp hw
    rw [normSym_eq hs, symbolAt_eq_getD]
    rfl) hf

theorem map_getD_range (bs : Bytes) (d : Byte) : (List.range bs.length).map (fun i => bs.getD i d) = bs :=
  List.ext_getElem (by simp) fun i h₁ h₂ => by simp [h₂]

theorem map_getD_norm (inp : Bytes) : (List.range (norm inp).length).map (fun i => inp.getD i LF) = norm inp := by
  rw [norm_eq_ite]
  split
  · exact map_getD_range inp LF
  · have hlast : inp.getD inp.length LF = LF := by simp
    rw [List.length_append, List.length_singleton, List.range_succ, List.map_append, map_getD_range, List.map_singleton, hlast]

/-- The symbols of the input, by their positions. -/
theorem flatMap_getD_norm (inp : Bytes) (g : Byte → Bytes) :
    (List.range' 0 (norm inp).length).flatMap (fun i => g (inp.getD i LF)) = (norm inp).flatMap g := by
  rw [← List.range_eq_range', ← List.flatMap_map (f := fun i => inp.getD i LF), map_getD_norm]

/-! ### `HUF.ENC` -/

theorem computes_hufCount : Computes inp w (hufCount (norm inp).length) []
    (.ok ((), { w with huf := addCounts (norm inp) w.huf })) := .of_eq fun s hs hinp hw => by
  subst hinp hw
  exact hufCount_eq hs

theorem computes_hufBuild : Computes inp w hufBuild [] (.ok ((), { w with huf := built w.huf })) :=
  .of_eq fun s _ _ hw => by
  subst hw
  exact hufBuild_eq s

theorem computes_hufEmitEntry (c : Byte) :
    Computes inp w (hufEmitEntry c) (entryText w.huf.code c) (.ok ((), w)) :=
  (Computes.emitStr _).congr fun s _ _ hw => hw ▸ hufEmitEntry_eq c s

theorem computes_hufEmitCode (i : Nat) : Computes inp w (do
      let c ← normSym i
      let s ← get
      emitStr (cell s.work.huf.code c)) (cell w.huf.code (inp.getD i LF)) (.ok ((), w)) := by
  refine computes_normSym_bind ?_
  refine .get_bind fun s _ hw => ?_
  rw [hw]
  exact .emitStr _

theorem hufArtifact_eq (inp : Bytes) : hufArtifact inp =
    allBytes.flatMap (entryText (hufCodeOf (countSyms (norm inp)))) ++
      (delimLine ++ ((norm inp).flatMap (cell (hufCodeOf (countSyms (norm inp)))) ++ [LF])) := by
  simp only [hufArtifact, hufText, flatMap_entryText, List.append_assoc]

theorem computes_hufEncRule (inp : Bytes) :
    ∃ w, Computes inp Work.clear hufEncRule (hufArtifact inp) (.ok ((), w)) := by
  rw [hufArtifact_eq, ← flatMap_getD_norm, ← code_built_of_clear]
  refine ⟨{ Work.clear with huf := built (addCounts (norm inp) Work.clear.huf) },
    computes_normLen.bind_silent (computes_hufCount.bind_silent (computes_hufBuild.bind_silent ?_))⟩
  refine (Computes.forEach fun c _ => computes_hufEmitEntry c).bind ((Computes.emitStr _).bind ?_)
  rw [forRange_eq_forEach]
  exact (Computes.forEach fun i _ => computes_hufEmitCode i).bind (.emit LF)

/-! ### `HAM.ENC` -/

theorem computes_hamEmitNibble (q : BitVec 4) : Computes inp w (hamEmitNibble q) (frameChars (hamFrame q))
    (.ok ((), { w with ham := loadNibble q w.ham })) :=
  .modify_bind (fun w => { w with ham := { w.ham with nib := q } })
    (.modify_bind (fun w => { w with ham := { w.ham with fr := hamFrame w.ham.nib } })
      (.get_bind fun s _ hw => by
        rw [hw]
        exact .emitStr _))

theorem computes_hamEncSymbol (v : Byte) : ∃ w', Computes inp w (hamEncSymbol v) (hamSymbolText v) (.ok ((), w')) := by
  rw [hamSymbolText, hamUnit, List.append_assoc]
  refine ⟨{ w with ham := loadNibble (lowNibble v) (loadNibble (highNibble v) w.ham) },
    (computes_hamEmitNibble _).bind ((computes_hamEmitNibble _).bind ?_)⟩
  by_cases hv : v = LF
  · rw [if_pos hv, if_pos hv]
    exact .emit LF
  · rw [if_neg hv, if_neg hv]
    exact .pure ()

theorem computes_hamEncRule (inp : Bytes) : ∃ w, Computes inp Work.clear hamEncRule (hamArtifact inp) (.ok ((), w)) := by
  rw [hamArtifact, ← flatMap_getD_norm]
  obtain ⟨w, -, hloop⟩ := Computes.forEach_keeping (inp := inp) (w := Work.clear) (xs := List.range' 0 (norm inp).length)
    (body := fun i => do
      let v ← normSym i
      hamEncSymbol v) (g := fun i => hamSymbolText (inp.getD i LF)) (fun _ => True) trivial fun i _ w _ => by
    obtain ⟨w', h⟩ := computes_hamEncSymbol (inp := inp) (w := w) (inp.getD i LF)
    exact ⟨w', trivial, computes_normSym_bind h⟩
  exact ⟨w, computes_normLen.bind_silent (by rwa [forRange_eq_forEach])⟩

/-! ### `BWT.ENC` -/

theorem computes_mtfEncSymbol (c : Byte) : Computes inp w (mtfEncSymbol c) (bin (w.bwt.mtf.idxOf c) w.bwt.w)
    (.ok ((), { w with bwt := toFront (w.bwt.mtf.idxOf c) w.bwt })) := .get_bind fun s _ hw => by
  subst hw
  exact (Computes.emitStr _).bind_end (.work fun v => { v with bwt := toFront (s.work.bwt.mtf.idxOf c) v.bwt })

theorem computes_mtfEncRow (row : Bytes) : ∃ w', Computes inp w (forEach row mtfEncSymbol)
    (mtfBits w.bwt.w (mtfIndices w.bwt.mtf row)) (.ok ((), w')) := by
  induction row generalizing w with
  | nil => exact ⟨w, .pure ()⟩
  | cons c row ih =>
    obtain ⟨w', h⟩ := ih (w := { w with bwt := toFront (w.bwt.mtf.idxOf c) w.bwt })
    exact ⟨w', (computes_mtfEncSymbol c).bind h⟩

theorem computes_bwtEmitBlock {x : Bytes} {h : BwtWork} (hw : w.bwt = analysed x h) :
    ∃ w', Computes inp w bwtEmitBlock (bwtBlockArtifact x) (.ok ((), w')) := by
  obtain ⟨w', hrow⟩ := computes_mtfEncRow (inp := inp) (w := { w with bwt := startMtf w.bwt })
    (transformedRow x (sortRotations x))
  have hbits : mtfBits (startMtf w.bwt).w (mtfIndices (startMtf w.bwt).mtf (transformedRow x (sortRotations x))) =
      blockBits x := by
    rw [hw]
    rfl
  rw [hbits] at hrow
  rw [bwtBlockArtifact_eq, blockHead]
  simp only [List.append_assoc]
  refine ⟨w', .get_bind fun s _ hs => ?_⟩
  rw [hs, hw]
  have hletter : ∀ c : Byte, Computes inp w (bwtEmitLetter c) [c, LF] (.ok ((), w)) := fun c =>
    (Computes.emit c).bind (.emit LF)
  refine (Computes.forEach fun c _ => hletter c).bind ((Computes.emitStr _).bind ((Computes.emitStr _).bind
    ((Computes.emit LF).bind (.modify_bind (fun w => { w with bwt := startMtf w.bwt }) (hrow.bind (.emit LF))))))

theorem computes_bwtEncBlock {b : Nat} (hb : 1000 * b ≤ inp.length) : ∃ w', Computes inp w (do
      let x ← bytesOf (Config.BLOCK * b) (min (Config.BLOCK * b + Config.BLOCK) inp.length)
      bwtAnalyse x
      bwtEmitBlock) (bwtBlockArtifact ((inp.drop (1000 * b)).take 1000)) (.ok ((), w')) := by
  have hread : Computes inp w (bytesOf (1000 * b) (min (1000 * b + 1000) inp.length)) []
      (.ok ((inp.drop (1000 * b)).take 1000, w)) := .of_eq fun s hs hinp hw => by
    subst hinp hw
    have hlen := input_length s
    have htake : ((input s).drop (1000 * b)).take (min (1000 * b + 1000) (input s).length - 1000 * b) =
        ((input s).drop (1000 * b)).take 1000 := by
      rw [List.take_eq_take_iff, List.length_drop]
      omega
    rw [bytesOf_quiet hs, cells_eq_input s _ _ (by omega), htake]
    rfl
  have hanalyse : ∀ x : Bytes, Computes inp w (bwtAnalyse x) [] (.ok ((), { w with bwt := analysed x w.bwt })) := fun x =>
    .of_eq fun s _ _ hw => hw ▸ bwtAnalyse_eq x s
  obtain ⟨w', hemit⟩ := computes_bwtEmitBlock (inp := inp)
    (w := { w with bwt := analysed ((inp.drop (1000 * b)).take 1000) w.bwt }) rfl
  exact ⟨w', hread.bind_silent ((hanalyse _).bind_silent hemit)⟩

theorem computes_bwtEncRule (inp : Bytes) : ∃ w, Computes inp Work.clear bwtEncRule (bwtArtifact inp) (.ok ((), w)) := by
  have hartifact : bwtArtifact inp = (List.range' 0 ((inp.length + 999) / 1000)).flatMap fun b =>
      bwtBlockArtifact ((inp.drop (1000 * b)).take 1000) := by
    rw [bwtArtifact, blocks_eq_map_range, List.flatMap_map, List.range_eq_range']
  obtain ⟨w, -, hloop⟩ := Computes.forEach_keeping (inp := inp) (w := Work.clear)
    (xs := List.range' 0 ((inp.length + 999) / 1000)) (body := fun b => do
      let x ← bytesOf (Config.BLOCK * b) (min (Config.BLOCK * b + Config.BLOCK) inp.length)
      bwtAnalyse x
      bwtEmitBlock) (g := fun b => bwtBlockArtifact ((inp.drop (1000 * b)).take 1000)) (fun _ => True) trivial
    fun b hb w _ => by
      obtain ⟨i, hi, rfl⟩ := List.mem_range'.mp hb
      obtain ⟨w', h⟩ := computes_bwtEncBlock (inp := inp) (w := w) (b := 0 + 1 * i) (by omega)
      exact ⟨w', trivial, h⟩
  rw [hartifact]
  refine ⟨w, .get_bind fun s hs _ => ?_⟩
  rw [forRange_eq_forEach, ← input_length, hs]
  exact hloop

end

end Sys2Proof.Machine
end

section
/-! `ARI.ENC` computes its artifact or, where a narrowing collapses, the header and the digits before it
(42_arithmetic.md R153 to R158); what all encode commands do where DST is too small or its first write is upset. -/

namespace Sys2Proof.Machine

open Sys2Proof Sys2Proof.Safety Sys2Proof.Artifact
open Sys2Proof.Huffman Sys2Proof.Arithmetic Sys2Proof.Bwt Sys2Proof.Hamming

section
variable {inp : Bytes} {w : Work}

/-! ### Counting -/

theorem Computes.onAri_bind {β : Type} (g : AriWork → AriWork) {f : Unit → Cmd β} {bs : Bytes} {r : Except Cause (β × Work)}
    (hf : Computes inp { w with ari := g w.ari } (f ()) bs r) : Computes inp w (modify (State.onAri g) >>= f) bs r :=
  .modify_bind (fun w => { w with ari := g w.ari }) hf

theorem computes_bumpCounts (is : List Nat) : Computes inp w (forEach is fun i => do
      let c ← normSym i
      modify (State.onAri fun h => { h with freq := bumpCell h.freq c })) []
    (.ok ((), { w with ari := addSymbols (is.map fun i => inp.getD i LF) w.ari })) := by
  induction is generalizing w with
  | nil => exact .pure ()
  | cons i is ih =>
    have hone : Computes inp w (do
        let c ← normSym i
        modify (State.onAri fun h => { h with freq := bumpCell h.freq c })) []
        (.ok ((), { w with ari := addSymbols [inp.getD i LF] w.ari })) :=
      computes_normSym_bind (.work fun w => { w with ari := addSymbols [inp.getD i LF] w.ari })
    exact hone.bind_silent ih

theorem computes_ariCount : Computes inp w (ariCount (norm inp).length) []
    (.ok ((), { w with ari := { addSymbols (norm inp) w.ari with t := (norm inp).length } })) := by
  have hcount := computes_bumpCounts (inp := inp) (w := w) (List.range (norm inp).length)
  rw [map_getD_norm, List.range_eq_range', ← forRange_eq_forEach] at hcount
  exact hcount.bind_silent (.work fun w => { w with ari := { w.ari with t := (norm inp).length } })

/-! ### Coding -/

theorem computes_renormEnc (k : Nat) : Computes inp w (renormEnc k) (bcdText (renorm k w.ari.low w.ari.high).1)
    (.ok ((), { w with ari := setInterval (renorm k w.ari.low w.ari.high).2.1 (renorm k w.ari.low w.ari.high).2.2 w.ari })) := by
  induction k generalizing w with
  | zero => exact .pure ()
  | succ k ih =>
    rw [renormEnc_succ]
    refine .get_bind fun s _ hw => ?_
    subst hw
    by_cases hlead : sameLead s.work.ari.low s.work.ari.high = true
    · rw [renorm_of_sameLead hlead, bcdText_cons]
      simp only [hlead, if_true]
      exact (Computes.emitStr _).bind (.onAri_bind (fun h => { h with low := shiftLow h.low, high := shiftHigh h.high }) ih)
    · rw [renorm_of_not_sameLead hlead, bcdText_nil]
      simp only [hlead]
      exact .pure ()

theorem computes_narrow {clo chi : Nat}
    (h : narrowPoint w.ari.low w.ari.high w.ari.t clo < narrowPoint w.ari.low w.ari.high w.ari.t chi) :
    Computes inp w (narrow clo chi) [] (.ok ((), { w with
      ari := setInterval (narrowPoint w.ari.low w.ari.high w.ari.t clo)
        (narrowPoint w.ari.low w.ari.high w.ari.t chi - 1) w.ari })) := .of_eq fun s _ _ hw => by
  subst hw
  rw [narrow_eq, if_neg (Nat.not_le_of_lt h)]
  rfl

theorem computes_narrow_collapse {clo chi : Nat}
    (h : narrowPoint w.ari.low w.ari.high w.ari.t chi ≤ narrowPoint w.ari.low w.ari.high w.ari.t clo) :
    Computes inp w (narrow clo chi) [] (.error .ariCollapse) := .of_eq fun s _ _ hw => by
  subst hw
  rw [narrow_eq, if_pos h]
  rfl

theorem computes_ariEncSymbol_of_find {c : Byte} {x : CumEntry} (hx : w.ari.cum.find? (fun x => x.sym == c) = some x)
    {bs : Bytes} {r : Except Cause (Unit × Work)}
    (h : Computes inp w (do narrow x.lo x.hi; renormEnc Config.PREC) bs r) : Computes inp w (ariEncSymbol c) bs r := by
  refine .get_bind fun s _ hw => ?_
  rw [hw, hx]
  exact h

/-- What coding leaves: the interval at its end, or the collapse (42_arithmetic.md R155). -/
def codingResult (w : Work) (p : Option (Nat × Nat)) : Except Cause (Unit × Work) :=
  match p with
  | some p => .ok ((), { w with ari := setInterval p.1 p.2 w.ari })
  | none => .error .ariCollapse

/-- Coding symbols emits the digits of `ariCode` and ends where it does (42_arithmetic.md R158). -/
theorem computes_ariCode {is : List Nat} (hsyms : HasEntries w.ari.cum (is.map fun i => inp.getD i LF)) :
    Computes inp w (forEach is fun i => do
      let c ← normSym i
      ariEncSymbol c)
      (bcdText (ariCode w.ari.t w.ari.cum (is.map fun i => inp.getD i LF) w.ari.low w.ari.high).1)
      (codingResult w (ariCode w.ari.t w.ari.cum (is.map fun i => inp.getD i LF) w.ari.low w.ari.high).2) := by
  induction is generalizing w with
  | nil => exact .pure ()
  | cons i is ih =>
    obtain ⟨⟨x, hfind⟩, hsyms⟩ := List.forall_mem_cons.mp hsyms
    rw [List.map_cons, ariCode_cons hfind]
    by_cases hcollapse : narrowPoint w.ari.low w.ari.high w.ari.t x.hi ≤ narrowPoint w.ari.low w.ari.high w.ari.t x.lo
    · rw [if_pos hcollapse]
      exact (computes_normSym_bind (computes_ariEncSymbol_of_find hfind
        (computes_narrow_collapse hcollapse).bind_raise)).bind_raise
    · rw [if_neg hcollapse, bcdText_append]
      have hone := computes_ariEncSymbol_of_find (inp := inp) hfind
        ((computes_narrow (Nat.lt_of_not_le hcollapse)).bind_silent (computes_renormEnc Config.PREC))
      exact (computes_normSym_bind hone).bind (ih hsyms)

theorem computes_ariTerminate : Computes inp w ariTerminate
    (bcdText (spell 10 Config.PREC (w.ari.low + (w.ari.high - w.ari.low) / 2))) (.ok ((), w)) := by
  rw [← flatMap_bin_digitOf fun _ => le_nine_of_mem_spell, ← dec18]
  refine .get_bind fun s _ hw => ?_
  rw [hw]
  exact .forEach fun ch _ => .emitStr _

/-! ### The command -/

theorem computes_ariEmitBound (x : CumEntry) :
    Computes inp w (ariEmitBound x) (x.sym :: (dec x.lo ++ [LF])) (.ok ((), w)) :=
  (Computes.emit x.sym).bind ((Computes.emitStr _).bind (.emit LF))

/-- The working state of engine ARI at the start of coding (42_arithmetic.md R150 to R152). -/
def codingStart (inp : Bytes) : AriWork :=
  setInterval 0 Config.TOP
    { addSymbols (norm inp) Work.clear.ari with t := (norm inp).length, cum := cumTable (countSyms (norm inp)) }

theorem computes_coding : Computes inp { Work.clear with ari := codingStart inp }
    (forRange 0 (norm inp).length fun i => do
      let c ← normSym i
      ariEncSymbol c) (bcdText (ariRun inp).1) (codingResult { Work.clear with ari := codingStart inp } (ariRun inp).2) := by
  have hcode := computes_ariCode (inp := inp) (w := { Work.clear with ari := codingStart inp })
    (is := List.range (norm inp).length) (by
      rw [map_getD_norm]
      exact hasEntries_cumTable _)
  rw [map_getD_norm] at hcode
  rw [forRange_eq_forEach, ← List.range_eq_range']
  exact hcode

theorem ariHeader_eq (inp : Bytes) : ariHeader inp =
    (cumTable (countSyms (norm inp))).flatMap (fun x => x.sym :: (dec x.lo ++ [LF])) ++
      (delimLine ++ (dec (norm inp).length ++ [LF])) := by
  simp only [ariHeader, boundText, ariBounds, List.flatMap_map, List.append_assoc]

/-- The rule up to its coding loop writes the header (42_arithmetic.md R158). -/
theorem computes_ariEncRule_of_coding {bs : Bytes} {r : Except Cause (Unit × Work)}
    (h : Computes inp { Work.clear with ari := codingStart inp } (do
      forRange 0 (norm inp).length fun i => do
        let c ← normSym i
        ariEncSymbol c
      ariTerminate
      emit LF) bs r) : Computes inp Work.clear ariEncRule (ariHeader inp ++ bs) r := by
  rw [ariHeader_eq]
  simp only [List.append_assoc]
  refine computes_normLen.bind_silent (computes_ariCount.bind_silent (.onAri_bind (fun h => { h with cum := cumTable h.freq })
    (.get_bind fun s _ hw => ?_)))
  rw [hw]
  refine (Computes.forEach fun x _ => computes_ariEmitBound x).bind ((Computes.emitStr _).bind ((Computes.emitStr _).bind
    ((Computes.emit LF).bind (.onAri_bind (setInterval 0 Config.TOP) h))))

theorem ariText_eq_header {ds : List Nat} : ariText (ariBounds inp) (norm inp).length ds =
    ariHeader inp ++ (bcdText ds ++ [LF]) := by
  simp only [ariText, ariHeader, List.append_assoc]

theorem computes_ariEncRule {ds : List Nat} (h : ariDigits inp = some ds) :
    ∃ w, Computes inp Work.clear ariEncRule (ariText (ariBounds inp) (norm inp).length ds) (.ok ((), w)) := by
  obtain ⟨p, hp, rfl⟩ := Option.map_eq_some_iff.mp h
  have hcode := computes_coding (inp := inp)
  rw [hp] at hcode
  rw [ariText_eq_header, bcdText_append, List.append_assoc]
  exact ⟨_, computes_ariEncRule_of_coding (hcode.bind (computes_ariTerminate.bind (.emit LF)))⟩

theorem computes_ariEncRule_collapse (h : ariDigits inp = none) :
    Computes inp Work.clear ariEncRule (ariHeader inp ++ bcdText (ariRun inp).1) (.error .ariCollapse) := by
  have hcode := computes_coding (inp := inp)
  rw [Option.map_eq_none_iff.mp h] at hcode
  exact computes_ariEncRule_of_coding hcode.bind_raise

end

/-- Settles O47: what the rule computes, in each of the two cases. -/
theorem ariEncWritesTheArtifactOrCollapses : Obligations.AriEncWritesTheArtifactOrCollapses := by
  unfold Obligations.AriEncWritesTheArtifactOrCollapses
  intro s hs
  refine ⟨fun ds hds room => ?_, fun hnone room => ?_⟩
  · obtain ⟨w, h⟩ := computes_ariEncRule hds
    exact ends_of_computes (i := .ariEnc) h hs room
  · exact ends_of_computes (i := .ariEnc) (computes_ariEncRule_collapse hnone) hs room

/-- Settles O21: each encode command emits the first bytes of what its rule computes. -/
theorem fullDstKeepsThePrefix : Obligations.FullDstKeepsThePrefix := by
  unfold Obligations.FullDstKeepsThePrefix
  intro s hs
  refine ⟨fun full => ?_, fun ds hds full => ?_, fun hnone full => ?_, fun full => ?_, fun full => ?_⟩
  · obtain ⟨w, h⟩ := computes_hufEncRule (input s)
    exact full_of_computes (i := .hufEnc) h hs full
  · obtain ⟨w, h⟩ := computes_ariEncRule hds
    exact full_of_computes (i := .ariEnc) h hs full
  · exact full_of_computes (i := .ariEnc) (computes_ariEncRule_collapse hnone) hs full
  · obtain ⟨w, h⟩ := computes_bwtEncRule (input s)
    exact full_of_computes (i := .bwtEnc) h hs full
  · obtain ⟨w, h⟩ := computes_hamEncRule (input s)
    exact full_of_computes (i := .hamEnc) h hs full

/-! ### The first DST write -/

theorem norm_ne_nil {inp : Bytes} (h : inp ≠ []) : norm inp ≠ [] := by
  rw [norm_eq_ite]
  split
  · exact h
  · simp

theorem hamArtifact_ne_nil {inp : Bytes} (h : inp ≠ []) : hamArtifact inp ≠ [] := by
  obtain ⟨v, vs, hv⟩ := List.exists_cons_of_ne_nil (norm_ne_nil h)
  rw [hamArtifact, hv, List.flatMap_cons, hamSymbolText, hamUnit]
  refine List.ne_nil_of_length_pos ?_
  simp only [List.length_append, length_frameChars]
  omega

theorem bwtArtifact_ne_nil {inp : Bytes} (h : inp ≠ []) : bwtArtifact inp ≠ [] := by
  have hblocks : blocks inp ≠ [] := fun hnil => h (by rw [← flatten_blocks inp, hnil]; rfl)
  obtain ⟨x, xs, hx⟩ := List.exists_cons_of_ne_nil hblocks
  rw [bwtArtifact, hx, List.flatMap_cons, bwtBlockArtifact_eq]
  simp

/-- What an encode command's rule computes begins with a byte: the header's, or of a non-empty input the first block's or
unit's. -/
theorem exists_computes_ne_nil {i : Instr} (hi : i = .hufEnc ∨ i = .ariEnc ∨ i = .bwtEnc ∨ i = .hamEnc) {inp : Bytes}
    (hinp : i = .bwtEnc ∨ i = .hamEnc → inp ≠ []) : ∃ bs r, Computes inp Work.clear (ruleOf i) bs r ∧ bs ≠ [] := by
  obtain rfl | rfl | rfl | rfl := hi
  · obtain ⟨w, h⟩ := computes_hufEncRule inp
    exact ⟨_, _, h, by simp [hufArtifact, hufText]⟩
  · cases hds : ariDigits inp with
    | some ds =>
      obtain ⟨w, h⟩ := computes_ariEncRule hds
      exact ⟨_, _, h, by simp [ariText]⟩
    | none => exact ⟨_, _, computes_ariEncRule_collapse hds, by simp [ariHeader]⟩
  · obtain ⟨w, h⟩ := computes_bwtEncRule inp
    exact ⟨_, _, h, bwtArtifact_ne_nil (hinp (.inl rfl))⟩
  · obtain ⟨w, h⟩ := computes_hamEncRule inp
    exact ⟨_, _, h, hamArtifact_ne_nil (hinp (.inr rfl))⟩

theorem input_ne_nil {s : State} (h : 0 < s.srcLen.toNat) : input s ≠ [] :=
  List.ne_nil_of_length_pos (h.trans_eq (input_length s).symm)

/-- Settles O23: the first byte that the rule computes is the one that is not written. -/
theorem firstWriteErrorFaults : Obligations.FirstWriteErrorFaults := by
  unfold Obligations.FirstWriteErrorFaults
  intro i s q hi hsrc hdst hcap hlen hne
  obtain ⟨bs, r, h, hbs⟩ := exists_computes_ne_nil hi fun hi => input_ne_nil (hne hi)
  exact ⟨_, stops_of_computes h hsrc hlen hbs hdst hcap, endsFault_of_unwritten rfl, rfl⟩

/-- Settles O11: the reset input between commands, a command's third end (`exec_cases`), and the first byte of the header. -/
theorem resetLeavesBuffersAlone : Obligations.ResetLeavesBuffersAlone := by
  unfold Obligations.ResetLeavesBuffersAlone
  refine ⟨fun s rest hhost => ?_, fun i s t hrun hidle => ?_, fun i s q hi hsrc hdst hlen hcap => ?_⟩
  · rw [step, hhost]
    rfl
  · obtain ⟨u, hran, h | ⟨c, -, h⟩ | ⟨-, h⟩⟩ := exec_cases i s <;> cases h.symm.trans hrun
    · cases hidle
    · cases hidle
    · exact ⟨rfl, rfl, rfl, rfl, rfl, hran.src_eq⟩
  · have henc : i = .hufEnc ∨ i = .ariEnc ∨ i = .bwtEnc ∨ i = .hamEnc := hi.imp_right .inl
    obtain ⟨bs, r, h, hbs⟩ := exists_computes_ne_nil (inp := input s) henc fun h => by
      rcases hi with rfl | rfl <;> rcases h with h | h <;> cases h
    exact stops_of_computes h hsrc hlen hbs hdst hcap

end Sys2Proof.Machine
end

section
/-! What the parsing helpers compute (40_command_dispatch.md R107), and the end of a command from what its rule yields. -/

namespace Sys2Proof.Machine

open Sys2Proof Sys2Proof.Safety Sys2Proof.Artifact
open Sys2Proof.Huffman Sys2Proof.Arithmetic Sys2Proof.Bwt Sys2Proof.Hamming

/-! ### What a rule yields -/

/-- What is left to do from `w` emits `bs` and raises `cause`, or comes to the end where there is none. -/
def Yields (inp : Bytes) (w : Work) (m : Cmd Unit) (bs : Bytes) (cause : Option Cause) : Prop :=
  ∃ r, Computes inp w m bs r ∧ causeOf r = cause

section
variable {inp : Bytes} {α : Type} {w w' : Work} {m : Cmd Unit} {bs xs : Bytes} {cause : Option Cause} {c : Cause}

theorem Computes.yields_raise (h : Computes inp w m bs (.error c)) : Yields inp w m bs (some c) := ⟨_, h, rfl⟩

theorem Computes.yields_end {u : Unit × Work} (h : Computes inp w m bs (.ok u)) : Yields inp w m bs none := ⟨_, h, rfl⟩

/-- The rest of a sequence. -/
theorem Computes.yields {m : Cmd α} {f : α → Cmd Unit} {a : α} (hm : Computes inp w m xs (.ok (a, w')))
    (hf : Yields inp w' (f a) bs cause) : Yields inp w (m >>= f) (xs ++ bs) cause := by
  obtain ⟨r, h, hr⟩ := hf
  exact ⟨r, hm.bind h, hr⟩

theorem Computes.yields_silent {m : Cmd α} {f : α → Cmd Unit} {a : α} (hm : Computes inp w m [] (.ok (a, w')))
    (hf : Yields inp w' (f a) bs cause) : Yields inp w (m >>= f) bs cause := hm.yields hf

theorem Yields.get_bind {f : State → Cmd Unit} (h : Yields inp w m bs cause)
    (heq : ∀ s : State, input s = inp → s.work = w → f s = m) : Yields inp w (do let s ← get; f s) bs cause := by
  obtain ⟨r, h, hr⟩ := h
  exact ⟨r, .get_bind fun s hs hw => heq s hs hw ▸ h, hr⟩

/-- A command whose rule yields an output that fits ends so. -/
theorem ends_of_yields {i : Instr} {s : State} (h : Yields (input s) Work.clear (ruleOf i) bs cause) (hs : Ready s)
    (room : bs.length ≤ s.caps.dstCap.val) : ∃ t, exec i s = .next t ∧ Ends i s t cause bs := by
  obtain ⟨r, hcomp, rfl⟩ := h
  exact ends_of_computes hcomp hs room

end

/-! ### The parsing helpers -/

section
variable {inp : Bytes} {w : Work}

theorem computes_srcByte {i : Nat} {b : Byte} {rest : Bytes} (hdrop : inp.drop i = b :: rest) :
    Computes inp w (srcByte i) [] (.ok (b, w)) := .of_eq fun s hs hinp hw => by
  subst hinp hw
  obtain ⟨hcell, -⟩ := srcCell_of_drop hdrop
  rw [srcByte_quiet hs, hcell]
  rfl

theorem computes_atDelim : Computes inp w atDelim [] (.ok (decide (delimLine <+: inp.drop w.sc), w)) :=
  .of_eq fun s hs hinp hw => by
  subst hinp hw
  exact atDelim_eq hs

theorem computes_bytesIn {a : Nat} {text rest : Bytes} (hdrop : inp.drop a = text ++ rest) :
    Computes inp w (bytesIn text.length a) [] (.ok (text, w)) := .of_eq fun s hs hinp hw => by
  subst hinp hw
  have hread := bytesOf_eq hs hdrop
  rwa [bytesOf, Nat.add_sub_cancel_left] at hread

/-- From `a` on the input holds the characters of `line`, which then ends with an `LF` or with the input. -/
structure LineAt (inp : Bytes) (a : Nat) (line tail : Bytes) : Prop where
  drop_eq : inp.drop a = line ++ tail
  noLF : LF ∉ line
  ends : tail = [] ∨ tail.head? = some LF

theorem computes_findLF_some {a : Nat} {line rest : Bytes} (hline : LF ∉ line) (hdrop : inp.drop a = line ++ LF :: rest) :
    Computes inp w (findLF a) [] (.ok (some (a + line.length), w)) := .of_eq fun s hs hinp hw => by
  subst hinp hw
  exact findLF_eq_some hs hline hdrop

theorem computes_findLF_none {a : Nat} (hline : LF ∉ inp.drop a) : Computes inp w (findLF a) [] (.ok (none, w)) :=
  .of_eq fun s hs hinp hw => by
  subst hinp hw
  exact findLF_eq_none hs hline

/-- The search for a line's end, where the line is, and where the next one begins. -/
theorem LineAt.computes_findLF {a : Nat} {line tail : Bytes} (h : LineAt inp a line tail) :
    ∃ found : Option Nat, Computes inp w (findLF a) [] (.ok (found, w)) ∧ found.getD inp.length - a = line.length ∧
      inp.drop (found.elim inp.length Nat.succ) = tail.drop 1 := by
  obtain ⟨hdrop, hline, rfl | hlf⟩ := h
  · rw [List.append_nil] at hdrop
    refine ⟨none, computes_findLF_none (hdrop ▸ hline), ?_, List.drop_length⟩
    rw [Option.getD_none, ← List.length_drop, hdrop]
  · obtain ⟨rest, rfl⟩ := List.head?_eq_some_iff.mp hlf
    refine ⟨_, computes_findLF_some hline hdrop, Nat.add_sub_cancel_left .., ?_⟩
    rw [Option.elim_some, Nat.succ_eq_add_one, Nat.add_assoc, ← List.drop_drop, hdrop, ← List.drop_drop, List.drop_left]

end

/-- A counted loop in two parts. -/
theorem forRange_add (start a b : Nat) (body : Nat → Cmd Unit) :
    forRange start (a + b) body = (do
      forRange start a body
      forRange (start + a) b body) := by
  induction a generalizing start with
  | zero => simp
  | succ a ih => rw [Nat.succ_add, forRange_succ, forRange_succ, ih, bind_assoc, Nat.succ_add_eq_add_succ]

/-! ### Reading to the end of the source -/

/-- `while SC < SRC_LEN`, with passes enough. -/
def sourceLoop (body : Cmd Unit) (fuel : Nat) : Cmd Unit :=
  match fuel with
  | 0 => pure ()
  | k + 1 => do
    let s ← get
    if s.work.sc < s.srcLen.toNat then do
      body
      sourceLoop body k

theorem hamDecLines_eq_sourceLoop (fuel : Nat) : hamDecLines fuel = sourceLoop hamDecLine fuel := by
  induction fuel with
  | zero => rfl
  | succ k ih => rw [hamDecLines, ih, sourceLoop]

theorem bwtDecBlocks_eq_sourceLoop (fuel : Nat) : bwtDecBlocks fuel = sourceLoop bwtDecBlock fuel := by
  induction fuel with
  | zero => rfl
  | succ k ih => rw [bwtDecBlocks, ih, sourceLoop]

section
variable {inp : Bytes} {w : Work} {body : Cmd Unit} {rest bs : Bytes} {cause : Option Cause}

theorem yields_sourceLoop_succ {k : Nat} (hmore : inp.drop w.sc ≠ [])
    (h : Yields inp w (do body; sourceLoop body k) bs cause) : Yields inp w (sourceLoop body (k + 1)) bs cause := by
  rw [sourceLoop]
  refine h.get_bind fun s hs hw => ?_
  have hlt : s.work.sc < s.srcLen.toNat := by
    rw [hw, ← input_length, hs]
    exact Nat.not_le.mp fun hle => hmore (List.drop_eq_nil_iff.mpr hle)
  rw [if_pos hlt]

theorem yields_sourceLoop_at_end (k : Nat) (hend : inp.drop w.sc = []) : Yields inp w (sourceLoop body k) [] none := by
  cases k with
  | zero => exact (Computes.pure ()).yields_end
  | succ k =>
    rw [sourceLoop]
    refine (Computes.pure ()).yields_end.get_bind fun s hs hw => ?_
    have hge : ¬ s.work.sc < s.srcLen.toNat := by
      rw [hw, ← input_length, hs, Nat.not_lt]
      exact List.drop_eq_nil_iff.mp hend
    rw [if_neg hge]

/-- Where there is more, and passes are left, a pass is made. -/
theorem yields_sourceLoop_of_more {k : Nat} (hne : rest ≠ []) (hk : rest.length ≤ k) (hdrop : inp.drop w.sc = rest)
    (h : ∀ k, Yields inp w (do body; sourceLoop body k) bs cause) : Yields inp w (sourceLoop body k) bs cause := by
  obtain ⟨k, rfl⟩ : ∃ j, k = j + 1 := ⟨k - 1, by have := List.length_pos_of_ne_nil hne; omega⟩
  exact yields_sourceLoop_succ (hdrop ▸ hne) (h k)

/-- A pass over `text` emits `out` and goes on behind it. -/
def ReadsItem (inp : Bytes) (body : Cmd Unit) (text out : Bytes) : Prop :=
  text ≠ [] ∧ ∀ (w : Work) (more : Bytes), inp.drop w.sc = text ++ more →
    ∃ w', Computes inp w body out (.ok ((), w')) ∧ inp.drop w'.sc = more

section
variable {ε : Type} {text out : ε → Bytes} {es : List ε}

theorem yields_sourceLoop_after (hitem : ∀ e ∈ es, ReadsItem inp body (text e) (out e)) {k : Nat}
    (hrest : ∀ w : Work, inp.drop w.sc = rest → Yields inp w (sourceLoop body k) bs cause)
    (hdrop : inp.drop w.sc = es.flatMap text ++ rest) :
    Yields inp w (sourceLoop body (es.length + k)) (es.flatMap out ++ bs) cause := by
  induction es generalizing w with
  | nil =>
    rw [List.length_nil, Nat.zero_add]
    exact hrest w hdrop
  | cons e es ih =>
    obtain ⟨⟨hne, hread⟩, hitem⟩ := List.forall_mem_cons.mp hitem
    rw [List.flatMap_cons, List.append_assoc] at hdrop
    obtain ⟨w', hfirst, hnext⟩ := hread w _ hdrop
    rw [List.length_cons, Nat.add_right_comm, List.flatMap_cons, List.append_assoc]
    refine yields_sourceLoop_succ ?_ (hfirst.yields (ih hitem hnext))
    rw [hdrop]
    exact List.append_ne_nil_of_left_ne_nil hne _

theorem length_le_length_flatMap (hne : ∀ e ∈ es, text e ≠ []) : es.length ≤ (es.flatMap text).length := by
  induction es with
  | nil => exact Nat.zero_le _
  | cons e es ih =>
    obtain ⟨he, hne⟩ := List.forall_mem_cons.mp hne
    have hpos := List.length_pos_of_ne_nil he
    have htail := ih hne
    rw [List.flatMap_cons, List.length_append, List.length_cons]
    omega

/-- The whole source: the items in order, and what follows them, with passes left. -/
theorem yields_sourceLoop (hitem : ∀ e ∈ es, ReadsItem inp body (text e) (out e)) (hinput : inp = es.flatMap text ++ rest)
    (hrest : ∀ (k : Nat) (w : Work), rest.length ≤ k → inp.drop w.sc = rest → Yields inp w (sourceLoop body k) bs cause) :
    Yields inp Work.clear (sourceLoop body inp.length) (es.flatMap out ++ bs) cause := by
  have hle := length_le_length_flatMap fun e he => (hitem e he).1
  have hlen := congrArg List.length hinput
  rw [List.length_append] at hlen
  obtain ⟨k, hk⟩ : ∃ k, inp.length = es.length + k := ⟨inp.length - es.length, by omega⟩
  rw [hk]
  exact yields_sourceLoop_after hitem (fun w hw => hrest k w (by omega) hw) hinput

end

end

end Sys2Proof.Machine
end

section
/-! `HAM.DEC` on lines of received units, the last one with or without its `LF`, and where it faults (44_hamming.md R237). -/

namespace Sys2Proof.Hamming

open Sys2Proof Sys2Proof.Machine Sys2Proof.Safety Sys2Proof.Artifact
open Sys2Proof.Huffman Sys2Proof.Arithmetic Sys2Proof.Bwt

section
variable {inp : Bytes} {w : Work}

/-! ### Units -/

theorem computes_hamDecUnit (f g : BitVec 7) : Computes inp w (hamDecUnit (frameChars f ++ frameChars g)) [decodeUnit f g]
    (.ok ((), { w with ham := frameDecoded g })) :=
  .congr (m' := do modify (State.onHam fun _ => frameDecoded g); emit (decodeUnit f g))
    (.modify_bind (fun w => { w with ham := frameDecoded g }) (.emit _)) fun s _ _ _ => hamDecUnit_eq_emit f g s

/-- A unit of the loop over a line: the `u`th of the line from `a` on. -/
def decUnitAt (a u : Nat) : Cmd Unit := do
  let unit ← bytesOf (a + Config.UNIT * u) (a + Config.UNIT * u + Config.UNIT)
  hamDecUnit unit

theorem computes_decUnitAt {a u : Nat} {unit rest : Bytes} (hlen : unit.length = 14)
    (hdrop : inp.drop (a + 14 * u) = unit ++ rest) {bs : Bytes} {r : Except Cause (Unit × Work)}
    (h : Computes inp w (hamDecUnit unit) bs r) : Computes inp w (decUnitAt a u) bs r := by
  have hread : Computes inp w (bytesOf (a + 14 * u) (a + 14 * u + 14)) [] (.ok (unit, w)) := by
    rw [bytesOf, Nat.add_sub_cancel_left]
    have hbytes := computes_bytesIn (w := w) hdrop
    rwa [hlen] at hbytes
  exact hread.bind_silent h

theorem drop_unitsText {us : List (BitVec 7 × BitVec 7)} {a : Nat} {rest : Bytes}
    (hdrop : inp.drop a = unitsText us ++ rest) : inp.drop (a + 14 * us.length) = rest := by
  rw [← List.drop_drop, hdrop, List.drop_left' (length_unitsText us)]

/-- The loop over a line decodes the units at their places. -/
theorem computes_decUnits {us : List (BitVec 7 × BitVec 7)} {a k : Nat} {rest : Bytes}
    (hdrop : inp.drop (a + 14 * k) = unitsText us ++ rest) :
    ∃ w', Computes inp w (forRange k us.length (decUnitAt a)) (decodeUnits us) (.ok ((), w')) := by
  induction us generalizing w k with
  | nil => exact ⟨w, .pure ()⟩
  | cons u us ih =>
    have hdrop' : inp.drop (a + 14 * (k + 1)) = unitsText us ++ rest := by
      rw [Nat.mul_succ, ← Nat.add_assoc]
      exact drop_unitsText (us := [u]) (by rw [hdrop, unitsText_cons, List.append_assoc]; rfl)
    rw [unitsText_cons, List.append_assoc] at hdrop
    obtain ⟨w', h⟩ := ih (w := { w with ham := frameDecoded u.2 }) hdrop'
    exact ⟨w', (computes_decUnitAt (length_unitsText [u]) hdrop (computes_hamDecUnit u.1 u.2)).bind h⟩

/-- Where a unit with a character that is no bit follows good ones, they are decoded (44_hamming.md R237). -/
theorem computes_decUnits_badBit {us : List (BitVec 7 × BitVec 7)} {a count : Nat} {bad rest : Bytes}
    (hdrop : inp.drop a = unitsText us ++ (bad ++ rest)) (hlen : bad.length = 14) (hbad : isBits bad = false) :
    Computes inp w (forRange 0 (us.length + (count + 1)) (decUnitAt a)) (decodeUnits us) (.error .hamBadBit) := by
  obtain ⟨w', hus⟩ := computes_decUnits (w := w) (k := 0) hdrop
  have hunit : Computes inp w' (hamDecUnit bad) [] (.error .hamBadBit) := by
    rw [hamDecUnit, if_pos hbad]
    exact (Computes.raise _).bind_raise
  rw [forRange_add, forRange_succ, Nat.zero_add]
  exact hus.bind_end (computes_decUnitAt hlen (drop_unitsText hdrop) hunit).bind_raise

/-! ### Lines -/

theorem computes_hamDecLine_badLength {line tail : Bytes} (h : LineAt inp w.sc line tail) (hlen : line.length % 14 ≠ 0) :
    Computes inp w hamDecLine [] (.error .hamBadLength) := by
  obtain ⟨found, hfind, hcount, -⟩ := h.computes_findLF
  refine .get_bind fun s hs hw => ?_
  rw [hw, ← input_length, hs]
  refine hfind.bind_silent ?_
  simp only [hcount]
  rw [if_pos hlen]
  exact (Computes.raise _).bind_raise

/-- A line of whole units: the loop over them, and the cursor behind the line. -/
theorem computes_hamDecLine_of_units {line tail : Bytes} (h : LineAt inp w.sc line tail) (hlen : line.length % 14 = 0) :
    ∃ nxt : Nat, inp.drop nxt = tail.drop 1 ∧ ∀ (bs : Bytes) (r : Except Cause (Unit × Work)),
      Computes inp w (do forRange 0 (line.length / 14) (decUnitAt w.sc); modify (State.setSc nxt)) bs r →
      Computes inp w hamDecLine bs r := by
  obtain ⟨found, hfind, hcount, hnxt⟩ := h.computes_findLF
  refine ⟨_, hnxt, fun bs r hunits => .get_bind fun s hs hw => ?_⟩
  rw [hw, ← input_length, hs]
  refine hfind.bind_silent ?_
  simp only [hcount]
  rw [if_neg (not_not.mpr hlen)]
  cases found <;> exact hunits

/-- A line of received units is decoded, and the next line is the one behind its `LF`. -/
theorem computes_hamDecLine {us : List (BitVec 7 × BitVec 7)} {tail : Bytes} (h : LineAt inp w.sc (unitsText us) tail) :
    ∃ w', Computes inp w hamDecLine (decodeUnits us) (.ok ((), w')) ∧ inp.drop w'.sc = tail.drop 1 := by
  have hlen := length_unitsText us
  obtain ⟨nxt, hnxt, hline⟩ := computes_hamDecLine_of_units h (by omega)
  obtain ⟨w', hus⟩ := computes_decUnits (w := w) (k := 0) h.drop_eq
  refine ⟨{ w' with sc := nxt }, hline _ _ ?_, hnxt⟩
  rw [show (unitsText us).length / 14 = us.length by omega]
  exact hus.bind_end (.work fun w => { w with sc := nxt })

theorem computes_hamDecLine_badBit {us : List (BitVec 7 × BitVec 7)} {line tail bad more : Bytes}
    (h : LineAt inp w.sc line tail) (hlen : line.length % 14 = 0) (hline : line = unitsText us ++ bad ++ more)
    (hbadlen : bad.length = 14) (hbad : isBits bad = false) :
    Computes inp w hamDecLine (decodeUnits us) (.error .hamBadBit) := by
  have hdrop : inp.drop w.sc = unitsText us ++ (bad ++ (more ++ tail)) := by
    rw [h.drop_eq, hline]
    simp only [List.append_assoc]
  obtain ⟨count, hcount⟩ : ∃ count, line.length / 14 = us.length + (count + 1) := by
    have := congrArg List.length hline
    simp only [List.length_append, length_unitsText, hbadlen] at this
    exact ⟨line.length / 14 - us.length - 1, by omega⟩
  obtain ⟨nxt, -, hunits⟩ := computes_hamDecLine_of_units h hlen
  refine hunits _ _ ?_
  rw [hcount]
  exact (computes_decUnits_badBit hdrop hbadlen hbad).bind_raise

/-! ### The command -/

theorem lineAt_lineText {us : List (BitVec 7 × BitVec 7)} {a : Nat} {rest : Bytes}
    (hdrop : inp.drop a = lineText us ++ rest) : LineAt inp a (unitsText us) (LF :: rest) where
  drop_eq := by rw [hdrop, lineText, List.append_assoc]; rfl
  noLF := LF_notMem_of_isBits (isBits_unitsText us)
  ends := .inr rfl

theorem readsItem_lineText (us : List (BitVec 7 × BitVec 7)) :
    ReadsItem inp hamDecLine (lineText us) (decodeUnits us) := by
  refine ⟨by simp [lineText], fun w more hdrop => ?_⟩
  obtain ⟨w', hline, hnext⟩ := computes_hamDecLine (lineAt_lineText hdrop)
  exact ⟨w', hline, hnext⟩

/-- `HAM.DEC` on good lines and what follows them. -/
theorem yields_hamDecRule_after {ls : List (List (BitVec 7 × BitVec 7))} {rest bs : Bytes} {cause : Option Cause}
    (hinput : inp = ls.flatMap lineText ++ rest) (hrest : ∀ (k : Nat) (w : Work), rest.length ≤ k → inp.drop w.sc = rest →
      Yields inp w (sourceLoop hamDecLine k) bs cause) :
    Yields inp Work.clear hamDecRule (ls.flatMap decodeUnits ++ bs) cause := by
  have h := yields_sourceLoop (fun us _ => readsItem_lineText us) hinput hrest
  refine (Computes.work (fun w => { w with sc := 0 })).yields_silent (h.get_bind fun s hs _ => ?_)
  rw [← input_length, hs, hamDecLines_eq_sourceLoop]

end

/-- Settles O32: the lines in order, and the last one where it is not empty. -/
theorem hamDecDecodesEveryUnit : Obligations.HamDecDecodesEveryUnit := by
  unfold Obligations.HamDecDecodesEveryUnit
  intro s ls last hs hinput room
  refine ends_of_yields (i := .hamDec) (cause := none) (yields_hamDecRule_after hinput fun k w hk hdrop => ?_) hs room
  by_cases hlast : last = []
  · subst hlast
    exact yields_sourceLoop_at_end k hdrop
  · have hne : unitsText last ≠ [] := List.ne_nil_of_length_pos (by
      rw [length_unitsText]
      have := List.length_pos_of_ne_nil hlast
      omega)
    obtain ⟨w', hline, hend⟩ := computes_hamDecLine (w := w) (us := last) (tail := [])
      ⟨by rw [hdrop, List.append_nil], LF_notMem_of_isBits (isBits_unitsText last), .inl rfl⟩
    refine yields_sourceLoop_of_more hne hk hdrop fun k => ?_
    rw [← List.append_nil (decodeUnits last)]
    exact hline.yields (yields_sourceLoop_at_end k hend)

/-- Settles O33: behind the good lines the bad one faults, by its length before any of its units, else at its first bad
unit. -/
theorem hamDecFaults : Obligations.HamDecFaults := by
  unfold Obligations.HamDecFaults
  intro s ls line tail hs hinput hline htail
  rw [List.append_assoc] at hinput
  refine ⟨fun hlen room => ?_, fun us bad more hlen heq hbadlen hbad room => ?_⟩
  · refine ends_of_yields (i := .hamDec) (cause := some .hamBadLength) (bs := ls.flatMap decodeUnits) ?_ hs room
    rw [← List.append_nil (ls.flatMap decodeUnits)]
    refine yields_hamDecRule_after hinput fun k w hk hdrop => yields_sourceLoop_of_more ?_ hk hdrop fun k => ?_
    · intro hnil
      rw [(List.append_eq_nil_iff.mp hnil).1] at hlen
      exact hlen rfl
    · exact (computes_hamDecLine_badLength ⟨hdrop, hline, htail⟩ hlen).bind_raise.yields_raise
  · refine ends_of_yields (i := .hamDec) (cause := some .hamBadBit) (yields_hamDecRule_after hinput fun k w hk hdrop => ?_)
      hs room
    refine yields_sourceLoop_of_more ?_ hk hdrop fun k => ?_
    · refine List.ne_nil_of_length_pos ?_
      rw [heq]
      simp only [List.length_append, hbadlen]
      omega
    · exact (computes_hamDecLine_badBit ⟨hdrop, hline, htail⟩ hlen heq hbadlen hbad).bind_raise.yields_raise

end Sys2Proof.Hamming
end

section
/-! The loops over the entries of a table or an alphabet (41_huffman.md R127, 42_arithmetic.md R159, 43_bwt.md R199): all three
read entries up to the delimiter line, so what they do behind good entries is shown once. -/

namespace Sys2Proof.Machine

open Sys2Proof Sys2Proof.Safety Sys2Proof.Artifact Sys2Proof.Huffman

/-- The cursor is within the source, and `rest` is what follows it. -/
def At (inp : Bytes) (w : Work) (rest : Bytes) : Prop := w.sc ≤ inp.length ∧ inp.drop w.sc = rest

theorem At.advance {inp : Bytes} {w w' : Work} {text rest : Bytes} (h : At inp w (text ++ rest))
    (hsc : w'.sc = w.sc + text.length) : At inp w' rest := by
  obtain ⟨hle, hdrop⟩ := h
  have hlen := congrArg List.length hdrop
  rw [List.length_drop, List.length_append] at hlen
  exact ⟨by omega, by rw [hsc, ← List.drop_drop, hdrop, List.drop_left]⟩

theorem At.sc_eq_length {inp : Bytes} {w : Work} (h : At inp w []) : w.sc = inp.length :=
  h.1.antisymm (List.drop_eq_nil_iff.mp h.2)

/-- Entries up to the delimiter line, which is skipped. -/
def entryLoop (entry : Cmd Unit) (fuel : Nat) : Cmd Unit :=
  match fuel with
  | 0 => pure ()
  | k + 1 => do
    let atEnd ← atDelim
    if atEnd then modify (fun s => State.setSc (s.work.sc + 3) s)
    else do
      entry
      entryLoop entry k

theorem hufParseTable_eq_entryLoop (fuel : Nat) : hufParseTable fuel = entryLoop hufParseEntry fuel := by
  induction fuel with
  | zero => rfl
  | succ k ih => rw [hufParseTable, ih, entryLoop]

theorem ariParseTable_eq_entryLoop (fuel : Nat) : ariParseTable fuel = entryLoop ariParseEntry fuel := by
  induction fuel with
  | zero => rfl
  | succ k ih => rw [ariParseTable, ih, entryLoop]

theorem bwtParseLetters_eq_entryLoop (fuel : Nat) : bwtParseLetters fuel = entryLoop bwtParseLetter fuel := by
  induction fuel with
  | zero => rfl
  | succ k ih => rw [bwtParseLetters, ih, entryLoop]

section
variable {inp : Bytes} {w : Work} {entry : Cmd Unit} {k : Nat} {rest : Bytes}

theorem computes_entryLoop_at_delim (hw : At inp w (delimLine ++ rest)) :
    Computes inp w (entryLoop entry (k + 1)) [] (.ok ((), { w with sc := w.sc + 3 })) := by
  have hdelim : delimLine <+: inp.drop w.sc := ⟨rest, hw.2.symm⟩
  refine computes_atDelim.bind_silent ?_
  rw [decide_eq_true hdelim]
  exact .work fun w => { w with sc := w.sc + 3 }

theorem computes_entryLoop_at_entry (hw : At inp w rest) (hdelim : ¬ delimLine <+: rest) {r : Except Cause (Unit × Work)}
    (h : Computes inp w (do entry; entryLoop entry k) [] r) : Computes inp w (entryLoop entry (k + 1)) [] r := by
  refine computes_atDelim.bind_silent ?_
  rw [hw.2, decide_eq_false hdelim]
  exact h

theorem computes_entryLoop_fault (hw : At inp w rest) (hdelim : ¬ delimLine <+: rest) {c : Cause}
    (h : Computes inp w entry [] (.error c)) : Computes inp w (entryLoop entry (k + 1)) [] (.error c) :=
  computes_entryLoop_at_entry hw hdelim h.bind_raise

/-- One pass over an entry `e` after the entries `done`: it is no delimiter line, and is read up to its end; `I` is what holds
of the working state after some entries. -/
def ReadsEntry {ε : Type} (inp : Bytes) (entry : Cmd Unit) (text : ε → Bytes) (I : List ε → Work → Prop) (done : List ε)
    (e : ε) : Prop :=
  ∀ (w : Work) (more : Bytes), I done w → At inp w (text e ++ more) → ¬ delimLine <+: text e ++ more ∧
    ∃ w', Computes inp w entry [] (.ok ((), w')) ∧ I (done ++ [e]) w' ∧ w'.sc = w.sc + (text e).length

/-- Behind good entries the loop goes on with what follows them. -/
theorem exists_after_entries {ε : Type} {text : ε → Bytes} (I : List ε → Work → Prop) {done es : List ε}
    (hstep : ∀ (more later : List ε) (e : ε), es = more ++ e :: later → ReadsEntry inp entry text I (done ++ more) e)
    (hI : I done w) (hw : At inp w (es.flatMap text ++ rest)) :
    ∃ w', I (done ++ es) w' ∧ At inp w' rest ∧ ∀ (k : Nat) (r : Except Cause (Unit × Work)),
      Computes inp w' (entryLoop entry k) [] r → Computes inp w (entryLoop entry (es.length + k)) [] r := by
  induction es generalizing done w with
  | nil =>
    refine ⟨w, by rwa [List.append_nil], hw, fun k r h => ?_⟩
    rwa [List.length_nil, Nat.zero_add]
  | cons e es ih =>
    rw [List.flatMap_cons, List.append_assoc] at hw
    have hfirst := hstep [] es e rfl
    rw [List.append_nil] at hfirst
    obtain ⟨hdelim, w₁, hentry, hI₁, hsc⟩ := hfirst w _ hI hw
    obtain ⟨w₂, hI₂, hw₂, hgo⟩ := ih (done := done ++ [e]) (fun more later e' heq => by
      rw [List.append_assoc, List.singleton_append]
      exact hstep (e :: more) later e' (by rw [heq, List.cons_append])) hI₁ (hw.advance hsc)
    refine ⟨w₂, by rwa [List.append_assoc] at hI₂, hw₂, fun k r h => ?_⟩
    rw [List.length_cons, Nat.add_right_comm]
    exact computes_entryLoop_at_entry hw hdelim (hentry.bind_silent (hgo k r h))

end

/-! ### Entries that are one line -/

/-- The delimiter test does not fire at the start of a line that is not the delimiter line (30_encoding.md R76). -/
theorem not_delimLine_isPrefix_line {sym : Byte} {num : Bytes} (hnum : LF ∉ num) (hne : ¬ (sym = chDash ∧ num = [chDash]))
    (more : Bytes) : ¬ delimLine <+: sym :: (num ++ LF :: more) := by
  intro h
  rw [delimLine, List.cons_prefix_cons] at h
  obtain ⟨hsym, h⟩ := h
  match num, hnum, h with
  | [], _, h =>
    have hdash : chDash = LF := (List.cons_prefix_cons.mp h).1
    revert hdash
    decide
  | [b], _, h => exact hne ⟨hsym.symm, by rw [(List.cons_prefix_cons.mp h).1]⟩
  | b :: c :: num, hnum, h =>
    obtain ⟨-, h⟩ := List.cons_prefix_cons.mp h
    obtain ⟨hc, -⟩ := List.cons_prefix_cons.mp h
    exact hnum (hc ▸ by simp)

theorem not_delimLine_isPrefix_of_noLF {rest : Bytes} (h : rest = [] ∨ LF ∉ rest.tail) : ¬ delimLine <+: rest := by
  rintro ⟨more, rfl⟩
  obtain h | h := h
  · cases h
  · exact h (by simp [delimLine])

/-- One table entry at `SC`: the symbol byte, the characters up to the next `LF`, and what is made of them
(41_huffman.md R127, 42_arithmetic.md R159). -/
def lineEntry (noDelim : Cause) (check : Byte → Bytes → Nat → Cmd Unit) : Cmd Unit := do
  let s ← get
  let sc := s.work.sc
  if sc = s.srcLen.toNat then raise noDelim
  let sym ← srcByte sc
  let found ← findLF (sc + 1)
  match found with
  | none => raise noDelim
  | some e => do
    let text ← bytesOf (sc + 1) e
    check sym text e

section
variable {inp : Bytes} {w : Work} {noDelim : Cause} {check : Byte → Bytes → Nat → Cmd Unit}

theorem computes_lineEntry {sym : Byte} {text more : Bytes} (hw : At inp w (sym :: (text ++ LF :: more))) (htext : LF ∉ text)
    {bs : Bytes} {r : Except Cause (Unit × Work)} (h : Computes inp w (check sym text (w.sc + 1 + text.length)) bs r) :
    Computes inp w (lineEntry noDelim check) bs r := by
  obtain ⟨-, hdrop⟩ := hw
  have hdrop' : inp.drop (w.sc + 1) = text ++ LF :: more := by rw [← List.drop_drop, hdrop]; rfl
  have hlt : w.sc < inp.length := Nat.not_le.mp fun hle => by simp [List.drop_eq_nil_iff.mpr hle] at hdrop
  have hread : Computes inp w (bytesOf (w.sc + 1) (w.sc + 1 + text.length)) [] (.ok (text, w)) := by
    rw [bytesOf, Nat.add_sub_cancel_left]
    exact computes_bytesIn hdrop'
  refine .get_bind fun s hs hw => ?_
  rw [hw, ← input_length, hs]
  simp only
  rw [if_neg (Nat.ne_of_lt hlt)]
  exact (computes_srcByte hdrop).bind_silent
    ((computes_findLF_some htext hdrop').bind_silent (hread.bind_silent h))

/-- At the end of the source, or at an entry without `LF`. -/
theorem computes_lineEntry_noDelim {rest : Bytes} (hw : At inp w rest) (hrest : rest = [] ∨ LF ∉ rest.tail) :
    Computes inp w (lineEntry noDelim check) [] (.error noDelim) := by
  refine .get_bind fun s hs hsw => ?_
  rw [hsw, ← input_length, hs]
  simp only
  cases rest with
  | nil =>
    rw [if_pos hw.sc_eq_length]
    exact (Computes.raise _).bind_raise
  | cons sym rest =>
    obtain ⟨-, hdrop⟩ := hw
    have hlt : w.sc < inp.length := Nat.not_le.mp fun hle => by simp [List.drop_eq_nil_iff.mpr hle] at hdrop
    have hdrop' : inp.drop (w.sc + 1) = rest := by rw [← List.drop_drop, hdrop]; rfl
    have hline : LF ∉ inp.drop (w.sc + 1) := hdrop' ▸ hrest.resolve_left (List.cons_ne_nil _ _)
    rw [if_neg (Nat.ne_of_lt hlt)]
    exact (computes_srcByte hdrop).bind_silent ((computes_findLF_none hline).bind_silent (.raise _))

end

/-! ### A line that is one numeral -/

/-- A line that must be a numeral, and what is made of it (42_arithmetic.md R160, 43_bwt.md R200). -/
def numeralLine (bad : Cause) (store : Bytes → Nat → Cmd Unit) : Cmd Unit := do
  let s ← get
  let sc := s.work.sc
  let found ← findLF sc
  match found with
  | none => raise bad
  | some e => do
    let num ← bytesOf sc e
    if isNumeral num = false then raise bad
    store num e

theorem computes_numeralLine_fault {inp : Bytes} {w : Work} {bad : Cause} {store : Bytes → Nat → Cmd Unit} {num rest : Bytes}
    (hdrop : inp.drop w.sc = num ++ rest) (hline : LF ∉ num)
    (hrest : rest = [] ∨ rest.head? = some LF ∧ isNumeral num = false) :
    Computes inp w (numeralLine bad store) [] (.error bad) := by
  refine .get_bind fun s _ hs => ?_
  rw [hs]
  obtain rfl | ⟨hlf, hnum⟩ := hrest
  · rw [List.append_nil] at hdrop
    exact (computes_findLF_none (hdrop ▸ hline)).bind_silent (.raise _)
  · obtain ⟨more, rfl⟩ := List.head?_eq_some_iff.mp hlf
    have hread : Computes inp w (bytesOf w.sc (w.sc + num.length)) [] (.ok (num, w)) := by
      rw [bytesOf, Nat.add_sub_cancel_left]
      exact computes_bytesIn hdrop
    refine (computes_findLF_some hline hdrop).bind_silent (hread.bind_silent ?_)
    rw [if_pos hnum]
    exact (Computes.raise _).bind_raise

/-! ### Tables -/

/-- The text of one table entry. -/
def entryLine (e : Byte × Bytes) : Bytes := e.1 :: (e.2 ++ [LF])

theorem entryLine_append (e : Byte × Bytes) (more : Bytes) : entryLine e ++ more = e.1 :: (e.2 ++ LF :: more) := by
  rw [entryLine, List.cons_append, List.append_assoc]
  rfl

theorem length_entryLine (e : Byte × Bytes) : (entryLine e).length = e.2.length + 2 := by
  rw [entryLine, List.length_cons, List.length_append, List.length_singleton]

/-- Behind a table of good entries the loop goes on with what follows it, with passes left. -/
theorem exists_after_table {inp : Bytes} {entry : Cmd Unit} {table : List (Byte × Bytes)} {rest : Bytes}
    (I : List (Byte × Bytes) → Work → Prop) (hinput : inp = tableText table ++ rest) (hI : I [] Work.clear)
    (hstep : ∀ (done later : List (Byte × Bytes)) (e : Byte × Bytes), table = done ++ e :: later →
      ReadsEntry inp entry entryLine I done e) :
    ∃ w k, I table w ∧ At inp w rest ∧ ∀ r, Computes inp w (entryLoop entry (k + 1)) [] r →
      Computes inp Work.clear (entryLoop entry (inp.length + 1)) [] r := by
  obtain ⟨w, hIw, hw, hgo⟩ := exists_after_entries I (done := []) hstep hI ⟨Nat.zero_le _, hinput⟩
  have hfuel : table.length ≤ inp.length := by
    have := length_le_length_tableText table
    rw [hinput, List.length_append]
    omega
  refine ⟨w, inp.length - table.length, hIw, hw, fun r h => ?_⟩
  rw [show inp.length + 1 = table.length + (inp.length - table.length + 1) by omega]
  exact hgo _ r h

end Sys2Proof.Machine
end

section
/-! Where `HUF.DEC` faults: in its table (41_huffman.md R127) and in its bitstream (R129). -/

namespace Sys2Proof.Huffman

open Sys2Proof Sys2Proof.Machine Sys2Proof.Safety Sys2Proof.Artifact

section
variable {inp : Bytes} {w : Work}

/-! ### One table entry -/

/-- What is made of an entry's symbol and code (41_huffman.md R127). -/
def hufCheckEntry (sym : Byte) (code : Bytes) (e : Nat) : Cmd Unit := do
  if code.length = 0 ∨ isBits code = false ∨ code.length > Config.CODE_MAX then raise .hufBadEntry
  let s ← get
  if s.work.huf.dtbl.length = Config.TBL_MAX then raise .hufTableFull
  modify (State.onHuf (fun h => { h with dtbl := h.dtbl ++ [(sym, code)] }))
  modify (State.setSc (e + 1))

theorem hufParseEntry_eq_lineEntry : hufParseEntry = lineEntry .hufNoDelim hufCheckEntry := rfl

theorem goodEntry_iff (e : Byte × Bytes) : GoodEntry e ↔
    ¬ (e.2.length = 0 ∨ isBits e.2 = false ∨ e.2.length > Config.CODE_MAX) := by
  have hmax : Config.CODE_MAX = 255 := rfl
  rw [GoodEntry, hmax, ← Bool.not_eq_true]
  constructor
  · rintro ⟨hpos, hlen, hbits⟩ (h | h | h)
    · omega
    · exact h hbits
    · omega
  · intro h
    rw [not_or, not_or, not_not] at h
    obtain ⟨hpos, hbits, hlen⟩ := h
    exact ⟨by omega, by omega, hbits⟩

theorem computes_hufParseEntry_bad {sym : Byte} {code more : Bytes} (hw : At inp w (sym :: (code ++ LF :: more)))
    (hcode : LF ∉ code) (hbad : ¬ GoodEntry (sym, code)) : Computes inp w hufParseEntry [] (.error .hufBadEntry) := by
  rw [goodEntry_iff, not_not] at hbad
  rw [hufParseEntry_eq_lineEntry]
  refine computes_lineEntry hw hcode ?_
  rw [hufCheckEntry, if_pos hbad]
  exact (Computes.raise _).bind_raise

theorem computes_hufParseEntry_full {e : Byte × Bytes} {more : Bytes} (hw : At inp w (e.1 :: (e.2 ++ LF :: more)))
    (he : GoodEntry e) (hfull : w.huf.dtbl.length = 256) : Computes inp w hufParseEntry [] (.error .hufTableFull) := by
  rw [hufParseEntry_eq_lineEntry]
  refine computes_lineEntry hw (LF_notMem_of_isBits he.2.2) ?_
  rw [hufCheckEntry, if_neg ((goodEntry_iff e).mp he)]
  refine .get_bind fun s _ hs => ?_
  rw [hs, if_pos hfull]
  exact (Computes.raise _).bind_raise

theorem computes_hufParseEntry_good {e : Byte × Bytes} {more : Bytes} (hw : At inp w (e.1 :: (e.2 ++ LF :: more)))
    (he : GoodEntry e) (hroom : w.huf.dtbl.length < 256) : Computes inp w hufParseEntry []
      (.ok ((), { w with sc := w.sc + 1 + e.2.length + 1, huf := addEntries [e] w.huf })) := by
  rw [hufParseEntry_eq_lineEntry]
  refine computes_lineEntry hw (LF_notMem_of_isBits he.2.2) ?_
  rw [hufCheckEntry, if_neg ((goodEntry_iff e).mp he)]
  refine .get_bind fun s _ hs => ?_
  rw [hs, if_neg (Nat.ne_of_lt hroom)]
  exact .modify_bind (fun w => { w with huf := addEntries [e] w.huf })
    (.work fun v => { v with sc := w.sc + 1 + e.2.length + 1 })

/-! ### The table -/

theorem readsEntry_hufParseEntry {done : List (Byte × Bytes)} {e : Byte × Bytes} (he : GoodEntry e) (hroom : done.length < 256) :
    ReadsEntry inp hufParseEntry entryLine (fun done w => w.huf.dtbl = done) done e := by
  intro w more hdone hw
  rw [entryLine_append] at hw ⊢
  refine ⟨not_delimLine_isPrefix_entry he more, _, computes_hufParseEntry_good hw he (hdone ▸ hroom), ?_, ?_⟩
  · exact congrArg (· ++ [e]) hdone
  · rw [length_entryLine]
    simp only
    omega

/-- Behind good entries the parser goes on with what follows them. -/
theorem exists_after_hufTable {table : List (Byte × Bytes)} {rest : Bytes} (hinput : inp = tableText table ++ rest)
    (hlen : table.length ≤ 256) (hgood : ∀ e ∈ table, GoodEntry e) : ∃ w k, w.huf.dtbl = table ∧ At inp w rest ∧
      ∀ r, Computes inp w (entryLoop hufParseEntry (k + 1)) [] r →
        Computes inp Work.clear (hufParseTable (inp.length + 1)) [] r := by
  rw [hufParseTable_eq_entryLoop]
  refine exists_after_table (fun done w => w.huf.dtbl = done) hinput rfl fun done later e heq => ?_
  refine readsEntry_hufParseEntry (hgood e (heq ▸ by simp)) ?_
  have := congrArg List.length heq
  simp only [List.length_append, List.length_cons] at this
  omega

theorem computes_hufDecRule_of_parse {m : Cmd Unit} (hm : m = hufParseTable (inp.length + 1)) {bs : Bytes}
    {r : Except Cause (Unit × Work)} (h : Computes inp Work.clear (do m; hufMatch) bs r) :
    Computes inp Work.clear hufDecRule bs r := by
  subst hm
  refine .modify_bind (fun w => { w with sc := 0 }) (.modify_bind (fun w => { w with huf := { w.huf with dtbl := [] } })
    (.get_bind fun s hs _ => ?_))
  rw [← input_length, hs]
  exact h

theorem computes_hufDecRule_fault {c : Cause} (h : Computes inp Work.clear (hufParseTable (inp.length + 1)) [] (.error c)) :
    Computes inp Work.clear hufDecRule [] (.error c) := computes_hufDecRule_of_parse rfl h.bind_raise

end

/-- Settles O41: behind the good entries the parser is at an entry it does not take, and stops with that entry's cause. -/
theorem hufDecTableFaults : Obligations.HufDecTableFaults := by
  unfold Obligations.HufDecTableFaults
  intro s table after hs hinput hlen hgood
  obtain ⟨w, k, hdtbl, hw, hgo⟩ := exists_after_hufTable hinput hlen hgood
  have hfault : ∀ c, ¬ delimLine <+: after → Computes (input s) w hufParseEntry [] (.error c) →
      ∃ t, exec .hufDec s = .next t ∧ EndsFault .hufDec s t c [] := fun c hdelim h =>
    ends_of_computes (i := .hufDec) (computes_hufDecRule_fault (hgo _ (computes_entryLoop_fault hw hdelim h))) hs
      (Nat.zero_le _)
  refine ⟨fun sym code more hafter hcode hne hbad => ?_, fun sym code more hafter hfull hpos hmax hbits => ?_, fun hend => ?_⟩
  · subst hafter
    refine hfault _ (not_delimLine_isPrefix_line hcode hne more) (computes_hufParseEntry_bad hw hcode ?_)
    rintro ⟨hpos, hmax, hbits⟩
    obtain rfl | h | h := hbad
    · cases hpos
    · rw [hbits] at h
      cases h
    · exact absurd hmax (Nat.not_le_of_lt h)
  · subst hafter
    have he : GoodEntry (sym, code) := ⟨hpos, hmax, hbits⟩
    exact hfault _ (not_delimLine_isPrefix_entry he more) (computes_hufParseEntry_full hw he (hdtbl ▸ hfull))
  · exact hfault _ (not_delimLine_isPrefix_of_noLF hend) (computes_lineEntry_noDelim hw hend)

end Sys2Proof.Huffman
end

section
/-! Where the bitstream of `HUF.DEC` faults (41_huffman.md R129): the matching loop is `greedy` as long as the candidate is
shorter than the longest code; at that length `greedy` matches no more either. -/

namespace Sys2Proof.Huffman

open Sys2Proof Sys2Proof.Machine Sys2Proof.Safety Sys2Proof.Artifact

/-- A candidate as long as the longest code matches no more (41_huffman.md R129). -/
theorem greedy_of_long {table : List (Byte × Bytes)} (hgood : ∀ e ∈ table, GoodEntry e) {acc bits : Bytes}
    (hacc : 255 ≤ acc.length) : greedy table acc bits = ([], acc ++ bits) := by
  induction bits generalizing acc with
  | nil => rw [List.append_nil, greedy]
  | cons b bits ih =>
    have hnone : firstMatch table (acc ++ [b]) = none := by
      cases hmatch : firstMatch table (acc ++ [b]) with
      | none => rfl
      | some c =>
        have := length_le_of_firstMatch hgood hmatch
        rw [List.length_append, List.length_singleton] at this
        omega
    rw [greedy_cons_of_noMatch hnone, ih (by rw [List.length_append]; omega), List.append_assoc]
    rfl

section
variable {inp : Bytes} {w : Work}

/-! ### One character -/

theorem computes_hufMatchChar_of_bit {b : Byte} (hb : isBit b = true) {bs : Bytes} {r : Except Cause (Unit × Work)}
    (h : Computes inp { w with huf := setAcc (w.huf.acc ++ [b]) w.huf } (match firstMatch w.huf.dtbl (w.huf.acc ++ [b]) with
      | some sym => do
        emit sym
        modify (State.onHuf (setAcc []))
      | none => if (w.huf.acc ++ [b]).length = Config.CODE_MAX then raise .hufNoMatch else pure ()) bs r) :
    Computes inp w (hufMatchChar b) bs r := by
  have hno : ¬ isBit b = false := by rw [hb]; exact Bool.true_eq_false.mp
  rw [hufMatchChar, if_neg hno]
  refine .modify_bind (fun w => { w with huf := { w.huf with acc := w.huf.acc ++ [b] } }) (.get_bind fun s _ hs => ?_)
  rw [hs, hufLookup_eq_firstMatch]
  cases hmatch : firstMatch w.huf.dtbl (w.huf.acc ++ [b]) <;> rw [hmatch] at h <;> exact h

theorem computes_hufMatchChar_match {b c : Byte} (hb : isBit b = true)
    (h : firstMatch w.huf.dtbl (w.huf.acc ++ [b]) = some c) :
    Computes inp w (hufMatchChar b) [c] (.ok ((), { w with huf := setAcc [] w.huf })) := by
  refine computes_hufMatchChar_of_bit hb ?_
  rw [h]
  exact (Computes.emit c).bind (.work fun w => { w with huf := setAcc [] w.huf })

theorem computes_hufMatchChar_shorter {b : Byte} (hb : isBit b = true)
    (h : firstMatch w.huf.dtbl (w.huf.acc ++ [b]) = none) (hlen : (w.huf.acc ++ [b]).length < 255) :
    Computes inp w (hufMatchChar b) [] (.ok ((), { w with huf := setAcc (w.huf.acc ++ [b]) w.huf })) := by
  refine computes_hufMatchChar_of_bit hb ?_
  rw [h]
  simp only
  rw [if_neg (Nat.ne_of_lt hlen)]
  exact .pure ()

theorem computes_hufMatchChar_longest {b : Byte} (hb : isBit b = true)
    (h : firstMatch w.huf.dtbl (w.huf.acc ++ [b]) = none) (hlen : (w.huf.acc ++ [b]).length = 255) :
    Computes inp w (hufMatchChar b) [] (.error .hufNoMatch) := by
  refine computes_hufMatchChar_of_bit hb ?_
  rw [h]
  simp only
  rw [if_pos hlen]
  exact .raise _

theorem computes_hufMatchChar_badBit {b : Byte} (hb : isBit b = false) :
    Computes inp w (hufMatchChar b) [] (.error .hufBadBit) := by
  rw [hufMatchChar, if_pos hb]
  exact (Computes.raise _).bind_raise

/-! ### The matching loop -/

/-- The loop's pass over the character at `i`. -/
def matchAtPos (i : Nat) : Cmd Unit := do
  let ch ← srcByte i
  hufMatchChar ch

/-- What the loop comes to: the candidate left over, or the fault where it is as long as the longest code. -/
def matchResult (w : Work) (acc : Bytes) : Except Cause (Unit × Work) :=
  if acc.length < 255 then .ok ((), { w with huf := setAcc acc w.huf }) else .error .hufNoMatch

theorem computes_matchLoop {bits tail : Bytes} {k : Nat} (hdrop : inp.drop k = bits ++ tail) (hbits : isBits bits = true)
    (hgood : ∀ e ∈ w.huf.dtbl, GoodEntry e) (hacc : w.huf.acc.length < 255) :
    Computes inp w (forRange k bits.length matchAtPos) (greedy w.huf.dtbl w.huf.acc bits).1
      (matchResult w (greedy w.huf.dtbl w.huf.acc bits).2) := by
  induction bits generalizing k w with
  | nil =>
    rw [greedy, matchResult, if_pos hacc]
    exact .pure ()
  | cons b bits ih =>
    obtain ⟨hb, hbits⟩ : isBit b = true ∧ isBits bits = true := by simpa [isBits_cons] using hbits
    have hdrop' : inp.drop (k + 1) = bits ++ tail := by rw [← List.drop_drop, hdrop]; rfl
    rw [List.length_cons, forRange_succ]
    cases hmatch : firstMatch w.huf.dtbl (w.huf.acc ++ [b]) with
    | some c =>
      rw [greedy_cons_of_match hmatch]
      exact ((computes_srcByte hdrop).bind_silent (computes_hufMatchChar_match hb hmatch)).bind
        (ih (w := { w with huf := setAcc [] w.huf }) hdrop' hbits hgood (Nat.zero_lt_succ _))
    | none =>
      by_cases hlen : (w.huf.acc ++ [b]).length < 255
      · rw [greedy_cons_of_noMatch hmatch]
        exact ((computes_srcByte hdrop).bind_silent (computes_hufMatchChar_shorter hb hmatch hlen)).bind_silent
          (ih (w := { w with huf := setAcc (w.huf.acc ++ [b]) w.huf }) hdrop' hbits hgood hlen)
      · have hlong : (w.huf.acc ++ [b]).length = 255 := by
          rw [List.length_append, List.length_singleton] at hlen ⊢
          omega
        rw [greedy_cons_of_noMatch hmatch, greedy_of_long hgood hlong.ge, matchResult,
          if_neg (by rw [List.length_append]; omega)]
        exact ((computes_srcByte hdrop).bind_silent (computes_hufMatchChar_longest hb hmatch hlong)).bind_raise

theorem computes_matchLoop_start {bits tail : Bytes} {k : Nat} (hdrop : inp.drop k = bits ++ tail)
    (hbits : isBits bits = true) (hgood : ∀ e ∈ w.huf.dtbl, GoodEntry e) :
    Computes inp { w with huf := setAcc [] w.huf } (forRange k bits.length matchAtPos) (greedy w.huf.dtbl [] bits).1
      (matchResult w (greedy w.huf.dtbl [] bits).2) :=
  computes_matchLoop (w := { w with huf := setAcc [] w.huf }) hdrop hbits hgood (Nat.zero_lt_succ _)

theorem computes_hufMatch {line tail : Bytes} (hline : LineAt inp w.sc line tail) {bs : Bytes}
    {r : Except Cause (Unit × Work)} (h : Computes inp { w with huf := setAcc [] w.huf } (do
      forRange w.sc line.length matchAtPos
      let s ← get
      if s.work.huf.acc ≠ [] then raise .hufNoMatch) bs r) : Computes inp w hufMatch bs r := by
  obtain ⟨found, hfind, hcount, -⟩ := hline.computes_findLF
  refine .get_bind fun s hs hw => ?_
  rw [hw, ← input_length, hs]
  refine hfind.bind_silent (.modify_bind (fun w => { w with huf := setAcc [] w.huf }) ?_)
  rw [hcount]
  exact h

/-- Bits left over that match no code (41_huffman.md R129). -/
theorem computes_hufMatch_noMatch {bits tail : Bytes} (hline : LineAt inp w.sc bits tail) (hbits : isBits bits = true)
    (hgood : ∀ e ∈ w.huf.dtbl, GoodEntry e) (hleft : (greedy w.huf.dtbl [] bits).2 ≠ []) :
    Computes inp w hufMatch (greedy w.huf.dtbl [] bits).1 (.error .hufNoMatch) := by
  have hloop := computes_matchLoop_start hline.drop_eq hbits hgood
  refine computes_hufMatch hline ?_
  rw [matchResult] at hloop
  split at hloop
  · refine hloop.bind_end (.get_bind fun s _ hs => (Computes.raise _).congr fun _ _ _ _ => ?_)
    rw [hs]
    exact congrFun (if_pos hleft) _
  · exact hloop.bind_raise

/-- A character that is no bit behind a candidate that is not too long (41_huffman.md R129). -/
theorem computes_hufMatch_badBit {bits more tail : Bytes} {x : Byte} (hline : LineAt inp w.sc (bits ++ x :: more) tail)
    (hbits : isBits bits = true) (hx : isBit x = false) (hgood : ∀ e ∈ w.huf.dtbl, GoodEntry e)
    (hleft : (greedy w.huf.dtbl [] bits).2.length < 255) :
    Computes inp w hufMatch (greedy w.huf.dtbl [] bits).1 (.error .hufBadBit) := by
  have hdrop : inp.drop w.sc = bits ++ (x :: (more ++ tail)) := by
    rw [hline.drop_eq, List.append_assoc]
    rfl
  have hx_at : inp.drop (w.sc + bits.length) = x :: (more ++ tail) := by rw [← List.drop_drop, hdrop, List.drop_left]
  have hloop := computes_matchLoop_start hdrop hbits hgood
  refine computes_hufMatch hline ?_
  rw [matchResult, if_pos hleft] at hloop
  rw [List.length_append, List.length_cons, forRange_add, forRange_succ]
  exact (hloop.bind_end ((computes_srcByte hx_at).bind_silent (computes_hufMatchChar_badBit hx)).bind_raise).bind_raise

theorem computes_hufDecRule_of_table {table : List (Byte × Bytes)} {rest : Bytes}
    (hinput : inp = tableText table ++ (delimLine ++ rest)) (hlen : table.length ≤ 256) (hgood : ∀ e ∈ table, GoodEntry e)
    {bs : Bytes} {r : Except Cause (Unit × Work)}
    (h : ∀ w : Work, w.huf.dtbl = table → inp.drop w.sc = rest → Computes inp w hufMatch bs r) :
    Computes inp Work.clear hufDecRule bs r := by
  obtain ⟨w, k, hdtbl, hw, hgo⟩ := exists_after_hufTable hinput hlen hgood
  exact computes_hufDecRule_of_parse rfl ((hgo _ (computes_entryLoop_at_delim hw)).bind_silent
    (h { w with sc := w.sc + 3 } hdtbl (hw.advance rfl).2))

end

/-- The line that a text begins with. -/
theorem exists_line (text : Bytes) : ∃ line tail, text = line ++ tail ∧ LF ∉ line ∧ (tail = [] ∨ tail.head? = some LF) := by
  induction text with
  | nil => exact ⟨[], [], rfl, List.not_mem_nil, .inl rfl⟩
  | cons b text ih =>
    by_cases hb : b = LF
    · exact ⟨[], b :: text, rfl, List.not_mem_nil, .inr (hb ▸ rfl)⟩
    · obtain ⟨line, tail, rfl, hline, htail⟩ := ih
      exact ⟨b :: line, tail, rfl, by simpa [Ne.symm hb] using hline, htail⟩

/-- Settles O40: the loop emits what `greedy` matches, and stops at the bits left over or at the character that is no bit. -/
theorem hufDecStreamFaults : Obligations.HufDecStreamFaults := by
  unfold Obligations.HufDecStreamFaults
  intro s table bits tail hs hinput hlen hgood hbits room
  have hlines : input s = tableText table ++ (delimLine ++ (bits ++ tail)) := by
    rw [hinput, tableText]
    simp only [List.append_assoc]
  refine ⟨fun htail hleft => ?_, fun x more htail hxne hx hleft => ?_⟩
  · refine ends_of_computes (i := .hufDec) (r := .error .hufNoMatch) (computes_hufDecRule_of_table hlines hlen hgood
      fun w hdtbl hdrop => ?_) hs room
    rw [← hdtbl] at hgood hleft ⊢
    exact computes_hufMatch_noMatch ⟨hdrop, LF_notMem_of_isBits hbits, htail⟩ hbits hgood hleft
  · refine ends_of_computes (i := .hufDec) (r := .error .hufBadBit) (computes_hufDecRule_of_table hlines hlen hgood
      fun w hdtbl hdrop => ?_) hs room
    obtain ⟨line, behind, rfl, hline, hbehind⟩ := exists_line more
    rw [← hdtbl] at hgood hleft ⊢
    refine computes_hufMatch_badBit (more := line) (tail := behind) ⟨?_, ?_, hbehind⟩ hbits hx hgood hleft
    · rw [hdrop, htail, List.append_assoc]
      rfl
    · rw [List.mem_append, List.mem_cons, not_or, not_or]
      exact ⟨LF_notMem_of_isBits hbits, Ne.symm hxne, hline⟩

end Sys2Proof.Huffman
end

section
/-! Where `ARI.DEC` faults in its table (42_arithmetic.md R159). -/

namespace Sys2Proof.Arithmetic

open Sys2Proof Sys2Proof.Machine Sys2Proof.Safety Sys2Proof.Artifact Sys2Proof.Huffman

section
variable {inp : Bytes} {w : Work}

/-! ### One table entry -/

/-- What is made of an entry's symbol and bound (42_arithmetic.md R159). -/
def ariCheckEntry (sym : Byte) (num : Bytes) (e : Nat) : Cmd Unit := do
  if isNumeral num = false then raise .ariBadEntry
  let s ← get
  let cum := s.work.ari.cum
  if cum.length = Config.TBL_MAX then raise .ariTableFull
  if notAscending cum (numVal num) then raise .ariNotAscending
  modify (State.onAri (fun h => { h with cum := h.cum ++ [{ sym := sym, lo := numVal num, hi := 0 }] }))
  modify (State.setSc (e + 1))

theorem ariParseEntry_eq_lineEntry : ariParseEntry = lineEntry .ariNoDelim ariCheckEntry := rfl

theorem computes_ariParseEntry_bad {sym : Byte} {num more : Bytes} (hw : At inp w (sym :: (num ++ LF :: more)))
    (hline : LF ∉ num) (hnum : isNumeral num = false) : Computes inp w ariParseEntry [] (.error .ariBadEntry) := by
  rw [ariParseEntry_eq_lineEntry]
  refine computes_lineEntry hw hline ?_
  rw [ariCheckEntry, if_pos hnum]
  exact (Computes.raise _).bind_raise

/-- An entry with a numeral comes to the tests on the table before it. -/
theorem computes_ariParseEntry_of_numeral {e : Byte × Bytes} {more : Bytes} (hw : At inp w (e.1 :: (e.2 ++ LF :: more)))
    (he : isNumeral e.2 = true) {r : Except Cause (Unit × Work)}
    (h : Computes inp w (do
      if w.ari.cum.length = Config.TBL_MAX then raise .ariTableFull
      if notAscending w.ari.cum (numVal e.2) then raise .ariNotAscending
      modify (State.onAri (addBounds [e]))
      modify (State.setSc (w.sc + 1 + e.2.length + 1))) [] r) : Computes inp w ariParseEntry [] r := by
  rw [ariParseEntry_eq_lineEntry]
  refine computes_lineEntry hw (LF_notMem_of_isNumeral he) ?_
  rw [ariCheckEntry, if_neg (by rw [he]; exact Bool.true_eq_false.mp)]
  refine .get_bind fun s _ hs => ?_
  rw [hs]
  exact h

theorem computes_ariParseEntry_full {e : Byte × Bytes} {more : Bytes} (hw : At inp w (e.1 :: (e.2 ++ LF :: more)))
    (he : isNumeral e.2 = true) (hfull : w.ari.cum.length = 256) :
    Computes inp w ariParseEntry [] (.error .ariTableFull) := by
  refine computes_ariParseEntry_of_numeral hw he ?_
  rw [if_pos hfull]
  exact (Computes.raise _).bind_raise

theorem computes_ariParseEntry_notAscending {e : Byte × Bytes} {more : Bytes}
    (hw : At inp w (e.1 :: (e.2 ++ LF :: more))) (he : isNumeral e.2 = true) (hroom : w.ari.cum.length < 256)
    (hasc : notAscending w.ari.cum (numVal e.2) = true) : Computes inp w ariParseEntry [] (.error .ariNotAscending) := by
  refine computes_ariParseEntry_of_numeral hw he ?_
  rw [if_neg (Nat.ne_of_lt hroom), if_pos hasc]
  exact (Computes.raise _).bind_raise

theorem computes_ariParseEntry_good {e : Byte × Bytes} {more : Bytes} (hw : At inp w (e.1 :: (e.2 ++ LF :: more)))
    (he : isNumeral e.2 = true) (hroom : w.ari.cum.length < 256) (hasc : ∀ x ∈ w.ari.cum, x.lo < numVal e.2) :
    Computes inp w ariParseEntry []
      (.ok ((), { w with sc := w.sc + 1 + e.2.length + 1, ari := addBounds [e] w.ari })) := by
  refine computes_ariParseEntry_of_numeral hw he ?_
  rw [if_neg (Nat.ne_of_lt hroom), if_neg (by rw [notAscending_eq_false hasc]; exact Bool.false_ne_true)]
  exact .onAri_bind _ (.work fun v => { v with sc := w.sc + 1 + e.2.length + 1 })

/-! ### The table -/

theorem readsEntry_ariParseEntry {done : List (Byte × Bytes)} {e : Byte × Bytes} (he : isNumeral e.2 = true)
    (hroom : done.length < 256) (hasc : ∀ x ∈ done, numVal x.2 < numVal e.2) :
    ReadsEntry inp ariParseEntry entryLine (fun done w => w.ari.cum = done.map parsedBound) done e := by
  intro w more hdone hw
  rw [entryLine_append] at hw ⊢
  refine ⟨not_delimLine_isPrefix_bound he more, _, computes_ariParseEntry_good hw he ?_ ?_, ?_, ?_⟩
  · rwa [hdone, List.length_map]
  · rw [hdone]
    exact List.forall_mem_map.mpr hasc
  · exact (congrArg (· ++ [e].map parsedBound) hdone).trans List.map_append.symm
  · rw [length_entryLine]
    simp only
    omega

/-- Behind good entries the parser goes on with what follows them. -/
theorem exists_after_ariTable {table : List (Byte × Bytes)} {rest : Bytes} (hinput : inp = tableText table ++ rest)
    (hgood : GoodBounds table) : ∃ w k, w.ari.cum = table.map parsedBound ∧ At inp w rest ∧
      ∀ r, Computes inp w (entryLoop ariParseEntry (k + 1)) [] r →
        Computes inp Work.clear (ariParseTable (inp.length + 1)) [] r := by
  obtain ⟨hlen, hnum, hasc⟩ := hgood
  have hmax : table.length ≤ 256 := hlen
  rw [ariParseTable_eq_entryLoop]
  refine exists_after_table (fun done w => w.ari.cum = done.map parsedBound) hinput rfl fun done later e heq => ?_
  subst heq
  rw [List.pairwise_append] at hasc
  obtain ⟨-, -, hcross⟩ := hasc
  rw [List.length_append, List.length_cons] at hmax
  exact readsEntry_ariParseEntry (hnum e (by simp)) (by omega) fun x hx => hcross x hx e (List.mem_cons_self ..)

/-- What `ARI.DEC` does from its parser on (42_arithmetic.md R164). -/
theorem computes_ariDecRule_of_parse {m : Cmd Unit} (hm : m = ariParseTable (inp.length + 1)) {bs : Bytes}
    {r : Except Cause (Unit × Work)}
    (h : Computes inp Work.clear (do
      m
      ariParseTotal
      decodeStream) bs r) : Computes inp Work.clear ariDecRule bs r := by
  subst hm
  refine .modify_bind (fun w => { w with sc := 0 }) (.onAri_bind _ (.get_bind fun s hs _ => ?_))
  rw [← input_length, hs]
  exact h

theorem computes_ariDecRule_fault {c : Cause} (h : Computes inp Work.clear (ariParseTable (inp.length + 1)) [] (.error c)) :
    Computes inp Work.clear ariDecRule [] (.error c) := computes_ariDecRule_of_parse rfl h.bind_raise

end

/-! ### Tables of numbers -/

/-- The lines of a table of numbers, each written as `dec` writes it. -/
def decLines (bounds : List (Byte × Nat)) : List (Byte × Bytes) := bounds.map fun e => (e.1, dec e.2)

theorem boundText_eq_tableText (bounds : List (Byte × Nat)) : boundText bounds = tableText (decLines bounds) := by
  rw [boundText, tableText, decLines, List.flatMap_map]

theorem boundsOf_decLines (bounds : List (Byte × Nat)) : boundsOf (decLines bounds) = bounds := by
  rw [boundsOf, decLines, List.map_map]
  exact List.map_id'' (fun e => by rw [Function.comp_apply, numVal_dec]) bounds

theorem goodBounds_decLines {bounds : List (Byte × Nat)} (hlen : bounds.length ≤ 256)
    (hasc : bounds.Pairwise fun x y => x.2 < y.2) (hmax : ∀ e ∈ bounds, e.2 ≤ Config.NUM_MAX) :
    GoodBounds (decLines bounds) := by
  refine ⟨(List.length_map _).trans_le hlen, List.forall_mem_map.mpr fun e he => isNumeral_dec (hmax e he), ?_⟩
  refine List.pairwise_map.mpr (hasc.imp fun {x y} hlt => ?_)
  rwa [numVal_dec, numVal_dec]

/-- A bound not above the last one before it (42_arithmetic.md R159). -/
theorem notAscending_parsedBound {bounds : List (Byte × Nat)} {e : Byte × Nat} (he : bounds.getLast? = some e) {lo : Nat}
    (hlo : lo ≤ e.2) : notAscending ((decLines bounds).map parsedBound) lo = true := by
  have hlast : ((decLines bounds).map parsedBound).getLast? = some (parsedBound (e.1, dec e.2)) := by
    rw [decLines, List.getLast?_map, List.getLast?_map, he]
    rfl
  rw [notAscending, hlast]
  refine decide_eq_true ?_
  rwa [parsedBound, numVal_dec]

/-- Settles O49: behind the good entries the parser is at an entry it does not take, and stops with that entry's cause. -/
theorem ariDecTableFaults : Obligations.AriDecTableFaults := by
  unfold Obligations.AriDecTableFaults
  intro s bounds after hs hinput hlen hasc hmax
  rw [boundText_eq_tableText] at hinput
  obtain ⟨w, k, hcum, hw, hgo⟩ := exists_after_ariTable hinput (goodBounds_decLines hlen hasc hmax)
  have hlength : w.ari.cum.length = bounds.length := by rw [hcum, List.length_map, decLines, List.length_map]
  have hfault : ∀ c, ¬ delimLine <+: after → Computes (input s) w ariParseEntry [] (.error c) →
      ∃ t, exec .ariDec s = .next t ∧ EndsFault .ariDec s t c [] := fun c hdelim h =>
    ends_of_computes (i := .ariDec) (computes_ariDecRule_fault (hgo _ (computes_entryLoop_fault hw hdelim h))) hs
      (Nat.zero_le _)
  refine ⟨fun sym num more hafter hline hne => ?_, fun hend => ?_⟩
  · subst hafter
    have hdelim := not_delimLine_isPrefix_line hline hne more
    refine ⟨fun hbad => ?_, fun hnum hfull => ?_, fun hnum hroom hlast => ?_⟩
    · exact hfault _ hdelim (computes_ariParseEntry_bad hw hline hbad)
    · exact hfault _ hdelim (computes_ariParseEntry_full (e := (sym, num)) hw hnum (hlength.trans hfull))
    · obtain ⟨e, he, hle⟩ := hlast
      exact hfault _ hdelim (computes_ariParseEntry_notAscending (e := (sym, num)) hw hnum (hlength.trans_lt hroom)
        (hcum ▸ notAscending_parsedBound he hle))
  · exact hfault _ (not_delimLine_isPrefix_of_noLF hend) (computes_lineEntry_noDelim hw hend)

end Sys2Proof.Arithmetic
end

section
/-! `ARI.DEC` behind its table (42_arithmetic.md R160 to R164): the total, the digit stream and the decoding steps, which do
what `ariDecode` gives. -/

namespace Sys2Proof.Arithmetic

open Sys2Proof Sys2Proof.Machine Sys2Proof.Safety Sys2Proof.Artifact Sys2Proof.Huffman

section
variable {inp : Bytes} {w : Work}

/-! ### The total -/

theorem computes_ariParseTotal_fault {num rest : Bytes} (hdrop : inp.drop w.sc = num ++ rest) (hline : LF ∉ num)
    (hrest : rest = [] ∨ rest.head? = some LF ∧ isNumeral num = false) :
    Computes inp w ariParseTotal [] (.error .ariBadTotal) := computes_numeralLine_fault hdrop hline hrest

theorem computes_ariParseTotal {num more : Bytes} (hdrop : inp.drop w.sc = num ++ LF :: more) (hnum : isNumeral num = true) :
    Computes inp w ariParseTotal []
      (.ok ((), { w with sc := w.sc + num.length + 1, ari := setTotal (numVal num) w.ari })) := .of_eq fun s hs hinp hw => by
  subst hinp hw
  exact ariParseTotal_eq hs hnum hdrop

/-! ### The digit stream -/

theorem computes_ariReadGroup_bad {a : Nat} {grp rest : Bytes} (hdrop : inp.drop a = grp ++ rest) (hlen : grp.length = 4)
    (hbad : isBits grp = false ∨ 9 < val grp) : Computes inp w (ariReadGroup a) [] (.error .ariBadStream) := by
  have hread : Computes inp w (bytesOf a (a + 4)) [] (.ok (grp, w)) := by
    rw [bytesOf, Nat.add_sub_cancel_left, ← hlen]
    exact computes_bytesIn hdrop
  refine hread.bind_silent ?_
  rw [if_pos hbad]
  exact (Computes.raise _).bind_raise

theorem computes_ariReadGroup_good {a : Nat} {grp rest : Bytes} (hdrop : inp.drop a = grp ++ rest) (hlen : grp.length = 4)
    (hgood : ¬ (isBits grp = false ∨ 9 < val grp)) :
    Computes inp w (ariReadGroup a) [] (.ok ((), { w with ari := addDigits [val grp] w.ari })) := by
  have hread : Computes inp w (bytesOf a (a + 4)) [] (.ok (grp, w)) := by
    rw [bytesOf, Nat.add_sub_cancel_left, ← hlen]
    exact computes_bytesIn hdrop
  refine hread.bind_silent ?_
  rw [if_neg hgood]
  exact .work fun w => { w with ari := addDigits [val grp] w.ari }

/-- A group that is no BCD digit ends the reading, whatever is before it (42_arithmetic.md R161, R162). -/
theorem computes_ariReadGroups_bad {ds : List Nat} {a k : Nat} {bad rest : Bytes}
    (hdrop : inp.drop (a + 4 * k) = bcdText ds ++ (bad ++ rest)) (hlen : bad.length = 4)
    (hbad : isBits bad = false ∨ 9 < val bad) (n : Nat) :
    Computes inp w (forRange k (ds.length + (n + 1)) fun g => ariReadGroup (a + 4 * g)) [] (.error .ariBadStream) := by
  induction ds generalizing k w with
  | nil =>
    rw [bcdText_nil, List.nil_append] at hdrop
    rw [List.length_nil, Nat.zero_add, forRange_succ]
    exact (computes_ariReadGroup_bad hdrop hlen hbad).bind_raise
  | cons d ds ih =>
    have hgrp : (bin d Config.BCD_W).length = 4 := length_bin ..
    rw [bcdText_cons, List.append_assoc] at hdrop
    rw [List.length_cons, Nat.succ_add, forRange_succ]
    by_cases hd : isBits (bin d Config.BCD_W) = false ∨ 9 < val (bin d Config.BCD_W)
    · exact (computes_ariReadGroup_bad hdrop hgrp hd).bind_raise
    · refine (computes_ariReadGroup_good hdrop hgrp hd).bind_silent (ih ?_)
      rw [Nat.mul_succ, ← Nat.add_assoc, ← List.drop_drop, hdrop, List.drop_left' hgrp]

theorem computes_ariReadGroups {ds : List Nat} (hds : ∀ d ∈ ds, d ≤ 9) {a : Nat} {rest : Bytes}
    (hdrop : inp.drop a = bcdText ds ++ rest) :
    Computes inp w (forRange 0 ds.length fun g => ariReadGroup (a + 4 * g)) []
      (.ok ((), { w with ari := addDigits ds w.ari })) := .of_eq fun s hs hinp hw => by
  subst hinp hw
  exact ariReadGroups_eq hds hs hdrop

theorem computes_ariReadStream_oddLength {line tail : Bytes} (hline : LineAt inp w.sc line tail)
    (hlen : line.length % 4 ≠ 0) : Computes inp w ariReadStream [] (.error .ariBadStream) := by
  obtain ⟨found, hfind, hcount, -⟩ := hline.computes_findLF
  refine .get_bind fun s hs hw => ?_
  rw [hw, ← input_length, hs]
  refine hfind.bind_silent ?_
  simp only [hcount]
  rw [if_pos hlen]
  exact (Computes.raise _).bind_raise

/-- A line of whole groups is read group by group, and then the first frame (42_arithmetic.md R161). -/
theorem computes_ariReadStream_of_groups {line tail : Bytes} (hline : LineAt inp w.sc line tail) {n : Nat}
    (hlen : line.length = 4 * n) {r : Except Cause (Unit × Work)}
    (h : Computes inp { w with ari := { w.ari with dig := [] } } (do
      forRange 0 n fun g => ariReadGroup (w.sc + 4 * g)
      let s ← get
      if s.work.ari.dig.length < Config.PREC then raise .ariStreamShort
      modify (State.onAri (fun h => { h with v := number 10 (h.dig.take Config.PREC), dp := Config.PREC }))) [] r) :
    Computes inp w ariReadStream [] r := by
  obtain ⟨found, hfind, hcount, -⟩ := hline.computes_findLF
  refine .get_bind fun s hs hw => ?_
  rw [hw, ← input_length, hs]
  refine hfind.bind_silent ?_
  simp only [hcount, hlen]
  rw [if_neg (by omega), Nat.mul_div_cancel_left n (by decide)]
  exact .onAri_bind _ h

theorem computes_ariReadStream_bad {ds : List Nat} {bad more tail : Bytes}
    (hline : LineAt inp w.sc (bcdText ds ++ bad ++ more) tail) (hmod : (bcdText ds ++ bad ++ more).length % 4 = 0)
    (hlen : bad.length = 4) (hbad : isBits bad = false ∨ 9 < val bad) :
    Computes inp w ariReadStream [] (.error .ariBadStream) := by
  have hdrop : inp.drop (w.sc + 4 * 0) = bcdText ds ++ (bad ++ (more ++ tail)) := by
    rw [Nat.mul_zero, Nat.add_zero, hline.drop_eq]
    simp only [List.append_assoc]
  simp only [List.length_append, length_bcdText, hlen] at hmod
  refine computes_ariReadStream_of_groups hline (n := ds.length + (more.length / 4 + 1)) ?_
    (computes_ariReadGroups_bad hdrop hlen hbad _).bind_raise
  simp only [List.length_append, length_bcdText, hlen]
  omega

theorem computes_ariReadStream_short {ds : List Nat} (hds : ∀ d ∈ ds, d ≤ 9) {tail : Bytes}
    (hline : LineAt inp w.sc (bcdText ds) tail) (hshort : ds.length < 18) :
    Computes inp w ariReadStream [] (.error .ariStreamShort) := by
  refine computes_ariReadStream_of_groups hline (length_bcdText ds)
    ((computes_ariReadGroups hds hline.drop_eq).bind_silent (.get_bind fun s _ hs => ?_))
  have hlt : s.work.ari.dig.length < Config.PREC := by rwa [hs]
  rw [if_pos hlt]
  exact (Computes.raise _).bind_raise

theorem computes_ariReadStream {ds : List Nat} (hds : Stream ds) {tail : Bytes}
    (hdrop : inp.drop w.sc = bcdText ds ++ tail) (htail : tail = [] ∨ tail.head? = some LF) :
    Computes inp w ariReadStream [] (.ok ((), { w with ari := loadFrame ds w.ari })) := .of_eq fun s hs hinp hw => by
  subst hinp hw
  exact ariReadStream_eq hs hds hdrop htail

/-! ### Renormalization -/

/-- The working state between two decoding steps: a total and a table, an interval, the frame, and the digits not yet
shifted in. -/
structure Framed (t : Nat) (cum : List CumEntry) (low high v : Nat) (rest : List Nat) (h : AriWork) : Prop where
  total : h.t = t
  table : h.cum = cum
  low : h.low = low
  high : h.high = high
  frame : h.v = v
  rest : h.dig.drop h.dp = rest

variable {t low high v : Nat} {cum : List CumEntry} {rest : List Nat}

theorem renormFrame_of_not_sameLead (h : ¬ sameLead low high = true) (k : Nat) :
    renormFrame (k + 1) low high v rest = some (low, high, v, rest) := if_neg h

theorem renormFrame_nil (h : sameLead low high = true) (k : Nat) : renormFrame (k + 1) low high v [] = none := if_pos h

theorem renormFrame_cons (h : sameLead low high = true) (k d : Nat) : renormFrame (k + 1) low high v (d :: rest) =
    renormFrame k (shiftLow low) (shiftHigh high) (v % Config.D17 * 10 + d) rest := if_pos h

/-- What a renormalization of the decoder comes to (42_arithmetic.md R163). -/
def ComputesRenorm (inp : Bytes) (w : Work) (t : Nat) (cum : List CumEntry) (k : Nat)
    (after : Option (Nat × Nat × Nat × List Nat)) : Prop :=
  match after with
  | none => Computes inp w (renormDec k) [] (.error .ariStreamShort)
  | some (low, high, v, rest) =>
    ∃ h, Framed t cum low high v rest h ∧ Computes inp w (renormDec k) [] (.ok ((), { w with ari := h }))

theorem computes_renormDec_of_not_sameLead (h : ¬ sameLead w.ari.low w.ari.high = true) (k : Nat) :
    Computes inp w (renormDec (k + 1)) [] (.ok ((), w)) := .of_eq fun s _ _ hw => by
  subst hw
  exact renormDec_of_not_sameLead h k

theorem computes_renormDec_of_sameLead (h : sameLead w.ari.low w.ari.high = true) {d : Nat}
    (hd : w.ari.dig[w.ari.dp]? = some d) {k : Nat} {r : Except Cause (Unit × Work)}
    (hr : Computes inp { w with ari := shiftIn d w.ari } (renormDec k) [] r) : Computes inp w (renormDec (k + 1)) [] r :=
  (Computes.onAri_bind (shiftIn d) (f := fun _ => renormDec k) hr).congr fun s _ _ hw => by
    subst hw
    exact renormDec_of_sameLead h hd k

theorem computes_renormDec_short (h : sameLead w.ari.low w.ari.high = true) (hd : w.ari.dig[w.ari.dp]? = none) (k : Nat) :
    Computes inp w (renormDec (k + 1)) [] (.error .ariStreamShort) := by
  rw [renormDec_succ]
  refine .get_bind fun s _ hs => ?_
  simp only [hs, h, hd, if_true]
  exact .onAri_bind _ (.raise _)

theorem Framed.renorm (h : Framed t cum low high v rest w.ari) (k : Nat) :
    ComputesRenorm inp w t cum k (renormFrame k low high v rest) := by
  induction k generalizing w low high v rest with
  | zero => exact ⟨w.ari, h, .pure ()⟩
  | succ k ih =>
    have hlead_eq : sameLead w.ari.low w.ari.high = sameLead low high := by rw [h.low, h.high]
    by_cases hlead : sameLead low high = true
    · cases rest with
      | nil =>
        rw [renormFrame_nil hlead]
        have hnone : w.ari.dig[w.ari.dp]? = none := by rw [← List.head?_drop, h.rest]; rfl
        exact computes_renormDec_short (hlead_eq.trans hlead) hnone k
      | cons d rest =>
        have hsome : w.ari.dig[w.ari.dp]? = some d := by rw [← List.head?_drop, h.rest]; rfl
        have hshift : Framed t cum (shiftLow low) (shiftHigh high) (v % Config.D17 * 10 + d) rest (shiftIn d w.ari) :=
          ⟨h.total, h.table, congrArg shiftLow h.low, congrArg shiftHigh h.high,
            congrArg (· % Config.D17 * 10 + d) h.frame, (List.drop_drop ..).symm.trans (congrArg (List.drop 1) h.rest)⟩
        have hrest := ih (w := { w with ari := shiftIn d w.ari }) hshift
        rw [renormFrame_cons hlead]
        revert hrest
        match renormFrame k (shiftLow low) (shiftHigh high) (v % Config.D17 * 10 + d) rest with
        | none => exact fun hrest => computes_renormDec_of_sameLead (hlead_eq.trans hlead) hsome hrest
        | some (_, _, _, _) =>
          rintro ⟨a, ha, hrest⟩
          exact ⟨a, ha, computes_renormDec_of_sameLead (hlead_eq.trans hlead) hsome hrest⟩
    · rw [renormFrame_of_not_sameLead hlead]
      exact ⟨w.ari, h, computes_renormDec_of_not_sameLead (hlead_eq ▸ hlead) k⟩

/-- A frame in the interval stays in it (42_arithmetic.md R163). -/
theorem renormFrame_mem {k low' high' v' : Nat} {rest' : List Nat} (hmem : low ≤ v ∧ v ≤ high) (hrest : ∀ d ∈ rest, d ≤ 9)
    (h : renormFrame k low high v rest = some (low', high', v', rest')) :
    (low' ≤ v' ∧ v' ≤ high') ∧ ∀ d ∈ rest', d ≤ 9 := by
  induction k generalizing low high v rest with
  | zero =>
    cases h
    exact ⟨hmem, hrest⟩
  | succ k ih =>
    by_cases hlead : sameLead low high = true
    · cases rest with
      | nil =>
        rw [renormFrame_nil hlead] at h
        cases h
      | cons d rest =>
        rw [renormFrame_cons hlead] at h
        obtain ⟨hd, hrest⟩ := List.forall_mem_cons.mp hrest
        refine ih ?_ hrest h
        rw [sameLead_iff] at hlead
        simp only [Config.D17, shiftLow, shiftHigh] at hlead ⊢
        omega
    · rw [renormFrame_of_not_sameLead hlead] at h
      cases h
      exact ⟨hmem, hrest⟩

/-! ### The decoding steps -/

/-- A step whose frame is in the interval looks the index up (42_arithmetic.md R163). -/
theorem computes_ariDecodeStep (hcum : AscendingLows cum) (h : Framed t (setHighs t cum) low high v rest w.ari)
    (hmem : low ≤ v ∧ v ≤ high) {found : Option (Byte × Nat × Nat)}
    (hfound : enclosing t (ariIndex low high v t) (lowBounds cum) = found) {bs : Bytes} {r : Except Cause (Unit × Work)}
    (hr : Computes inp w (match found with
      | none => raise .ariIndexRange
      | some (c, lo, hi) => do
        emit c
        narrow lo hi
        renormDec Config.PREC) bs r) : Computes inp w ariDecodeStep bs r := by
  refine .get_bind fun s _ hs => ?_
  simp only [hs, h.low, h.high, h.frame, h.total, h.table, ariFind_setHighs t _ hcum, hfound]
  rw [if_neg (by omega)]
  cases found <;> exact hr

/-- The steps do what `ariDecodeFrom` gives (42_arithmetic.md R163, R164). -/
theorem Framed.loop (hcum : AscendingLows cum) (ht : 0 < t) (h : Framed t (setHighs t cum) low high v rest w.ari)
    (hmem : low ≤ v ∧ v ≤ high) (hrest : ∀ d ∈ rest, d ≤ 9) (count : Nat) :
    Yields inp w (ariDecodeLoop count) (ariDecodeFrom (lowBounds cum) t count low high v rest).1
      (ariDecodeFrom (lowBounds cum) t count low high v rest).2 := by
  induction count generalizing w low high v rest with
  | zero => exact (Computes.pure ()).yields_end
  | succ count ih =>
    rw [ariDecodeFrom]
    cases hfound : enclosing t (ariIndex low high v t) (lowBounds cum) with
    | none => exact (computes_ariDecodeStep hcum h hmem hfound (.raise _)).bind_raise.yields_raise
    | some found =>
      obtain ⟨c, lo, hi⟩ := found
      have hin := narrow_of_enclosing hmem.1 hmem.2 ht hfound
      have hnarrow := computes_narrow (inp := inp) (w := w) (clo := lo) (chi := hi)
        (by rw [h.low, h.high, h.total]; omega)
      rw [h.low, h.high, h.total] at hnarrow
      have hframed : Framed t (setHighs t cum) (narrowPoint low high t lo) (narrowPoint low high t hi - 1) v rest
          (setInterval (narrowPoint low high t lo) (narrowPoint low high t hi - 1) w.ari) :=
        ⟨h.total, h.table, rfl, rfl, h.frame, h.rest⟩
      have hrenorm := hframed.renorm (inp := inp)
        (w := { w with ari := setInterval (narrowPoint low high t lo) (narrowPoint low high t hi - 1) w.ari }) Config.PREC
      cases hafter : renormFrame Config.PREC (narrowPoint low high t lo) (narrowPoint low high t hi - 1) v rest with
      | none =>
        rw [hafter] at hrenorm
        simp only [hafter]
        exact (computes_ariDecodeStep hcum h hmem hfound
          ((Computes.emit c).bind (hnarrow.bind_silent hrenorm))).bind_raise.yields_raise
      | some after =>
        obtain ⟨low', high', v', rest'⟩ := after
        rw [hafter] at hrenorm
        simp only [hafter]
        obtain ⟨a, ha, hrun⟩ := hrenorm
        obtain ⟨hmem', hrest'⟩ := renormFrame_mem (by omega) hrest hafter
        exact (computes_ariDecodeStep hcum h hmem hfound ((Computes.emit c).bind (hnarrow.bind_silent hrun))).yields
          (ih (w := { w with
            ari := a }) ha hmem' hrest')

/-- Behind a good stream the decoder does what `ariDecode` gives (42_arithmetic.md R161, R164). -/
theorem yields_decodeStream (hcum : AscendingLows cum) (ht : w.ari.t = t) (htable : w.ari.cum = setHighs t cum)
    {ds : List Nat} (hds : Stream ds) {tail : Bytes} (hdrop : inp.drop w.sc = bcdText ds ++ tail)
    (htail : tail = [] ∨ tail.head? = some LF) :
    Yields inp w decodeStream (ariDecode (lowBounds cum) t ds).1 (ariDecode (lowBounds cum) t ds).2 := by
  obtain ⟨hlen, hdigits⟩ := hds
  have hframed : Framed t (setHighs t cum) 0 Config.TOP (frame ds) (ds.drop Config.PREC)
      (setInterval 0 Config.TOP (loadFrame ds w.ari)) := ⟨ht, htable, rfl, rfl, rfl, rfl⟩
  have htop : frame ds ≤ Config.TOP := by
    have hlt := number_lt_pow (ds := ds.take Config.PREC) fun d hd => hdigits d (List.mem_of_mem_take hd)
    rw [List.length_take, Nat.min_eq_left hlen] at hlt
    simp only [frame, Config.TOP, Config.PREC] at hlt ⊢
    omega
  refine (computes_ariReadStream ⟨hlen, hdigits⟩ hdrop htail).yields_silent ((Computes.work fun w =>
    { w with ari := setInterval 0 Config.TOP w.ari }).yields_silent (.get_bind (m := ariDecodeLoop t) ?_ ?_))
  · rcases Nat.eq_zero_or_pos t with rfl | hpos
    · exact (Computes.pure ()).yields_end
    · exact hframed.loop (w := { w with ari := setInterval 0 Config.TOP (loadFrame ds w.ari) }) hcum hpos
        ⟨Nat.zero_le _, htop⟩ (fun d hd => hdigits d (List.mem_of_mem_drop hd)) t
  · intro s _ hs
    rw [hs, ← ht]
    rfl

/-! ### The command -/

/-- `ARI.DEC` behind a good table and its delimiter. -/
theorem yields_ariDecRule_of_table {table : List (Byte × Bytes)} {more : Bytes}
    (hinput : inp = tableText table ++ (delimLine ++ more)) (hgood : GoodBounds table) {bs : Bytes} {cause : Option Cause}
    (h : ∀ w : Work, w.ari.cum = table.map parsedBound → inp.drop w.sc = more → Yields inp w (do
      ariParseTotal
      decodeStream) bs cause) : Yields inp Work.clear ariDecRule bs cause := by
  obtain ⟨w, k, hcum, hw, hgo⟩ := exists_after_ariTable hinput hgood
  obtain ⟨r, hr, hcause⟩ := h { w with sc := w.sc + 3 } hcum (hw.advance rfl).2
  exact ⟨r, computes_ariDecRule_of_parse rfl ((hgo _ (computes_entryLoop_at_delim hw)).bind_silent hr), hcause⟩

/-- `ARI.DEC` behind a good table and total. -/
theorem yields_ariDecRule_of_total {table : List (Byte × Bytes)} {num more : Bytes}
    (hinput : inp = tableText table ++ (delimLine ++ (num ++ LF :: more))) (hgood : GoodBounds table)
    (hnum : isNumeral num = true) {bs : Bytes} {cause : Option Cause}
    (h : ∀ w : Work, w.ari.t = numVal num → w.ari.cum = setHighs (numVal num) (table.map parsedBound) →
      inp.drop w.sc = more → Yields inp w decodeStream bs cause) : Yields inp Work.clear ariDecRule bs cause := by
  refine yields_ariDecRule_of_table hinput hgood fun w hcum hdrop =>
    (computes_ariParseTotal hdrop hnum).yields_silent (h _ rfl (congrArg (setHighs _) hcum) ?_)
  simp only
  rw [Nat.add_assoc, ← List.drop_drop, hdrop, ← List.drop_drop, List.drop_left]
  rfl

theorem lowBounds_parsedBound (table : List (Byte × Bytes)) : lowBounds (table.map parsedBound) = boundsOf table := by
  rw [lowBounds, List.map_map]
  rfl

/-- `ARI.DEC` on a good table, total and stream yields what `ariDecode` gives (42_arithmetic.md R164). -/
theorem yields_ariDecRule {table : List (Byte × Bytes)} {num tail : Bytes} {ds : List Nat}
    (hinput : inp = tableText table ++ (delimLine ++ (num ++ LF :: (bcdText ds ++ tail)))) (hgood : GoodBounds table)
    (hnum : isNumeral num = true) (hds : Stream ds) (htail : tail = [] ∨ tail.head? = some LF) :
    Yields inp Work.clear ariDecRule (ariDecode (boundsOf table) (numVal num) ds).1
      (ariDecode (boundsOf table) (numVal num) ds).2 := by
  have hasc := hgood.2.2
  rw [← lowBounds_parsedBound]
  exact yields_ariDecRule_of_total hinput hgood hnum fun w ht htable hdrop =>
    yields_decodeStream (List.pairwise_map.mpr hasc) ht htable hds hdrop htail

end

/-! ### A table of one entry -/

/-- One entry from 0 on takes the whole interval and leaves it (42_arithmetic.md R154). -/
theorem ariDecodeFrom_single (c : Byte) {total : Nat} (ht : 0 < total) (count v : Nat) (rest : List Nat) :
    ariDecodeFrom [(c, 0)] total count 0 Config.TOP v rest = (List.replicate count c, none) := by
  have hfound : ∀ idx, enclosing total idx [(c, 0)] = some (c, 0, total) := fun idx => if_pos (Nat.zero_le idx)
  have hlow : narrowPoint 0 Config.TOP total 0 = 0 := by simp [narrowPoint]
  have hhigh : narrowPoint 0 Config.TOP total total - 1 = Config.TOP := by
    rw [narrowPoint_total (Nat.zero_le _) ht, Nat.add_sub_cancel]
  have hlead : ¬ sameLead 0 Config.TOP = true := by decide
  have hrenorm : renormFrame Config.PREC 0 Config.TOP v rest = some (0, Config.TOP, v, rest) := if_neg hlead
  induction count with
  | zero => rfl
  | succ count ih =>
    rw [ariDecodeFrom, hfound]
    simp only [hlow, hhigh, hrenorm, ih]
    rfl

theorem ariDecode_single (c : Byte) (total : Nat) (ds : List Nat) :
    ariDecode [(c, 0)] total ds = (List.replicate total c, none) := by
  rcases Nat.eq_zero_or_pos total with rfl | ht
  · rfl
  · exact ariDecodeFrom_single c ht total _ _

/-- Settles O48: the decoder yields what `ariDecode` gives. -/
theorem ariDecRepeatsASingleEntry : Obligations.AriDecRepeatsASingleEntry := by
  unfold Obligations.AriDecRepeatsASingleEntry
  refine ⟨fun s table num ds tail hs hinput htail hgood hnum hlen hdigits hend room => ?_,
    fun s c total ds hs hinput hmax hlen hdigits room => ?_⟩
  · have hlines : input s = tableText table ++ (delimLine ++ (num ++ LF :: (bcdText ds ++ tail))) := by
      simp only [hinput, tableText, List.append_assoc, List.cons_append, List.nil_append]
    have h := yields_ariDecRule hlines hgood hnum ⟨hlen, hdigits⟩ htail
    rw [hend] at h
    exact ends_of_yields (i := .ariDec) (cause := none) h hs room
  · have h := yields_ariDecRule (table := decLines [(c, 0)]) (num := dec total) (ds := ds) (tail := [LF])
      (inp := input s) (by simp [hinput, ariText, boundText_eq_tableText])
      (goodBounds_decLines (Nat.le_of_ble_eq_true rfl) (List.pairwise_singleton ..)
        (List.forall_mem_singleton.mpr (Nat.zero_le _))) (isNumeral_dec hmax) ⟨hlen, hdigits⟩ (.inr rfl)
    rw [boundsOf_decLines, numVal_dec, ariDecode_single] at h
    exact ends_of_yields (i := .ariDec) (cause := none) h hs (by rwa [List.length_replicate])

/-- Settles O50: each clause from what the total, the stream or the decoding steps compute behind what comes before. -/
theorem ariDecTotalAndStreamFaults : Obligations.AriDecTotalAndStreamFaults := by
  unfold Obligations.AriDecTotalAndStreamFaults
  refine ⟨fun s bounds num rest hs hinput hlen hasc hmax hline => ?_,
    fun s table num ds tail c hs hinput htail hgood hnum hlen hdigits hend room => ?_⟩
  · have hgood := goodBounds_decLines hlen hasc hmax
    have hlines : input s = tableText (decLines bounds) ++ (delimLine ++ (num ++ rest)) := by
      simp [hinput, boundText_eq_tableText]
    have hfault : ∀ c, Yields (input s) Work.clear ariDecRule [] (some c) →
        ∃ t, exec .ariDec s = .next t ∧ EndsFault .ariDec s t c [] := fun c h =>
      ends_of_yields (i := .ariDec) (cause := some c) h hs (Nat.zero_le _)
    have htotal : rest = [] ∨ rest.head? = some LF ∧ isNumeral num = false →
        ∃ t, exec .ariDec s = .next t ∧ EndsFault .ariDec s t .ariBadTotal [] := fun hrest =>
      hfault _ (yields_ariDecRule_of_table hlines hgood fun w _ hdrop =>
        (computes_ariParseTotal_fault hdrop hline hrest).bind_raise.yields_raise)
    refine ⟨fun hrest => htotal (.inl hrest), fun hrest hnum => htotal (.inr ⟨hrest, hnum⟩),
      fun line tail hrest hnum hnoLF htail => ?_⟩
    · subst hrest
      have hstream : ∀ c, (∀ w, LineAt (input s) w.sc line tail → Computes (input s) w ariReadStream [] (.error c)) →
          ∃ t, exec .ariDec s = .next t ∧ EndsFault .ariDec s t c [] := fun c h =>
        hfault _ (yields_ariDecRule_of_total hlines hgood hnum fun w _ _ hdrop =>
          (h w ⟨hdrop, hnoLF, htail⟩).bind_raise.yields_raise)
      refine ⟨fun hodd => ?_, fun ds bad more hmod hsplit hbadlen hbad => ?_, fun ds hds hdigits hshort => ?_,
        fun ds hds hdigits hprec hempty hpos => ?_⟩
      · exact hstream _ fun w hat => computes_ariReadStream_oddLength hat hodd
      · subst hsplit
        exact hstream _ fun w hat => computes_ariReadStream_bad hat hmod hbadlen hbad
      · subst hds
        exact hstream _ fun w hat => computes_ariReadStream_short hdigits hat hshort
      · subst hds hempty
        have hdecode : ariDecode [] (numVal num) ds = ([], some .ariIndexRange) := by
          obtain ⟨k, hk⟩ := Nat.exists_eq_succ_of_ne_zero hpos.ne'
          rw [hk]
          rfl
        have h := yields_ariDecRule hlines hgood hnum ⟨hprec, hdigits⟩ htail
        rw [boundsOf_decLines, hdecode] at h
        exact hfault _ h
  · have hlines : input s = tableText table ++ (delimLine ++ (num ++ LF :: (bcdText ds ++ tail))) := by
      simp only [hinput, tableText, List.append_assoc, List.cons_append, List.nil_append]
    have h := yields_ariDecRule hlines hgood hnum ⟨hlen, hdigits⟩ htail
    rw [hend] at h
    exact ends_of_yields (i := .ariDec) (cause := some c) h hs room

end Sys2Proof.Arithmetic
end

section
/-! `BWT.DEC` on good blocks, the last one with or without its last `LF`, and where it faults (43_bwt.md R199 to R206). -/

namespace Sys2Proof.Bwt

open Sys2Proof Sys2Proof.Machine Sys2Proof.Safety Sys2Proof.Artifact Sys2Proof.Huffman Sys2Proof.Arithmetic

section
variable {inp : Bytes} {w : Work}

theorem Computes.onBwt_bind {β : Type} (g : BwtWork → BwtWork) {f : Unit → Cmd β} {bs : Bytes} {r : Except Cause (β × Work)}
    (hf : Computes inp { w with bwt := g w.bwt } (f ()) bs r) : Computes inp w (modify (State.onBwt g) >>= f) bs r :=
  .modify_bind (fun w => { w with bwt := g w.bwt }) hf

/-! ### The alphabet (43_bwt.md R199) -/

theorem computes_bwtParseLetter_good {c : Byte} {more : Bytes} (hw : At inp w (c :: LF :: more))
    (hroom : w.bwt.alpha.length < 256) : Computes inp w bwtParseLetter []
      (.ok ((), { w with sc := w.sc + 2, bwt := addLetters [c] w.bwt })) := .of_eq fun s hs hinp hsw => by
  subst hinp hsw
  exact bwtParseLetter_eq hs hw.2 hroom

/-- An entry comes to the tests on its second byte and on the letters before it. -/
theorem computes_bwtParseLetter_of_two {c d : Byte} {more : Bytes} (hw : At inp w (c :: d :: more))
    {r : Except Cause (Unit × Work)} (h : Computes inp w (do
      if d ≠ LF then raise .bwtBadAlphabet
      if w.bwt.alpha.length = Config.TBL_MAX then raise .bwtBadAlphabet
      let sym ← srcByte w.sc
      modify (State.onBwt (fun h => { h with alpha := h.alpha ++ [sym] }))
      modify (State.setSc (w.sc + 2))) [] r) : Computes inp w bwtParseLetter [] r := by
  obtain ⟨hle, hdrop⟩ := hw
  have hdrop' : inp.drop (w.sc + 1) = d :: more := by rw [← List.drop_drop, hdrop]; rfl
  have hlt : ¬ w.sc + 1 ≥ inp.length := fun hge => by simp [List.drop_eq_nil_iff.mpr hge] at hdrop'
  refine .get_bind fun s hs hsw => ?_
  rw [hsw, ← input_length, hs]
  simp only
  rw [if_neg hlt]
  exact (computes_srcByte hdrop').bind_silent h

theorem computes_bwtParseLetter_full {c : Byte} {more : Bytes} (hw : At inp w (c :: LF :: more))
    (hfull : w.bwt.alpha.length = 256) : Computes inp w bwtParseLetter [] (.error .bwtBadAlphabet) := by
  refine computes_bwtParseLetter_of_two hw ?_
  rw [if_neg (not_not.mpr rfl), if_pos hfull]
  exact (Computes.raise _).bind_raise

/-- No entry follows: the source ends, or the second byte is no `LF`. -/
theorem computes_bwtParseLetter_bad {rest : Bytes} (hw : At inp w rest) (hrest : ∀ c d more, rest = c :: d :: more → d ≠ LF) :
    Computes inp w bwtParseLetter [] (.error .bwtBadAlphabet) := by
  match rest, hw, hrest with
  | c :: d :: more, hw, hrest =>
    refine computes_bwtParseLetter_of_two hw ?_
    rw [if_pos (hrest c d more rfl)]
    exact (Computes.raise _).bind_raise
  | [], hw, _ | [_], hw, _ =>
    have hend := congrArg List.length hw.2
    simp only [List.length_drop, List.length_nil, List.length_singleton] at hend
    refine .get_bind fun s hs hsw => ?_
    rw [hsw, ← input_length, hs]
    simp only
    rw [if_pos (by omega)]
    exact (Computes.raise _).bind_raise

theorem readsEntry_bwtParseLetter {done : Bytes} (c : Byte) (hroom : done.length < 256) :
    ReadsEntry inp bwtParseLetter (fun c => [c, LF]) (fun done w => w.bwt.alpha = done) done c := by
  intro w more hdone hw
  exact ⟨not_delimLine_isPrefix_letter c more, _, computes_bwtParseLetter_good hw (hdone ▸ hroom),
    congrArg (· ++ [c]) hdone, rfl⟩

theorem at_of_drop {rest : Bytes} (hdrop : inp.drop w.sc = rest) (hne : rest ≠ []) : At inp w rest := by
  refine ⟨Nat.le_of_not_lt fun hlt => hne ?_, hdrop⟩
  rw [← hdrop, List.drop_eq_nil_iff.mpr hlt.le]

/-- Behind letters of a not too long alphabet the parser goes on with what follows them. -/
theorem exists_after_letters {alpha rest : Bytes} (hw : At inp w (alphaText alpha ++ rest)) (hlen : alpha.length ≤ 256) :
    ∃ w' k, w'.bwt.alpha = alpha ∧ At inp w' rest ∧ ∀ r, Computes inp w' (entryLoop bwtParseLetter (k + 1)) [] r →
      Computes inp { w with bwt := { w.bwt with alpha := [] } } (bwtParseLetters (inp.length + 1)) [] r := by
  obtain ⟨w', halpha, hw', hgo⟩ := exists_after_entries (w := { w with bwt := { w.bwt with alpha := [] } })
    (text := fun c => [c, LF]) (fun done w => w.bwt.alpha = done) (done := []) (fun done later c heq => by
      have := congrArg List.length heq
      simp only [List.length_append, List.length_cons] at this
      exact readsEntry_bwtParseLetter c (by rw [List.nil_append]; omega)) rfl hw
  have hfuel : alpha.length ≤ inp.length := by
    have := congrArg List.length hw.2
    simp only [List.length_drop, List.length_append, length_alphaText] at this
    omega
  refine ⟨w', inp.length - alpha.length, halpha, hw', fun r h => ?_⟩
  rw [bwtParseLetters_eq_entryLoop, show inp.length + 1 = alpha.length + (inp.length - alpha.length + 1) by omega]
  exact hgo _ r h

theorem computes_bwtParseAlphabet_of_letters {r : Except Cause (Unit × Work)}
    (h : Computes inp { w with bwt := { w.bwt with alpha := [] } } (do
      bwtParseLetters (inp.length + 1)
      let s ← get
      if s.work.bwt.alpha.length = 0 then raise .bwtBadAlphabet
      modify (State.onBwt (fun h => { h with w := codeWidth h.alpha.length }))) [] r) :
    Computes inp w bwtParseAlphabet [] r := by
  refine Computes.onBwt_bind _ (.get_bind fun s hs _ => ?_)
  rw [← input_length, hs]
  exact h

theorem computes_bwtParseAlphabet_misspelled {alpha after : Bytes} (hw : At inp w (alphaText alpha ++ after))
    (hlen : alpha.length ≤ 256) (hdelim : ¬ delimLine <+: after) (hafter : ∀ c d more, after = c :: d :: more → d ≠ LF) :
    Computes inp w bwtParseAlphabet [] (.error .bwtBadAlphabet) := by
  obtain ⟨w', k, -, hw', hgo⟩ := exists_after_letters hw hlen
  exact computes_bwtParseAlphabet_of_letters
    (hgo _ (computes_entryLoop_fault hw' hdelim (computes_bwtParseLetter_bad hw' hafter))).bind_raise

theorem computes_bwtParseAlphabet_long {alpha after : Bytes} (hw : At inp w (alphaText alpha ++ after))
    (hlen : 256 < alpha.length) : Computes inp w bwtParseAlphabet [] (.error .bwtBadAlphabet) := by
  have hsplit : alphaText alpha ++ after =
      alphaText (alpha.take 256) ++ (alpha[256] :: LF :: (alphaText (alpha.drop 257) ++ after)) := by
    conv_lhs => rw [← List.take_append_drop 256 alpha, List.drop_eq_getElem_cons hlen]
    rw [alphaText, List.flatMap_append, List.append_assoc]
    rfl
  rw [hsplit] at hw
  have htake : (alpha.take 256).length = 256 := List.length_take_of_le hlen.le
  obtain ⟨w', k, halpha, hw', hgo⟩ := exists_after_letters hw htake.le
  refine computes_bwtParseAlphabet_of_letters (hgo _ (computes_entryLoop_fault hw'
    (not_delimLine_isPrefix_letter _ _) (computes_bwtParseLetter_full hw' ?_))).bind_raise
  rw [halpha, htake]

theorem computes_bwtParseAlphabet_empty {after : Bytes} (hw : At inp w (delimLine ++ after)) :
    Computes inp w bwtParseAlphabet [] (.error .bwtBadAlphabet) := by
  obtain ⟨w', k, halpha, hw', hgo⟩ := exists_after_letters (alpha := []) hw (Nat.zero_le _)
  refine computes_bwtParseAlphabet_of_letters ((hgo _ (computes_entryLoop_at_delim hw')).bind_silent
    (.get_bind fun s _ hs => ?_))
  have hnil : s.work.bwt.alpha.length = 0 := by
    rw [hs]
    exact congrArg List.length halpha
  rw [if_pos hnil]
  exact (Computes.raise _).bind_raise

theorem computes_bwtParseAlphabet {alpha more : Bytes} (hpos : 1 ≤ alpha.length) (hlen : alpha.length ≤ 256)
    (hdrop : inp.drop w.sc = alphaText alpha ++ delimLine ++ more) : Computes inp w bwtParseAlphabet []
      (.ok ((), { w with sc := w.sc + (alphaText alpha ++ delimLine).length, bwt := setAlpha alpha w.bwt })) :=
  .of_eq fun s hs hinp hw => by
    subst hinp hw
    exact bwtParseAlphabet_eq hs hpos hlen hdrop

/-! ### The key line (43_bwt.md R200) -/

theorem computes_bwtParseKey_fault {num rest : Bytes} (hdrop : inp.drop w.sc = num ++ rest) (hline : LF ∉ num)
    (hrest : rest = [] ∨ rest.head? = some LF ∧ isNumeral num = false) :
    Computes inp w bwtParseKey [] (.error .bwtBadKey) := computes_numeralLine_fault hdrop hline hrest

theorem computes_bwtParseKey {num more : Bytes} (hdrop : inp.drop w.sc = num ++ LF :: more) (hnum : isNumeral num = true) :
    Computes inp w bwtParseKey []
      (.ok ((), { w with sc := w.sc + num.length + 1, bwt := setKey (numVal num) w.bwt })) := .of_eq fun s hs hinp hw => by
  subst hinp hw
  exact bwtParseKey_eq hs hnum hdrop

/-! ### The bit-string (43_bwt.md R201) -/

/-- What is made of a bit-string of code width `width`. -/
def bwtDecBits (width : Nat) (line : Bytes) : Cmd Unit := do
  if isBits line = false ∨ line.length % width ≠ 0 then raise .bwtBadBits
  modify (State.onBwt (fun h => { h with n := line.length / width }))
  if line.length / width > Config.BLOCK then raise .bwtBadBits
  modify (State.onBwt (fun h => { h with mtf := h.alpha, row := [] }))
  forRange 0 (line.length / width) fun p => mtfDecIndex (val ((line.drop (p * width)).take width))

/-- The line is read and the cursor put behind it. -/
theorem computes_bwtParseBits_of_line {line tail : Bytes} (hline : LineAt inp w.sc line tail) :
    ∃ nxt : Nat, inp.drop nxt = tail.drop 1 ∧ ∀ r : Except Cause (Unit × Work),
      Computes inp { w with sc := nxt } (bwtDecBits w.bwt.w line) [] r → Computes inp w bwtParseBits [] r := by
  obtain ⟨found, hfind, hcount, hnxt⟩ := hline.computes_findLF
  have hread : Computes inp w (bytesOf w.sc (found.getD inp.length)) [] (.ok (line, w)) := by
    rw [bytesOf, hcount]
    exact computes_bytesIn hline.drop_eq
  refine ⟨found.elim inp.length Nat.succ, hnxt, fun r h => .get_bind fun s hs hw => ?_⟩
  rw [hw, ← input_length, hs]
  have hbits := Computes.modify_bind (fun w => { w with sc := found.elim inp.length Nat.succ })
    (f := fun _ => bwtDecBits w.bwt.w line) h
  refine hfind.bind_silent (hread.bind_silent ?_)
  cases found <;> exact hbits

theorem computes_bwtDecBits_misspelled {line : Bytes} {width : Nat} (hbad : isBits line = false ∨ line.length % width ≠ 0) :
    Computes inp w (bwtDecBits width line) [] (.error .bwtBadBits) := by
  rw [bwtDecBits, if_pos hbad]
  exact (Computes.raise _).bind_raise

section
variable {width : Nat} {is : List Nat}

/-- A spelled bit-string comes to the test on its number of indices. -/
theorem computes_bwtDecBits_of_indices (hpos : 0 < width) {r : Except Cause (Unit × Work)}
    (h : Computes inp { w with bwt := { w.bwt with n := is.length } } (do
      if is.length > Config.BLOCK then raise .bwtBadBits
      modify (State.onBwt (fun h => { h with mtf := h.alpha, row := [] }))
      forRange 0 is.length fun p => mtfDecIndex (val (((mtfBits width is).drop (p * width)).take width))) [] r) :
    Computes inp w (bwtDecBits width (mtfBits width is)) [] r := by
  have hcount : (mtfBits width is).length / width = is.length := by rw [length_mtfBits, Nat.mul_div_cancel _ hpos]
  have hgood : ¬ (isBits (mtfBits width is) = false ∨ (mtfBits width is).length % width ≠ 0) := by
    simp [isBits_mtfBits]
  rw [bwtDecBits, if_neg hgood]
  refine Computes.onBwt_bind (fun h => { h with n := (mtfBits width is).length / width }) ?_
  rw [hcount]
  exact h

theorem computes_bwtDecBits_long (hpos : 0 < width) (hlen : 1000 < is.length) :
    Computes inp w (bwtDecBits width (mtfBits width is)) [] (.error .bwtBadBits) := by
  refine computes_bwtDecBits_of_indices hpos ?_
  rw [if_pos hlen]
  exact (Computes.raise _).bind_raise

theorem computes_bwtDecBits_of_short (hpos : 0 < width) (hlen : is.length ≤ 1000) {r : Except Cause (Unit × Work)}
    (h : Computes inp { w with bwt := { w.bwt with n := is.length, mtf := w.bwt.alpha, row := [] } } (forRange 0 is.length
      fun p => mtfDecIndex (val (((mtfBits width is).drop (p * width)).take width))) [] r) :
    Computes inp w (bwtDecBits width (mtfBits width is)) [] r := by
  refine computes_bwtDecBits_of_indices hpos ?_
  rw [if_neg (Nat.not_lt.mpr hlen)]
  exact Computes.onBwt_bind (fun h => { h with mtf := h.alpha, row := [] }) h

theorem computes_mtfDecIndex_bad {i : Nat} (hi : w.bwt.alpha.length ≤ i) :
    Computes inp w (mtfDecIndex i) [] (.error .bwtBadIndex) := by
  refine .get_bind fun s _ hs => ?_
  simp only [hs]
  rw [if_pos hi]
  exact (Computes.raise _).bind_raise

theorem computes_mtfDecIndex_good {i : Nat} (hi : i < w.bwt.alpha.length) :
    Computes inp w (mtfDecIndex i) [] (.ok ((), { w with bwt := addIndices [i] w.bwt })) := .of_eq fun s _ _ hw => by
  subst hw
  exact mtfDecIndex_eq hi

/-- An index outside the alphabet ends the decoding, whatever is before it (43_bwt.md R201). -/
theorem computes_mtfIndices_bad {line : Bytes} {k : Nat} (hdrop : line.drop (k * width) = mtfBits width is)
    (hwidth : ∀ i ∈ is, i < 2 ^ width) (hbad : ∃ i ∈ is, w.bwt.alpha.length ≤ i) :
    Computes inp w (forRange k is.length fun p => mtfDecIndex (val ((line.drop (p * width)).take width))) []
      (.error .bwtBadIndex) := by
  induction is generalizing w k with
  | nil => exact absurd hbad (by simp)
  | cons i is ih =>
    obtain ⟨hi, hwidth⟩ := List.forall_mem_cons.mp hwidth
    rw [mtfBits_cons] at hdrop
    have hread : val ((line.drop (k * width)).take width) = i := by
      rw [hdrop, List.take_left' (length_bin ..), val_bin hi]
    have hdrop' : line.drop ((k + 1) * width) = mtfBits width is := by
      rw [Nat.succ_mul, ← List.drop_drop, hdrop, List.drop_left' (length_bin ..)]
    rw [List.length_cons, forRange_succ, hread]
    by_cases hlt : i < w.bwt.alpha.length
    · have hlater : ∃ j ∈ is, w.bwt.alpha.length ≤ j := by
        obtain ⟨j, hj, hle⟩ := hbad
        obtain rfl | hj := List.mem_cons.mp hj
        · exact absurd hlt (Nat.not_lt.mpr hle)
        · exact ⟨j, hj, hle⟩
      exact (computes_mtfDecIndex_good hlt).bind_silent (ih hdrop' hwidth hlater)
    · exact (computes_mtfDecIndex_bad (Nat.not_lt.mp hlt)).bind_raise

theorem computes_bwtDecBits_badIndex (hpos : 0 < width) (hlen : is.length ≤ 1000) (hwidth : ∀ i ∈ is, i < 2 ^ width)
    (hbad : ∃ i ∈ is, w.bwt.alpha.length ≤ i) :
    Computes inp w (bwtDecBits width (mtfBits width is)) [] (.error .bwtBadIndex) :=
  computes_bwtDecBits_of_short hpos hlen (computes_mtfIndices_bad (by simp) hwidth hbad)

theorem computes_bwtDecBits (hpos : 0 < width) (hlen : is.length ≤ 1000)
    (his : ∀ i ∈ is, i < w.bwt.alpha.length ∧ i < 2 ^ width) :
    Computes inp w (bwtDecBits width (mtfBits width is)) [] (.ok ((), { w with bwt := setIndices is w.bwt })) :=
  computes_bwtDecBits_of_short hpos hlen (.of_eq fun s _ _ hw => by
    rw [forRange_mtfDecIndex_eq (by simp) (by rw [hw]; exact his), State.onBwt, hw]
    rfl)

end

/-! ### The read-out (43_bwt.md R202 to R204) -/

theorem computes_bwtReadOut (count p : Nat) :
    Computes inp w (bwtReadOut count p) ((visits w.bwt.next count p).map (symAt w.bwt.row)) (.ok ((), w)) := by
  induction count generalizing p with
  | zero => exact .pure ()
  | succ count ih =>
    rw [bwtReadOut_succ]
    refine .get_bind fun s _ hs => ?_
    rw [hs]
    exact (Computes.emit _).bind (ih _)

theorem computes_bwtInvert (hn : w.bwt.n = w.bwt.row.length) : Computes inp w bwtInvert (inverseRow w.bwt.row w.bwt.key)
    (.ok ((), { w with bwt := inverted w.bwt })) := by
  have hread := computes_bwtReadOut (inp := inp) (w := { w with bwt := inverted w.bwt }) w.bwt.row.length
    ((nextPointers w.bwt.row).2.getD w.bwt.key 0)
  simp only [inverted_row, inverted_next] at hread
  refine (Computes.onBwt_bind inverted (f := fun _ => bwtReadOut w.bwt.row.length
    ((nextPointers w.bwt.row).2.getD w.bwt.key 0)) hread).congr fun s _ _ hs => ?_
  rw [bwtInvert_eq_readOut, hs, hn]
  rfl

/-! ### One block (43_bwt.md R206) -/

theorem computes_bwtDecParsed_badKey (hn : w.bwt.n ≠ 0) (hkey : w.bwt.n ≤ w.bwt.key) :
    Computes inp w bwtDecParsed [] (.error .bwtBadKey) := by
  refine .get_bind fun s _ hs => ?_
  rw [hs, if_pos hn, if_pos hkey]
  exact (Computes.raise _).bind_raise

theorem computes_bwtDecParsed {b : BwtBlock} (hb : b.valid = true) {h : BwtWork} (hw : w.bwt = parsed b h) :
    ∃ h', Computes inp w bwtDecParsed b.decoded (.ok ((), { w with bwt := h' })) := by
  obtain ⟨-, -, -, -, -, hnil | hkey⟩ := (valid_iff b).mp hb
  · have hdecoded : b.decoded = [] := List.length_eq_zero_iff.mp (by rw [length_decoded, hnil, List.length_nil])
    rw [hdecoded]
    refine ⟨w.bwt, .of_eq fun s _ _ hs => ?_⟩
    subst hs
    exact bwtDecParsed_of_nil (by rw [hw, parsed, hnil]; rfl)
  · have hinvert := computes_bwtInvert (inp := inp) (w := w) (by rw [hw]; exact (length_mtfRow ..).symm)
    have hdecoded : inverseRow w.bwt.row w.bwt.key = b.decoded := by rw [hw]; rfl
    rw [hdecoded] at hinvert
    refine ⟨_, hinvert.congr fun s _ _ hs => ?_⟩
    subst hs
    rw [bwtDecParsed_of_key_lt (by rw [hw]; exact hkey)]

/-- The text of a block without its last `LF`. -/
def blockBody (b : BwtBlock) : Bytes :=
  alphaText b.alpha ++ delimLine ++ (b.num ++ LF :: mtfBits (codeWidth b.alpha.length) b.indices)

theorem text_eq_blockBody (b : BwtBlock) : b.text = blockBody b ++ [LF] := by
  simp [BwtBlock.text, bwtBlockText, blockBody]

/-- A block behind its alphabet. -/
theorem exists_after_alphabet {alpha more : Bytes} (hpos : 1 ≤ alpha.length) (hlen : alpha.length ≤ 256)
    (hdrop : inp.drop w.sc = alphaText alpha ++ delimLine ++ more) :
    ∃ w', w'.bwt = setAlpha alpha w.bwt ∧ inp.drop w'.sc = more ∧ ∀ (bs : Bytes) (r : Except Cause (Unit × Work)),
      Computes inp w' (do bwtParseKey; bwtParseBits; bwtDecParsed) bs r → Computes inp w bwtDecBlock bs r :=
  ⟨{ w with sc := w.sc + (alphaText alpha ++ delimLine).length, bwt := setAlpha alpha w.bwt }, rfl,
    by rw [← List.drop_drop, hdrop, List.drop_left], fun _ _ h => (computes_bwtParseAlphabet hpos hlen hdrop).bind_silent h⟩

/-- A block behind its key line. -/
theorem exists_after_key {alpha num more : Bytes} (hpos : 1 ≤ alpha.length) (hlen : alpha.length ≤ 256)
    (hnum : isNumeral num = true) (hdrop : inp.drop w.sc = alphaText alpha ++ delimLine ++ (num ++ LF :: more)) :
    ∃ w', w'.bwt = setKey (numVal num) (setAlpha alpha w.bwt) ∧ inp.drop w'.sc = more ∧
      ∀ (bs : Bytes) (r : Except Cause (Unit × Work)),
        Computes inp w' (do bwtParseBits; bwtDecParsed) bs r → Computes inp w bwtDecBlock bs r := by
  obtain ⟨w₁, hw₁, hdrop₁, hgo⟩ := exists_after_alphabet hpos hlen hdrop
  refine ⟨{ w₁ with sc := w₁.sc + num.length + 1, bwt := setKey (numVal num) w₁.bwt }, congrArg (setKey _) hw₁, ?_,
    fun bs r h => hgo bs r ((computes_bwtParseKey hdrop₁ hnum).bind_silent h)⟩
  simp only
  rw [Nat.add_assoc, ← List.drop_drop, hdrop₁, ← List.drop_drop, List.drop_left]
  rfl

/-- The fields of a block but its indices pass the checks, and where its text without the last `LF` is in the source. -/
structure BlockAt (inp : Bytes) (a : Nat) (b : BwtBlock) (tail : Bytes) : Prop where
  drop_eq : inp.drop a = blockBody b ++ tail
  ends : tail = [] ∨ tail.head? = some LF
  pos : 1 ≤ b.alpha.length
  len : b.alpha.length ≤ 256
  num : isNumeral b.num = true

section
variable {b : BwtBlock} {tail : Bytes}

/-- A block behind its bit-string's line. -/
theorem BlockAt.exists_after_line (h : BlockAt inp w.sc b tail) :
    ∃ w', w'.bwt = setKey b.key (setAlpha b.alpha w.bwt) ∧ inp.drop w'.sc = tail.drop 1 ∧
      (∀ c, Computes inp w' (bwtDecBits (codeWidth b.alpha.length) (mtfBits (codeWidth b.alpha.length) b.indices)) []
        (.error c) → Computes inp w bwtDecBlock [] (.error c)) ∧
      ∀ (w'' : Work) (bs : Bytes) (r : Except Cause (Unit × Work)),
        Computes inp w' (bwtDecBits (codeWidth b.alpha.length) (mtfBits (codeWidth b.alpha.length) b.indices)) []
          (.ok ((), w'')) → Computes inp w'' bwtDecParsed bs r → Computes inp w bwtDecBlock bs r := by
  obtain ⟨w', hw', hdrop, hgo⟩ := exists_after_key (more := mtfBits (codeWidth b.alpha.length) b.indices ++ tail)
    h.pos h.len h.num (by rw [h.drop_eq, blockBody]; simp only [List.append_assoc, List.cons_append])
  obtain ⟨nxt, hnxt, hread⟩ := computes_bwtParseBits_of_line
    ⟨hdrop, LF_notMem_of_isBits (isBits_mtfBits ..), h.ends⟩
  have hwidth : w'.bwt.w = codeWidth b.alpha.length := by rw [hw']; rfl
  rw [hwidth] at hread
  exact ⟨{ w' with sc := nxt }, hw', hnxt, fun c hbits => hgo _ _ (hread _ hbits).bind_raise,
    fun w'' bs r hbits hparsed => hgo bs r ((hread _ hbits).bind_silent hparsed)⟩

/-- Where the indices fault, the block does. -/
theorem BlockAt.computes_fault (h : BlockAt inp w.sc b tail) {c : Cause}
    (hbits : ∀ w' : Work, w'.bwt.alpha = b.alpha → Computes inp w'
      (bwtDecBits (codeWidth b.alpha.length) (mtfBits (codeWidth b.alpha.length) b.indices)) [] (.error c)) :
    Computes inp w bwtDecBlock [] (.error c) := by
  obtain ⟨w', hw', -, hfault, -⟩ := h.exists_after_line
  exact hfault c (hbits w' (by rw [hw']; rfl))

/-- Where the indices are good, what is parsed comes to the test on the key (43_bwt.md R206). -/
theorem BlockAt.exists_after_indices (h : BlockAt inp w.sc b tail) (hlen : b.indices.length ≤ 1000)
    (his : ∀ i ∈ b.indices, i < b.alpha.length) :
    ∃ w', w'.bwt = parsed b w.bwt ∧ inp.drop w'.sc = tail.drop 1 ∧ ∀ (bs : Bytes) (r : Except Cause (Unit × Work)),
      Computes inp w' bwtDecParsed bs r → Computes inp w bwtDecBlock bs r := by
  obtain ⟨w', hw', hnxt, -, hgo⟩ := h.exists_after_line
  have halpha : w'.bwt.alpha = b.alpha := by rw [hw']; rfl
  have hbits := computes_bwtDecBits (inp := inp) (w := w') (codeWidth_pos b.alpha.length) hlen fun i hi => by
    rw [halpha]
    exact ⟨his i hi, lt_two_pow_codeWidth (his i hi)⟩
  exact ⟨{ w' with bwt := setIndices b.indices w'.bwt }, congrArg (setIndices b.indices) hw', hnxt, fun bs r hparsed => hgo _ bs r hbits hparsed⟩

/-- A good block is decoded to the bytes it stands for (43_bwt.md R206). -/
theorem computes_bwtDecBlock (hb : b.valid = true) (hdrop : inp.drop w.sc = blockBody b ++ tail)
    (htail : tail = [] ∨ tail.head? = some LF) :
    ∃ w', Computes inp w bwtDecBlock b.decoded (.ok ((), w')) ∧ inp.drop w'.sc = tail.drop 1 := by
  obtain ⟨hpos, halpha, hnum, hlen, his, -⟩ := (valid_iff b).mp hb
  obtain ⟨w', hw', hnxt, hgo⟩ := BlockAt.exists_after_indices ⟨hdrop, htail, hpos, halpha, hnum⟩ hlen his
  obtain ⟨h', hparsed⟩ := computes_bwtDecParsed hb hw'
  exact ⟨_, hgo _ _ hparsed, hnxt⟩

/-- A block with good indices but a key that is no row position (43_bwt.md R206). -/
theorem BlockAt.computes_badKey (h : BlockAt inp w.sc b tail) (hlen : b.indices.length ≤ 1000)
    (his : ∀ i ∈ b.indices, i < b.alpha.length) (hne : b.indices ≠ []) (hkey : b.indices.length ≤ b.key) :
    Computes inp w bwtDecBlock [] (.error .bwtBadKey) := by
  obtain ⟨w', hw', -, hgo⟩ := h.exists_after_indices hlen his
  refine hgo _ _ (computes_bwtDecParsed_badKey ?_ ?_)
  · rw [hw']
    exact (List.length_pos_of_ne_nil hne).ne'
  · rw [hw']
    exact hkey

/-! ### The command -/

theorem readsItem_text (hb : b.valid = true) : ReadsItem inp bwtDecBlock b.text b.decoded := by
  refine ⟨by simp [text_eq_blockBody], fun w more hdrop => ?_⟩
  rw [text_eq_blockBody, List.append_assoc] at hdrop
  obtain ⟨w', hblock, hnext⟩ := computes_bwtDecBlock hb hdrop (.inr rfl)
  exact ⟨w', hblock, hnext⟩

end

/-- `BWT.DEC` on good blocks and what follows them. -/
theorem yields_bwtDecRule_after {blocks : List BwtBlock} (hvalid : ∀ b ∈ blocks, b.valid = true) {rest bs : Bytes}
    {cause : Option Cause} (hinput : inp = blocks.flatMap BwtBlock.text ++ rest)
    (hrest : ∀ (k : Nat) (w : Work), rest.length ≤ k → inp.drop w.sc = rest →
      Yields inp w (sourceLoop bwtDecBlock k) bs cause) :
    Yields inp Work.clear bwtDecRule (blocks.flatMap BwtBlock.decoded ++ bs) cause := by
  have h := yields_sourceLoop (fun b hb => readsItem_text (hvalid b hb)) hinput hrest
  refine (Computes.work (fun w => { w with sc := 0 })).yields_silent (h.get_bind fun s hs _ => ?_)
  rw [← input_length, hs, bwtDecBlocks_eq_sourceLoop]

/-- `BWT.DEC` faults where the block behind good ones does. -/
theorem yields_bwtDecRule_fault {blocks : List BwtBlock} (hvalid : ∀ b ∈ blocks, b.valid = true) {rest : Bytes} {c : Cause}
    (hinput : inp = blocks.flatMap BwtBlock.text ++ rest) (hne : rest ≠ [])
    (hblock : ∀ w : Work, At inp w rest → Computes inp w bwtDecBlock [] (.error c)) :
    Yields inp Work.clear bwtDecRule (blocks.flatMap BwtBlock.decoded) (some c) := by
  rw [← List.append_nil (blocks.flatMap BwtBlock.decoded)]
  exact yields_bwtDecRule_after hvalid hinput fun k w hk hdrop =>
    yields_sourceLoop_of_more hne hk hdrop fun k => (hblock w (at_of_drop hdrop hne)).bind_raise.yields_raise

end

/-- A text that is good blocks but for their last `LF` ends with a block without it. -/
theorem exists_last_block {text : Bytes} {bs : List BwtBlock} (h : text ++ [LF] = bs.flatMap BwtBlock.text) :
    ∃ init last, bs = init ++ [last] ∧ text = init.flatMap BwtBlock.text ++ blockBody last := by
  rcases List.eq_nil_or_concat' bs with rfl | ⟨init, last, rfl⟩
  · simp at h
  · refine ⟨init, last, rfl, List.append_cancel_right (bs := [LF]) ?_⟩
    rw [h, List.flatMap_append, List.flatMap_singleton, text_eq_blockBody, List.append_assoc]

/-- Settles O58: the blocks in order, the last one apart where its last `LF` is missing. -/
theorem bwtDecDecodesEveryBlock : Obligations.BwtDecDecodesEveryBlock := by
  unfold Obligations.BwtDecDecodesEveryBlock
  rintro s bs hs (hinput | hinput) hvalid room
  · exact bwtDec_endsOk hs hinput hvalid room
  · obtain ⟨init, last, rfl, htext⟩ := exists_last_block hinput
    obtain ⟨hinit, hlast⟩ := List.forall_mem_append.mp hvalid
    rw [List.flatMap_append, List.flatMap_singleton] at room ⊢
    refine ends_of_yields (i := .bwtDec) (cause := none) (yields_bwtDecRule_after hinit htext fun k w hk hdrop => ?_) hs room
    obtain ⟨w', hblock, hend⟩ := computes_bwtDecBlock (tail := []) (hlast last (List.mem_singleton_self _))
      (hdrop.trans (List.append_nil _).symm) (.inl rfl)
    refine yields_sourceLoop_of_more (by simp [blockBody]) hk hdrop fun k => ?_
    rw [← List.append_nil last.decoded]
    exact hblock.yields (yields_sourceLoop_at_end k hend)

/-- A block with no letters or too many (43_bwt.md R199). -/
theorem computes_bwtDecBlock_badAlphabet {inp : Bytes} {w : Work} {b : BwtBlock} {tail : Bytes}
    (hw : At inp w (blockBody b ++ tail)) (hbad : b.alpha = [] ∨ 256 < b.alpha.length) :
    Computes inp w bwtDecBlock [] (.error .bwtBadAlphabet) := by
  rw [blockBody, List.append_assoc, List.append_assoc] at hw
  obtain hnil | hlong := hbad
  · rw [hnil] at hw
    exact (computes_bwtParseAlphabet_empty hw).bind_raise
  · exact (computes_bwtParseAlphabet_long hw hlong).bind_raise

/-- A block written as its fields, its last `LF` there or not, is its body and what ends it. -/
theorem exists_tail_of_text {inp front : Bytes} {b : BwtBlock} {more : Bytes}
    (h : inp = front ++ b.text ++ more ∨ inp ++ [LF] = front ++ b.text) :
    ∃ tail : Bytes, (tail = [] ∨ tail.head? = some LF) ∧ inp = front ++ (blockBody b ++ tail) := by
  obtain h | h := h
  · exact ⟨LF :: more, .inr rfl, by rw [h, text_eq_blockBody]; simp⟩
  · refine ⟨[], .inl rfl, List.append_cancel_right (bs := [LF]) ?_⟩
    rw [h, text_eq_blockBody, List.append_nil, List.append_assoc]

/-- A block written as its fields faults at the first check it does not pass (43_bwt.md R199 to R201, R206). -/
theorem exists_endsFault_of_fields {inp : Bytes} {s : State} {b : BwtBlock} {tail out : Bytes}
    (hblock : ∀ {c : Cause}, (∀ w, At inp w (blockBody b ++ tail) → Computes inp w bwtDecBlock [] (.error c)) →
      ∃ t, exec .bwtDec s = .next t ∧ EndsFault .bwtDec s t c out)
    (htail : tail = [] ∨ tail.head? = some LF) (hnum : isNumeral b.num = true)
    (hwidth : ∀ i ∈ b.indices, i < 2 ^ codeWidth b.alpha.length) :
    ∃ t, exec .bwtDec s = .next t ∧
      (if b.alpha = [] ∨ 256 < b.alpha.length then EndsFault .bwtDec s t .bwtBadAlphabet out
      else if 1000 < b.indices.length then EndsFault .bwtDec s t .bwtBadBits out
      else if ∃ i ∈ b.indices, b.alpha.length ≤ i then EndsFault .bwtDec s t .bwtBadIndex out
      else b.indices ≠ [] → b.indices.length ≤ b.key → EndsFault .bwtDec s t .bwtBadKey out) := by
  by_cases halpha : b.alpha = [] ∨ 256 < b.alpha.length
  · simp only [if_pos halpha]
    exact hblock fun w hw => computes_bwtDecBlock_badAlphabet hw halpha
  obtain ⟨hne, hlen⟩ := not_or.mp halpha
  have hat : ∀ w, At inp w (blockBody b ++ tail) → BlockAt inp w.sc b tail := fun w hw =>
    ⟨hw.2, htail, List.length_pos_of_ne_nil hne, Nat.not_lt.mp hlen, hnum⟩
  by_cases hlong : 1000 < b.indices.length
  · simp only [if_neg halpha, if_pos hlong]
    exact hblock fun w hw => (hat w hw).computes_fault fun _ _ => computes_bwtDecBits_long (codeWidth_pos _) hlong
  by_cases hbad : ∃ i ∈ b.indices, b.alpha.length ≤ i
  · simp only [if_neg halpha, if_neg hlong, if_pos hbad]
    exact hblock fun w hw => (hat w hw).computes_fault fun w' hw' =>
      computes_bwtDecBits_badIndex (codeWidth_pos _) (Nat.not_lt.mp hlong) hwidth (hw' ▸ hbad)
  have his : ∀ i ∈ b.indices, i < b.alpha.length := fun i hi => Nat.not_le.mp fun hle => hbad ⟨i, hi, hle⟩
  simp only [if_neg halpha, if_neg hlong, if_neg hbad]
  by_cases hkey : b.indices ≠ [] ∧ b.indices.length ≤ b.key
  · obtain ⟨t, hrun, ht⟩ := hblock fun w hw =>
      (hat w hw).computes_badKey (Nat.not_lt.mp hlong) his hkey.1 hkey.2
    exact ⟨t, hrun, fun _ _ => ht⟩
  · exact ⟨_, exec_eq .bwtDec s, fun hne hle => absurd ⟨hne, hle⟩ hkey⟩

/-- Settles O59: behind the good blocks the bad one stops at the first check it does not pass. -/
theorem bwtDecFaults : Obligations.BwtDecFaults := by
  unfold Obligations.BwtDecFaults
  intro s bs hs hvalid room
  have hfault : ∀ {c : Cause} {rest : Bytes}, input s = bs.flatMap BwtBlock.text ++ rest → rest ≠ [] →
      (∀ w : Work, At (input s) w rest → Computes (input s) w bwtDecBlock [] (.error c)) →
      ∃ t, exec .bwtDec s = .next t ∧ EndsFault .bwtDec s t c (bs.flatMap BwtBlock.decoded) := fun hinput hne h =>
    ends_of_yields (i := .bwtDec) (cause := some _) (yields_bwtDecRule_fault hvalid hinput hne h) hs room
  refine ⟨fun alpha after hinput hne hdelim hafter => ?_, fun alpha num rest hinput hpos hlen hline hrest => ?_,
    fun alpha num line tail hinput hpos hlen hnum hline htail hbad => ?_, fun b more hinput hnum hwidth => ?_⟩
  · rw [List.append_assoc] at hinput
    refine hfault hinput ?_ fun w hw => ?_
    · obtain hne | hne := hne
      · refine List.append_ne_nil_of_left_ne_nil (List.ne_nil_of_length_pos ?_) _
        have := List.length_pos_of_ne_nil hne
        rw [length_alphaText]
        omega
      · exact List.append_ne_nil_of_right_ne_nil _ hne
    · by_cases hlen : alpha.length ≤ 256
      · exact (computes_bwtParseAlphabet_misspelled hw hlen hdelim hafter).bind_raise
      · exact (computes_bwtParseAlphabet_long hw (Nat.not_le.mp hlen)).bind_raise
  · refine hfault (rest := alphaText alpha ++ delimLine ++ (num ++ rest)) (by rw [hinput]; simp only [List.append_assoc])
      (by simp [delimLine]) fun w hw => ?_
    obtain ⟨w', -, hdrop, hgo⟩ := exists_after_alphabet hpos hlen hw.2
    exact hgo _ _ (computes_bwtParseKey_fault hdrop hline hrest).bind_raise
  · refine hfault (rest := alphaText alpha ++ delimLine ++ (num ++ LF :: (line ++ tail)))
      (by rw [hinput]; simp only [List.append_assoc, List.cons_append, List.nil_append]) (by simp [delimLine]) fun w hw => ?_
    obtain ⟨w', hw', hdrop, hgo⟩ := exists_after_key hpos hlen hnum hw.2
    obtain ⟨nxt, -, hread⟩ := computes_bwtParseBits_of_line ⟨hdrop, hline, htail⟩
    have halpha : w'.bwt.w = codeWidth alpha.length := by rw [hw']; rfl
    exact hgo _ _ (hread _ (computes_bwtDecBits_misspelled (halpha ▸ hbad))).bind_raise
  · obtain ⟨tail, htail, hinput⟩ := exists_tail_of_text hinput
    exact exists_endsFault_of_fields (hfault hinput (by simp [blockBody, delimLine])) htail hnum hwidth

end Sys2Proof.Bwt
end

section
/-! An error response to the first SRC read (20_memory.md R54): every command comes to a read before it writes. -/

namespace Sys2Proof.Machine

open Sys2Proof Sys2Proof.Safety Sys2Proof.Artifact

/-- With `n` bytes of input, from the working state `w`, the first thing `m` does with a port is a read: where that gets an
error response, `m` stops with it. -/
def ReadsFirst {α : Type} (n : Nat) (w : Work) (m : Cmd α) : Prop :=
  ∀ (s : State) (q : Answers), s.srcAnswers = (0, .err) :: q → s.srcLen.toNat = n → s.work = w →
    ∃ w', m s = .error (.fault .srcRead) { s with work := w', srcAnswers := q }

section
variable {α β : Type} {n : Nat} {w : Work} {m : Cmd α}

/-! ### Sequences -/

theorem ReadsFirst.bind (h : ReadsFirst n w m) (f : α → Cmd β) : ReadsFirst n w (m >>= f) := fun s q hs hn hw => by
  obtain ⟨w', hrun⟩ := h s q hs hn hw
  exact ⟨w', cmd_bind_error hrun⟩

theorem ReadsFirst.get_bind {f : State → Cmd β} (h : ∀ s : State, s.srcLen.toNat = n → s.work = w → ReadsFirst n w (f s)) :
    ReadsFirst n w (do let s ← get; f s) := fun s q hs hn hw => by
  rw [cmd_bind_ok (cmd_get s)]
  exact h s hn hw s q hs hn hw

theorem ReadsFirst.modify_bind (g : Work → Work) {f : Unit → Cmd β} (h : ReadsFirst n (g w) (f ())) :
    ReadsFirst n w ((modify fun s => { s with work := g s.work }) >>= f) := fun s q hs hn hw => by
  rw [cmd_bind_ok (cmd_modify _ s)]
  exact h { s with work := g s.work } q hs hn (congrArg g hw)

theorem readsFirst_srcByte (i : Nat) : ReadsFirst n w (srcByte i) := fun s q hs _ _ => ⟨s.work, by rw [srcByte, hs]; rfl⟩

/-! ### The helpers -/

theorem readsFirst_bytesIn {count : Nat} (hpos : 0 < count) (a : Nat) : ReadsFirst n w (bytesIn count a) := by
  obtain ⟨k, rfl⟩ := Nat.exists_eq_succ_of_ne_zero hpos.ne'
  exact (readsFirst_srcByte a).bind _

theorem readsFirst_findLFIn {count : Nat} (hpos : 0 < count) (a : Nat) : ReadsFirst n w (findLFIn count a) := by
  obtain ⟨k, rfl⟩ := Nat.exists_eq_succ_of_ne_zero hpos.ne'
  exact (readsFirst_srcByte a).bind _

theorem readsFirst_findLF {a : Nat} (ha : a < n) : ReadsFirst n w (findLF a) :=
  .get_bind fun s hn _ => readsFirst_findLFIn (by omega) a

theorem readsFirst_normLen (hn : 0 < n) : ReadsFirst n w normLen := by
  refine .get_bind fun s hs _ => ?_
  simp only [hs]
  rw [if_neg hn.ne']
  exact (readsFirst_srcByte _).bind _

/-! ### The loops -/

/-- The delimiter test reads where three bytes are left; else the entry comes first. -/
theorem readsFirst_entryLoop {entry : Cmd Unit} (h : ReadsFirst n w entry) (k : Nat) :
    ReadsFirst n w (entryLoop entry (k + 1)) := fun s q hs hn hw => by
  by_cases hroom : s.work.sc + 3 ≤ s.srcLen.toNat
  · have hread : ReadsFirst n w (matchAt s.work.sc delimLine) := (readsFirst_srcByte _).bind _
    have hdelim : atDelim s = matchAt s.work.sc delimLine s := by
      rw [atDelim, cmd_bind_ok (cmd_get s), if_pos hroom]
    obtain ⟨w', hrun⟩ := hread s q hs hn hw
    exact ⟨w', cmd_bind_error (hdelim.trans hrun)⟩
  · have hdelim : atDelim s = .ok false s := by rw [atDelim, cmd_bind_ok (cmd_get s), if_neg hroom, cmd_pure]
    rw [entryLoop, cmd_bind_ok hdelim]
    exact h.bind _ s q hs hn hw

theorem readsFirst_sourceLoop {body : Cmd Unit} (h : ReadsFirst n w body) (hsc : w.sc < n) :
    ReadsFirst n w (sourceLoop body n) := by
  obtain ⟨k, hk⟩ := Nat.exists_eq_succ_of_ne_zero (Nat.ne_zero_of_lt hsc)
  rw [show sourceLoop body n = sourceLoop body (k + 1) by rw [hk], sourceLoop]
  refine .get_bind fun s hn hw => ?_
  rw [hn, hw, if_pos hsc]
  exact h.bind _

theorem readsFirst_lineEntry (hsc : w.sc < n) (noDelim : Cause) (check : Byte → Bytes → Nat → Cmd Unit) :
    ReadsFirst n w (lineEntry noDelim check) := by
  refine .get_bind fun s hn hw => ?_
  simp only [hn, hw]
  rw [if_neg hsc.ne]
  exact (readsFirst_srcByte _).bind _

/-! ### The commands -/

theorem readsFirst_bwtParseLetter (hsc : w.sc + 1 < n) : ReadsFirst n w bwtParseLetter := by
  refine .get_bind fun s hn hw => ?_
  simp only [hn, hw]
  rw [if_neg (Nat.not_le.mpr hsc)]
  exact (readsFirst_srcByte _).bind _

theorem readsFirst_hufDecRule (hn : 0 < n) : ReadsFirst n w hufDecRule := by
  refine .modify_bind (fun w => { w with sc := 0 }) (.modify_bind (fun w => { w with huf := { w.huf with dtbl := [] } })
    (.get_bind fun s _ _ => ReadsFirst.bind ?_ _))
  rw [hufParseTable_eq_entryLoop]
  exact readsFirst_entryLoop (readsFirst_lineEntry hn _ _) _

theorem readsFirst_ariDecRule (hn : 0 < n) : ReadsFirst n w ariDecRule := by
  refine .modify_bind (fun w => { w with sc := 0 }) (.modify_bind (fun w => { w with ari := { w.ari with cum := [] } })
    (.get_bind fun s _ _ => ReadsFirst.bind ?_ _))
  rw [ariParseTable_eq_entryLoop]
  exact readsFirst_entryLoop (readsFirst_lineEntry hn _ _) _

theorem readsFirst_bwtEncRule (hn : 0 < n) : ReadsFirst n w bwtEncRule := by
  refine .get_bind fun s hs _ => ?_
  obtain ⟨k, hk⟩ := Nat.exists_eq_succ_of_ne_zero (n := (n + Config.BLOCK - 1) / Config.BLOCK)
    (by simp only [Config.BLOCK]; omega)
  simp only [hs]
  rw [hk, Nat.succ_eq_add_one, forRange_succ]
  exact ((readsFirst_bytesIn (by simp only [Config.BLOCK]; omega) _).bind _).bind _

theorem readsFirst_bwtDecRule (hn : 2 ≤ n) : ReadsFirst n w bwtDecRule := by
  refine .modify_bind (fun w => { w with sc := 0 }) (.get_bind fun s hs _ => ?_)
  rw [hs, bwtDecBlocks_eq_sourceLoop]
  refine readsFirst_sourceLoop (ReadsFirst.bind ?_ _) (Nat.lt_of_succ_lt hn)
  refine .modify_bind (fun w => { w with bwt := { w.bwt with alpha := [] } }) (.get_bind fun s _ _ => ReadsFirst.bind ?_ _)
  rw [bwtParseLetters_eq_entryLoop]
  exact readsFirst_entryLoop (readsFirst_bwtParseLetter hn) _

theorem readsFirst_hamDecRule (hn : 0 < n) : ReadsFirst n w hamDecRule := by
  refine .modify_bind (fun w => { w with sc := 0 }) (.get_bind fun s hs _ => ?_)
  rw [hs, hamDecLines_eq_sourceLoop]
  refine readsFirst_sourceLoop (.get_bind fun s _ hw => ?_) hn
  rw [hw]
  exact (readsFirst_findLF hn).bind _

theorem readsFirst_rule (i : Instr) (hn : 0 < n) (hbwt : i = .bwtDec → 2 ≤ n) : ReadsFirst n w (ruleOf i) :=
  match i with
  | .hufEnc | .ariEnc | .hamEnc => (readsFirst_normLen hn).bind _
  | .hufDec => readsFirst_hufDecRule hn
  | .ariDec => readsFirst_ariDecRule hn
  | .bwtEnc => readsFirst_bwtEncRule hn
  | .bwtDec => readsFirst_bwtDecRule (hbwt rfl)
  | .hamDec => readsFirst_hamDecRule hn

end

/-- Settles O22: the rule reads before it writes, so nothing is written where that read fails. -/
theorem firstReadErrorFaults : Obligations.FirstReadErrorFaults := by
  unfold Obligations.FirstReadErrorFaults
  intro i s q hsrc hpos hcap hbwt
  obtain ⟨w, hrun⟩ := readsFirst_rule (w := Work.clear) i hpos hbwt (startCommand (encode i) s) q hsrc rfl rfl
  refine ⟨faultEntry .srcRead { startCommand (encode i) s with work := w, srcAnswers := q }, ?_,
    endsFault_of_unwritten rfl, rfl⟩
  rw [exec_eq, runCommand_checked (legalWord_encode i) hcap, hrun]
  rfl

end Sys2Proof.Machine
end
